-- ==== Sys2Proof/Word.lean ====
section
/-! DEFINITION. The word types of the part: bytes, 32-bit words, 16-byte beats and their byte enables
(spec 00, "Memory"; Table 10-1), and the two clamps of spec 00, "Arithmetic". -/

namespace Sys2Proof

/-- One byte of a record. -/
abbrev Byte := BitVec 8
/-- One 32-bit word: an argument word, an address, or a count kept modulo 2^32 (R190). -/
abbrev Word := BitVec 32
/-- The 16 bytes of one beat, byte 0 in the least significant bits. -/
abbrev Beat := BitVec 128
/-- The 16 byte enables of one beat of a write, bit k for byte k. -/
abbrev Enables := BitVec 16

/-- A quantity clamped to `lo` to `hi` (spec 00, "Arithmetic"). -/
def clampNat (lo hi x : Nat) : Nat := if x < lo then lo else if hi < x then hi else x

/-- A signed quantity clamped to `lo` to `hi` (spec 00, "Arithmetic"). -/
def clampInt (lo hi x : Int) : Int := if x < lo then lo else if hi < x then hi else x

end Sys2Proof
end

