-- ==== Sys2Proof/Syntax.lean ====
section
/-! DEFINITION. The commands of the part: one constructor of `Instr` for each row of
spec/opcode_table.json, with its operands. The link's requests and responses are those of Table 10-1. -/

namespace Sys2Proof

/-- The status of one returned beat or completion (Table 10-1). -/
inductive Status where
  | okay
  | error
  deriving DecidableEq, Repr

/-- One beat of a write with its byte enables (Table 10-1). -/
structure WriteBeat where
  data : Beat
  en : Enables
  deriving DecidableEq, Repr

/-- One returned beat of a read with its status (Table 10-1). -/
structure ReadBeat where
  data : Beat
  status : Status
  deriving DecidableEq, Repr

/-- KIND and beats of a request: a read of a number of beats, or a write with its beats (Table 10-1). -/
inductive Body where
  | read (beats : Nat)
  | write (beats : List WriteBeat)
  deriving DecidableEq, Repr

/-- A pass-through request of the system-side link (Table 10-1). -/
structure Request where
  addr : Word
  tag : BitVec 4
  body : Body
  deriving DecidableEq, Repr

/-- The memory side's whole response to one request (Table 10-1). -/
inductive Response where
  | read (beats : List ReadBeat)
  | write (status : Status)
  deriving DecidableEq, Repr

/-- The commands, in the order of the table.
A host command carries the HOST_TAG and the argument words of its record (Table 12-2); a memory-side
response carries what memory returned; a command that takes a tap, or the end of an own operation,
finds its data in the state (log 2). -/
inductive Instr where
  /-- RST_N held low and released with this STRAP[2:0] (R175). -/
  | lineReset (strap : BitVec 3)
  /-- A pass-through request arrives on the system-side link (R163). -/
  | systemRequest (req : Request)
  /-- The memory-side arbiter grants the link once (R170). -/
  | arbiterDecision
  /-- One beat of a playback-tag read in the PLAYBACK window returns (R3). -/
  | playbackBeat (beat : ReadBeat)
  /-- One beat of a display-tag read in the FRAME window returns (R43). -/
  | displayBeat (beat : ReadBeat)
  /-- The response to another pass-through request returns (R159). -/
  | passThroughResponse (resp : Response)
  /-- A response owed for a request placed before a line reset returns (R175). -/
  | discardedResponse
  /-- The response to an own read returns (R172). -/
  | ownReadResponse (beats : List ReadBeat)
  /-- The completion of an own write returns (R174). -/
  | ownWriteCompletion (status : Status)
  /-- The header read of START ends (R11). -/
  | headerReadComplete
  /-- A cue fetch ends (R25). -/
  | cueFetchComplete
  /-- A line load ends (R32). -/
  | lineLoadComplete
  /-- A note fetch ends (R103). -/
  | noteFetchComplete
  /-- A page walk ends (R70). -/
  | pageWalkComplete
  /-- A glyph row fetch ends (R54). -/
  | glyphRowFetchComplete
  /-- The command-slot tap at the head of the tap lane is taken (R178). -/
  | commandSlotWrite
  /-- SETUP: section number and commit byte, then the parameter words A1 onward (R188). -/
  | setup (tag : BitVec 16) (sec commit : Byte) (words : List Word)
  /-- SET_SCORING (R93). -/
  | setScoring (tag : BitVec 16) (gate clarity latency fold pMax gMax fMax cadence : Word)
  /-- ENABLE_EVENTS (R185). -/
  | enableEvents (tag : BitVec 16) (mask : Word)
  /-- ACK (R185). -/
  | ack (tag : BitVec 16) (mask : Word)
  /-- START (R9). -/
  | start (tag : BitVec 16) (ticket bank : Word)
  /-- STOP (R14). -/
  | stop (tag : BitVec 16)
  /-- SEEK (R15). -/
  | seek (tag : BitVec 16) (ms : Word)
  /-- SET_TEMPO (R6). -/
  | setTempo (tag : BitVec 16) (value : Word)
  /-- SET_KEY (R7). -/
  | setKey (tag : BitVec 16) (value : Word)
  /-- ASSIGN (R115). -/
  | assign (tag : BitVec 16) (singer mic part : Word)
  /-- INSERT (R141). -/
  | insert (tag : BitVec 16) (song key singers priority : Word)
  /-- REMOVE (R142). -/
  | remove (tag : BitVec 16) (ticket : Word)
  /-- PROMOTE (R143). -/
  | promote (tag : BitVec 16) (ticket : Word)
  /-- OPEN (R144). -/
  | openRoom (tag : BitVec 16)
  /-- CLOSE (R144). -/
  | closeRoom (tag : BitVec 16)
  /-- CLEAR_ROOM (R183). -/
  | clearRoom (tag : BitVec 16)
  /-- FLUSH_GLYPHS (R74). -/
  | flushGlyphs (tag : BitVec 16)
  /-- The capture tap at the head of the tap lane is taken (R78). -/
  | captureWrite
  /-- The measurement of the block in hand ends (R95). -/
  | measurementEnd
  /-- The write-out's writes and its reply's placement are done (R19). -/
  | writeOutEnd
  /-- The PAGETABLE tap at the head of the tap lane is taken (R72). -/
  | pagetableWrite
  /-- The reply tap at the head of the tap lane is taken (R154). -/
  | replyRead
  /-- The next handset beat is no packet, or names a HANDSET above 15 (R128, R129). -/
  | badPacket
  /-- The next handset packet is a resend (R130). -/
  | handsetResend
  /-- The next handset packet is a new REQUEST (R134). -/
  | handsetRequest
  /-- The next handset packet is a new CANCEL (R139). -/
  | handsetCancel
  /-- The next handset packet is a new STATUS (R140). -/
  | handsetStatus
  /-- The next handset packet is new and of an unknown ACTION (R129). -/
  | badActionPacket
  /-- A result slot write has completed (R180). -/
  | resultSlotWritten
  /-- All writes of a status rewrite have completed (R186). -/
  | statusRewriteEnd
  /-- All writes of a queue image rewrite have completed (R157). -/
  | imageRewriteEnd
  /-- A reply's slot and count writes have completed (R152). -/
  | replyPlacementEnd
  deriving DecidableEq, Repr

end Sys2Proof
end

