-- ==== Sys2Proof/Decode.lean ====
section
/-! DEFINITION. The command a word spells by the table's bits. No row of spec/opcode_table.json gives bits
(every row's "fields" is empty and none has "fixed"), so no word spells a command; the decoding of the
records the host and the handsets write (R129, R188) is Machine/Operands.lean's. -/

namespace Sys2Proof

/-- The command spelt by the `nbits` low bits of `w` in the table's numbering: none, for no row has bits. -/
def decodeTableWord (_nbits _w : Nat) : Option Instr := none

end Sys2Proof
end

