-- ==== Sys2Proof/Config.lean ====
section
/-! DEFINITION. What is fixed for the model: the strap with which `State.reset` stands, and the one value
the spec leaves open, an opaque constant that no proof can evaluate. -/

namespace Sys2Proof.Config

/-- STRAP[2:0] as sampled before `State.reset` (log 5, DESIGN CHOICE: LINE_RESET samples any other). -/
def resetStrap : BitVec 3 := 0

/-- The SEQUENCE byte of a reply issued to a handset whose record holds no last sequence: R151 takes the
record's last sequence and states no value for none (log 8). A free value. -/
opaque unheardSequence : BitVec 8

end Sys2Proof.Config
end

