-- ==== Sys2Proof/Machine/State.lean ====
section
/-! DEFINITION. Every piece of state the spec gives the part, block by block, as plain data, and
`State.reset`. Default values of the fields are the values after a line reset (Tables 1-1, 2-1, 3-2, 4-1,
5-2, 6-1, 7-1, 8-1, 9-1, 10-3 and 11-1); INVENTORY.md lists each with its rule. -/

namespace Sys2Proof.Machine

/-! ## The setup record (Table 11-3) -/

/-- Base and size of one window as SETUP carries them. -/
structure WindowParam where
  base : Nat := 0
  size : Nat := 0
  deriving DecidableEq, Repr

/-- Every parameter of SETUP. The defaults are those of the pending record after a line reset (R181). -/
structure Setup where
  wPlayback : WindowParam := {}
  wFrame : WindowParam := {}
  wMic : WindowParam := {}
  wHandset : WindowParam := {}
  wReply : WindowParam := {}
  wAsset : WindowParam := {}
  wPagetable : WindowParam := {}
  wImage : WindowParam := {}
  controlTag : Nat := 0
  playbackTag : Nat := 0
  displayTag : Nat := 0
  captureTag : Nat := 0
  radioTag : Nat := 0
  rotateN : Nat := 4
  ownLimit : Nat := 8
  ownBase : Nat := 4
  retryMax : Nat := 2
  channels : Nat := 0
  aperture : Nat := 0
  width : Nat := 0
  height : Nat := 0
  stride : Nat := 0
  bandX : Nat := 0
  bandY : Nat := 0
  bandW : Nat := 0
  bandRows : Nat := 3
  stripEnable : Bool := false
  stripX : Nat := 0
  stripY : Nat := 0
  stripW : Nat := 0
  stripAdvance : Nat := 32
  digitBase : Nat := 0
  shade : Nat := 160
  wipeA : Nat := 0
  wipeB : Nat := 0
  wipeBoth : Nat := 0
  fill : Nat := 0
  stripColour : Nat := 0
  bannerColour : Nat := 0
  scrollMs : Nat := 400
  lookaheadMs : Nat := 1500
  bannerFrames : Nat := 300
  stageLeadMs : Nat := 30000
  catalogSize : Nat := 0
  limit : Nat := 3
  recentBlock : Bool := false
  dupBlock : Bool := false
  deriving DecidableEq, Repr

/-! ## Tickets and the song context -/

/-- Who asked for a song (Table 8-4). -/
inductive Source where
  | handset (h : Fin 16)
  | staff
  deriving DecidableEq, Repr

/-- A ticket's group in the queue (Table 8-4). -/
inductive TicketClass where
  | staged
  | priority
  | normal
  deriving DecidableEq, Repr

/-- The ticket record of Table 8-4. -/
structure Ticket where
  number : Nat
  source : Source
  song : Nat
  key : Int
  singers : Nat
  cls : TicketClass
  round : Nat
  arrival : Word
  deriving DecidableEq, Repr

/-- STATE of the song context (Table 1-1). -/
inductive SongState where
  | idle
  | starting
  | playing
  | seeking
  | finishing
  deriving DecidableEq, Repr

/-- FINISH_PHASE (Table 1-1). -/
inductive FinishPhase where
  | drain
  | writeOut
  | banner
  deriving DecidableEq, Repr

/-- The Song Clock Unit: the song context of Table 1-1 and BANNER_FRAMES (R1). -/
structure Scu where
  state : SongState := .idle
  phase : Option FinishPhase := none
  current : Option Ticket := none
  startTicket : Option Nat := none
  startBank : Option (Fin 2) := none
  bank : Fin 2 := 0
  length : Nat := 0
  /-- The song frame accumulator in units of 1/65,536 frame (32 integer bits, 16 fraction bits). -/
  acc : Nat := 0
  tempo : Nat := 65536
  key : Int := 0
  seeked : Bool := false
  stopped : Bool := false
  endTime : Option Nat := none
  endPending : Bool := false
  bannerCount : Nat := 0
  bannerFrames : Nat := 300
  deriving DecidableEq, Repr

/-! ## The Lyric Sequencer (Tables 2-1 and 2-3) -/

/-- A decoded cue's kind and argument (R24). -/
inductive CueKind where
  | lineIn (line : Nat)
  | bandClear
  | mark (number : Nat)
  | songEnd
  deriving DecidableEq, Repr

/-- A decoded cue record (R24). -/
structure Cue where
  time : Nat
  kind : CueKind
  deriving DecidableEq, Repr

/-- A cue of the pending cue queue with the slot its LINE_IN has claimed, if any (R31). -/
structure QueuedCue where
  cue : Cue
  slot : Option (Fin 8) := none
  deriving DecidableEq, Repr

/-- STATE of a line slot (Table 2-3). -/
inductive SlotState where
  | free
  | loading
  | loaded
  | shown
  | leaving
  deriving DecidableEq, Repr

/-- PART of a line or a note (Tables 2-3 and 12-6). -/
inductive LinePart where
  | a
  | b
  | both
  deriving DecidableEq, Repr

/-- ALIGN of a line (Table 2-3). -/
inductive Align where
  | left
  | centre
  deriving DecidableEq, Repr

/-- One glyph entry of a line. -/
structure Glyph where
  index : Nat
  advance : Nat
  deriving DecidableEq, Repr

/-- One syllable of a line, its range already clipped (R34). -/
structure Syllable where
  first : Nat
  count : Nat
  start : Nat
  duration : Nat
  deriving DecidableEq, Repr

/-- A line slot (Table 2-3). `load` names the line load in flight for the slot's present claim; `filled`
says that this claim's load has completed, so that a slot with `filled` clear is drawn empty (R32, R46). -/
structure LineSlot where
  state : SlotState := .free
  line : Nat := 0
  part : LinePart := .both
  align : Align := .left
  glyphs : List Glyph := []
  syllables : List Syllable := []
  positions : List Nat := []
  wiped : Nat := 0
  late : Bool := false
  load : Option Nat := none
  filled : Bool := false
  deriving DecidableEq, Repr

/-- The LSQ's rebuild: its target, the candidate lines and whether the rescan still runs (R40, R41). -/
structure Rescan where
  target : Nat
  candidates : List Nat := []
  scanning : Bool := true
  deriving DecidableEq, Repr

/-- The Lyric Sequencer (Table 2-1) with its two counters. -/
structure Lsq where
  cueBase : Nat := 0
  cueCount : Nat := 0
  lineBase : Nat := 0
  lineCount : Nat := 0
  cursor : Nat := 0
  held : Option Cue := none
  fetch : Option Nat := none
  queue : List QueuedCue := []
  slots : Vector LineSlot 8 := Vector.replicate 8 {}
  band : List (Fin 8) := []
  scroll : Option Nat := none
  pred : Option Nat := none
  endTaken : Bool := false
  rebuild : Option Rescan := none
  badCue : Word := 0
  lineLate : Word := 0
  deriving DecidableEq, Repr

/-! ## The Overlay Compositor (Table 3-2) -/

/-- One band entry of the latch record (R46). -/
structure BandEntry where
  top : Int
  drawnEmpty : Bool
  part : LinePart
  glyphs : List Glyph
  positions : List Nat
  wiped : Nat
  deriving DecidableEq, Repr

/-- Which field of the strip text a character belongs to (R50). -/
inductive StripField where
  | ticket
  | score
  | separator
  deriving DecidableEq, Repr

/-- One character of the strip text as its Table 3-3 offset. -/
structure StripChar where
  offset : Nat
  field : StripField
  deriving DecidableEq, Repr

/-- The latch record (R45 to R51). -/
structure LatchRecord where
  prm : Setup
  songMs : Nat
  state : SongState
  phase : Option FinishPhase
  bannerShown : Bool
  entries : List BandEntry
  text : List StripChar
  deriving DecidableEq, Repr

/-- How an appearance of a glyph is coloured: by the entry's wipe (R56) or in one colour (R51). -/
inductive Paint where
  | band (part : LinePart) (wiped : Nat)
  | strip (colour : Nat)
  deriving DecidableEq, Repr

/-- One glyph of a composition set: its row, left column, advance and the columns it is clipped to. -/
structure Appearance where
  glyph : Nat
  row : Nat
  left : Nat
  advance : Nat
  clipFrom : Nat
  clipTo : Nat
  paint : Paint
  deriving DecidableEq, Repr

/-- One pixel of a staging buffer that some appearance has covered; `order` is that appearance's place in
drawing order (R54). A pixel not listed has alpha 0. -/
structure Pixel where
  x : Nat
  colour : Nat
  alpha : Nat
  order : Nat
  deriving DecidableEq, Repr

/-- STATE of a staging buffer (Table 3-2). -/
inductive BufferState where
  | free
  | composing
  | ready
  deriving DecidableEq, Repr

/-- A staging buffer (Table 3-2, R53). `comp` names its composition, so that rows of an orphaned one are
known (R55). -/
structure StagingBuffer where
  state : BufferState := .free
  y : Option Nat := none
  discard : Bool := false
  outstanding : Nat := 0
  comp : Nat := 0
  set : List Appearance := []
  pixels : List Pixel := []
  deriving DecidableEq, Repr

/-- The treatment of a scanline (R57). -/
inductive Treatment where
  | blend (buf : Fin 3) (comp : Nat)
  | pass
  deriving DecidableEq, Repr

/-- The scanline decision (R57). -/
structure Decision where
  y : Nat
  treatment : Treatment
  deriving DecidableEq, Repr

/-- A request for one glyph row's translation and the composition that made it (R53, R68). -/
structure GlyphReq where
  va : Nat
  comp : Nat
  glyph : Nat
  row : Nat
  deriving DecidableEq, Repr

/-- The Overlay Compositor. `waiting` holds the requests it has made behind the one at the GXT's intake
(R69); `nextComp` names the next composition. -/
structure Ovc where
  latch : Option LatchRecord := none
  buffers : Vector StagingBuffer 3 := Vector.replicate 3 {}
  decision : Option Decision := none
  waiting : List GlyphReq := []
  nextComp : Nat := 1
  scanLate : Word := 0
  deriving DecidableEq, Repr

/-! ## The Glyph Translator (Table 4-1) -/

/-- One entry of the translation cache. -/
structure CacheEntry where
  page : Nat
  phys : Nat
  deriving DecidableEq, Repr

/-- A walk record in use (R68): its page, its FRESH mark, its read, and its waiters in arrival order. -/
structure Walk where
  page : Nat
  fresh : Bool
  op : Nat
  waiters : List GlyphReq
  deriving DecidableEq, Repr

/-- The Glyph Translator. The cache stands least recently used first. -/
structure Gxt where
  cache : List CacheEntry := []
  walks : Vector (Option Walk) 8 := Vector.replicate 8 none
  intake : Option GlyphReq := none
  glyphFault : Word := 0
  deriving DecidableEq, Repr

/-! ## The Voice Intake (Table 5-2) -/

/-- STATE of a half (Table 5-3). -/
inductive HalfState where
  | free
  | filling
  | queued
  | analysing
  deriving DecidableEq, Repr

/-- One half: its STATE and its decimated samples, oldest first; the fill count is their number. -/
structure Half where
  state : HalfState := .free
  samples : List Int := []
  deriving DecidableEq, Repr

/-- One microphone channel: decimator, halves and HOLD. -/
structure Channel where
  sum : Int := 0
  count : Nat := 0
  halves : Vector Half 2 := Vector.replicate 2 {}
  hold : Bool := false
  deriving DecidableEq, Repr

/-- An entry of the analysis queue (R84). -/
structure BlockEntry where
  channel : Fin 4
  half : Fin 2
  songMs : Nat
  key : Int
  ticket : Nat
  deriving DecidableEq, Repr

/-- The Voice Intake. -/
structure Vin where
  expected : Option Nat := none
  phase : Nat := 0
  channels : Vector Channel 4 := Vector.replicate 4 {}
  queue : List BlockEntry := []
  drainReported : Bool := false
  micGap : Word := 0
  blockDropped : Word := 0
  deriving DecidableEq, Repr

/-! ## The Pitch Judgement Engine (Tables 6-1 and 6-2) -/

/-- The scoring parameters of Table 6-2 with their defaults. -/
structure Scoring where
  gate : Nat := 200
  clarityMin : Nat := 160
  latencyMs : Nat := 60
  octaveFold : Bool := true
  pMax : Nat := 60
  gMax : Nat := 120
  fMax : Nat := 244
  deriving DecidableEq, Repr

/-- A decoded note (R102). -/
structure Note where
  start : Nat
  duration : Nat
  period : Nat
  part : LinePart
  weight : Nat
  deriving DecidableEq, Repr

/-- The phase of the block in hand; a judging block carries its measured period, none when UNVOICED. -/
inductive BlockPhase where
  | measuring
  | judging (period : Option Nat)
  deriving DecidableEq, Repr

/-- The block in hand (R94). -/
structure BlockInHand where
  entry : BlockEntry
  prm : Scoring
  phase : BlockPhase
  deriving DecidableEq, Repr

/-- The Pitch Judgement Engine. -/
structure Pje where
  prm : Scoring := {}
  noteBase : Nat := 0
  noteCount : Nat := 0
  cursor : Nat := 0
  front : Option Nat := none
  held : Option Note := none
  fetch : Option Nat := none
  winA : List Note := []
  winB : List Note := []
  block : Option BlockInHand := none
  rebuild : Bool := false
  endTime : Option Nat := none
  drainReported : Bool := false
  noteLate : Word := 0
  deriving DecidableEq, Repr

/-! ## The Score Unit (Table 7-1) -/

/-- PART of a singer. -/
inductive SingerPart where
  | a
  | b
  deriving DecidableEq, Repr

/-- The band of a judgement (R110). -/
inductive Band where
  | perfect
  | good
  | fair
  | miss
  deriving DecidableEq, Repr

/-- A singer's accumulators (Table 7-1). -/
structure Totals where
  earned : Nat := 0
  possible : Nat := 0
  perfect : Nat := 0
  good : Nat := 0
  fair : Nat := 0
  miss : Nat := 0
  unvoiced : Nat := 0
  streak : Nat := 0
  maxStreak : Nat := 0
  dropped : Nat := 0
  folds : Nat := 0
  lastBand : Option Band := none
  deriving DecidableEq, Repr

/-- A singer record (Table 7-1). -/
structure Singer where
  active : Bool := false
  mic : Option Nat := none
  part : Option SingerPart := none
  link : Option Nat := none
  totals : Totals := {}
  deriving DecidableEq, Repr

/-- The Score Unit. `scoreWaiting` says that the write-out still waits on its SCORE reply (R122). -/
structure Scr where
  singers : Vector Singer 4 := Vector.replicate 4 {}
  cadence : Nat := 8
  cadenceCount : Nat := 0
  writeIndex : Nat := 0
  lastResult : Word := 0
  scoreWaiting : Bool := false
  deriving DecidableEq, Repr

/-! ## The Request Queue Unit (Tables 8-1 and 9-1) -/

/-- The reason of a REFUSED reply, in the order of Table 9-2. -/
inductive RefuseReason where
  | closed
  | unknownSong
  | recent
  | duplicate
  | limit
  | queueFull
  | badRequest
  | inUse
  | notYours
  | unknownTicket
  deriving DecidableEq, Repr

/-- One entry of a POSITIONS reply. -/
structure PositionEntry where
  number : Nat
  position : Nat
  cls : TicketClass
  deriving DecidableEq, Repr

/-- One singer entry of a SCORE reply. -/
structure ScoreEntry where
  singer : Nat
  score : Nat
  deriving DecidableEq, Repr

/-- KIND and body of a reply (Table 9-2). -/
inductive ReplyBody where
  | accepted (number position : Nat)
  | held
  | refused (reason : RefuseReason)
  | cancelled (number : Nat)
  | called (number song : Nat)
  | positions (entries : List PositionEntry) (heldMark : Bool) (current : Option Nat)
  | score (number song : Nat) (entries : List ScoreEntry)
  deriving DecidableEq, Repr

/-- A reply record (R151). -/
structure Reply where
  handset : Fin 16
  seq : Byte
  body : ReplyBody
  deriving DecidableEq, Repr

/-- A request held in a pending slot (R136). -/
structure HeldRequest where
  seq : Byte
  song : Nat
  key : Int
  singers : Nat
  deriving DecidableEq, Repr

/-- A handset record (Table 8-1). -/
structure HandsetRecord where
  lastSeq : Option Byte := none
  lastReply : Option Reply := none
  lost : Bool := false
  slot : Option HeldRequest := none
  deriving DecidableEq, Repr

/-- An entry of the history list (R145). -/
structure HistoryEntry where
  song : Nat
  number : Nat
  source : Source
  deriving DecidableEq, Repr

/-- The Request Queue Unit. In `slots`, true is UNCONSUMED. -/
structure Rqu where
  queue : List Ticket := []
  handsets : Vector HandsetRecord 16 := Vector.replicate 16 {}
  history : List HistoryEntry := []
  lastNumber : Nat := 0
  arrival : Word := 0
  lastDrained : Option (Fin 16) := none
  closed : Bool := false
  badPacket : Word := 0
  replyIndex : Fin 16 := 0
  producer : Word := 0
  slots : Vector Bool 16 := Vector.replicate 16 false
  replyLost : Word := 0
  imageGen : Word := 0
  imageOp : Option Nat := none
  imageOwed : Bool := false
  deriving DecidableEq, Repr

/-! ## The Path Unit (Table 10-3) -/

/-- A window in force. -/
structure Window where
  base : Nat
  size : Nat
  deriving DecidableEq, Repr

/-- The eight windows that SETUP sets (R161). -/
structure Windows where
  playback : Option Window := none
  frame : Option Window := none
  mic : Option Window := none
  handset : Option Window := none
  reply : Option Window := none
  asset : Option Window := none
  pagetable : Option Window := none
  image : Option Window := none
  deriving DecidableEq, Repr

/-- The five tags that SETUP sets (R161). -/
structure Tags where
  control : Nat
  playback : Nat
  display : Nat
  capture : Nat
  radio : Nat
  deriving DecidableEq, Repr

/-- What a classified pass-through request acts as (Table 10-4); `plain` passes untouched. -/
inductive PassClass where
  | plain
  | commandSlot
  | playback
  | display
  | capture
  | handset
  | replyRead
  | pagetable
  deriving DecidableEq, Repr

/-- A classified pass-through request. -/
structure PassReq where
  req : Request
  cls : PassClass
  deriving DecidableEq, Repr

/-- The ten clients of own traffic (R169; the CLIENT codes of Table 12-4). -/
inductive Client where
  | glyphRow
  | pageWalk
  | cueFetch
  | lineLoad
  | noteFetch
  | headerLoad
  | statusResult
  | queueImage
  | reply
  | resultRecord
  deriving DecidableEq, Repr

/-- An own request, with the operation of its client it belongs to and its part of it. -/
structure OwnRequest where
  client : Client
  op : Nat
  part : Nat
  addr : Nat
  body : Body
  deriving DecidableEq, Repr

/-- An entry of the own-request queue with its arrival stamp (R169). -/
structure QueueEntry where
  req : OwnRequest
  arrival : Nat
  deriving DecidableEq, Repr

/-- An own read record, from first issue to final completion (R171, R172). -/
structure OwnRead where
  req : OwnRequest
  arrival : Nat
  attempts : Nat
  limit : Nat
  awaiting : Bool
  deriving DecidableEq, Repr

/-- A request placed on the memory side and not yet wholly answered: a pass-through request with the
number of beats already returned, or an own request with the tag it carries (R159). -/
inductive Placed where
  | pass (p : PassReq) (returned : Nat)
  | ownRead (arrival : Nat) (tag : Nat)
  | ownWrite (req : OwnRequest) (tag : Nat)
  deriving DecidableEq, Repr

/-- What an own operation is for. -/
inductive OpKind where
  | header
  | cue
  | line
  | note
  | walk
  | row (comp glyph row : Nat)
  | result (code : BitVec 16)
  | status
  | image
  | reply (score : Bool)
  | writeOut
  deriving DecidableEq, Repr

/-- How one read or write of an own operation stands. -/
inductive PartState where
  | waiting
  | failed
  | data (beats : List Beat)
  deriving DecidableEq, Repr

/-- An own operation of a client: all its reads or writes. -/
structure ClientOp where
  id : Nat
  kind : OpKind
  parts : List PartState
  deriving DecidableEq, Repr

/-- A tap handed to a watching block (R164). -/
structure Tap where
  cls : PassClass
  req : Request
  deriving DecidableEq, Repr

/-- A response owed to the SoC, in request order: memory's, or the part's own OKAY to a guarded write. -/
inductive SysSlot where
  | forwarded
  | guarded
  deriving DecidableEq, Repr

/-- What has been presented on the system-side link: a beat of a read, or a write completion. -/
inductive SysOut where
  | beat (b : ReadBeat)
  | completion (status : Status)
  deriving DecidableEq, Repr

/-- ADDRESS and CLIENT of the memory error record (Table 10-3). -/
structure MemoryError where
  addr : Nat
  client : Client
  deriving DecidableEq, Repr

/-- The last guard address and tag (R165). -/
structure GuardRecord where
  addr : Word
  tag : BitVec 4
  deriving DecidableEq, Repr

/-- The CONTROL window's base for STRAP[2:0] = s (R161). -/
def strapBase (s : BitVec 3) : Nat := 0x0FFFF000 + s.toNat * 0x10000000

/-- The Path Unit. `shut` is the throttle; the outstanding own reads are the own read records. -/
structure Ptu where
  controlBase : Nat := strapBase Config.resetStrap
  windows : Windows := {}
  tags : Option Tags := none
  rotateN : Nat := 4
  ownLimit : Nat := 8
  ownBase : Nat := 4
  retryMax : Nat := 2
  kept : List OwnRequest := []
  intake : List OwnRequest := []
  queue : List QueueEntry := []
  nextArrival : Nat := 0
  reads : List OwnRead := []
  shut : Bool := false
  rotation : Nat := 0
  discard : Nat := 0
  pathFault : Word := 0
  guardHit : Word := 0
  lastGuard : Option GuardRecord := none
  memError : Option MemoryError := none
  memErrorCount : Word := 0
  passQueue : List PassReq := []
  placed : List Placed := []
  taps : List Tap := []
  sysHeld : List Request := []
  sysOrder : List SysSlot := []
  sysOut : List SysOut := []
  nextOp : Nat := 0
  ops : List ClientOp := []
  ended : List ClientOp := []
  deriving DecidableEq, Repr

/-! ## The Control Unit (Table 11-1) -/

/-- CODE and HOST_TAG of a START or SEEK in progress. -/
structure InProgress where
  code : BitVec 16
  tag : BitVec 16
  deriving DecidableEq, Repr

/-- The staged ticket copy (R149). -/
structure StagedCopy where
  number : Nat
  source : Source
  song : Nat
  key : Int
  singers : Nat
  hint : Fin 2
  deriving DecidableEq, Repr

/-- The Control Unit. `setup` is the setup in force; the set-up mark says that there is one. -/
structure Ctl where
  captured : Vector Beat 4 := Vector.replicate 4 0
  /-- Submitted host commands whose work waits for room in the intake line, oldest first (R169, log 14). -/
  waiting : List Instr := []
  setup : Option Setup := none
  pendingSetup : Setup := {}
  inProgress : Option InProgress := none
  resultCount : Word := 0
  enables : BitVec 14 := 0
  flags : BitVec 14 := 0
  lastMark : Option Nat := none
  staged : Option StagedCopy := none
  statusGen : Word := 0
  statusOp : Option Nat := none
  statusOwed : Bool := false
  /-- NOTICE_N driven low. -/
  noticeLow : Bool := false
  deriving DecidableEq, Repr

/-! ## The whole part -/

/-- The part's state and the queue of commands that wait. -/
structure State where
  pending : List Instr := []
  scu : Scu := {}
  lsq : Lsq := {}
  ovc : Ovc := {}
  gxt : Gxt := {}
  vin : Vin := {}
  pje : Pje := {}
  scr : Scr := {}
  rqu : Rqu := {}
  ptu : Ptu := {}
  ctl : Ctl := {}
  deriving DecidableEq, Repr

/-- The machine right after reset, every field at its value after a line reset, no command waiting. -/
def State.reset : State := {}

/-- Why a step can stop with a fault: never. The spec gives the part no fault (INVENTORY, "Faults"). -/
inductive Fault where
  deriving DecidableEq, Repr

/-- Why a command is refused. -/
inductive Refusal where
  /-- Raised by an arm of `exec` that has no meaning yet; no arm of this model raises it. Safe. -/
  | notModelled (mnemonic : String)
  /-- Raised by SYSTEM_REQUEST for an operand that is no burst of 1 to 16 beats (Table 10-1), a request
  the link cannot carry. Safe: the model stops where the spec knows no such request. -/
  | notABurst
  deriving DecidableEq, Repr

/-! ## Views: names of the spec that are computed from the fields -/

/-- The parameters in force, or the defaults of Table 11-3 while the part is not set up. -/
def State.prm (s : State) : Setup := s.ctl.setup.getD {}

/-- SONG_MS: the accumulator's integer frame count div 48 (R4). -/
def Scu.songMs (c : Scu) : Nat := c.acc / 65536 / 48

/-- SONG_MS of the song context. -/
def State.songMs (s : State) : Nat := s.scu.songMs

end Sys2Proof.Machine
end

