-- ==== Sys2Proof/Machine/Flags.lean ====
section
/-! DEFINITION. Event flags and NOTICE_N (chapter 11.5): raising an event, ACK, ENABLE_EVENTS, and the live
condition of QUEUE_HIGH. Every change of an enable or a flag goes through `Ctl.setFlags`. -/

namespace Sys2Proof.Machine

/-- The events, in the order of Table 11-4. -/
inductive Event where
  | commandDone
  | ticketStaged
  | stageWithdrawn
  | songEnded
  | markReached
  | queueChanged
  | queueHigh
  | scoreTick
  | lineLate
  | scanLate
  | blockDropped
  | memoryError
  | guardHit
  | assetTouched
  deriving DecidableEq, Repr

/-- An event's bit: its row of Table 11-4 counting from 0 (R185). -/
def Event.bit : Event → Nat
  | .commandDone => 0
  | .ticketStaged => 1
  | .stageWithdrawn => 2
  | .songEnded => 3
  | .markReached => 4
  | .queueChanged => 5
  | .queueHigh => 6
  | .scoreTick => 7
  | .lineLate => 8
  | .scanLate => 9
  | .blockDropped => 10
  | .memoryError => 11
  | .guardHit => 12
  | .assetTouched => 13

/-- An event's mask. -/
def Event.mask (e : Event) : BitVec 14 := BitVec.ofNat 14 (2 ^ e.bit)

/-- New enables and flags, and NOTICE_N as they leave it: low while an enabled event's flag is latched (R184). -/
def Ctl.setFlags (c : Ctl) (enables flags : BitVec 14) : Ctl :=
  { c with enables := enables, flags := flags, noticeLow := (enables &&& flags) != 0 }

/-- An event raised (R184): latched while enabled, and a status rewrite owed when its flag becomes set. -/
def Ctl.raise (e : Event) (c : Ctl) : Ctl :=
  if c.enables &&& e.mask = 0 then c
  else if c.flags &&& e.mask = 0 then { c.setFlags c.enables (c.flags ||| e.mask) with statusOwed := true }
  else c

/-- An event raised by one of the blocks. -/
def State.raise (e : Event) (s : State) : State := { s with ctl := s.ctl.raise e }

/-- ACK: every flag the mask names is cleared (R185). -/
def Ctl.acknowledge (mask : BitVec 14) (c : Ctl) : Ctl := c.setFlags c.enables (c.flags &&& ~~~mask)

/-- ENABLE_EVENTS: the enables become the mask and flags of disabled events are cleared; a QUEUE_HIGH that
becomes enabled while its live condition holds latches at once (R185). -/
def Ctl.enable (mask : BitVec 14) (high : Bool) (c : Ctl) : Ctl :=
  let kept := c.setFlags mask (c.flags &&& mask)
  if high && c.enables &&& Event.queueHigh.mask = 0 && mask &&& Event.queueHigh.mask ≠ 0 then
    kept.raise .queueHigh
  else kept

/-- The QUEUE_HIGH live condition: 28 tickets or more (R146). -/
def Rqu.high (r : Rqu) : Bool := 28 ≤ r.queue.length

/-- The flags as the status block shows them: while QUEUE_HIGH is not enabled, its bit shows the live
condition (R184). -/
def State.shownFlags (s : State) : BitVec 14 :=
  if s.ctl.enables &&& Event.queueHigh.mask = 0 then
    (s.ctl.flags &&& ~~~Event.queueHigh.mask) ||| (if s.rqu.high then Event.queueHigh.mask else 0)
  else s.ctl.flags

end Sys2Proof.Machine
end

