-- ==== Sys2Proof/Machine/Operands.lean ====
section
/-! DEFINITION. Operand forms: bytes and fields of beats (R187), the decoding of the records the part reads
(chapter 12.3), the command record (R188), the cut of a range into reads and writes at 256-byte blocks
(R189), and the beats of a request (Table 10-1). -/

namespace Sys2Proof.Machine

/-! ## Vectors -/

/-- `v` with element `i` replaced by `x`. -/
def vset {α : Type} {n : Nat} (v : Vector α n) (i : Fin n) (x : α) : Vector α n :=
  Vector.set v i.val x i.isLt

/-- The lowest-numbered element of `v` that meets `p`. -/
def vfind {α : Type} {n : Nat} (v : Vector α n) (p : α → Bool) : Option (Fin n) :=
  (List.finRange n).find? (fun i => p (v.get i))

/-! ## Bytes of beats -/

/-- Byte `i` of consecutive beats, counting from byte 0 of the first. -/
def byteAt (bs : List Beat) (i : Nat) : Nat :=
  ((bs.getD (i / 16) 0).toNat >>> (8 * (i % 16))) % 256

/-- The little-endian field of `len` bytes at offset `off` (R187). -/
def fieldAt (bs : List Beat) (off : Nat) : Nat → Nat
  | 0 => 0
  | len + 1 => byteAt bs off + 256 * fieldAt bs (off + 1) len

/-- A byte read as a signed two's complement value. -/
def signedByte (n : Nat) : Int := (BitVec.ofNat 8 n).toInt

/-- The signed 16-bit little-endian sample at offset `off` (R78). -/
def sampleAt (bs : List Beat) (off : Nat) : Int := (BitVec.ofNat 16 (fieldAt bs off 2)).toInt

/-- `k` bytes of `n`, little-endian. -/
def leBytes : Nat → Nat → List Byte
  | 0, _ => []
  | k + 1, n => BitVec.ofNat 8 n :: leBytes k (n / 256)

/-- One byte of a signed value. -/
def signedBytes (x : Int) : List Byte := [BitVec.ofInt 8 x]

/-- Bytes packed into one beat, byte 0 first. -/
def packBeat (bytes : List Byte) : Beat :=
  BitVec.ofNat 128 (bytes.foldr (fun b acc => b.toNat + 256 * acc) 0)

/-- The enables of a beat whose byte k is enabled when `p k`. -/
def packEnables (p : Nat → Bool) : Enables :=
  BitVec.ofNat 16 ((List.range 16).foldr (fun k acc => (if p k then 1 else 0) + 2 * acc) 0)

/-! ## Ranges cut at 256-byte blocks -/

/-- A range of `len` bytes from `addr`, cut at every 256-byte boundary, in address order. -/
def cutRange : Nat → Nat → Nat → List (Nat × Nat)
  | 0, _, _ => []
  | fuel + 1, addr, len =>
    if len = 0 then []
    else if len ≤ 256 - addr % 256 then [(addr, len)]
    else (addr, 256 - addr % 256) :: cutRange fuel (addr + (256 - addr % 256)) (len - (256 - addr % 256))

/-- The pieces of a range; `len / 256 + 2` pieces are always enough. -/
def pieces (addr len : Nat) : List (Nat × Nat) := cutRange (len / 256 + 2) addr len

/-- The number of beats that hold `len` bytes from `addr`. -/
def beatsOver (addr len : Nat) : Nat := (addr % 16 + len + 15) / 16

/-- The own reads that cover `len` bytes from `addr`: whole beats, cut at 256-byte boundaries (R25, R32). A request's
address is its first beat's 16-byte place: DESIGN CHOICE, log 26. -/
def readsOver (addr len : Nat) : List (Nat × Body) :=
  (pieces addr len).map (fun p => (p.1 - p.1 % 16, Body.read (beatsOver p.1 p.2)))

/-- The beats of a write of `bytes` at `addr`: whole beats, enables set for the bytes of the range (R189). -/
def writeBeats (addr : Nat) (bytes : List Byte) : List WriteBeat :=
  (List.range (beatsOver addr bytes.length)).map (fun i =>
    let base := addr - addr % 16 + 16 * i
    let inside := fun k => addr ≤ base + k && base + k < addr + bytes.length
    { data := packBeat ((List.range 16).map (fun k => if inside k then bytes.getD (base + k - addr) 0 else 0))
      en := packEnables inside })

/-- The own writes of `bytes` at `addr`, one on each side of a 256-byte boundary, in address order (R189). A request's
address is its first beat's 16-byte place: DESIGN CHOICE, log 26. -/
def writesOver (addr : Nat) (bytes : List Byte) : List (Nat × Body) :=
  (pieces addr bytes.length).map (fun p =>
    (p.1 - p.1 % 16, Body.write (writeBeats p.1 ((bytes.drop (p.1 - addr)).take p.2))))

/-! ## Requests -/

/-- The beat count of a request body. -/
def bodyCount : Body → Nat
  | .read n => n
  | .write bs => bs.length

/-- Whether a body is a write. -/
def bodyIsWrite : Body → Bool
  | .read _ => false
  | .write _ => true

/-- The beats of a write body. -/
def bodyBeats : Body → List WriteBeat
  | .read _ => []
  | .write bs => bs

/-- A burst is 1 to 16 beats (spec 00, "Memory"). -/
def bodyIsBurst (b : Body) : Bool := 1 ≤ bodyCount b && bodyCount b ≤ 16

/-- The 16-byte aligned place of beat `i` of a request (the text before R159), within 32 bits (log 15). -/
def beatAddr (addr : Word) (i : Nat) : Nat := (addr.toNat / 16 * 16 + 16 * i) % 2 ^ 32

/-- A burst whose beats do not all lie within one 256-byte aligned block (R160). -/
def malformed (r : Request) : Bool :=
  (r.addr.toNat / 16 * 16) / 256 != (r.addr.toNat / 16 * 16 + 16 * (bodyCount r.body - 1)) / 256

/-- Whether an address lies in a window. -/
def Window.holds (w : Window) (a : Nat) : Bool := w.base ≤ a && a < w.base + w.size

/-- Whether an address lies in a window that may be absent. -/
def inWindow (w : Option Window) (a : Nat) : Bool :=
  match w with
  | some w => w.holds a
  | none => false

/-- The base of a window, 0 when it is absent. -/
def baseOf (w : Option Window) : Nat := (w.map Window.base).getD 0

/-! ## The records the part reads (chapter 12.3) -/

/-- The fields of a bank header (Table 12-5). -/
structure Header where
  song : Nat
  length : Nat
  cueCount : Nat
  cueOffset : Nat
  lineCount : Nat
  lineOffset : Nat
  noteCount : Nat
  noteOffset : Nat
  deriving DecidableEq, Repr

/-- A bank header as read from its 32 bytes (Table 12-5). -/
def readHeader (bs : List Beat) : Header :=
  { song := fieldAt bs 0x00 3, length := fieldAt bs 0x04 4
    cueCount := fieldAt bs 0x08 4, cueOffset := fieldAt bs 0x0C 4
    lineCount := fieldAt bs 0x10 4, lineOffset := fieldAt bs 0x14 4
    noteCount := fieldAt bs 0x18 4, noteOffset := fieldAt bs 0x1C 4 }

/-- TIME of a cue record as read at offset `off` of the returned beats (Table 12-6). -/
def cueTime (bs : List Beat) (off : Nat) : Nat := fieldAt bs off 3

/-- A fetched cue decoded by R24, none when rejected. -/
def readCue (bs : List Beat) (off lineCount : Nat) : Option Cue :=
  let arg := fieldAt bs (off + 4) 2
  match byteAt bs (off + 3) with
  | 1 => if arg < lineCount then some ⟨cueTime bs off, .lineIn arg⟩ else none
  | 2 => some ⟨cueTime bs off, .bandClear⟩
  | 3 => some ⟨cueTime bs off, .mark arg⟩
  | 4 => some ⟨cueTime bs off, .songEnd⟩
  | _ => none

/-- PART of a line or note as read, any other value taken as BOTH (R34, R102). -/
def readPart (n : Nat) : LinePart :=
  match n with
  | 1 => .a
  | 2 => .b
  | _ => .both

/-- A fetched note decoded by R102. -/
def readNote (bs : List Beat) (off : Nat) : Note :=
  { start := fieldAt bs off 3
    duration := max 1 (fieldAt bs (off + 3) 2)
    period := clampNat 192 2816 (fieldAt bs (off + 5) 2)
    part := readPart (byteAt bs (off + 7) % 16)
    weight := clampNat 1 4 (byteAt bs (off + 7) / 16) }

/-- A line record decoded by R34. -/
structure LineRecord where
  part : LinePart
  align : Align
  glyphs : List Glyph
  syllables : List Syllable
  deriving DecidableEq, Repr

/-- A line record as read at offset `off` of the returned beats, decoded by R34. -/
def readLine (bs : List Beat) (off : Nat) : LineRecord :=
  let g := min 48 (byteAt bs off)
  let n := if byteAt bs off = 0 then 0 else min 32 (byteAt bs (off + 1))
  { part := readPart (byteAt bs (off + 2))
    align := if byteAt bs (off + 3) = 1 then .centre else .left
    glyphs := (List.range g).map (fun i =>
      { index := fieldAt bs (off + 0x10 + 4 * i) 2
        advance := clampNat 1 64 (byteAt bs (off + 0x10 + 4 * i + 2)) })
    syllables := (List.range n).map (fun k =>
      let at_ := off + 0xD0 + 8 * k
      let first := min g (byteAt bs at_)
      { first := first
        count := min (byteAt bs (at_ + 1)) (g - first)
        duration := max 1 (fieldAt bs (at_ + 2) 2)
        start := fieldAt bs (at_ + 4) 3 }) }

/-- A page-table entry: VALID and PAGE (R65; chapter 12.3). -/
def readEntry (bs : List Beat) (off : Nat) : Option Nat :=
  let w := fieldAt bs off 4
  if w / 2 ^ 31 = 1 then some (w % 2 ^ 20) else none

/-- Coverage c_j of a glyph row: byte j div 2, its low half for even j (chapter 12.3). -/
def coverage (bs : List Beat) (j : Nat) : Nat :=
  if j % 2 = 0 then byteAt bs (j / 2) % 16 else byteAt bs (j / 2) / 16

/-- The ACTION of a handset packet. -/
inductive Action where
  | request
  | cancel
  | status
  | other
  deriving DecidableEq, Repr

/-- A handset packet as read (Table 8-3; chapter 12.3), KEY already clamped, SINGERS already taken. -/
structure Packet where
  handset : Nat
  seq : Byte
  action : Action
  key : Int
  song : Nat
  singers : Nat
  ticket : Nat
  deriving DecidableEq, Repr

/-- The packet of one beat (R129). -/
def readPacket (b : Beat) : Packet :=
  let bs := [b]
  { handset := byteAt bs 0
    seq := BitVec.ofNat 8 (byteAt bs 1)
    action := match byteAt bs 2 with
      | 1 => .request
      | 2 => .cancel
      | 3 => .status
      | _ => .other
    key := clampInt (-12) 12 (signedByte (byteAt bs 3))
    song := fieldAt bs 4 3
    singers := if byteAt bs 7 = 2 then 2 else 1
    ticket := fieldAt bs 8 2 }

/-! ## The command record (R188, Table 12-2) -/

/-- A command record: CODE, HOST_TAG and the argument words A0 to A14. -/
structure CommandRecord where
  code : Nat
  tag : BitVec 16
  words : List Word
  deriving DecidableEq, Repr

/-- Argument word Ai. -/
def CommandRecord.arg (c : CommandRecord) (i : Nat) : Word := c.words.getD i 0

/-- The command record in the four captured beats (Table 12-1). -/
def readCommand (captured : Vector Beat 4) : CommandRecord :=
  let bs := captured.toList
  { code := fieldAt bs 0 2
    tag := BitVec.ofNat 16 (fieldAt bs 2 2)
    words := (List.range 15).map (fun i => BitVec.ofNat 32 (fieldAt bs (4 + 4 * i) 4)) }

/-- An on/off argument is on when its word is not 0 (R188). -/
def wordOn (w : Word) : Bool := w != 0

/-- A colour word: B, G, R from its first byte, the fourth ignored (R188). -/
def wordColour (w : Word) : Nat := w.toNat % 2 ^ 24

/-- Section `sec` of a SETUP copied into a setup record; `a i` is word A(i+1) (R188, Table 11-3). -/
def Setup.copySection (p : Setup) (sec : Nat) (a : Nat → Word) : Setup :=
  let n := fun i => (a i).toNat
  let w := fun i => WindowParam.mk (n i) (n (i + 1))
  match sec with
  | 0 => { p with wPlayback := w 0, wFrame := w 2, wMic := w 4, wHandset := w 6 }
  | 1 => { p with wReply := w 0, wAsset := w 2, wPagetable := w 4, wImage := w 6 }
  | 2 => { p with controlTag := n 0, playbackTag := n 1, displayTag := n 2, captureTag := n 3, radioTag := n 4,
                  rotateN := n 5, ownLimit := n 6, ownBase := n 7, retryMax := n 8, channels := n 9, aperture := n 10 }
  | 3 => { p with width := n 0, height := n 1, stride := n 2, bandX := n 3, bandY := n 4, bandW := n 5, bandRows := n 6,
                  stripEnable := wordOn (a 7), stripX := n 8, stripY := n 9, stripW := n 10, stripAdvance := n 11,
                  digitBase := n 12, shade := n 13 }
  | 4 => { p with wipeA := wordColour (a 0), wipeB := wordColour (a 1), wipeBoth := wordColour (a 2),
                  fill := wordColour (a 3), stripColour := wordColour (a 4), bannerColour := wordColour (a 5) }
  | 5 => { p with scrollMs := n 0, lookaheadMs := n 1, bannerFrames := n 2, stageLeadMs := n 3, catalogSize := n 4,
                  limit := n 5, recentBlock := wordOn (a 6), dupBlock := wordOn (a 7) }
  | _ => p

end Sys2Proof.Machine
end

