-- ==== Sys2Proof/Machine/Ops.lean ====
section
/-! DEFINITION. Own traffic as the clients see it (R169): handing requests to the intake line, operations
made of several reads or writes, their ends, and orphaning; and the result of a command (R180). -/

namespace Sys2Proof.Machine

/-! ## Handing own requests -/

/-- A request enters the own-request queue and takes its arrival stamp (R169). -/
def Ptu.enqueue (r : OwnRequest) (p : Ptu) : Ptu :=
  { p with queue := p.queue ++ [⟨r, p.nextArrival⟩], nextArrival := p.nextArrival + 1 }

/-- Whether the intake line holds 64, so that it has no room (R169). -/
def Ptu.lineFull (p : Ptu) : Bool := 64 ≤ p.intake.length

/-- A client hands one request: it passes the intake line at once while the queue has room, waits in the
line while that holds fewer than 64, and is kept by its client otherwise (R169, log 14). -/
def Ptu.hand (r : OwnRequest) (p : Ptu) : Ptu :=
  if p.kept = [] ∧ p.intake = [] ∧ p.queue.length < 16 then p.enqueue r
  else if p.kept = [] ∧ p.intake.length < 64 then { p with intake := p.intake ++ [r] }
  else { p with kept := p.kept ++ [r] }

/-- The requests of one operation, handed in order, from part number `k` on. -/
def Ptu.handAll (c : Client) (op : Nat) : Nat → List (Nat × Body) → Ptu → Ptu
  | _, [], p => p
  | k, (a, b) :: rest, p => Ptu.handAll c op (k + 1) rest (p.hand ⟨c, op, k, a, b⟩)

/-- A client begins an operation, named `p.nextOp`, and hands its requests in order. -/
def Ptu.startOp (kind : OpKind) (c : Client) (rs : List (Nat × Body)) (p : Ptu) : Ptu :=
  Ptu.handAll c p.nextOp 0 rs
    { p with nextOp := p.nextOp + 1, ops := p.ops ++ [⟨p.nextOp, kind, List.replicate rs.length .waiting⟩] }

/-- Requests handed in order whose completions nobody waits for: no operation bears their name. -/
def Ptu.handUnwatched (c : Client) (rs : List (Nat × Body)) (p : Ptu) : Ptu :=
  Ptu.handAll c p.nextOp 0 rs { p with nextOp := p.nextOp + 1 }

/-- A block's work comes about when no request of it would have to be kept, or when the line had room at its start;
while the line holds 64, work that would hand a request waits and changes nothing (R169, log 14). -/
def State.whenRoom (work : State → State) (s : State) : State :=
  if s.ptu.lineFull && (work s).ptu.kept.length != s.ptu.kept.length then s else work s

/-- Operations whose kind meets `sel` are orphaned: their requests run on, and what they return finds no
operation and is discarded (R22, R48, R105). -/
def Ptu.orphan (sel : OpKind → Bool) (p : Ptu) : Ptu :=
  { p with ops := p.ops.filter (fun o => !sel o.kind), ended := p.ended.filter (fun o => !sel o.kind) }

/-- The operation named `id` is orphaned. -/
def Ptu.orphanId (id : Option Nat) (p : Ptu) : Ptu :=
  match id with
  | none => p
  | some n => { p with ops := p.ops.filter (fun o => o.id != n), ended := p.ended.filter (fun o => o.id != n) }

/-- Whether every part of an operation has returned. -/
def ClientOp.complete (o : ClientOp) : Bool := o.parts.all (fun x => x != .waiting)

/-- Part `k` of operation `id` has returned; an operation whose parts have all returned has ended. -/
def Ptu.returnPart (id k : Nat) (x : PartState) (p : Ptu) : Ptu :=
  match p.ops.find? (fun o => o.id == id) with
  | none => p
  | some o =>
    let o' : ClientOp := { o with parts := o.parts.set k x }
    if o'.complete then
      { p with ops := p.ops.filter (fun q => q.id != id), ended := p.ended ++ [o'] }
    else { p with ops := p.ops.map (fun q => if q.id == id then o' else q) }

/-- Whether an operation is the write of a result (R180). -/
def OpKind.isResult : OpKind → Bool
  | .result _ => true
  | _ => false

/-- Whether an operation is the placement of a reply (R152). -/
def OpKind.isReply : OpKind → Bool
  | .reply _ => true
  | _ => false

/-- Whether an operation is a glyph row fetch (R54). -/
def OpKind.isRow : OpKind → Bool
  | .row _ _ _ => true
  | _ => false

/-- The oldest ended operation whose kind meets `sel`. -/
def Ptu.firstEnded (sel : OpKind → Bool) (p : Ptu) : Option ClientOp := p.ended.find? (fun o => sel o.kind)

/-- An ended operation taken by its client. -/
def Ptu.dropEnded (id : Nat) (p : Ptu) : Ptu := { p with ended := p.ended.filter (fun o => o.id != id) }

/-- The data of an operation's reads in address order, none if any of them failed (R187). -/
def partsData : List PartState → Option (List Beat)
  | [] => some []
  | .data bs :: rest => (partsData rest).map (bs ++ ·)
  | _ :: _ => none

/-- The data of an ended operation, none when a read of it failed finally. -/
def ClientOp.data (o : ClientOp) : Option (List Beat) := partsData o.parts

/-! ## Results (R180) -/

/-- The result codes, numbered as Table 12-3. -/
inductive ResultCode where
  | ok
  | busy
  | badCommand
  | badArg
  | state
  | stale
  | badAsset
  | queueFull
  | notSet
  deriving DecidableEq, Repr

/-- A result code's number (Table 12-3). -/
def ResultCode.code : ResultCode → Nat
  | .ok => 0
  | .busy => 1
  | .badCommand => 2
  | .badArg => 3
  | .state => 4
  | .stale => 5
  | .badAsset => 6
  | .queueFull => 7
  | .notSet => 8

/-- The 64 bytes of the result slot (Table 12-1). -/
def resultBytes (code tag : BitVec 16) (rc : ResultCode) (count : Word) (values : List Word) : List Byte :=
  leBytes 2 code.toNat ++ leBytes 2 tag.toNat ++ leBytes 4 rc.code ++ leBytes 4 count.toNat ++
    ((List.range 6).map (fun i => leBytes 4 (values.getD i 0).toNat)).flatten ++ List.replicate 28 0

/-- A command that ends: its result is counted and handed as one own write of the result slot (R180). -/
def State.result (code tag : BitVec 16) (rc : ResultCode) (values : List Word) (s : State) : State :=
  let n := s.ctl.resultCount + 1
  { s with
    ctl := { s.ctl with resultCount := n }
    ptu := s.ptu.startOp (.result code) .statusResult
      (writesOver (s.ptu.controlBase + 0x40) (resultBytes code tag rc n values)) }

/-- A word carrying a signed value. -/
def signedWord (x : Int) : Word := BitVec.ofInt 32 x

end Sys2Proof.Machine
end

