-- ==== Sys2Proof/Machine/Records.lean ====
section
/-! DEFINITION. The records the part writes (chapter 12.4, Tables 12-4, 12-8, 12-9), byte by byte, with the
codes of their fields; every byte no present field fills is 0 (R189). -/

namespace Sys2Proof.Machine

/-! ## Codes -/

/-- SOURCE: the handset number, or 16 for STAFF (Table 8-4). -/
def Source.code : Source → Nat
  | .handset h => h.val
  | .staff => 16

/-- CLASS in the image and in POSITIONS (Table 12-8). -/
def TicketClass.code : TicketClass → Nat
  | .staged => 1
  | .priority => 2
  | .normal => 3

/-- STATE in the status block (Table 12-4). -/
def SongState.code : SongState → Nat
  | .idle => 0
  | .starting => 1
  | .playing => 2
  | .seeking => 3
  | .finishing => 4

/-- FINISH_PHASE in the status block (Table 12-4). -/
def phaseCode : Option FinishPhase → Nat
  | none => 0
  | some .drain => 1
  | some .writeOut => 2
  | some .banner => 3

/-- LAST_BAND in the status block (Table 12-4). -/
def bandCode : Option Band → Nat
  | none => 0
  | some .perfect => 1
  | some .good => 2
  | some .fair => 3
  | some .miss => 4

/-- CLIENT in the status block (Table 12-4). -/
def Client.code : Client → Nat
  | .glyphRow => 1
  | .pageWalk => 2
  | .cueFetch => 3
  | .lineLoad => 4
  | .noteFetch => 5
  | .headerLoad => 6
  | .statusResult => 7
  | .queueImage => 8
  | .reply => 9
  | .resultRecord => 10

/-- A REFUSED reply's reason, 1 to 10 in the order of Table 9-2. -/
def RefuseReason.code : RefuseReason → Nat
  | .closed => 1
  | .unknownSong => 2
  | .recent => 3
  | .duplicate => 4
  | .limit => 5
  | .queueFull => 6
  | .badRequest => 7
  | .inUse => 8
  | .notYours => 9
  | .unknownTicket => 10

/-- PART of a singer (Table 12-9). -/
def partCode : Option SingerPart → Nat
  | none => 0
  | some .a => 1
  | some .b => 2

/-- A flag as 0 or 1. -/
def bit01 (b : Bool) : Nat := if b then 1 else 0

/-- A list of bytes cut or filled with 0 to `n` bytes. -/
def padTo (n : Nat) (bs : List Byte) : List Byte := (bs ++ List.replicate n 0).take n

/-! ## Scores -/

/-- A singer's score (R114). -/
def Totals.score (t : Totals) : Nat := if t.possible = 0 then 0 else t.earned * 10000 / t.possible

/-- The ACTIVE singers in singer order with their numbers. -/
def Scr.activeSingers (c : Scr) : List (Nat × Singer) :=
  ((List.finRange 4).map (fun i => (i.val, c.singers.get i))).filter (fun p => p.2.active)

/-! ## Reply records -/

/-- A reply's 32 bytes (chapter 12.4). -/
def Reply.bytes (r : Reply) : List Byte :=
  let head := fun (kind b3 : Nat) => [BitVec.ofNat 8 r.handset.val, r.seq, BitVec.ofNat 8 kind, BitVec.ofNat 8 b3]
  padTo 32 (match r.body with
    | .accepted n pos => head 1 0 ++ leBytes 2 n ++ leBytes 1 pos
    | .held => head 2 0
    | .refused why => head 3 why.code
    | .cancelled n => head 4 0 ++ leBytes 2 n
    | .called n song => head 5 0 ++ leBytes 2 n ++ [0, 0] ++ leBytes 3 song
    | .positions es held cur =>
      head 6 es.length ++ leBytes 1 (bit01 held + 2 * bit01 cur.isSome) ++ [0] ++ leBytes 2 (cur.getD 0) ++
        (es.map (fun e => leBytes 2 e.number ++ leBytes 1 (e.position % 64 + 64 * e.cls.code))).flatten
    | .score n song es =>
      head 7 es.length ++ leBytes 2 n ++ [0, 0] ++ leBytes 3 song ++ [0] ++
        (es.map (fun e => leBytes 1 e.singer ++ leBytes 2 e.score)).flatten)

/-! ## The queue image -/

/-- One queue entry of the image (Table 12-8). -/
def Ticket.imageBytes (t : Ticket) : List Byte :=
  leBytes 2 t.number ++ leBytes 1 t.source.code ++ leBytes 1 t.cls.code ++ leBytes 4 t.song ++ signedBytes t.key ++
    leBytes 1 t.singers ++ leBytes 1 t.round ++ [0]

/-- One history entry of the image (Table 12-8). -/
def HistoryEntry.imageBytes (e : HistoryEntry) : List Byte :=
  leBytes 4 e.song ++ leBytes 2 e.number ++ leBytes 1 e.source.code ++ [0]

/-- The pending flags, bit h for handset h (Table 12-8). -/
def Rqu.pendingFlags (r : Rqu) : Nat :=
  (List.finRange 16).foldl (fun acc h => acc + bit01 (r.handsets.get h).slot.isSome * 2 ^ h.val) 0

/-- The image's body, from offset 004h to 1CFh (R155, Table 12-8). -/
def Rqu.imageBody (r : Rqu) : List Byte :=
  leBytes 1 r.queue.length ++ leBytes 1 r.history.length ++ leBytes 1 (bit01 r.closed) ++ [0] ++
    leBytes 2 r.pendingFlags ++ padTo 6 [] ++
    padTo 384 (r.queue.map Ticket.imageBytes).flatten ++
    padTo 64 (r.history.map HistoryEntry.imageBytes).flatten

/-! ## The status block -/

/-- One singer of the status block (Table 12-4); an OFF singer's kept accumulators are not seen (R116), so its
bytes are 0 (DEDUCED, log 24). -/
def Singer.statusBytes (g : Singer) : List Byte :=
  if g.active then
    leBytes 1 1 ++ leBytes 1 (bandCode g.totals.lastBand) ++ leBytes 2 g.totals.score ++ leBytes 4 g.totals.possible
  else List.replicate 8 0

/-- The presence bits at 087h (Table 12-4). -/
def State.presence (s : State) : Nat :=
  bit01 s.scu.current.isSome + 2 * bit01 s.ctl.staged.isSome + 4 * bit01 s.ptu.memError.isSome +
    8 * bit01 s.ptu.lastGuard.isSome + 16 * bit01 s.ctl.lastMark.isSome + 32 * bit01 s.ctl.setup.isSome

/-- The eleven counters in the order of Table 12-4. -/
def State.counters (s : State) : List Word :=
  [s.ptu.pathFault, s.ptu.guardHit, s.vin.micGap, s.vin.blockDropped, s.ovc.scanLate, s.lsq.lineLate,
   s.pje.noteLate, s.lsq.badCue, s.rqu.badPacket, s.rqu.replyLost, s.gxt.glyphFault]

/-- The status body, from 084h to 107h (R186, Table 12-4). -/
def State.statusBody (s : State) : List Byte :=
  let current := match s.scu.current with
    | none => (List.replicate 3 0, List.replicate 4 0)
    | some t => (leBytes 2 t.number ++ leBytes 1 t.source.code, leBytes 4 t.song)
  let staged := match s.ctl.staged with
    | none => List.replicate 10 0
    | some c => leBytes 2 c.number ++ leBytes 1 c.source.code ++ signedBytes c.key ++ leBytes 4 c.song ++
        leBytes 1 c.singers ++ leBytes 1 c.hint.val
  leBytes 1 s.scu.state.code ++ leBytes 1 (phaseCode s.scu.phase) ++ signedBytes s.scu.key ++ leBytes 1 s.presence ++
    leBytes 4 s.songMs ++ leBytes 4 s.scu.tempo ++ current.1 ++ leBytes 1 (bit01 s.rqu.closed) ++ current.2 ++
    staged ++ leBytes 1 s.rqu.queue.length ++ [0] ++
    leBytes 4 s.ctl.enables.toNat ++ leBytes 4 s.shownFlags.toNat ++
    ((List.finRange 4).map (fun i => (s.scr.singers.get i).statusBytes)).flatten ++
    (s.counters.map (fun c => leBytes 4 c.toNat)).flatten ++
    leBytes 4 ((s.ptu.memError.map MemoryError.addr).getD 0) ++ leBytes 4 s.ptu.memErrorCount.toNat ++
    leBytes 1 ((s.ptu.memError.map (fun e => e.client.code)).getD 0) ++
    leBytes 1 ((s.ptu.lastGuard.map (fun g => g.tag.toNat)).getD 0) ++ leBytes 2 (s.ctl.lastMark.getD 0) ++
    leBytes 4 ((s.ptu.lastGuard.map (fun g => g.addr.toNat)).getD 0)

/-! ## The result record -/

/-- One singer part of a result record (Table 12-9). -/
def singerPartBytes (i : Nat) (g : Singer) : List Byte :=
  leBytes 1 i ++ leBytes 1 (partCode g.part) ++ leBytes 2 g.totals.score ++
    ([g.totals.possible, g.totals.perfect, g.totals.good, g.totals.fair, g.totals.miss, g.totals.unvoiced,
      g.totals.maxStreak, g.totals.dropped, g.totals.folds].map (leBytes 4)).flatten

/-- The 192 bytes of a result record (R122, Table 12-9). -/
def resultRecordBytes (n : Word) (t : Ticket) (c : Scu) (singers : List (Nat × Singer)) : List Byte :=
  padTo 192 (leBytes 4 n.toNat ++ leBytes 2 t.number ++ leBytes 1 t.source.code ++ leBytes 1 singers.length ++
    leBytes 4 t.song ++ signedBytes t.key ++ signedBytes c.key ++ leBytes 1 (bit01 c.seeked + 2 * bit01 c.stopped) ++
    [0] ++ leBytes 4 c.tempo ++ padTo 12 [] ++ (singers.map (fun p => singerPartBytes p.1 p.2)).flatten)

/-! ## Rewrites of the status block and the queue image -/

/-- A rewrite of the queue image begins when one is owed, none is in flight and the intake line has room (R169):
the generation made odd, the body, the generation made even (R157, R189). -/
def State.beginImage (s : State) : State :=
  if s.rqu.imageOwed = true ∧ s.rqu.imageOp = none ∧ s.ptu.lineFull = false then
    let base := baseOf s.ptu.windows.image
    let g := s.rqu.imageGen
    { s with
      rqu := { s.rqu with imageGen := g + 2, imageOp := some s.ptu.nextOp, imageOwed := false }
      ptu := s.ptu.startOp .image .queueImage
        (writesOver base (leBytes 4 (g + 1).toNat) ++ writesOver (base + 4) s.rqu.imageBody ++
         writesOver base (leBytes 4 (g + 2).toNat)) }
  else s

/-- A rewrite of the status block begins when one is owed, none is in flight and the intake line has room (R169):
the generation made odd, the body, the generation made even (R186, R189). -/
def State.beginStatus (s : State) : State :=
  if s.ctl.statusOwed = true ∧ s.ctl.statusOp = none ∧ s.ptu.lineFull = false then
    let base := s.ptu.controlBase + 0x80
    let g := s.ctl.statusGen
    { s with
      ctl := { s.ctl with statusGen := g + 2, statusOp := some s.ptu.nextOp, statusOwed := false }
      ptu := s.ptu.startOp .status .statusResult
        (writesOver base (leBytes 4 (g + 1).toNat) ++ writesOver (base + 4) s.statusBody ++
         writesOver base (leBytes 4 (g + 2).toNat)) }
  else s

/-- What closes every arrival: the rewrites that are owed and can begin, the queue image's before the status
block's (log 10). Each takes its body from the state the arrival has left. -/
def State.flush (s : State) : State := s.beginImage.beginStatus

end Sys2Proof.Machine
end

