-- ==== Sys2Proof/Machine/Requests.lean ====
section
/-! DEFINITION. The Request Queue Unit (chapters 8 and 9): queue order, replies, staging, admission,
departure, the pending drain, the checks of a REQUEST, and its part of host commands. -/

namespace Sys2Proof.Machine

/-! ## Queue order (R131 to R133) -/

/-- CLASS order: STAGED before PRIORITY before NORMAL. -/
def TicketClass.rank : TicketClass → Nat
  | .staged => 0
  | .priority => 1
  | .normal => 2

/-- Queue order (R132): class, then round, then the signed difference of the arrival stamps. -/
def Ticket.before (a b : Ticket) : Bool :=
  if a.cls.rank ≠ b.cls.rank then a.cls.rank < b.cls.rank
  else if a.round ≠ b.round then a.round < b.round
  else (a.arrival - b.arrival).msb

/-- A ticket put into its ordered place. -/
def placeTicket (t : Ticket) : List Ticket → List Ticket
  | [] => [t]
  | u :: rest => if t.before u then t :: u :: rest else u :: placeTicket t rest

/-- The queue put back in order (R133). -/
def reorder (q : List Ticket) : List Ticket := q.foldl (fun acc t => placeTicket t acc) []

/-- The number of a source's NORMAL tickets. -/
def normalCount (src : Source) (q : List Ticket) : Nat :=
  (q.filter (fun t => t.source == src && t.cls == .normal)).length

/-- A handset's waiting count: its queued tickets, the STAGED one included (R134). -/
def waitingCount (h : Fin 16) (q : List Ticket) : Nat := (q.filter (fun t => t.source == .handset h)).length

/-- A NORMAL ticket `t` has ceased to be NORMAL: its source's later rounds fall by one (R133). -/
def lowerRounds (t : Ticket) (q : List Ticket) : List Ticket :=
  if t.cls = .normal then
    q.map (fun u => if u.cls = .normal ∧ u.source = t.source ∧ t.round < u.round then { u with round := u.round - 1 } else u)
  else q

/-- A ticket's position, 1 for the head (R132). -/
def positionOf (n : Nat) (q : List Ticket) : Nat := q.findIdx (fun t => t.number == n) + 1

/-- The queued ticket numbered `n`. -/
def Rqu.ticket (n : Nat) (r : Rqu) : Option Ticket := r.queue.find? (fun t => t.number == n)

/-- The STAGED ticket. -/
def Rqu.stagedTicket (r : Rqu) : Option Ticket := r.queue.find? (fun t => t.cls == .staged)

/-- Whether a number is held by a queued ticket or the current ticket (R131). -/
def State.numberHeld (n : Nat) (s : State) : Bool :=
  s.rqu.queue.any (fun t => t.number == n) || (s.scu.current.map Ticket.number) == some n

/-- The first free number after `n`, counting 65,535 back to 1 (R131). -/
def State.searchNumber (s : State) : Nat → Nat → Nat
  | 0, n => n
  | fuel + 1, n =>
    let m := if n ≥ 65535 then 1 else n + 1
    if s.numberHeld m then State.searchNumber s fuel m else m

/-- The NUMBER the next ticket takes (R131); one more try than numbers held always finds it. -/
def State.newNumber (s : State) : Nat := s.searchNumber (s.rqu.queue.length + 2) s.rqu.lastNumber

/-! ## Events of the queue (R146) -/

/-- QUEUE_CHANGED, and QUEUE_HIGH when the count has risen from `old`, at most 27, to 28 or more (R146). -/
def State.queueChanged (old : Nat) (s : State) : State :=
  let s := s.raise .queueChanged
  let s := if old ≤ 27 ∧ 28 ≤ s.rqu.queue.length then s.raise .queueHigh else s
  { s with rqu := { s.rqu with imageOwed := true } }

/-! ## Replies (R151 to R153) -/

/-- The own writes of a reply into slot `i`, then of the producer count's beat (R152). -/
def replyWrites (base : Nat) (i : Fin 16) (r : Reply) (count : Word) : List (Nat × Body) :=
  writesOver (base + 16 + 32 * i.val) r.bytes ++ writesOver base (leBytes 4 count.toNat)

/-- A stored reply placed in the reply ring, or kept as lost when the slot at the write index is
UNCONSUMED (R152, R153). `score` marks the SCORE reply the Score Unit waits for (R122, R124). -/
def State.placeReply (r : Reply) (score : Bool) (s : State) : State :=
  let h := r.handset
  let hr := s.rqu.handsets.get h
  if s.rqu.slots.get s.rqu.replyIndex = false then
    let n := s.rqu.producer + 1
    { s with
      rqu := { s.rqu with
        slots := vset s.rqu.slots s.rqu.replyIndex true
        replyIndex := s.rqu.replyIndex + 1
        producer := n
        handsets := vset s.rqu.handsets h { hr with lost := false } }
      ptu := s.ptu.startOp (.reply score) .reply
        (replyWrites (baseOf s.ptu.windows.reply) s.rqu.replyIndex r n) }
  else
    { s with
      rqu := { s.rqu with
        replyLost := s.rqu.replyLost + 1
        handsets := vset s.rqu.handsets h { hr with lost := true } }
      scr := if score then { s.scr with scoreWaiting := false } else s.scr }

/-- A reply issued to a handset: stored as its last reply, then placed (R151). -/
def State.issueReply (h : Fin 16) (body : ReplyBody) (score : Bool) (s : State) : State :=
  let hr := s.rqu.handsets.get h
  let r : Reply := ⟨h, hr.lastSeq.getD Config.unheardSequence, body⟩
  State.placeReply r score
    { s with rqu := { s.rqu with handsets := vset s.rqu.handsets h { hr with lastReply := some r } } }

/-- A reply to a ticket's source, none for STAFF. -/
def State.replyToSource (src : Source) (body : ReplyBody) (s : State) : State :=
  match src with
  | .handset h => s.issueReply h body false
  | .staff => s

/-! ## Staging (R148 to R150) -/

/-- The staging condition (R148); the lead difference is taken without limit. -/
def State.stagingHolds (s : State) : Bool :=
  s.rqu.stagedTicket.isNone && !s.rqu.queue.isEmpty &&
    (match s.scu.state with
     | .idle | .finishing => true
     | .playing | .seeking => decide (s.scu.length ≤ s.songMs + s.prm.stageLeadMs)
     | .starting => false)

/-- The bank other than the song context's (R149). -/
def otherBank (b : Fin 2) : Fin 2 := if b = 0 then 1 else 0

/-- The staged ticket copy handed to the Control Unit (R149). -/
def State.stagedCopyOf (t : Ticket) (s : State) : StagedCopy :=
  ⟨t.number, t.source, t.song, t.key, t.singers, otherBank s.scu.bank⟩

/-- The staging test, and the staging of the head when it succeeds (R149). -/
def State.stageTest (s : State) : State :=
  match s.rqu.queue with
  | [] => s
  | t :: rest =>
    if s.stagingHolds then
      let q := { t with cls := .staged, round := 0 } :: reorder (lowerRounds t rest)
      let s := { s with rqu := { s.rqu with queue := q } }
      let s := s.queueChanged q.length
      let s := s.raise .ticketStaged
      let s := { s with ctl := { s.ctl with staged := some (s.stagedCopyOf t) } }
      s.replyToSource t.source (.called t.number t.song)
    else s

/-! ## Joining the queue (R135, R141) -/

/-- A new ticket joins the queue with a new NUMBER and a new ARRIVAL stamp (R131, R132, R133). -/
def State.newTicket (src : Source) (song : Nat) (key : Int) (singers : Nat) (cls : TicketClass) (s : State) : Ticket :=
  { number := s.newNumber, source := src, song := song, key := key, singers := singers, cls := cls
    round := if cls = .normal then normalCount src s.rqu.queue + 1 else 0
    arrival := s.rqu.arrival + 1 }

/-- The queue with the ticket in it, the number issued and the stamp taken. -/
def State.joinQueue (t : Ticket) (s : State) : State :=
  { s with rqu := { s.rqu with
      queue := placeTicket t s.rqu.queue, lastNumber := t.number, arrival := t.arrival } }

/-- A REQUEST admitted (R135): the ticket joins, ACCEPTED is issued, QUEUE_CHANGED raised, staging tested. -/
def State.acceptRequest (h : Fin 16) (song : Nat) (key : Int) (singers : Nat) (s : State) : State :=
  let t := s.newTicket (.handset h) song key singers .normal
  let old := s.rqu.queue.length
  let s := s.joinQueue t
  let s := s.issueReply h (.accepted t.number (positionOf t.number s.rqu.queue)) false
  (s.queueChanged old).stageTest

/-- What Table 8-5 answers to a REQUEST. -/
inductive Verdict where
  | refuse (why : RefuseReason)
  | full
  | accept
  deriving DecidableEq, Repr

/-- The checks of Table 8-5 in their order, rows 6 and 7 left to the caller as `full` (R134). -/
def State.checkRequest (h : Fin 16) (song : Nat) (s : State) : Verdict :=
  if s.rqu.closed then .refuse .closed
  else if song = 0 ∨ s.prm.catalogSize < song then .refuse .unknownSong
  else if s.prm.recentBlock && s.rqu.history.any (fun e => e.song == song) then .refuse .recent
  else if s.prm.dupBlock && s.rqu.queue.any (fun t => t.song == song) then .refuse .duplicate
  else if s.prm.limit ≤ waitingCount h s.rqu.queue then .refuse .limit
  else if 32 ≤ s.rqu.queue.length then .full
  else .accept

/-- A handset's pending slot set, and the image that shows it owed (R156). -/
def State.setSlot (h : Fin 16) (x : Option HeldRequest) (s : State) : State :=
  { s with rqu := { s.rqu with
      handsets := vset s.rqu.handsets h { s.rqu.handsets.get h with slot := x }, imageOwed := true } }

/-- A new REQUEST checked and answered (R134 to R136). -/
def State.handleRequest (h : Fin 16) (req : HeldRequest) (s : State) : State :=
  match s.checkRequest h req.song with
  | .refuse why => s.issueReply h (.refused why) false
  | .full =>
    if (s.rqu.handsets.get h).slot = none then (s.setSlot h (some req)).issueReply h .held false
    else s.issueReply h (.refused .queueFull) false
  | .accept => s.acceptRequest h req.song req.key req.singers

/-! ## Leaving the queue (R137, R138) -/

/-- The handsets in the order the arbiter over queue space visits them (R138). -/
def drainOrder (last : Option (Fin 16)) : List (Fin 16) :=
  (List.finRange 16).map (fun i => match last with
    | none => i
    | some l => l + 1 + i)

/-- The arbiter's visit to one handset (R138). -/
def State.drainVisit (s : State) (h : Fin 16) : State :=
  match (s.rqu.handsets.get h).slot with
  | none => s
  | some req =>
    if s.rqu.queue.length < 32 then
      let s := s.setSlot h none
      let s := { s with rqu := { s.rqu with lastDrained := some h } }
      match s.checkRequest h req.song with
      | .refuse why => s.issueReply h (.refused why) false
      | .full => s
      | .accept => s.acceptRequest h req.song req.key req.singers
    else s

/-- The pending slots drained into the freed space (R138). -/
def State.drainSlots (s : State) : State := (drainOrder s.rqu.lastDrained).foldl State.drainVisit s

/-- A ticket leaves the queue, with the bookkeeping of R137; `withdrawn` says it left by CANCEL or REMOVE. -/
def State.depart (t : Ticket) (withdrawn : Bool) (s : State) : State :=
  let old := s.rqu.queue.length
  let q := s.rqu.queue.filter (fun u => u.number != t.number)
  let s := { s with rqu := { s.rqu with queue := if t.cls = TicketClass.normal then reorder (lowerRounds t q) else q } }
  let s := s.queueChanged old
  let s := if t.cls = .staged then
      let s := { s with ctl := { s.ctl with staged := none } }
      if withdrawn then s.raise .stageWithdrawn else s
    else s
  let s := if old = 32 then s.drainSlots else s
  s.stageTest

/-! ## Packets (R139, R140) -/

/-- A new CANCEL packet of handset `h` (R139). -/
def State.handleCancel (h : Fin 16) (n : Nat) (s : State) : State :=
  if n = 0 then
    if (s.rqu.handsets.get h).slot = none then s.issueReply h (.refused .unknownTicket) false
    else (s.setSlot h none).issueReply h (.cancelled 0) false
  else
    match s.rqu.ticket n with
    | some t =>
      if t.source = .handset h then (s.issueReply h (.cancelled n) false).depart t true
      else s.issueReply h (.refused .notYours) false
    | none =>
      match s.scu.current with
      | some t =>
        if t.number = n then
          if t.source = .handset h then s.issueReply h (.refused .inUse) false
          else s.issueReply h (.refused .notYours) false
        else s.issueReply h (.refused .unknownTicket) false
      | none => s.issueReply h (.refused .unknownTicket) false

/-- The POSITIONS reply to handset `h` (R140). -/
def State.positionsOf (h : Fin 16) (s : State) : ReplyBody :=
  .positions
    (((s.rqu.queue.filter (fun t => t.source == .handset h)).map
      (fun t => ⟨t.number, positionOf t.number s.rqu.queue, t.cls⟩)).take 8)
    (s.rqu.handsets.get h).slot.isSome
    ((s.scu.current.filter (fun t => t.source == .handset h)).map Ticket.number)

/-- A packet's SEQUENCE becomes the handset's last sequence as soon as it is taken as new (R130). -/
def State.noteSequence (h : Fin 16) (q : Byte) (s : State) : State :=
  { s with rqu := { s.rqu with
      handsets := vset s.rqu.handsets h { s.rqu.handsets.get h with lastSeq := some q } } }

/-! ## Staff commands (R141 to R144), each answering a result code and its values -/

/-- What an owner answers to a command: the state, the result code, the result's values. -/
structure Answer where
  state : State
  rc : ResultCode
  values : List Word := []

/-- INSERT (R141). A bad argument is answered before a full queue is: DESIGN CHOICE, log 30. -/
def State.takeInsert (song : Nat) (key : Int) (singers : Nat) (priority : Bool) (s : State) : Answer :=
  if song = 0 ∨ s.prm.catalogSize < song ∨ key < -12 ∨ 12 < key ∨ (singers ≠ 1 ∧ singers ≠ 2) then ⟨s, .badArg, []⟩
  else if 32 ≤ s.rqu.queue.length then ⟨s, .queueFull, []⟩
  else
    let t := s.newTicket .staff song key singers (if priority then .priority else .normal)
    let old := s.rqu.queue.length
    let s := s.joinQueue t
    let pos := positionOf t.number s.rqu.queue
    ⟨(s.queueChanged old).stageTest, .ok, [BitVec.ofNat 32 t.number, BitVec.ofNat 32 pos]⟩

/-- REMOVE (R142). -/
def State.takeRemove (n : Nat) (s : State) : Answer :=
  match s.rqu.ticket n with
  | some t => ⟨(s.replyToSource t.source (.cancelled n)).depart t true, .ok, []⟩
  | none => if (s.scu.current.map Ticket.number) = some n then ⟨s, .state, []⟩ else ⟨s, .badArg, []⟩

/-- PROMOTE (R143). -/
def State.takePromote (n : Nat) (s : State) : Answer :=
  match s.rqu.ticket n with
  | some t =>
    if t.cls = .normal then
      let stamp := s.rqu.arrival + 1
      let rest := lowerRounds t (s.rqu.queue.filter (fun u => u.number != n))
      let q := placeTicket { t with cls := .priority, round := 0, arrival := stamp } (reorder rest)
      let s := { s with rqu := { s.rqu with queue := q, arrival := stamp } }
      ⟨(s.queueChanged q.length).stageTest, .ok, [BitVec.ofNat 32 (positionOf n q)]⟩
    else ⟨s, .state, []⟩
  | none => if (s.scu.current.map Ticket.number) = some n then ⟨s, .state, []⟩ else ⟨s, .badArg, []⟩

/-- OPEN (R144). -/
def State.takeOpen (s : State) : Answer :=
  ⟨{ s with rqu := { s.rqu with closed := false, imageOwed := s.rqu.imageOwed || s.rqu.closed } }, .ok, []⟩

/-- CLOSE's visit to one handset: an occupied slot is emptied and REFUSED(CLOSED) issued (R144). -/
def State.closeVisit (s : State) (h : Fin 16) : State :=
  match (s.rqu.handsets.get h).slot with
  | none => s
  | some _ => (s.setSlot h none).issueReply h (.refused .closed) false

/-- CLOSE (R144). -/
def State.takeClose (s : State) : Answer :=
  let s := { s with rqu := { s.rqu with closed := true, imageOwed := s.rqu.imageOwed || !s.rqu.closed } }
  ⟨(List.finRange 16).foldl State.closeVisit s, .ok, []⟩

/-- The Request Queue Unit's part of CLEAR_ROOM (R127, R147, R183). -/
def State.clearQueue (s : State) : State :=
  let s' := { s with
    rqu := { s.rqu with
      queue := [], history := [], handsets := Vector.replicate 16 {}, arrival := 0, lastDrained := none
      closed := false, imageOwed := true }
    ctl := { s.ctl with staged := none } }
  if s.rqu.queue = [] then s' else s'.raise .queueChanged

/-- The history list's new head, the oldest of 8 dropped (R145). -/
def State.pushHistory (t : Ticket) (s : State) : State :=
  { s with rqu := { s.rqu with
      history := ⟨t.song, t.number, t.source⟩ :: s.rqu.history.take 7, imageOwed := true } }

end Sys2Proof.Machine
end

