-- ==== Sys2Proof/Machine/Score.lean ====
section
/-! DEFINITION. The Score Unit (chapter 7): applying judgements and drops, SCORE_TICK, clearing at START,
the write-out with its SCORE reply, ASSIGN's checks, and its part of CLEAR_ROOM. -/

namespace Sys2Proof.Machine

/-- The greatest value of an accumulator (Table 7-1). -/
def accMax : Nat := 4294967295

/-- An accumulator raised by `n`, stopping at its limit (R118). -/
def bump (n x : Nat) : Nat := min accMax (x + n)

/-- One judgement as the Pitch Judgement Engine hands it (R112). -/
structure Judgement where
  channel : Fin 4
  ticket : Nat
  band : Band
  points : Nat
  possible : Nat
  unvoiced : Bool
  fold : Bool
  deriving DecidableEq, Repr

/-- The accumulators after a judgement that is applied (R118). -/
def Totals.apply (j : Judgement) (t : Totals) : Totals :=
  let run := j.band = .perfect ∨ j.band = .good
  let streak := if run then bump 1 t.streak else 0
  { t with
    earned := bump j.points t.earned
    possible := t.possible + j.possible
    perfect := if j.band = .perfect then bump 1 t.perfect else t.perfect
    good := if j.band = .good then bump 1 t.good else t.good
    fair := if j.band = .fair then bump 1 t.fair else t.fair
    miss := if j.band = .miss then bump 1 t.miss else t.miss
    unvoiced := if j.unvoiced then bump 1 t.unvoiced else t.unvoiced
    folds := if j.fold then bump 1 t.folds else t.folds
    streak := streak
    maxStreak := if run then max t.maxStreak streak else t.maxStreak
    lastBand := some j.band }

/-- The ACTIVE singer that holds a channel. -/
def Scr.holder (ch : Nat) (c : Scr) : Option (Fin 4) :=
  vfind c.singers (fun g => g.active && g.mic == some ch)

/-- The singer a judgement is for: ACTIVE, its MIC the channel, its link the ticket (R117). -/
def Scr.matching (j : Judgement) (c : Scr) : Option (Fin 4) :=
  vfind c.singers (fun g => g.active && g.mic == some j.channel.val && g.link == some j.ticket)

/-- Whether judgements are applied now: not in IDLE, WRITE_OUT or BANNER (R117). -/
def Scu.takesJudgements (c : Scu) : Bool :=
  c.state != .idle && c.phase != some .writeOut && c.phase != some .banner

/-- A singer's accumulators replaced. -/
def Scr.setTotals (i : Fin 4) (t : Totals) (c : Scr) : Scr :=
  { c with singers := vset c.singers i { c.singers.get i with totals := t } }

/-- The cadence count after an applied judgement; SCORE_TICK when it reaches SCORE_CADENCE (R120). -/
def State.tick (s : State) : State :=
  if s.scr.cadence ≤ s.scr.cadenceCount + 1 then
    State.raise .scoreTick { s with scr := { s.scr with cadenceCount := 0 } }
  else { s with scr := { s.scr with cadenceCount := s.scr.cadenceCount + 1 } }

/-- A judgement handed to the Score Unit (R117, R118, R120). -/
def State.applyJudgement (j : Judgement) (s : State) : State :=
  if s.scu.takesJudgements then
    match s.scr.matching j with
    | none => s
    | some i =>
      let t := (s.scr.singers.get i).totals
      if accMax < t.possible + j.possible then s
      else State.tick { s with scr := s.scr.setTotals i (t.apply j) }
  else s

/-- A dropped block counted against the singer that holds its channel (R119). -/
def Scr.countDrop (ch : Fin 4) (c : Scr) : Scr :=
  match c.holder ch.val with
  | none => c
  | some i =>
    let t := (c.singers.get i).totals
    c.setTotals i { t with dropped := bump 1 t.dropped }

/-- START completion: every ACTIVE singer's accumulators cleared and linked to the new ticket, the cadence
count 0 (R121). -/
def Scr.startSong (ticket : Nat) (c : Scr) : Scr :=
  { c with
    singers := c.singers.map (fun g => if g.active then { g with totals := {}, link := some ticket } else g)
    cadenceCount := 0 }

/-- The return to IDLE: every ticket link becomes absent (R20, R121). -/
def Scr.unlink (c : Scr) : Scr := { c with singers := c.singers.map (fun g => { g with link := none }) }

/-- CLEAR_ROOM: every singer record and the cadence count at their reset values (R113). -/
def Scr.clear (c : Scr) : Scr := { c with singers := Vector.replicate 4 {}, cadenceCount := 0 }

/-- The write-out begins (R122): the record's writes, the advanced index's write, and for a handset's
ticket the SCORE reply (R124). -/
def State.beginWriteOut (s : State) : State :=
  match s.scu.current with
  | none => s
  | some t =>
    let n := s.scr.lastResult + 1
    let idx := s.scr.writeIndex
    let idx' := (idx + 1) % 8
    let base := baseOf s.ptu.windows.image
    let singers := s.scr.activeSingers
    let s1 := { s with
      scr := { s.scr with lastResult := n, writeIndex := idx', scoreWaiting := false }
      ptu := s.ptu.startOp .writeOut .resultRecord
        (writesOver (base + 0x400 + 0x100 * idx) (resultRecordBytes n t s.scu singers) ++
         writesOver (base + 0x200) (leBytes 4 idx')) }
    match t.source with
    | .staff => s1
    | .handset h =>
      State.issueReply h (.score t.number t.song (singers.map (fun p => ⟨p.1, p.2.totals.score⟩))) true
        { s1 with scr := { s1.scr with scoreWaiting := true } }

/-! ## ASSIGN (R115, R116) -/

/-- The part an ASSIGN names: 1 A, 2 B, 0 OFF (Table 12-2), none for any other value. -/
inductive AssignPart where
  | off
  | part (p : SingerPart)
  deriving DecidableEq, Repr

/-- ASSIGN's part word (Table 12-2). -/
def readAssignPart (n : Nat) : Option AssignPart :=
  match n with
  | 0 => some .off
  | 1 => some (.part .a)
  | 2 => some (.part .b)
  | _ => none

/-- Whether another ACTIVE singer's MIC equals `mic` (R115). -/
def Scr.micTaken (i : Fin 4) (mic : Nat) (c : Scr) : Bool :=
  (List.finRange 4).any (fun j => j != i && (c.singers.get j).active && (c.singers.get j).mic == some mic)

/-- An assignment taken (R116): the new record and the channels it touches (R90). -/
def Singer.assign (g : Singer) (mic : Nat) (p : AssignPart) (link : Option Nat) : Singer × List Nat :=
  match p with
  | .off => if g.active then ({ g with active := false, mic := none, part := none }, g.mic.toList) else (g, [])
  | .part q =>
    if g.active then ({ g with mic := some mic, part := some q }, mic :: g.mic.toList)
    else ({ active := true, mic := some mic, part := some q, link := link, totals := {} }, [mic])

end Sys2Proof.Machine
end

