-- ==== Sys2Proof/Machine/Voice.lean ====
section
/-! DEFINITION. The Voice Intake's own state (chapter 5): halves, HOLD, the capture position, decimation, and
what SEEKING, the return to IDLE, SETUP and ASSIGN do to it; and the SCU's wait for the drain (R18). The
completion of a block, which hands it on to the Pitch Judgement Engine, is Capture.lean's. -/

namespace Sys2Proof.Machine

/-- The other half of a channel. -/
def otherHalf (k : Fin 2) : Fin 2 := if k = 0 then 1 else 0

/-- A half FREE and empty. -/
def Half.freed : Half := {}

/-- A half FILLING and empty. -/
def Half.emptied : Half := { state := .filling }

/-- A channel's half replaced. -/
def Channel.setHalf (c : Channel) (k : Fin 2) (h : Half) : Channel := { c with halves := vset c.halves k h }

/-- A channel replaced. -/
def Vin.setChannel (v : Vin) (ch : Fin 4) (c : Channel) : Vin := { v with channels := vset v.channels ch c }

/-- Every decimator sum and count set to 0 (R79, R80, R90). -/
def Vin.clearDecimators (v : Vin) : Vin :=
  { v with channels := v.channels.map (fun c => { c with sum := 0, count := 0 }) }

/-- The Pitch Judgement Engine releases a half: FILLING and empty when the channel is in HOLD, which ends,
and FREE otherwise (R86, R87). -/
def Vin.release (ch : Fin 4) (k : Fin 2) (v : Vin) : Vin :=
  let c := v.channels.get ch
  if c.hold then v.setChannel ch { c.setHalf k Half.emptied with hold := false }
  else v.setChannel ch (c.setHalf k Half.freed)

/-- SEEKING is entered (R88): the queue is emptied, its halves and every FILLING half become FREE, HOLD is
cleared; the decimator sums and an ANALYSING half are kept. -/
def Vin.seekFlush (v : Vin) : Vin :=
  { v with
    queue := []
    channels := v.channels.map (fun c =>
      { c with hold := false
               halves := c.halves.map (fun h => if h.state = .analysing then h else Half.freed) }) }

/-- The return to IDLE (R89): every half FREE, every HOLD and decimator cleared; the capture position kept. -/
def Vin.songOver (v : Vin) : Vin := { v with channels := Vector.replicate 4 {}, drainReported := false }

/-- A SETUP taken (R90). -/
def Vin.setup (v : Vin) : Vin :=
  { v with channels := Vector.replicate 4 {}, queue := [], expected := none }

/-- An ASSIGN taken that touches the channels `chs` (R90). -/
def Vin.assign (chs : List Nat) (v : Vin) : Vin :=
  if chs = [] then v
  else
    { v.clearDecimators with
      expected := none
      channels := (List.finRange 4).foldl (fun acc i =>
        let c := acc.get i
        vset acc i (if i.val ∈ chs then { c with halves := Vector.replicate 2 {}, hold := false } else c))
        v.clearDecimators.channels }

/-! ## The drain (R18, R19, R122) -/

/-- In DRAIN, both drain reports standing: FINISH_PHASE becomes WRITE_OUT, the write-out begins, and the
change is reported to the Request Queue Unit (R18); that the report comes second is a DESIGN CHOICE, log 10. -/
def State.drainCheck (s : State) : State :=
  if s.scu.state = .finishing ∧ s.scu.phase = some .drain ∧ s.vin.drainReported = true ∧ s.pje.drainReported = true then
    (State.beginWriteOut { s with scu := { s.scu with phase := some .writeOut } }).stageTest
  else s

/-- The Voice Intake reports that it holds no block of the song, once for each entry into FINISHING, when
its queue is empty in DRAIN (R89). -/
def State.vinDrain (s : State) : State :=
  if s.scu.state = .finishing ∧ s.scu.phase = some .drain ∧ s.vin.queue = [] ∧ s.vin.drainReported = false then
    State.drainCheck { s with vin := { s.vin with drainReported := true } }
  else s

/-- The Pitch Judgement Engine reports its drain, once for each entry into FINISHING, when it has no block
in hand and the queue is empty (R112). -/
def State.pjeDrain (s : State) : State :=
  if s.scu.state = .finishing ∧ s.scu.phase = some .drain ∧ s.vin.queue = [] ∧ s.pje.block = none ∧
      s.pje.drainReported = false then
    State.drainCheck { s with pje := { s.pje with drainReported := true } }
  else s

/-! ## The capture position (R79, R80) -/

/-- Whether a channel is live: below C and the MIC of an ACTIVE singer (R81). -/
def State.channelLive (s : State) (ch : Nat) : Bool :=
  ch < s.prm.channels && (s.scr.holder ch).isSome

/-- Whether live channels' samples are decimated in this STATE (R81). -/
def SongState.sings : SongState → Bool
  | .playing => true
  | .seeking => true
  | .finishing => true
  | .idle => false
  | .starting => false

/-- The phase computed from a write's offset in the MIC window (R79). -/
def phaseAt (channels : Nat) (offset : Int) : Nat := (offset % (2 * channels : Nat)).toNat / 2

/-- The address after a write's last beat, wrapped to the window base at the window's end (R79). -/
def nextExpected (w : Window) (addr : Nat) : Nat := if addr = w.base + w.size then w.base else addr

/-- The capture position before a whole write's first sample: continuing, starting or across a gap (R79, R80). -/
def Vin.seat (channels : Nat) (w : Window) (first : Nat) (v : Vin) : Vin :=
  match v.expected with
  | some e =>
    if e = first then v
    else { v.clearDecimators with micGap := v.micGap + 1, phase := phaseAt channels ((first : Int) - w.base) }
  | none => { v.clearDecimators with phase := phaseAt channels ((first : Int) - w.base) }

/-- A write with a byte enable clear (R80). -/
def Vin.partialWrite (v : Vin) : Vin :=
  { v.clearDecimators with micGap := v.micGap + 1, expected := none }

/-- A decimator given one sample: the fourth gives y = floor(sum / 4) (R82). -/
def Channel.addSample (c : Channel) (x : Int) : Channel × Option Int :=
  if c.count = 3 then ({ c with sum := 0, count := 0 }, some ((c.sum + x) / 4))
  else ({ c with sum := c.sum + x, count := c.count + 1 }, none)

/-- The FILLING half of a channel, the channel first given one when it has none: half 0 if FREE, otherwise
half 1 (R83). -/
def Channel.fillingHalf (c : Channel) : Fin 2 × Channel :=
  if (c.halves.get 0).state = .filling then (0, c)
  else if (c.halves.get 1).state = .filling then (1, c)
  else if (c.halves.get 0).state = .free then (0, c.setHalf 0 Half.emptied)
  else (1, c.setHalf 1 Half.emptied)

end Sys2Proof.Machine
end

