-- ==== Sys2Proof/Machine/Pitch.lean ====
section
/-! DEFINITION. The Pitch Judgement Engine (chapter 6): measurement, the note windows and their fetch, the
lookup, the judgement of Table 6-3 and the end of an analysis. -/

namespace Sys2Proof.Machine

/-! ## Measurement (R97 to R101) -/

/-- The level A (R97). -/
def level (x : List Int) : Nat := (x.foldl (fun acc v => acc + v.natAbs) 0) / 256

/-- D(L): the sum over n from 0 to 79 of |x[n] - x[n + L]| (R98). -/
def amdf (x : List Int) (lag : Nat) : Nat :=
  ((x.take 80).zip (x.drop lag)).foldl (fun acc p => acc + (p.1 - p.2).natAbs) 0

/-- D(12) to D(176) (R98). -/
def amdfTable (x : List Int) : List Nat := (List.range 165).map (fun i => amdf x (12 + i))

/-- D(L) from the table. -/
def dAt (d : List Nat) (lag : Nat) : Nat := d.getD (lag - 12) 0

/-- Dmin (R98). -/
def dMin (d : List Nat) : Nat := d.foldl min (d.headD 0)

/-- Dmax (R98). -/
def dMax (d : List Nat) : Nat := d.foldl max 0

/-- The chosen lag L* (R99). -/
def chosenLag (d : List Nat) : Option Nat :=
  ((List.range 163).map (13 + ·)).find? (fun l =>
    decide (dAt d l ≤ dAt d (l - 1)) && decide (dAt d l ≤ dAt d (l + 1)) && decide (dAt d l ≤ dMin d + dMin d / 8))

/-- Clarity at a chosen lag (R100). -/
def clarity (d : List Nat) (lag : Nat) : Nat := 256 - 256 * dAt d lag / dMax d

/-- frac of the refinement between lags (R101). -/
def refine (below at_ above : Nat) : Int :=
  let num : Int := (below : Int) - above
  let den : Int := (below : Int) - 2 * at_ + above
  if den ≤ 0 then 0
  else clampInt (-8) 8 (num.sign * ((16 * num.natAbs + den.toNat) / (2 * den.toNat) : Nat))

/-- The measured period Lm of a block, none when UNVOICED (R99 to R101). -/
def measure (prm : Scoring) (x : List Int) : Option Nat :=
  let d := amdfTable x
  match chosenLag d with
  | none => none
  | some l =>
    if dMax d ≠ 0 ∧ prm.gate ≤ level x ∧ prm.clarityMin ≤ clarity d l then
      some ((16 * (l : Int) + refine (dAt d (l - 1)) (dAt d l) (dAt d (l + 1))).toNat)
    else none

/-! ## Judging a period (R109, R110) -/

/-- The semitone factors K[s] (Table 6-5). -/
def semitone (s : Nat) : Nat :=
  [65536, 69433, 73562, 77936, 82570, 87480, 92682, 98193, 104032, 110218, 116772, 123715, 131072].getD s 65536

/-- The reference period scaled by the block's KEY (R109). -/
def scaledPeriod (lr : Nat) (key : Int) : Nat :=
  if key = 0 then lr
  else if 0 < key then (lr * 65536 + semitone key.toNat / 2) / semitone key.toNat
  else (lr * semitone (-key).toNat + 32768) / 65536

/-- The deviation of a measured period from a candidate (R110). -/
def deviation (lm c : Nat) : Nat := ((lm : Int) - c).natAbs * 4096 / c

/-- The taken deviation and the fold mark; ties go to C0, then C-, then C+ (R110). -/
def takenDeviation (fold : Bool) (lm lr : Nat) : Nat × Bool :=
  let d0 := deviation lm lr
  let dUp := deviation lm ((lr + 1) / 2)
  let dDown := deviation lm (2 * lr)
  if !fold || (d0 ≤ dUp && d0 ≤ dDown) then (d0, false)
  else if dUp ≤ dDown then (dUp, true)
  else (dDown, true)

/-- The band of a taken deviation (R110). -/
def bandOf (prm : Scoring) (d : Nat) : Band :=
  if d ≤ prm.pMax then .perfect
  else if d ≤ prm.gMax then .good
  else if d ≤ prm.fMax then .fair
  else .miss

/-- The points of a band over a note of weight `w` (R110). -/
def bandPoints (b : Band) (w : Nat) : Nat :=
  match b with
  | .perfect => 4 * w
  | .good => 3 * w
  | .fair => w
  | .miss => 0

/-- The judgement of a block over a note (R109, R110, R112). -/
def judgeOver (b : BlockInHand) (period : Option Nat) (n : Note) : Judgement :=
  match period with
  | none => ⟨b.entry.channel, b.entry.ticket, .miss, 0, 4 * n.weight, true, false⟩
  | some lm =>
    let d := takenDeviation b.prm.octaveFold lm (scaledPeriod n.period b.entry.key)
    let band := bandOf b.prm d.1
    ⟨b.entry.channel, b.entry.ticket, band, bandPoints band n.weight, 4 * n.weight, false, d.2⟩

/-! ## The note windows (R102 to R107) -/

/-- A note's end (R102). -/
def Note.finish (n : Note) : Nat := n.start + n.duration

/-- Whether a note covers a reference time (R102). -/
def Note.covers (n : Note) (t : Nat) : Bool := n.start ≤ t && t < n.finish

/-- Whether every window of a note's part has room (R103). -/
def Pje.hasRoom (n : Note) (p : Pje) : Bool :=
  match n.part with
  | .a => p.winA.length < 4
  | .b => p.winB.length < 4
  | .both => p.winA.length < 4 && p.winB.length < 4

/-- A note joins the tail of its window, or of both (R103). -/
def Pje.addNote (n : Note) (p : Pje) : Pje :=
  match n.part with
  | .a => { p with winA := p.winA ++ [n] }
  | .b => { p with winB := p.winB ++ [n] }
  | .both => { p with winA := p.winA ++ [n], winB := p.winB ++ [n] }

/-- A decoded note is admitted when it is within reach and has room, and otherwise held (R103). -/
def Pje.takeNote (reach : Nat) (n : Note) (p : Pje) : Pje :=
  if n.start ≤ reach && p.hasRoom n then p.addNote n else { p with held := some n }

/-- The held note admitted if it may be (R104). -/
def Pje.retryHeld (reach : Nat) (p : Pje) : Pje :=
  match p.held with
  | none => p
  | some n => Pje.takeNote reach n { p with held := none }

/-- Whether a note's end is at or below the leaving bound SONG_MS - LATENCY_MS - 1000 (R104). -/
def noteLeft (songMs latency : Nat) (n : Note) : Bool := n.finish + latency + 1000 ≤ songMs

/-- The leaving bound applied to both windows (R104). -/
def Pje.leave (songMs : Nat) (p : Pje) : Pje :=
  { p with
    winA := p.winA.filter (fun n => !noteLeft songMs p.prm.latencyMs n)
    winB := p.winB.filter (fun n => !noteLeft songMs p.prm.latencyMs n) }

/-- Whether note fetches are issued now (R103). -/
def State.notesRun (s : State) : Bool :=
  match s.scu.state with
  | .playing => true
  | .seeking => s.pje.rebuild
  | .finishing => s.scu.phase == some .drain
  | .idle => false
  | .starting => false

/-- A note fetch issued when its conditions hold (R103). -/
def State.tryNoteFetch (s : State) : State :=
  if s.pje.fetch = none ∧ s.pje.held = none ∧ s.pje.cursor < s.pje.noteCount ∧ s.notesRun = true then
    { s with
      pje := { s.pje with fetch := some s.ptu.nextOp }
      ptu := s.ptu.startOp .note .noteFetch (readsOver (s.pje.noteBase + 8 * s.pje.cursor) 8) }
  else s

/-- The engine emptied of its song: windows, held note, fetch front and cursor, the fetch orphaned (R105, R106). -/
def Pje.emptied (p : Pje) : Pje :=
  { p with winA := [], winB := [], held := none, front := none, cursor := 0, fetch := none }

/-! ## The lookup (R108) -/

/-- What the lookup finds. -/
inductive Lookup where
  | late
  | wait
  | rest
  | note (n : Note)
  deriving DecidableEq, Repr

/-- The covering note with the latest start, the later admitted of two with one start (R108). -/
def coveringNote (t : Nat) (win : List Note) : Option Note :=
  win.foldl (fun best n =>
    if n.covers t then
      match best with
      | none => some n
      | some m => if m.start ≤ n.start then some n else best
    else best) none

/-- Whether the notes are ready for `t` (R108). -/
def Pje.notesReady (t : Nat) (p : Pje) : Bool :=
  (match p.front with
   | some f => decide (t < f)
   | none => false) || (p.cursor == p.noteCount && p.held == none)

/-- The window of a singer's part. -/
def Pje.window (part : Option SingerPart) (p : Pje) : List Note :=
  match part with
  | some .a => p.winA
  | some .b => p.winB
  | none => []

/-- The lookup at reference time `t` for a singer's part (R108). -/
def Pje.lookup (songMs t : Nat) (part : Option SingerPart) (p : Pje) : Lookup :=
  if t + p.prm.latencyMs + 1000 < songMs then .late
  else if p.notesReady t then
    match coveringNote t (p.window part) with
    | some n => .note n
    | none => .rest
  else if p.fetch.isSome then .wait
  else .late

/-! ## Taking a block and ending its analysis (R94 to R96) -/

/-- The engine, with no block in hand, takes the head of the analysis queue; a take that empties the queue
in DRAIN makes the Voice Intake's report (R94, R87, R89). -/
def State.takeBlock (s : State) : State :=
  match s.pje.block, s.vin.queue with
  | none, e :: rest =>
    let c := s.vin.channels.get e.channel
    let h := c.halves.get e.half
    State.vinDrain { s with
      vin := { s.vin.setChannel e.channel (c.setHalf e.half { h with state := .analysing }) with queue := rest }
      pje := { s.pje with block := some ⟨e, s.pje.prm, .measuring⟩ } }
  | _, _ => s

/-- An analysis ends: the half is released, the drain report made when it is due, and the next block
taken (R96, R112). -/
def State.endAnalysis (e : BlockEntry) (s : State) : State :=
  let s := { s with vin := s.vin.release e.channel e.half, pje := { s.pje with block := none } }
  s.pjeDrain.takeBlock

/-- NOTE_LATE counted for a block that is stale or whose notes are late (R108). -/
def State.countNoteLate (s : State) : State := { s with pje := { s.pje with noteLate := s.pje.noteLate + 1 } }

/-- The judging steps of Table 6-3 for the block in hand (R95). -/
def State.judge (s : State) (b : BlockInHand) (period : Option Nat) : State :=
  if (s.scu.current.map Ticket.number) ≠ some b.entry.ticket then s.endAnalysis b.entry
  else if b.entry.songMs < b.prm.latencyMs then s.endAnalysis b.entry
  else
    let t := b.entry.songMs - b.prm.latencyMs
    if s.scu.state = .finishing ∧ (s.pje.endTime.any (fun e => decide (e ≤ t))) = true then s.endAnalysis b.entry
    else
      match s.scr.holder b.entry.channel.val with
      | none => s.endAnalysis b.entry
      | some i =>
        match s.pje.lookup s.songMs t (s.scr.singers.get i).part with
        | .late => s.countNoteLate.endAnalysis b.entry
        | .wait => { s with pje := { s.pje with block := some { b with phase := .judging period } } }
        | .rest => s.endAnalysis b.entry
        | .note n => (s.applyJudgement (judgeOver b period n)).endAnalysis b.entry

/-- A judgement that waits is tried again from the first step (R95, R108). -/
def State.retryJudgement (s : State) : State :=
  match s.pje.block with
  | some b =>
    match b.phase with
    | .judging period => s.judge b period
    | .measuring => s
  | none => s

/-- The engine's part of a SONG_MS offer (R104): the leaving bound, the held note, the fetch conditions,
the waiting judgement. -/
def State.offerPje (s : State) : State :=
  let p := (s.pje.leave s.songMs).retryHeld (s.songMs + s.prm.lookaheadMs)
  (State.tryNoteFetch { s with pje := p }).retryJudgement

/-- The report of SEEKING: the block in hand is dropped and its half released (R96). -/
def State.abortAnalysis (s : State) : State :=
  match s.pje.block with
  | none => s
  | some b => { s with vin := s.vin.release b.entry.channel b.entry.half, pje := { s.pje with block := none } }

end Sys2Proof.Machine
end

