-- ==== Sys2Proof/Machine/LineSlots.lean ====
section
/-! DEFINITION. Line slots, positions, the wipe and the scroll of the Lyric Sequencer (sections 2.5 and 2.6),
the loads of its slots, and its emptying at the end of a song (R22, R23). -/

namespace Sys2Proof.Machine

/-! ## Positions, wipe and scroll (R35 to R37) -/

/-- P(0) of a line whose advances sum to `w` (R35); an empty CENTRE line stands at the band's middle. -/
def leftEdge (prm : Setup) (align : Align) (w : Nat) : Nat :=
  match align with
  | .left => prm.bandX
  | .centre => if w ≤ prm.bandW then prm.bandX + (prm.bandW - w) / 2 else prm.bandX

/-- P(0) to P(g) from the left edge and the advances (R35). -/
def positionsFrom : Nat → List Glyph → List Nat
  | x, [] => [x]
  | x, g :: rest => x :: positionsFrom (x + g.advance) rest

/-- The sum of a line's advances. -/
def lineWidth (gs : List Glyph) : Nat := gs.foldl (fun acc g => acc + g.advance) 0

/-- P(i) of a slot. -/
def LineSlot.pos (c : LineSlot) (i : Nat) : Nat := c.positions.getD i (c.positions.getLastD 0)

/-- The wipe boundary computed at SONG_MS `t` (R37). -/
def LineSlot.boundary (c : LineSlot) (t : Nat) : Nat :=
  match (c.syllables.filter (fun k => k.start ≤ t)).getLast? with
  | none => c.pos 0
  | some k =>
    let x0 := c.pos k.first
    let x1 := c.pos (k.first + k.count)
    if k.start + k.duration ≤ t then x1 else x0 + (x1 - x0) * (t - k.start) / k.duration

/-- The wiped x brought up to date for a slot whose load has completed (R37, R38). -/
def LineSlot.wipe (c : LineSlot) (t : Nat) : LineSlot :=
  if c.filled then { c with wiped := max c.wiped (c.boundary t) } else c

/-- The scroll offset at SONG_MS `t` (R36). -/
def scrollOffset (scrollMs : Nat) (scroll : Option Nat) (t : Nat) : Nat :=
  match scroll with
  | none => 48
  | some t0 => if scrollMs = 0 then 48 else min 48 (48 * (t - t0) / scrollMs)

/-! ## Slots and their loads (R31, R32) -/

/-- A slot replaced. -/
def Lsq.setSlot (q : Lsq) (k : Fin 8) (c : LineSlot) : Lsq := { q with slots := vset q.slots k c }

/-- The lowest-numbered FREE slot (R31). -/
def Lsq.freeSlot (q : Lsq) : Option (Fin 8) := vfind q.slots (fun c => c.state == .free)

/-- A slot moved to `st`, a load still in flight for it orphaned (R32). -/
def State.retireSlot (k : Fin 8) (st : SlotState) (s : State) : State :=
  let c := s.lsq.slots.get k
  { s with
    lsq := s.lsq.setSlot k { c with state := st, load := none }
    ptu := s.ptu.orphanId c.load }

/-- A slot claimed for a line: late cleared, wiped x at BAND_X, its load begun (R31, R32). -/
def State.claimSlot (k : Fin 8) (st : SlotState) (line : Nat) (s : State) : State :=
  let c := s.lsq.slots.get k
  { s with
    lsq := s.lsq.setSlot k { c with state := st, line := line, late := false, wiped := s.prm.bandX
                                    load := some s.ptu.nextOp, filled := false }
    ptu := s.ptu.startOp .line .lineLoad (readsOver (s.lsq.lineBase + 512 * line) 512) }

/-- The oldest unbound LINE_IN of the queue, bound to the slot. -/
def bindFirst (k : Fin 8) : List QueuedCue → List QueuedCue
  | [] => []
  | c :: rest =>
    match c.cue.kind, c.slot with
    | .lineIn _, none => { c with slot := some k } :: rest
    | _, _ => c :: bindFirst k rest

/-- The line of the oldest unbound LINE_IN of the queue. -/
def firstUnbound : List QueuedCue → Option Nat
  | [] => none
  | c :: rest =>
    match c.cue.kind, c.slot with
    | .lineIn n, none => some n
    | _, _ => firstUnbound rest

/-- The oldest unbound LINE_IN claims the lowest-numbered FREE slot, while there are both (R31). -/
def State.bindUnbound : Nat → State → State
  | 0, s => s
  | fuel + 1, s =>
    match s.lsq.freeSlot, firstUnbound s.lsq.queue with
    | some k, some n =>
      State.bindUnbound fuel
        (State.claimSlot k .loading n { s with lsq := { s.lsq with queue := bindFirst k s.lsq.queue } })
    | _, _ => s

/-- Every FREE slot offered to the unbound LINE_IN cues in list order (R31). -/
def State.bindFree (s : State) : State := s.bindUnbound 8

/-- LINE_LATE raised, and counted when `counted` (R32, R33). -/
def State.lineLateRaised (counted : Bool) (s : State) : State :=
  State.raise .lineLate (if counted then { s with lsq := { s.lsq with lineLate := s.lsq.lineLate + 1 } } else s)

/-- A completed load fills its slot (R32, R34, R35); a LOADING slot becomes LOADED. -/
def LineSlot.fill (prm : Setup) (r : LineRecord) (c : LineSlot) : LineSlot :=
  let x := leftEdge prm r.align (lineWidth r.glyphs)
  { c with
    state := if c.state = .loading then .loaded else c.state
    part := r.part, align := r.align, glyphs := r.glyphs, syllables := r.syllables
    positions := positionsFrom x r.glyphs, wiped := x, load := none, filled := true }

/-- A failed load: the line taken as empty (R32; the slot keeps its PART and ALIGN, log 12). -/
def LineSlot.fail (prm : Setup) (c : LineSlot) : LineSlot :=
  { c.fill prm ⟨c.part, c.align, [], []⟩ with late := true }

/-! ## The end of a song (R22, R23) -/

/-- Whether an own operation is the LSQ's. -/
def OpKind.isLyric : OpKind → Bool
  | .cue => true
  | .line => true
  | _ => false

/-- Whether an own operation is a note fetch. -/
def OpKind.isNote : OpKind → Bool
  | .note => true
  | _ => false

/-- The LSQ as a song's end, priming or a rebuild leaves it, its list bases and counters kept (Table 2-1). The record
copies of the slots it makes FREE are cleared: DESIGN CHOICE, log 21. -/
def Lsq.emptied (q : Lsq) : Lsq :=
  { q with
    cursor := 0, held := none, fetch := none, queue := [], slots := Vector.replicate 8 {}, band := []
    scroll := none, pred := none, endTaken := false, rebuild := none }

end Sys2Proof.Machine
end

