-- ==== Sys2Proof/Machine/SongClock.lean ====
section
/-! DEFINITION. The Song Clock Unit's transitions that other blocks cause (chapter 1): entry into FINISHING,
the return to IDLE, and the song's length and limits. -/

namespace Sys2Proof.Machine

/-- The greatest SONG_MS (R5). -/
def songMsMax : Nat := 16777215

/-- The greatest integer frame count, 16,777,215 × 48 + 47 (R5). -/
def frameMax : Nat := 805306367

/-- FINISHING is entered (R17): END time, STATE and DRAIN, the report to the Request Queue Unit, the END
time handed to the Voice Intake and the Pitch Judgement Engine, a waiting judgement tried again (DEDUCED, log 19). That
these come in this order is a DESIGN CHOICE, log 10. -/
def State.enterFinishing (endMs : Nat) (s : State) : State :=
  let s := { s with
    scu := { s.scu with state := .finishing, phase := some .drain, endTime := some endMs }
    vin := { s.vin with drainReported := false }
    pje := { s.pje with drainReported := false, endTime := some endMs } }
  s.stageTest.vinDrain.pjeDrain.retryJudgement

/-- The return to IDLE without its report (R20, R21), with what it empties: the LSQ (R23), the note
windows (R105), the halves (R89) and the ticket links (R121). -/
def State.leaveSong (s : State) : State :=
  { s with
    scu := { s.scu with
      state := .idle, phase := none, current := none, bannerCount := 0
      seeked := false, stopped := false, endPending := false, endTime := none }
    lsq := s.lsq.emptied
    pje := { s.pje.emptied with endTime := none, drainReported := false }
    vin := s.vin.songOver
    scr := s.scr.unlink
    ptu := (s.ptu.orphan OpKind.isLyric).orphan OpKind.isNote }

/-- The return to IDLE with its report to the Request Queue Unit (R20). -/
def State.returnToIdle (s : State) : State := s.leaveSong.stageTest

/-- The banner count loaded, and the return to IDLE when it is loaded as 0 (R19). -/
def State.loadBanner (n : Nat) (s : State) : State :=
  if n = 0 then s.returnToIdle else { s with scu := { s.scu with bannerCount := n } }

/-- A frame latch taken in BANNER lowers the banner count by one; at zero the song returns to IDLE (R20). The staging
its report brings waits while its CALLED has no room in the intake line (R169, log 14). -/
def State.bannerLatch (s : State) : State :=
  if s.scu.state = .finishing ∧ s.scu.phase = some .banner then
    if s.scu.bannerCount ≤ 1 then s.leaveSong.whenRoom State.stageTest
    else { s with scu := { s.scu with bannerCount := s.scu.bannerCount - 1 } }
  else s

/-- The staging that a return to IDLE left waiting for the intake line (R169, log 14). -/
def State.resumeStaging (s : State) : State := if s.scu.state = .idle then s.whenRoom State.stageTest else s

end Sys2Proof.Machine
end

