-- ==== Sys2Proof/Machine/Lyrics.lean ====
section
/-! DEFINITION. The Lyric Sequencer at work (chapter 2): admitting, fetching and taking cues, a SONG_MS
offer, its part of a frame latch, and the SEEK rebuild; and the end of SEEKING, which waits for it (R16). -/

namespace Sys2Proof.Machine

/-! ## Admission and fetching (R25, R26) -/

/-- Whether a LINE_IN in the queue waits for a slot (R25). -/
def Lsq.unbound (q : Lsq) : Bool := (firstUnbound q.queue).isSome

/-- A cue joins the tail of the pending cue queue (R26), a LINE_IN claiming a slot if one is FREE (R31). -/
def State.queueCue (c : Cue) (s : State) : State :=
  let q := s.lsq
  let s := { s with lsq := { q with
      queue := q.queue ++ [QueuedCue.mk c none]
      badCue := if q.pred.any (fun p => decide (c.time < p)) then q.badCue + 1 else q.badCue
      pred := some c.time } }
  s.bindFree

/-- A decoded cue is queued when it is within the look-ahead and the queue has room, and otherwise held (R25). -/
def State.takeIn (c : Cue) (s : State) : State :=
  if c.time ≤ s.songMs + s.prm.lookaheadMs ∧ s.lsq.queue.length < 8 then s.queueCue c
  else { s with lsq := { s.lsq with held := some c } }

/-- The held cue queued if the condition that held it has cleared (R26). -/
def State.retryHeldCue (s : State) : State :=
  match s.lsq.held with
  | none => s
  | some c => State.takeIn c { s with lsq := { s.lsq with held := none } }

/-- Whether cue fetches are issued in this STATE (R25). -/
def SongState.fetchesCues : SongState → Bool
  | .playing => true
  | .seeking => true
  | .idle => false
  | .starting => false
  | .finishing => false

/-- A cue fetch issued when its conditions hold (R25). -/
def State.tryCueFetch (s : State) : State :=
  if s.lsq.fetch = none ∧ s.lsq.held = none ∧ s.lsq.cursor < s.lsq.cueCount ∧ s.lsq.queue.length < 8 ∧
      s.lsq.unbound = false ∧ s.lsq.endTaken = false ∧ s.scu.state.fetchesCues = true then
    { s with
      lsq := { s.lsq with fetch := some s.ptu.nextOp }
      ptu := s.ptu.startOp .cue .cueFetch (readsOver (s.lsq.cueBase + 8 * s.lsq.cursor) 8) }
  else s

/-! ## Taking cues (R28 to R30, R33, R39) -/

/-- A running scroll completes at once (R33, step 1); the slot it frees may be claimed (R31). -/
def State.snapScroll (s : State) : State :=
  match s.lsq.scroll with
  | none => s
  | some _ =>
    let s := { s with lsq := { s.lsq with scroll := none } }
    match s.lsq.band with
    | k :: rest =>
      if s.lsq.band.length = s.prm.bandRows + 1 then
        (State.retireSlot k .free { s with lsq := { s.lsq with band := rest } }).bindFree
      else s
    | [] => s

/-- A LINE_IN taken with slot `k` at SONG_MS `t0` (R33). -/
def State.takeLineIn (k : Fin 8) (t0 : Nat) (s : State) : State :=
  let s := s.snapScroll
  let c := s.lsq.slots.get k
  let s := { s with lsq := { s.lsq.setSlot k { c with state := .shown, late := c.late || !c.filled } with
      band := s.lsq.band ++ [k] } }
  let s := if c.filled then s else s.lineLateRaised true
  let s := { s with lsq := { s.lsq with scroll := some t0 } }
  match s.lsq.band with
  | top :: _ => if s.lsq.band.length = s.prm.bandRows + 1 then s.retireSlot top .leaving else s
  | [] => s

/-- BAND_CLEAR taken: every entry leaves the band, each slot LEAVING, the scroll ended (R39). -/
def State.takeBandClear (s : State) : State :=
  let band := s.lsq.band
  let s := band.foldl (fun s k => s.retireSlot k .leaving) s
  { s with lsq := { s.lsq with band := [], scroll := if band = [] then s.lsq.scroll else none } }

/-- MARK taken (R29). -/
def State.takeMark (n : Nat) (s : State) : State :=
  State.raise .markReached { s with ctl := { s.ctl with lastMark := some n } }

/-- END taken (R30); the Song Clock Unit ignores it unless PLAYING (R17). -/
def State.takeSongEnd (t : Nat) (s : State) : State :=
  let s := { s with lsq := { s.lsq with endTaken := true } }
  if s.scu.state = .playing then s.enterFinishing t else s

/-- The effect of one cue taken (R28). -/
def State.takeCue (c : QueuedCue) (t : Nat) (s : State) : State :=
  match c.cue.kind, c.slot with
  | .lineIn _, some k => s.takeLineIn k t
  | .lineIn _, none => s
  | .bandClear, _ => s.takeBandClear
  | .mark n, _ => s.takeMark n
  | .songEnd, _ => s.takeSongEnd t

/-- Whether the head of the queue is due and can be taken at `t` (R28). -/
def QueuedCue.ready (c : QueuedCue) (t : Nat) : Bool :=
  decide (c.cue.time ≤ t) && (match c.cue.kind, c.slot with
    | .lineIn _, none => false
    | _, _ => true)

/-- Due cues taken from the head in list order; each that leaves gives the queue room (R28). -/
def State.takeDue : Nat → Nat → State → State
  | 0, _, s => s
  | fuel + 1, t, s =>
    match s.lsq.queue with
    | [] => s
    | c :: rest =>
      if s.lsq.endTaken = false ∧ c.ready t = true then
        let s := State.takeCue c t { s with lsq := { s.lsq with queue := rest } }
        State.takeDue fuel t s.retryHeldCue.tryCueFetch
      else s

/-- Due cues taken at the SONG_MS in force; ten is more than the queue and the held cue together. -/
def State.takeCues (s : State) : State := s.takeDue 10 s.songMs

/-- The LSQ's part of a SONG_MS offer (R28). -/
def State.offerLsq (s : State) : State := (s.retryHeldCue.takeCues).tryCueFetch

/-! ## Offers (R4) and the end of SEEKING (R16) -/

/-- A change of SONG_MS offered: to the LSQ, the PJE and the RQU, or in SEEKING to the RQU alone (R4). -/
def State.offer (s : State) : State :=
  if s.scu.state = .seeking then s.stageTest else s.offerLsq.offerPje.stageTest

/-- The result of the command in progress written and the mark removed (R179, R180). -/
def State.finishCommand (rc : ResultCode) (s : State) : State :=
  match s.ctl.inProgress with
  | none => s
  | some c => State.result c.code c.tag rc [] { s with ctl := { s.ctl with inProgress := none } }

/-- Whether the LSQ's cursor has come to a stand (R41). -/
def Lsq.stands (q : Lsq) : Bool :=
  q.fetch == none && (q.held.isSome || decide (8 ≤ q.queue.length) || q.unbound || decide (q.cueCount ≤ q.cursor))

/-- The LSQ's rebuild ends when every band load has completed and the cursor stands (R41). -/
def State.lsqRebuildEnd (s : State) : State :=
  match s.lsq.rebuild with
  | some r =>
    if r.scanning = false ∧ s.lsq.stands = true ∧ (s.lsq.band.all (fun k => (s.lsq.slots.get k).load == none)) = true then
      { s with lsq := { s.lsq with rebuild := none } }
    else s
  | none => s

/-- The PJE's rebuild ends when no fetch is in flight and the next is stopped (R106). -/
def State.pjeRebuildEnd (s : State) : State :=
  if s.pje.rebuild = true ∧ s.pje.fetch = none ∧ (s.pje.held.isSome || decide (s.pje.noteCount ≤ s.pje.cursor)) = true then
    { s with pje := { s.pje with rebuild := false } }
  else s

/-- When both rebuilds have ended, the SEEK's result is written and SEEKING is left (R16). The offer held for the
engine reaches it in either case (R106), behind the entry into FINISHING when END is pending (log 25). -/
def State.leaveSeeking (s : State) : State :=
  if s.scu.state = .seeking ∧ s.lsq.rebuild = none ∧ s.pje.rebuild = false then
    let s := s.finishCommand .ok
    if s.scu.endPending then
      (State.enterFinishing songMsMax { s with scu := { s.scu with endPending := false } }).offerPje
    else
      (State.offerPje (State.offerLsq { s with scu := { s.scu with state := .playing } })).stageTest
  else s

/-- The ends of both rebuilds and of SEEKING, tested after any step that may bring them (R16, R41, R106). -/
def State.rebuildEnds (s : State) : State := s.lsqRebuildEnd.pjeRebuildEnd.leaveSeeking

/-! ## The SEEK rebuild (R40, R41) -/

/-- One candidate line shown: it claims the lowest-numbered FREE slot and joins the band list (R41). -/
def State.showCandidate (s : State) (line : Nat) : State :=
  match s.lsq.freeSlot with
  | none => s
  | some k =>
    let s := s.claimSlot k .shown line
    { s with lsq := { s.lsq with band := s.lsq.band ++ [k] } }

/-- The rescan stops: the candidates are shown and fetching resumes (R41). -/
def State.stopRescan (r : Rescan) (s : State) : State :=
  let s := { s with lsq := { s.lsq with rebuild := some { r with scanning := false } } }
  r.candidates.foldl State.showCandidate s

/-- The candidate list after one more LINE_IN (R40). -/
def pushCandidate (rows line : Nat) (cs : List Nat) : List Nat :=
  if (cs ++ [line]).length = rows + 1 then (cs ++ [line]).tail else cs ++ [line]

/-- The rescan after one fetch has ended with its data or a failure (R40): a cue beyond the target or an END
stops it at that cue, any other moves the cursor on, and so does the end of the list. -/
def State.rescanCue (r : Rescan) (data : Option (List Beat)) (off : Nat) (s : State) : State :=
  let next := fun (cs : List Nat) =>
    let s := { s with lsq := { s.lsq with
      cursor := s.lsq.cursor + 1, rebuild := some { r with candidates := cs } } }
    if s.lsq.cueCount ≤ s.lsq.cursor then s.stopRescan { r with candidates := cs } else s
  match data with
  | none => next r.candidates
  | some bs =>
    if r.target < cueTime bs off then s.stopRescan r
    else
      match readCue bs off s.lsq.lineCount with
      | none => next r.candidates
      | some c =>
        match c.kind with
        | .lineIn n => next (pushCandidate s.prm.bandRows n r.candidates)
        | .bandClear => next []
        | .mark _ => next r.candidates
        | .songEnd => s.stopRescan r

/-- The LSQ's rebuild starts (R40); an empty cue list ends its rescan at once. -/
def State.startRescan (target : Nat) (s : State) : State :=
  let s := { s with
    lsq := { s.lsq.emptied with rebuild := some ⟨target, [], true⟩ }
    ptu := s.ptu.orphan OpKind.isLyric }
  if s.lsq.cueCount = 0 then s.stopRescan ⟨target, [], true⟩ else s

/-! ## Completions of the LSQ's reads -/

/-- A cue fetch ends outside a rescan (R24 to R27). -/
def State.cueArrived (data : Option (List Beat)) (off : Nat) (s : State) : State :=
  let s := { s with lsq := { s.lsq with cursor := s.lsq.cursor + 1 } }
  match data with
  | none => s
  | some bs =>
    match readCue bs off s.lsq.lineCount with
    | none => { s with lsq := { s.lsq with badCue := s.lsq.badCue + 1 } }
    | some c => s.takeIn c

/-- A cue fetch ends (R25, R40). -/
def State.endCueFetch (data : Option (List Beat)) (s : State) : State :=
  let off := (s.lsq.cueBase + 8 * s.lsq.cursor) % 16
  let s := { s with lsq := { s.lsq with fetch := none } }
  let s := match s.lsq.rebuild with
    | some r => if r.scanning then s.rescanCue r data off else s.cueArrived data off
    | none => s.cueArrived data off
  s.tryCueFetch.rebuildEnds

/-- The slot whose load in flight is the operation named `op`. -/
def Lsq.slotLoading (op : Nat) (q : Lsq) : Option (Fin 8) := vfind q.slots (fun c => c.load == some op)

/-- A line load ends (R32). -/
def State.endLineLoad (op : Nat) (data : Option (List Beat)) (s : State) : State :=
  match s.lsq.slotLoading op with
  | none => s
  | some k =>
    let c := s.lsq.slots.get k
    let s := match data with
      | some bs =>
        let off := (s.lsq.lineBase + 512 * c.line) % 16
        { s with lsq := s.lsq.setSlot k (c.fill s.prm (readLine bs off)) }
      | none => State.lineLateRaised (!c.late) { s with lsq := s.lsq.setSlot k (c.fail s.prm) }
    s.rebuildEnds

/-! ## The LSQ's part of a frame latch (R38) -/

/-- Step 1: LEAVING slots that are not in the band list become FREE. -/
def Lsq.freeLeaving (q : Lsq) : Lsq :=
  { q with slots := (List.finRange 8).foldl (fun acc k =>
      let c := acc.get k
      if c.state = .leaving ∧ k ∉ q.band then vset acc k { c with state := .free } else acc) q.slots }

/-- Step 2: a scroll that has reached offset 48 ends, and the departing top entry is freed. -/
def State.endScroll (t : Nat) (s : State) : State :=
  if s.lsq.scroll.isSome = true ∧ scrollOffset s.prm.scrollMs s.lsq.scroll t = 48 then
    let s := { s with lsq := { s.lsq with scroll := none } }
    match s.lsq.band with
    | k :: rest =>
      if s.lsq.band.length = s.prm.bandRows + 1 then
        State.retireSlot k .free { s with lsq := { s.lsq with band := rest } }
      else s
    | [] => s
  else s

/-- Step 3: the wiped x of the band's loaded slots brought up to date. -/
def Lsq.wipeBand (t : Nat) (q : Lsq) : Lsq :=
  { q with slots := q.band.foldl (fun acc k => vset acc k ((acc.get k).wipe t)) q.slots }

/-- Steps 1 to 3; the hand-over of step 4 is read from the state they leave. -/
def State.latchLsq (s : State) : State :=
  let t := s.songMs
  let s := State.endScroll t { s with lsq := s.lsq.freeLeaving }
  { s with lsq := s.lsq.wipeBand t }

/-- Whether a due LINE_IN waits at the head of the queue for a slot (R28). -/
def State.headWaits (s : State) : Bool :=
  match s.lsq.queue with
  | [] => false
  | c :: _ => !s.lsq.endTaken && decide (c.cue.time ≤ s.songMs) && !c.ready s.songMs

/-- Step 5: the freed slots offered to unbound LINE_IN cues; a due LINE_IN that waited at the head and claims one
is taken, and taking goes on behind it (R28). In SEEKING no cue is taken. While a full intake line has no room for the
loads, the claims wait until it has (R169, log 14). -/
def State.latchClaims (s : State) : State :=
  s.whenRoom (fun s =>
    let t := s.bindFree
    if t.scu.state = .seeking then t.tryCueFetch.rebuildEnds
    else if s.headWaits && !t.headWaits then t.takeCues.tryCueFetch
    else t.tryCueFetch)

/-- Whether a LINE_IN without a slot stands beside a FREE slot, its claim waiting for the intake line (R31, R169). -/
def Lsq.claimWaits (q : Lsq) : Bool := q.freeSlot.isSome && q.unbound

/-- What a frame latch left waiting for the intake line (R169, log 14): the claims of step 5 of R38, and the staging of
a return to IDLE. The first closes with the rewrites it leaves owed (R157). -/
def State.resumeLatch (s : State) : State := (if s.lsq.claimWaits then s.latchClaims.flush else s).resumeStaging

end Sys2Proof.Machine
end

