-- ==== Sys2Proof/Machine/Capture.lean ====
section
/-! DEFINITION. Taps taken from the tap lane (R164), and the capture taps of the Voice Intake: samples, blocks,
drops and HOLD (R78 to R86). -/

namespace Sys2Proof.Machine

/-! ## The tap lane (R164) -/

/-- The request of the tap at the head of the lane when it is of class `cls`. -/
def Ptu.headTap (cls : PassClass) (p : Ptu) : Option Request :=
  match p.taps with
  | [] => none
  | t :: _ => if t.cls = cls then some t.req else none

/-- The head of the tap lane taken by its watcher. -/
def State.dropTap (s : State) : State := { s with ptu := { s.ptu with taps := s.ptu.taps.tail } }

/-! ## Completing a block (R83 to R86) -/

/-- The half of a queued entry that completes now (R84); a song in PLAYING has a current ticket (R2). -/
def State.entryFor (ch : Fin 4) (k : Fin 2) (s : State) : BlockEntry :=
  ⟨ch, k, s.songMs, s.scu.key, (s.scu.current.map Ticket.number).getD 0⟩

/-- BLOCK_DROPPED: the older block of the channel leaves the queue, counted and handed to the Score Unit (R85). -/
def State.dropBlock (ch : Fin 4) (k : Fin 2) (s : State) : State :=
  State.raise .blockDropped { s with
    vin := { s.vin with
      queue := s.vin.queue.filter (fun e => !(e.channel == ch && e.half == k))
      blockDropped := s.vin.blockDropped + 1 }
    scr := s.scr.countDrop ch }

/-- The 256th sample completes half `k` of channel `ch` (R83, R85). -/
def State.completeBlock (ch : Fin 4) (k : Fin 2) (s : State) : State :=
  let c := s.vin.channels.get ch
  if s.scu.state = .playing then
    let o := otherHalf k
    let entry := s.entryFor ch k
    let c1 := c.setHalf k { c.halves.get k with state := .queued }
    let join := fun (t : State) (c2 : Channel) =>
      State.takeBlock { t with vin := { t.vin.setChannel ch c2 with queue := t.vin.queue ++ [entry] } }
    match (c.halves.get o).state with
    | .free => join s (c1.setHalf o Half.emptied)
    | .queued => join (s.dropBlock ch o) (c1.setHalf o Half.emptied)
    | .analysing => join s { c1 with hold := true }
    | .filling => join s c1
  else { s with vin := s.vin.setChannel ch (c.setHalf k Half.emptied) }

/-- A decimated sample stored in the FILLING half, or discarded in HOLD (R83, R86). -/
def State.storeSample (ch : Fin 4) (y : Int) (s : State) : State :=
  let c := s.vin.channels.get ch
  if c.hold then s
  else
    let (k, c) := c.fillingHalf
    let h := c.halves.get k
    let h : Half := { h with samples := h.samples ++ [y] }
    let s := { s with vin := s.vin.setChannel ch (c.setHalf k h) }
    if 256 ≤ h.samples.length then s.completeBlock ch k else s

/-! ## Samples (R78, R81, R82) -/

/-- One sample of the channel in phase: decimated when the channel is live and a song runs, skipped otherwise;
the phase moves on by one (R79, R81). -/
def State.takeSample (s : State) (x : Int) : State :=
  let v := s.vin
  let next := (v.phase + 1) % s.prm.channels
  if h : v.phase < 4 then
    let ch : Fin 4 := ⟨v.phase, h⟩
    let s1 := { s with vin := { v with phase := next } }
    if s.channelLive v.phase && s.scu.state.sings then
      let r := (v.channels.get ch).addSample x
      let s2 := { s1 with vin := s1.vin.setChannel ch r.1 }
      match r.2 with
      | none => s2
      | some y => s2.storeSample ch y
    else s1
  else { s with vin := { v with phase := next } }

/-- The eight samples of one beat (R78). -/
def beatSamples (b : Beat) : List Int := (List.range 8).map (fun i => sampleAt [b] (2 * i))

/-- Whether every byte of every beat is enabled (R80). -/
def wholeBeats (bs : List WriteBeat) : Bool := bs.all (fun b => b.en == BitVec.allOnes 16)

/-- A capture tap (R78 to R80). The write's address, of which the offset is taken, and the place of its first byte are
the 16-byte place of its first beat: DESIGN CHOICE for an address whose low four bits are not 0 (log 29). -/
def State.takeCapture (r : Request) (s : State) : State :=
  match s.ptu.windows.mic with
  | none => s
  | some w =>
    let beats := bodyBeats r.body
    if wholeBeats beats then
      let s := { s with vin := s.vin.seat s.prm.channels w (beatAddr r.addr 0) }
      let s := beats.foldl (fun s b => (beatSamples b.data).foldl State.takeSample s) s
      { s with vin := { s.vin with expected := some (nextExpected w (beatAddr r.addr 0 + 16 * beats.length)) } }
    else { s with vin := s.vin.partialWrite }

/-- CAPTURE_WRITE: the capture tap at the head of the lane. -/
def State.captureWrite (s : State) : State :=
  match s.ptu.headTap .capture with
  | none => s
  | some r => s.dropTap.takeCapture r

end Sys2Proof.Machine
end

