-- ==== Sys2Proof/Machine/Glyph.lean ====
section
/-! DEFINITION. The Glyph Translator (chapter 4), and what an answer does to the composition that asked (R53 to
R55): the row read, the row applied, and the end of the composition. -/

namespace Sys2Proof.Machine

/-! ## Rows of a composition (R53 to R56) -/

/-- The colour of an appearance's pixel at column `x` (R51, R56). -/
def Paint.colourAt (prm : Setup) (x : Nat) : Paint → Nat
  | .strip c => c
  | .band part wiped =>
    if x < wiped then
      match part with
      | .a => prm.wipeA
      | .b => prm.wipeB
      | .both => prm.wipeBoth
    else prm.fill

/-- A pixel put over those of appearances not later in drawing order (R54). -/
def putPixel (p : Pixel) (ps : List Pixel) : List Pixel :=
  if ps.any (fun q => q.x == p.x && p.order < q.order) then ps
  else p :: ps.filter (fun q => q.x != p.x)

/-- The pixels one appearance covers, with the alphas of its row's data; a failed row has coverage 0 (R54). -/
def appearancePixels (prm : Setup) (data : Option (List Beat)) (order : Nat) (a : Appearance) : List Pixel :=
  ((List.range a.advance).filter (fun j => a.clipFrom ≤ a.left + j && a.left + j < a.clipTo)).map (fun j =>
    { x := a.left + j, colour := a.paint.colourAt prm (a.left + j)
      alpha := match data with
        | some bs => 17 * coverage bs j
        | none => 0
      order := order })

/-- A row's data applied to every appearance of the row in the composition set (R54). -/
def StagingBuffer.applyRow (prm : Setup) (glyph row : Nat) (data : Option (List Beat)) (b : StagingBuffer) :
    StagingBuffer :=
  { b with pixels := b.set.zipIdx.foldl (fun ps ao =>
      if ao.1.glyph = glyph ∧ ao.1.row = row then
        (appearancePixels prm data ao.2 ao.1).foldl (fun ps p => putPixel p ps) ps
      else ps) b.pixels }

/-- A buffer FREE, without scanline, mark, rows or pixels (R48, R60, R62). -/
def StagingBuffer.freed : StagingBuffer := {}

/-- One row less outstanding: at 0 the buffer is READY, or FREE when it has a discard mark (R54, R62). -/
def StagingBuffer.rowDone (b : StagingBuffer) : StagingBuffer :=
  if b.outstanding ≤ 1 then
    if b.discard then StagingBuffer.freed else { b with state := .ready, outstanding := 0 }
  else { b with outstanding := b.outstanding - 1 }

/-- The COMPOSING buffer of composition `comp`; none when it has been orphaned (R55). -/
def Ovc.composing (comp : Nat) (o : Ovc) : Option (Fin 3) :=
  vfind o.buffers (fun b => b.state == .composing && b.comp == comp)

/-- A row of composition `comp` ends, with data or a failure (R54, R55). -/
def State.endRow (comp glyph row : Nat) (data : Option (List Beat)) (s : State) : State :=
  match s.ovc.composing comp, s.ovc.latch with
  | some k, some l =>
    let b := (s.ovc.buffers.get k).applyRow l.prm glyph row data
    { s with ovc := { s.ovc with buffers := vset s.ovc.buffers k b.rowDone } }
  | _, _ => s

/-! ## Answers (R53, R64, R70) -/

/-- A request answered with a physical address: its composition's row read is handed, unless it is orphaned. -/
def State.answerAddress (q : GlyphReq) (phys : Nat) (s : State) : State :=
  match s.ovc.composing q.comp with
  | none => s
  | some _ =>
    { s with ptu := s.ptu.startOp (.row q.comp q.glyph q.row) .glyphRow (readsOver phys 32) }

/-- A request answered with a failure, counted in GLYPH_FAULT (R64, R70, R76). -/
def State.answerFailure (q : GlyphReq) (s : State) : State :=
  State.endRow q.comp q.glyph q.row none { s with gxt := { s.gxt with glyphFault := s.gxt.glyphFault + 1 } }

/-- The physical address of `va` in the physical page (R65). -/
def physOf (page va : Nat) : Nat := page * 4096 + va % 4096

/-! ## Taking a request (R68, R69) -/

/-- Waiter places in use. -/
def Gxt.waiters (g : Gxt) : Nat :=
  g.walks.toList.foldl (fun n w => n + match w with | some w => w.waiters.length | none => 0) 0

/-- The FRESH walk record of a page. -/
def Gxt.freshWalk (page : Nat) (g : Gxt) : Option (Fin 8) :=
  vfind g.walks (fun w => match w with | some w => w.fresh && w.page == page | none => false)

/-- The lowest-numbered FREE walk record. -/
def Gxt.freeWalk (g : Gxt) : Option (Fin 8) := vfind g.walks (fun w => w.isNone)

/-- A cached page's entry made the most recently used (R68). -/
def Gxt.touch (e : CacheEntry) (g : Gxt) : Gxt :=
  { g with cache := g.cache.filter (fun x => x.page != e.page) ++ [e] }

/-- A waiter put on walk `k`. -/
def Gxt.join (k : Fin 8) (q : GlyphReq) (g : Gxt) : Gxt :=
  { g with walks := vset g.walks k ((g.walks.get k).map (fun w => { w with waiters := w.waiters ++ [q] })) }

/-- A walk begun for page `p` on record `k`: FRESH, its read handed, its first waiter the request (R68). -/
def State.beginWalk (k : Fin 8) (p : Nat) (q : GlyphReq) (s : State) : State :=
  { s with
    gxt := { s.gxt with walks := vset s.gxt.walks k (some ⟨p, true, s.ptu.nextOp, [q]⟩) }
    ptu := s.ptu.startOp .walk .pageWalk (readsOver (baseOf s.ptu.windows.pagetable + 4 * p) 4) }

/-- A request taken by R68; none when it must stay at the intake (R69). -/
def State.takeGlyph (q : GlyphReq) (s : State) : Option State :=
  if s.prm.aperture ≤ q.va then some (s.answerFailure q)
  else
    let p := q.va / 4096
    match s.gxt.cache.find? (fun e => e.page == p) with
    | some e => some (State.answerAddress q (physOf e.phys q.va) { s with gxt := s.gxt.touch e })
    | none =>
      if s.gxt.waiters < 64 then
        match s.gxt.freshWalk p with
        | some k => some { s with gxt := s.gxt.join k q }
        | none =>
          match s.gxt.freeWalk with
          | some k => some (s.beginWalk k p q)
          | none => none
      else none

/-- The request at the intake taken if it can be; it stays there if it cannot (R69), or if taking it would hand a
read while the intake line is full (R169). -/
def State.retakeIntake (s : State) : State :=
  s.whenRoom (fun s =>
    match s.gxt.intake with
    | none => s
    | some q => (State.takeGlyph q { s with gxt := { s.gxt with intake := none } }).getD s)

/-- The next request of the Overlay Compositor brought to an empty intake (R69). -/
def State.feedIntake (s : State) : State :=
  match s.gxt.intake, s.ovc.waiting with
  | none, q :: rest => { s with gxt := { s.gxt with intake := some q }, ovc := { s.ovc with waiting := rest } }
  | _, _ => s

/-- Requests taken in order until one must stay at the intake or none is left (R68, R69). -/
def State.pumpGlyphs : Nat → State → State
  | 0, s => s
  | n + 1, s => State.pumpGlyphs n s.retakeIntake.feedIntake

/-- Everything that can be taken is taken; each round takes one request. -/
def State.pump (s : State) : State := s.pumpGlyphs (s.ovc.waiting.length + 2)

/-! ## Walk completion (R70, R71) -/

/-- A mapping installed as the most recently used, the least recently used first removed from 16 (R71). -/
def Gxt.install (e : CacheEntry) (g : Gxt) : Gxt :=
  { g with cache := (if 16 ≤ g.cache.length then g.cache.tail else g.cache) ++ [e] }

/-- The record of the walk whose read is the operation named `op`. -/
def Gxt.walkOf (op : Nat) (g : Gxt) : Option (Fin 8) :=
  vfind g.walks (fun w => match w with | some w => w.op == op | none => false)

/-- A walk completes: its waiters answered in order, its mapping installed when it is FRESH and VALID, its
record FREE, and the intake taken again (R70). -/
def State.endWalk (k : Fin 8) (w : Walk) (data : Option (List Beat)) (s : State) : State :=
  let s := { s with gxt := { s.gxt with walks := vset s.gxt.walks k none } }
  let s := match data.bind (fun bs => readEntry bs (4 * w.page % 16)) with
    | some page =>
      let s := if w.fresh then { s with gxt := s.gxt.install ⟨w.page, page⟩ } else s
      w.waiters.foldl (fun t q => State.answerAddress q (physOf page q.va) t) s
    | none => w.waiters.foldl (fun t q => State.answerFailure q t) s
  s.pump

/-- PAGE_WALK_COMPLETE: the oldest ended walk read. -/
def State.pageWalkComplete (s : State) : State :=
  match s.ptu.firstEnded (fun k => k == .walk) with
  | none => s
  | some o =>
    let s := { s with ptu := s.ptu.dropEnded o.id }
    match s.gxt.walkOf o.id with
    | none => s
    | some k =>
      match s.gxt.walks.get k with
      | none => s
      | some w => s.endWalk k w o.data

/-- GLYPH_ROW_FETCH_COMPLETE: the oldest ended row read (R54). -/
def State.glyphRowFetchComplete (s : State) : State :=
  match s.ptu.firstEnded OpKind.isRow with
  | none => s
  | some o =>
    let s := { s with ptu := s.ptu.dropEnded o.id }
    match o.kind with
    | .row comp glyph row => s.endRow comp glyph row o.data
    | _ => s

/-! ## Watched writes and flushes (R72, R74) -/

/-- The table entries that beat `i` of a write covers (R72). -/
def coveredBy (base : Nat) (addr : Word) (i : Nat) (b : WriteBeat) : List Nat :=
  ((List.range 4).filter (fun k => base ≤ beatAddr addr i && ((b.en >>> (4 * k)) &&& 15) != 0)).map
    (fun k => (beatAddr addr i - base) / 4 + k)

/-- The table entries a write covers (R72). -/
def coveredEntries (base : Nat) (r : Request) : List Nat :=
  ((bodyBeats r.body).zipIdx.map (fun bi => coveredBy base r.addr bi.2 bi.1)).flatten

/-- The mappings of the pages `ps` removed and their walks marked STALE (R72). -/
def Gxt.invalidate (ps : List Nat) (g : Gxt) : Gxt :=
  { g with
    cache := g.cache.filter (fun e => e.page ∉ ps)
    walks := g.walks.map (fun w => w.map (fun w => if w.page ∈ ps then { w with fresh := false } else w)) }

/-- The cache emptied and every walk marked STALE (R74, R75). -/
def Gxt.flush (g : Gxt) : Gxt :=
  { g with cache := [], walks := g.walks.map (fun w => w.map (fun w => { w with fresh := false })) }

/-- PAGETABLE_WRITE: the PAGETABLE tap at the head of the lane. -/
def State.pagetableWrite (s : State) : State :=
  match s.ptu.headTap .pagetable with
  | none => s
  | some r =>
    let s := s.dropTap
    let ps := (coveredEntries (baseOf s.ptu.windows.pagetable) r).filter (fun p => p < s.prm.aperture / 4096)
    { s with gxt := s.gxt.invalidate ps }

end Sys2Proof.Machine
end

