-- ==== Sys2Proof/Machine/Overlay.lean ====
section
/-! DEFINITION. The Overlay Compositor (chapter 3): the frame latch, the strip text, compose requests and
claims, the scanline decision, blending and the release of buffers. -/

namespace Sys2Proof.Machine

/-! ## The strip text (R50) -/

/-- Decimal digits of `n` put before `acc`, at most `fuel` of them. -/
def digitsOf : Nat → Nat → List Nat → List Nat
  | 0, _, acc => acc
  | fuel + 1, n, acc => if n < 10 then n :: acc else digitsOf fuel (n / 10) (n % 10 :: acc)

/-- A number in decimal without leading zeros. -/
def decimal (n : Nat) : List Nat := digitsOf 10 n []

/-- Table 3-3 offsets as characters of one field. -/
def chars (f : StripField) (os : List Nat) : List StripChar := os.map (fun o => ⟨o, f⟩)

/-- A ticket field: number, space, song (R50). -/
def ticketField (t : Ticket) : List StripChar := chars .ticket (decimal t.number ++ [11] ++ decimal t.song)

/-- A score field (R50). -/
def scoreField (t : Totals) : List StripChar :=
  if t.possible = 0 then chars .score [12, 12, 10, 12, 12]
  else
    let s := t.score
    chars .score ((if s / 100 < 10 then [0] else []) ++ decimal (s / 100) ++ [10, s % 100 / 10, s % 10])

/-- Fields separated by two spaces (R50). -/
def joinFields : List (List StripChar) → List StripChar
  | [] => []
  | [f] => f
  | f :: rest => f ++ chars .separator [11, 11] ++ joinFields rest

/-- The strip text of the first three tickets and the ACTIVE singers (R47, R50). -/
def stripText (queue : List Ticket) (singers : List (Nat × Singer)) : List StripChar :=
  joinFields ((queue.take 3).map ticketField ++ singers.map (fun p => scoreField p.2.totals))

/-! ## The latch record (R45 to R47) -/

/-- The top row of entry `k` of `n` at a scroll offset (R36). -/
def topRow (prm : Setup) (n offset k : Nat) : Int :=
  (prm.bandY : Int) + ((prm.bandRows : Int) - n + k) * 48 + (48 - offset)

/-- The band's entries copied from their slots (R46). -/
def State.bandEntries (s : State) : List BandEntry :=
  let offset := scrollOffset s.prm.scrollMs s.lsq.scroll s.songMs
  s.lsq.band.zipIdx.map (fun ki =>
    let c := s.lsq.slots.get ki.1
    { top := topRow s.prm s.lsq.band.length offset ki.2
      drawnEmpty := !c.filled, part := c.part, glyphs := c.glyphs, positions := c.positions, wiped := c.wiped })

/-- The record a frame latch builds (R45 to R47). -/
def State.buildLatch (s : State) : LatchRecord :=
  { prm := s.prm, songMs := s.songMs, state := s.scu.state, phase := s.scu.phase
    bannerShown := s.scu.state == .finishing && s.scu.phase == some .banner
    entries := s.bandEntries
    text := stripText s.rqu.queue s.scr.activeSingers }

/-! ## Layers (R49) -/

/-- Whether the band layer is present and holds scanline `y`. -/
def LatchRecord.bandAt (l : LatchRecord) (y : Nat) : Bool :=
  l.state != .idle && l.prm.bandY ≤ y && y < l.prm.bandY + 48 * l.prm.bandRows

/-- Whether the strip layer is present and holds scanline `y`. -/
def LatchRecord.stripAt (l : LatchRecord) (y : Nat) : Bool :=
  l.prm.stripEnable && l.prm.stripY ≤ y && y < l.prm.stripY + 48

/-- The columns of the present layers on scanline `y`, each a first column and the one past its last (R53). -/
def LatchRecord.spans (l : LatchRecord) (y : Nat) : List (Nat × Nat) :=
  (if l.bandAt y then [(l.prm.bandX, l.prm.bandX + l.prm.bandW)] else []) ++
    (if l.stripAt y then [(l.prm.stripX, l.prm.stripX + l.prm.stripW)] else [])

/-- Whether column `x` of scanline `y` lies in a present layer. -/
def LatchRecord.covers (l : LatchRecord) (y x : Nat) : Bool :=
  (l.spans y).any (fun p => p.1 ≤ x && x < p.2)

/-- The rightmost column of the present layers on scanline `y` (R60). -/
def LatchRecord.lastColumn (l : LatchRecord) (y : Nat) : Nat :=
  ((l.spans y).map (fun p => p.2 - 1)).foldl max 0

/-! ## Composition sets (R53) -/

/-- The band's appearances on scanline `y`. -/
def LatchRecord.bandSet (l : LatchRecord) (y : Nat) : List Appearance :=
  if l.bandAt y then
    match l.entries.find? (fun e => e.top ≤ (y : Int) && (y : Int) ≤ e.top + 47) with
    | none => []
    | some e =>
      if e.drawnEmpty then []
      else
        (e.glyphs.zip e.positions).filterMap (fun gp =>
          if l.prm.bandX < gp.2 + gp.1.advance ∧ gp.2 < l.prm.bandX + l.prm.bandW then
            some { glyph := gp.1.index, row := ((y : Int) - e.top).toNat, left := gp.2, advance := gp.1.advance
                   clipFrom := l.prm.bandX, clipTo := l.prm.bandX + l.prm.bandW, paint := .band e.part e.wiped }
          else none)
  else []

/-- The strip's appearances on scanline `y` (R51). -/
def LatchRecord.stripSet (l : LatchRecord) (y : Nat) : List Appearance :=
  if l.stripAt y then
    l.text.zipIdx.filterMap (fun ci =>
      let x := l.prm.stripX + ci.2 * l.prm.stripAdvance
      if x < l.prm.stripX + l.prm.stripW then
        some { glyph := l.prm.digitBase + ci.1.offset, row := y - l.prm.stripY, left := x
               advance := l.prm.stripAdvance, clipFrom := l.prm.stripX, clipTo := l.prm.stripX + l.prm.stripW
               paint := .strip (if ci.1.field = .score ∧ l.bannerShown = true then l.prm.bannerColour
                                else l.prm.stripColour) }
      else none)
  else []

/-- The composition set of scanline `y` in drawing order (R53). -/
def LatchRecord.compositionSet (l : LatchRecord) (y : Nat) : List Appearance := l.bandSet y ++ l.stripSet y

/-- The distinct glyph rows of a set in order of first appearance (R53). -/
def distinctRows (as : List Appearance) : List (Nat × Nat) :=
  as.foldl (fun acc a => if (a.glyph, a.row) ∈ acc then acc else acc ++ [(a.glyph, a.row)]) []

/-- A glyph row's virtual address (R64). -/
def glyphVa (glyph row : Nat) : Nat := glyph * 1536 + row * 32

/-! ## Compose requests (R52, R53) -/

/-- The buffer without a discard mark that holds `y` in one of the states `st` meets. -/
def Ovc.holding (y : Nat) (st : BufferState → Bool) (o : Ovc) : Option (Fin 3) :=
  vfind o.buffers (fun b => !b.discard && b.y == some y && st b.state)

/-- Buffer `k` claimed for scanline `y` (R53). Its requests follow any request still held at the intake, which is
tried again first (DESIGN CHOICE, log 23). -/
def State.claimBuffer (k : Fin 3) (l : LatchRecord) (y : Nat) (s : State) : State :=
  let set := l.compositionSet y
  let rows := distinctRows set
  let comp := s.ovc.nextComp
  let b : StagingBuffer :=
    { state := if rows = [] then .ready else .composing, y := some y, discard := false
      outstanding := rows.length, comp := comp, set := set, pixels := [] }
  State.pump { s with ovc := { s.ovc with
    buffers := vset s.ovc.buffers k b, nextComp := comp + 1
    waiting := s.ovc.waiting ++ rows.map (fun r => ⟨glyphVa r.1 r.2, comp, r.1, r.2⟩) } }

/-- A compose request for scanline `y` (R52). -/
def State.compose (y : Nat) (s : State) : State :=
  match s.ovc.latch with
  | none => s
  | some l =>
    if l.spans y = [] ∨ l.prm.height ≤ y then s
    else
      match s.ovc.holding y (fun st => st != .free) with
      | some _ => s
      | none =>
        match vfind s.ovc.buffers (fun b => b.state == .free) with
        | some k => s.claimBuffer k l y
        | none => s

/-! ## The frame latch (R38, R45 to R48) -/

/-- The compositor's buffers FREE, its row fetches orphaned and its decision cleared (R42, R48). -/
def State.resetComposition (s : State) : State :=
  { s with
    ovc := { s.ovc with buffers := Vector.replicate 3 StagingBuffer.freed, decision := none }
    ptu := s.ptu.orphan OpKind.isRow }

/-- A frame latch up to the requests for scanlines 0 and 1 (R38, R45, R48). The record is taken between steps 4 and 5
of R38: DESIGN CHOICE, log 22. -/
def State.frameLatch (s : State) : State :=
  let s := s.latchLsq
  let s := State.latchClaims { s with ovc := { s.ovc with latch := some s.buildLatch } }
  ((s.resetComposition).compose 0).compose 1

/-- What follows a latch beat's pixels: the banner count, and a status rewrite owed (R20, R48, R186). That the count
falls behind the requests for scanlines 0 to 2 and the beat's pixels is a DESIGN CHOICE (log 28). -/
def State.afterLatch (s : State) : State :=
  let s := s.bannerLatch
  { s with ctl := { s.ctl with statusOwed := true } }

/-! ## Blending (R57 to R61) -/

/-- One channel shaded and blended (R59). -/
def blendChannel (shade fg alpha bg : Nat) : Nat := (fg * alpha + bg * shade / 256 * (255 - alpha) + 127) / 255

/-- One 32-bit pixel shaded and blended, its X byte unchanged (R59). -/
def blendPixel (shade colour alpha v : Nat) : Nat :=
  let ch := fun k => blendChannel shade (colour / 256 ^ k % 256) alpha (v / 256 ^ k % 256)
  ch 0 + 256 * ch 1 + 65536 * ch 2 + v / 2 ^ 24 % 256 * 2 ^ 24

/-- Pixel `j` of a beat. -/
def pixelOf (d : Beat) (j : Nat) : Nat := d.toNat / 2 ^ (32 * j) % 2 ^ 32

/-- A beat of scanline `y` from column `x`, its layer pixels blended from a buffer's pixels (R59). -/
def blendBeat (l : LatchRecord) (y x : Nat) (ps : List Pixel) (d : Beat) : Beat :=
  BitVec.ofNat 128 ((List.range 4).foldr (fun j acc =>
    let v := pixelOf d j
    (if l.covers y (x + j) then
      match ps.find? (fun p => p.x == x + j) with
      | some p => blendPixel l.prm.shade p.colour p.alpha v
      | none => blendPixel l.prm.shade 0 0 v
     else v) + 2 ^ 32 * acc) 0)

/-- The decision for scanline `y` made at its first layer beat (R57, R58). -/
def State.makeDecision (y : Nat) (s : State) : State :=
  match s.ovc.holding y (fun st => st == .ready) with
  | some k =>
    { s with ovc := { s.ovc with decision := some ⟨y, .blend k (s.ovc.buffers.get k).comp⟩ } }
  | none =>
    let buffers := match s.ovc.holding y (fun st => st == .composing) with
      | some k => vset s.ovc.buffers k { s.ovc.buffers.get k with discard := true }
      | none => s.ovc.buffers
    State.raise .scanLate { s with ovc := { s.ovc with
      buffers := buffers, decision := some ⟨y, .pass⟩, scanLate := s.ovc.scanLate + 1 } }

/-- The buffer a BLEND decision names while it still holds that composition. -/
def Ovc.blendBuffer (y : Nat) (o : Ovc) : Option (Fin 3) :=
  match o.decision with
  | some ⟨y', .blend k comp⟩ =>
    if y' = y ∧ (o.buffers.get k).comp = comp ∧ (o.buffers.get k).state = .ready then some k else none
  | _ => none

/-- A layer beat of scanline `y` from column `x`: its data as returned, and the state after it (R57 to R61). -/
def State.layerBeat (l : LatchRecord) (y x : Nat) (b : ReadBeat) (s : State) : State × ReadBeat :=
  let s := if (s.ovc.decision.map Decision.y) = some y then s else s.makeDecision y
  match s.ovc.blendBuffer y with
  | none => (s, b)
  | some k =>
    let out := if b.status = .okay then { b with data := blendBeat l y x (s.ovc.buffers.get k).pixels b.data } else b
    let c := l.lastColumn y
    if x ≤ c ∧ c < x + 4 then
      ({ s with ovc := { s.ovc with buffers := vset s.ovc.buffers k StagingBuffer.freed } }, out)
    else (s, out)

/-- A display beat at byte address `a` (R43, R48, R52, R57). That a latch's banner count falls last, behind the compose
requests and the beat's pixels, is the model's choice: R48 says only after the record is built (log 28). -/
def State.displayAt (a : Nat) (b : ReadBeat) (s : State) : State × ReadBeat :=
  let g := s.prm
  if s.ptu.windows.frame = none ∨ g.stride * g.height = 0 then (s, b)
  else
    let off := (((a : Int) - baseOf s.ptu.windows.frame) % (g.stride * g.height : Nat)).toNat
    let y := off / g.stride
    let x := off % g.stride / 4
    let s := if off = 0 then s.frameLatch else s
    let s := if x = 0 then s.compose (y + 2) else s
    let r := match s.ovc.latch with
      | none => (s, b)
      | some l =>
        if (List.range 4).any (fun j => l.covers y (x + j)) then s.layerBeat l y x b else (s, b)
    if off = 0 then (r.1.afterLatch, r.2) else r

end Sys2Proof.Machine
end

