-- ==== Sys2Proof/Machine/SongTime.lean ====
section
/-! DEFINITION. Song time (section 1.3): a counted playback beat and its saturation. -/

namespace Sys2Proof.Machine

/-- One playback tap (R3 to R5). A saturating beat changes no SONG_MS, so it makes no offer (log 16). -/
def State.playbackTap (s : State) : State :=
  if s.scu.state = .playing ∨ s.scu.state = .seeking then
    let acc := s.scu.acc + 4 * s.scu.tempo
    if frameMax < acc / 65536 then
      let s1 := { s with scu := { s.scu with acc := frameMax * 65536 } }
      if s.scu.state = .playing then s1.enterFinishing songMsMax
      else { s1 with scu := { s1.scu with endPending := true } }
    else
      let s1 := { s with scu := { s.scu with acc := acc } }
      if s1.songMs = s.songMs then s1 else s1.offer
  else s

/-! ## Playback taps in the tap lane (R164) -/

/-- Whether a tap is a playback tap. -/
def Tap.isPlayback (t : Tap) : Bool := t.cls == .playback

/-- The playback taps at the head of a lane `l` taken one by one, each as it leaves the lane and each closed by the
rewrites it leaves owed (R157, R186); one whose offers would hand a request to a full intake line waits at the head
(R169, log 14). -/
def State.takePlaybacks : List Tap → State → State
  | [], s => s
  | t :: rest, s =>
    if t.isPlayback then
      let u := State.playbackTap { s with ptu := { s.ptu with taps := rest } }
      if s.ptu.lineFull && u.ptu.kept.length != s.ptu.kept.length then s
      else State.takePlaybacks rest u.flush
    else s

/-- The playback taps that head the lane reach the Song Clock Unit, in the order they were handed (R164). -/
def State.playTaps (s : State) : State := State.takePlaybacks s.ptu.taps s

end Sys2Proof.Machine
end

