-- ==== Sys2Proof/Machine/Path.lean ====
section
/-! DEFINITION. The Path Unit (chapter 10): classification and guards, the arbiter and the throttle, and the
memory side's responses with their retries. -/

namespace Sys2Proof.Machine

/-! ## Classification (R160, R163 to R167) -/

/-- The CONTROL window. -/
def Ptu.control (p : Ptu) : Window := ⟨p.controlBase, 4096⟩

/-- Whether a byte address lies in a guarded region (section 10.3). -/
def Ptu.guarded (p : Ptu) (a : Nat) : Bool :=
  (p.control.holds a && p.controlBase + 0x40 ≤ a) || inWindow p.windows.reply a || inWindow p.windows.image a

/-- Whether a request is a write with a beat in a guarded region (R160, R163, R165). -/
def Ptu.guardsOff (p : Ptu) (r : Request) : Bool :=
  bodyIsWrite r.body && (List.range (bodyCount r.body)).any (fun i => p.guarded (beatAddr r.addr i))

/-- Whether a tag is the tag `f` names; before the first SETUP none is. -/
def Ptu.tagIs (f : Tags → Nat) (t : BitVec 4) (p : Ptu) : Bool :=
  match p.tags with
  | some g => f g == t.toNat
  | none => false

/-- Whether a tag acts as the control tag: any tag before the first SETUP (R167). -/
def Ptu.tagControls (t : BitVec 4) (p : Ptu) : Bool := p.tags.isNone || p.tagIs Tags.control t

/-- The action of a well-formed request that is not guarded (Table 10-4). -/
def Ptu.classify (p : Ptu) (r : Request) : PassClass :=
  let a := beatAddr r.addr 0
  if bodyIsWrite r.body then
    if p.control.holds a && p.tagControls r.tag then .commandSlot
    else if inWindow p.windows.mic a && p.tagIs Tags.capture r.tag then .capture
    else if inWindow p.windows.handset a && p.tagIs Tags.radio r.tag then .handset
    else if inWindow p.windows.pagetable a then .pagetable
    else .plain
  else if inWindow p.windows.playback a && p.tagIs Tags.playback r.tag then .playback
  else if inWindow p.windows.frame a && p.tagIs Tags.display r.tag then .display
  else if inWindow p.windows.reply a && p.tagIs Tags.radio r.tag then .replyRead
  else .plain

/-- The bank in use, none in IDLE (R2). -/
def Scu.bankInUse (c : Scu) : Option (Fin 2) :=
  match c.state with
  | .idle => none
  | .starting => c.startBank
  | .playing => some c.bank
  | .seeking => some c.bank
  | .finishing => some c.bank

/-- A bank of the ASSET window: its lower half for 0, its upper half for 1 (R9, R166). -/
def bankWindow (w : Window) (b : Fin 2) : Window := ⟨w.base + b.val * (w.size / 2), w.size / 2⟩

/-- Whether a well-formed write has an enabled byte in the bank in use (R166). -/
def State.touchesAsset (r : Request) (s : State) : Bool :=
  match s.ptu.windows.asset, s.scu.bankInUse with
  | some w, some b =>
    (bodyBeats r.body).zipIdx.any (fun bi => bi.1.en != 0 && (bankWindow w b).holds (beatAddr r.addr bi.2))
  | _, _ => false

/-! ## Responses on the system side (R159, R165) -/

/-- The OKAY completions of guarded writes whose turn has come (R165). -/
def answerGuarded : List SysSlot → List SysSlot × List SysOut
  | .guarded :: rest => let r := answerGuarded rest; (r.1, .completion .okay :: r.2)
  | l => (l, [])

/-- Guarded writes at the head of the order answered. -/
def Ptu.settle (p : Ptu) : Ptu :=
  let r := answerGuarded p.sysOrder
  { p with sysOrder := r.1, sysOut := p.sysOut ++ r.2 }

/-- One item of a forwarded request's response presented; `last` ends that response (R159). -/
def Ptu.present (x : SysOut) (last : Bool) (p : Ptu) : Ptu :=
  let p := { p with sysOut := p.sysOut ++ [x] }
  if last then Ptu.settle { p with sysOrder := p.sysOrder.tail } else p

/-! ## Arrival on the system side -/

/-- A guarded write: dropped, answered OKAY in its place, counted, recorded and raised (R165). -/
def State.guardWrite (r : Request) (s : State) : State :=
  let p : Ptu := { s.ptu with
    sysOrder := s.ptu.sysOrder ++ [.guarded], guardHit := s.ptu.guardHit + 1, lastGuard := some ⟨r.addr, r.tag⟩ }
  State.raise .guardHit { s with ptu := p.settle }

/-- A request forwarded with its class: it waits for the arbiter (R159). -/
def Ptu.forward (c : PassClass) (r : Request) (p : Ptu) : Ptu :=
  { p with passQueue := p.passQueue ++ [⟨r, c⟩], sysOrder := p.sysOrder ++ [.forwarded] }

/-- A pass-through request taken and classified once (R160, R163). -/
def State.arrive (s : State) (r : Request) : State :=
  let bad := malformed r
  let s := if bad then { s with ptu := { s.ptu with pathFault := s.ptu.pathFault + 1 } } else s
  if s.ptu.guardsOff r then s.guardWrite r
  else if bad then { s with ptu := s.ptu.forward .plain r }
  else
    let s := { s with ptu := s.ptu.forward (s.ptu.classify r) r }
    if bodyIsWrite r.body && s.touchesAsset r then s.raise .assetTouched else s

/-- SYSTEM_REQUEST: taken, or held while the intake line holds 64 (R169). -/
def State.systemRequest (r : Request) (s : State) : State :=
  if 64 ≤ s.ptu.intake.length ∨ s.ptu.sysHeld ≠ [] then
    { s with ptu := { s.ptu with sysHeld := s.ptu.sysHeld ++ [r] } }
  else s.arrive r

/-! ## The arbiter (R169 to R171) -/

/-- The class of a client's requests (Table 10-6). -/
def Client.rank : Client → Nat
  | .glyphRow => 1
  | .pageWalk => 2
  | .cueFetch => 3
  | .lineLoad => 3
  | .noteFetch => 4
  | .headerLoad => 5
  | .statusResult => 6
  | .queueImage => 6
  | .reply => 6
  | .resultRecord => 6

/-- A waiting own request: a read awaiting a retry, or a queue entry. -/
inductive Waiting where
  | retry (r : OwnRead)
  | fresh (e : QueueEntry)
  deriving DecidableEq, Repr

/-- The rank of a waiting request: class, retries before queue entries, arrival (R169). -/
def Waiting.key : Waiting → Nat × Nat × Nat
  | .retry r => (r.req.client.rank, 0, r.arrival)
  | .fresh e => (e.req.client.rank, 1, e.arrival)

/-- Whether one waiting request is chosen before another. -/
def Waiting.before (a b : Waiting) : Bool :=
  let x := a.key
  let y := b.key
  x.1 < y.1 || (x.1 == y.1 && (x.2.1 < y.2.1 || (x.2.1 == y.2.1 && x.2.2 < y.2.2)))

/-- The waiting own requests (R169). -/
def Ptu.waitingOwn (p : Ptu) : List Waiting :=
  (p.reads.filter (fun r => r.awaiting)).map .retry ++
    (p.queue.filter (fun e => bodyIsWrite e.req.body || !p.shut)).map .fresh

/-- The own request the arbiter would grant (R169). -/
def Ptu.chosen (p : Ptu) : Option Waiting :=
  p.waitingOwn.foldl (fun best w =>
    match best with
    | none => some w
    | some b => if w.before b then some w else some b) none

/-- The tag own requests carry: the control tag, or tag 0 before the first SETUP (R159). That it is the tag in force at
each placement, of a retry too, is a DESIGN CHOICE (log 27). -/
def Ptu.ownTag (p : Ptu) : Nat := (p.tags.map Tags.control).getD 0

/-- The throttle after the outstanding count has changed upward (R171). -/
def Ptu.shutAt (p : Ptu) : Ptu := if p.ownLimit ≤ p.reads.length then { p with shut := true } else p

/-- The throttle after the outstanding count has changed downward (R171). -/
def Ptu.openAt (p : Ptu) : Ptu := if p.reads.length ≤ p.ownBase then { p with shut := false } else p

/-- A chosen own request placed on the memory side (R169, R171, R172). -/
def Ptu.placeOwn (w : Waiting) (p : Ptu) : Ptu :=
  match w with
  | .retry r =>
    { p with
      reads := p.reads.map (fun x => if x.arrival = r.arrival then { x with awaiting := false, attempts := x.attempts + 1 } else x)
      placed := p.placed ++ [.ownRead r.arrival p.ownTag] }
  | .fresh e =>
    let p1 := { p with queue := p.queue.filter (fun x => x.arrival != e.arrival) }
    match e.req.body with
    | .read _ =>
      Ptu.shutAt { p1 with
        reads := p1.reads ++ [⟨e.req, e.arrival, 1, p.retryMax, false⟩]
        placed := p1.placed ++ [.ownRead e.arrival p.ownTag] }
    | .write _ => { p1 with placed := p1.placed ++ [.ownWrite e.req p.ownTag] }

/-- The intake line moves up into a queue with room, and a kept request into the line (R169). -/
def Ptu.refill (p : Ptu) : Ptu :=
  if p.queue.length < 16 then
    match p.intake with
    | [] => p
    | r :: rest =>
      let p1 := Ptu.enqueue r { p with intake := rest }
      match p1.kept with
      | [] => p1
      | k :: ks => { p1 with intake := p1.intake ++ [k], kept := ks }
  else p

/-- Whether a class hands a tap when it is forwarded; a playback tap is handed as its beat returns (R164). -/
def PassClass.taps : PassClass → Bool
  | .commandSlot => true
  | .capture => true
  | .handset => true
  | .replyRead => true
  | .pagetable => true
  | .plain => false
  | .playback => false
  | .display => false

/-- The oldest pass-through request placed, with its tap (R159, R164). -/
def Ptu.placePass (q : PassReq) (rest : List PassReq) (p : Ptu) : Ptu :=
  { p with
    passQueue := rest, placed := p.placed ++ [.pass q 0]
    taps := if q.cls.taps then p.taps ++ [⟨q.cls, q.req⟩] else p.taps
    rotation := min p.rotateN (p.rotation + 1) }

/-- An own request granted (R170). -/
def Ptu.grantOwn (w : Waiting) (p : Ptu) : Ptu := Ptu.refill { p.placeOwn w with rotation := 0 }

/-- The arbiter's decision (R170). -/
def Ptu.arbitrate (p : Ptu) : Ptu :=
  match p.passQueue, p.chosen with
  | [], none => p
  | q :: rest, none => p.placePass q rest
  | [], some w => p.grantOwn w
  | q :: rest, some w => if p.rotation < p.rotateN then p.placePass q rest else p.grantOwn w

/-- The system-side requests of a list taken in order while the intake line has room, each closed by the rewrites it
leaves owed (R157, R186); the rest goes on waiting (R169). -/
def State.takeHeld : List Request → State → State
  | [], s => s
  | r :: rest, s =>
    if s.ptu.lineFull then { s with ptu := { s.ptu with sysHeld := r :: rest } }
    else State.takeHeld rest (s.arrive r).flush

/-- Held system-side requests taken as far as the line has room (R169). -/
def State.releaseHeld (s : State) : State :=
  State.takeHeld s.ptu.sysHeld { s with ptu := { s.ptu with sysHeld := [] } }

/-- ARBITER_DECISION, up to the host commands and taps that waited for room in the line. The rewrites that are owed begin
first (R157, R186); a full line that gains room lets what a frame latch left waiting come about, and the Glyph Translator
take its requests again (R31, R69, R169). The order is a DESIGN CHOICE (log 14). -/
def State.arbiterDecision (s : State) : State :=
  let t := State.releaseHeld (State.flush { s with ptu := s.ptu.arbitrate })
  if s.ptu.lineFull && !t.ptu.lineFull then t.resumeLatch.pump.flush else t

/-! ## Pass-through responses (R3, R43, R159) -/

/-- The pass-through request at the head of the placed requests, with the beats already returned; none while
responses are owed to a reset (R175). -/
def Ptu.headPass (p : Ptu) : Option (PassReq × Nat) :=
  if p.discard = 0 then
    match p.placed with
    | .pass q n :: _ => some (q, n)
    | _ => none
  else none

/-- One beat of the head read returned: the read is answered when it was the last. -/
def Ptu.returnBeat (q : PassReq) (n : Nat) (b : ReadBeat) (p : Ptu) : Ptu :=
  if bodyCount q.req.body ≤ n + 1 then Ptu.present (.beat b) true { p with placed := p.placed.tail }
  else Ptu.present (.beat b) false { p with placed := .pass q (n + 1) :: p.placed.tail }

/-- A playback tap handed: it joins the tap lane, behind the taps handed before it (R164). -/
def Ptu.handPlaybackTap (r : Request) (p : Ptu) : Ptu := { p with taps := p.taps ++ [⟨.playback, r⟩] }

/-- PLAYBACK_BEAT (R3): the beat returns and its tap is handed; with no earlier tap waiting it is taken at once. -/
def State.playbackBeat (b : ReadBeat) (s : State) : State :=
  match s.ptu.headPass with
  | some (q, n) =>
    if q.cls = .playback then State.playTaps { s with ptu := (s.ptu.returnBeat q n b).handPlaybackTap q.req } else s
  | none => s

/-- DISPLAY_BEAT (R43, R168). -/
def State.displayBeat (b : ReadBeat) (s : State) : State :=
  match s.ptu.headPass with
  | some (q, n) =>
    if q.cls = .display then
      let r := s.displayAt (beatAddr q.req.addr n) b
      { r.1 with ptu := r.1.ptu.returnBeat q n r.2 }
    else s
  | none => s

/-- The beats of a read response presented in order (R159). -/
def Ptu.presentAll (p : Ptu) : List ReadBeat → Ptu
  | [] => p
  | [b] => p.present (.beat b) true
  | b :: rest => Ptu.presentAll (p.present (.beat b) false) rest

/-- Whether a response answers a request: beats for a read of as many, a completion for a write. -/
def responseFits (r : Response) (b : Body) : Bool :=
  match r, b with
  | .read bs, .read n => bs.length == n
  | .write _, .write _ => true
  | _, _ => false

/-- PASS_THROUGH_RESPONSE (R159). -/
def State.passThroughResponse (r : Response) (s : State) : State :=
  match s.ptu.headPass with
  | some (q, _) =>
    if q.cls ≠ .playback ∧ q.cls ≠ .display ∧ responseFits r q.req.body = true then
      let p := { s.ptu with placed := s.ptu.placed.tail }
      { s with ptu := match r with
        | .read bs => p.presentAll bs
        | .write st => p.present (.completion st) true }
    else s
  | none => s

/-- DISCARDED_RESPONSE (R175). -/
def State.discardedResponse (s : State) : State :=
  { s with ptu := { s.ptu with discard := s.ptu.discard - 1 } }

/-! ## Own responses (R171 to R174) -/

/-- The memory error record set and counted, and MEMORY_ERROR raised (R173, R174). -/
def State.memoryError (r : OwnRequest) (s : State) : State :=
  State.raise .memoryError { s with ptu := { s.ptu with
    memError := some ⟨r.addr, r.client⟩, memErrorCount := s.ptu.memErrorCount + 1 } }

/-- An own read's final completion: it is no longer outstanding, and its part goes to the client (R171). -/
def Ptu.finishRead (r : OwnRead) (x : PartState) (p : Ptu) : Ptu :=
  Ptu.returnPart r.req.op r.req.part x
    (Ptu.openAt { p with reads := p.reads.filter (fun y => y.arrival != r.arrival) })

/-- Whether any returned beat carries ERROR (R172). -/
def anyError (bs : List ReadBeat) : Bool := bs.any (fun b => b.status == .error)

/-- OWN_READ_RESPONSE (R172, R173). -/
def State.ownReadResponse (bs : List ReadBeat) (s : State) : State :=
  if s.ptu.discard ≠ 0 then s
  else
    match s.ptu.placed with
    | .ownRead arrival _ :: rest =>
      match s.ptu.reads.find? (fun r => r.arrival == arrival) with
      | none => s
      | some r =>
        if bs.length ≠ bodyCount r.req.body then s
        else
          let s := { s with ptu := { s.ptu with placed := rest } }
          if anyError bs then
            if r.attempts ≤ r.limit then
              { s with ptu := { s.ptu with
                reads := s.ptu.reads.map (fun y => if y.arrival = r.arrival then { y with awaiting := true } else y) } }
            else
              let s := s.memoryError r.req
              { s with ptu := s.ptu.finishRead r .failed }
          else { s with ptu := s.ptu.finishRead r (.data (bs.map ReadBeat.data)) }
    | _ => s

/-- OWN_WRITE_COMPLETION (R174). -/
def State.ownWriteCompletion (st : Status) (s : State) : State :=
  if s.ptu.discard ≠ 0 then s
  else
    match s.ptu.placed with
    | .ownWrite r _ :: rest =>
      let s := { s with ptu := { s.ptu with placed := rest } }
      let s := if st = .error then s.memoryError r else s
      { s with ptu := s.ptu.returnPart r.op r.part (.data []) }
    | _ => s

/-! ## Line reset (R1, R175) -/

/-- LINE_RESET: every field at its reset value; the queue of commands stays the sender's, the CONTROL window
stands at the sampled strap, and the responses memory still owes are counted (R161, R175). -/
def State.lineReset (strap : BitVec 3) (s : State) : State :=
  { State.reset with
    pending := s.pending
    ptu := { controlBase := strapBase strap, discard := s.ptu.discard + s.ptu.placed.length } }

end Sys2Proof.Machine
end

