-- ==== Sys2Proof/Machine/SongCommands.lean ====
section
/-! DEFINITION. What the Song Clock Unit does with START, STOP, SEEK, SET_TEMPO and SET_KEY, and the end of
START's header read (sections 1.4 to 1.8). -/

namespace Sys2Proof.Machine

/-- What an owner makes of a command that reaches it: it ends at once with an answer, or it is taken and its
result comes later (R179). -/
inductive CommandEnd where
  | answered (a : Answer)
  | later (s : State)

/-- A refusal: the state as it was, and the code. -/
def State.refuse (rc : ResultCode) (s : State) : CommandEnd := .answered ⟨s, rc, []⟩

/-! ## START (R9 to R13, R21) -/

/-- Whether START's first check refuses it (R9). -/
def Scu.refusesStart (c : Scu) : Bool :=
  match c.state with
  | .idle => false
  | .finishing => c.phase != some .banner
  | .starting => true
  | .playing => true
  | .seeking => true

/-- START taken: STARTING entered and the header read handed (R9, R21). -/
def State.beginStart (tag : BitVec 16) (ticket : Nat) (bank : Fin 2) (s : State) : State :=
  let s := if s.scu.state = .finishing then s.leaveSong else s
  let base := match s.ptu.windows.asset with
    | some w => (bankWindow w bank).base
    | none => 0
  State.stageTest { s with
    scu := { s.scu with state := .starting, startTicket := some ticket, startBank := some bank }
    ptu := s.ptu.startOp .header .headerLoad (readsOver base 32)
    ctl := { s.ctl with inProgress := some ⟨0x05, tag⟩ } }

/-- START(ticket, bank) as the Song Clock Unit receives it (R9). -/
def State.takeStart (tag : BitVec 16) (ticket bank : Nat) (s : State) : CommandEnd :=
  if s.scu.refusesStart then s.refuse .state
  else if h : bank < 2 then
    if (s.rqu.stagedTicket.map Ticket.number) = some ticket then .later (s.beginStart tag ticket ⟨bank, h⟩)
    else s.refuse .stale
  else s.refuse .badArg

/-- A START that ends without a song: IDLE, its report, its result (R11, R13). -/
def State.failStart (rc : ResultCode) (s : State) : State :=
  (State.stageTest { s with scu := { s.scu with state := .idle, startTicket := none, startBank := none } }).finishCommand rc

/-- Whether a list of `count` records of `size` bytes lies inside a bank (R11, log 11). -/
def listFits (off size count bankSize : Nat) : Bool := off + size * count ≤ bankSize

/-- Whether a header is good for a song in a bank of `bankSize` bytes (R11). -/
def Header.good (h : Header) (song bankSize : Nat) : Bool :=
  h.song == song && h.length ≤ songMsMax && h.cueCount ≤ 1024 && h.lineCount ≤ 512 && h.noteCount ≤ 4096 &&
    listFits h.cueOffset 8 h.cueCount bankSize && listFits h.lineOffset 512 h.lineCount bankSize &&
    listFits h.noteOffset 8 h.noteCount bankSize

/-- The song context, the Lyric Sequencer, the engine and the Score Unit primed with a song (R12, R22, R105, R121). -/
def State.primeSong (t : Ticket) (bank : Fin 2) (base : Nat) (h : Header) (s : State) : State :=
  { s with
    scu := { s.scu with
      state := .playing, startTicket := none, startBank := none, bank := bank, length := h.length, acc := 0
      tempo := 65536, key := t.key, seeked := false, stopped := false, endPending := false, endTime := none }
    lsq := { s.lsq.emptied with
      cueBase := base + h.cueOffset, cueCount := h.cueCount
      lineBase := base + h.lineOffset, lineCount := h.lineCount }
    pje := { s.pje.emptied with noteBase := base + h.noteOffset, noteCount := h.noteCount }
    scr := s.scr.startSong t.number
    ptu := (s.ptu.orphan OpKind.isLyric).orphan OpKind.isNote }

/-- START completes (R12): the ticket leaves the queue as the current ticket, the history grows, the song is
primed, SONG_MS 0 is offered, the state change reported and the result written. -/
def State.completeStart (t : Ticket) (bank : Fin 2) (base : Nat) (h : Header) (s : State) : State :=
  let s := State.depart t false { s with scu := { s.scu with current := some t } }
  let s := (s.pushHistory t).primeSong t bank base h
  s.offer.stageTest.finishCommand .ok

/-- The header read has ended with its data or a failure (R11 to R13). -/
def State.headerEnded (data : Option (List Beat)) (s : State) : State :=
  match s.scu.startTicket, s.scu.startBank, s.ptu.windows.asset with
  | some n, some bank, some w =>
    match s.rqu.stagedTicket with
    | none => s.failStart .stale
    | some t =>
      if t.number = n then
        match data with
        | none => s.failStart .badAsset
        | some bs =>
          let h := readHeader bs
          if h.good t.song (bankWindow w bank).size then s.completeStart t bank (bankWindow w bank).base h
          else s.failStart .badAsset
      else s.failStart .stale
  | _, _, _ => s

/-- HEADER_READ_COMPLETE: the ended header read. -/
def State.headerReadComplete (s : State) : State :=
  match s.ptu.firstEnded (fun k => k == .header) with
  | none => s
  | some o => State.headerEnded o.data { s with ptu := s.ptu.dropEnded o.id }

/-! ## STOP, SEEK, SET_TEMPO, SET_KEY -/

/-- STOP (R14). -/
def State.takeStop (s : State) : CommandEnd :=
  if s.scu.state = .playing then
    .answered ⟨State.enterFinishing s.songMs { s with scu := { s.scu with stopped := true } }, .ok, []⟩
  else s.refuse .state

/-- The engine's rebuild starts (R106). -/
def State.startNoteRebuild (s : State) : State :=
  { s with pje := { s.pje.emptied with rebuild := true }, ptu := s.ptu.orphan OpKind.isNote }

/-- A SEEK taken with its clamped target (R15, R40, R88, R96, R106). No rule orders what it hands: the CALLED of the
staging test, the first cue fetch and the first note fetch leave in this order by DESIGN CHOICE, log 10. -/
def State.beginSeek (tag : BitVec 16) (target : Nat) (s : State) : State :=
  let s := { s with
    scu := { s.scu with acc := target * 48 * 65536, seeked := true, state := .seeking }
    vin := s.vin.seekFlush
    ctl := { s.ctl with inProgress := some ⟨0x07, tag⟩ } }
  let s := ((s.abortAnalysis.startRescan target).startNoteRebuild).stageTest
  s.tryCueFetch.tryNoteFetch.rebuildEnds

/-- SEEK(ms) (R15). -/
def State.takeSeek (tag : BitVec 16) (ms : Nat) (s : State) : CommandEnd :=
  if s.scu.state = .playing then .later (s.beginSeek tag (min ms s.scu.length)) else s.refuse .state

/-- SET_TEMPO(value) (R6). -/
def State.takeTempo (value : Nat) (s : State) : CommandEnd :=
  let t := clampNat 32768 98304 value
  .answered ⟨{ s with scu := { s.scu with tempo := t } }, .ok, [BitVec.ofNat 32 t]⟩

/-- SET_KEY(value) (R7). -/
def State.takeKey (value : Int) (s : State) : CommandEnd :=
  let k := clampInt (-12) 12 value
  .answered ⟨{ s with scu := { s.scu with key := k } }, .ok, [signedWord k]⟩

end Sys2Proof.Machine
end

