-- ==== Sys2Proof/Machine/Setup.lean ====
section
/-! DEFINITION. SETUP with its checks and effects (section 11.3), and the other commands that the Control Unit,
the Score Unit, the engine and the Glyph Translator take: SET_SCORING, ENABLE_EVENTS, ACK, ASSIGN, CLEAR_ROOM
and FLUSH_GLYPHS. -/

namespace Sys2Proof.Machine

/-! ## The checks of a commit (R162, R181) -/

/-- Whether `n` is a power of two from 2^lo to 2^(lo + span). -/
def powerOfTwo (lo span n : Nat) : Bool := (List.range (span + 1)).any (fun i => n == 2 ^ (lo + i))

/-- A window's size and base (R162). -/
def WindowParam.ok (w : WindowParam) : Bool := powerOfTwo 12 16 w.size && w.base % w.size == 0

/-- Whether two ranges of bytes share none. -/
def WindowParam.apart (a b : WindowParam) : Bool := a.base + a.size ≤ b.base || b.base + b.size ≤ a.base

/-- Whether no two of a list of windows share a byte (R162). -/
def allApart : List WindowParam → Bool
  | [] => true
  | w :: rest => rest.all w.apart && allApart rest

/-- The eight windows of SETUP. -/
def Setup.windowList (p : Setup) : List WindowParam :=
  [p.wPlayback, p.wFrame, p.wMic, p.wHandset, p.wReply, p.wAsset, p.wPagetable, p.wImage]

/-- The Path Unit's ranges (R162). -/
def Setup.pathOk (control : Nat) (p : Setup) : Bool :=
  p.windowList.all WindowParam.ok && allApart (⟨control, 4096⟩ :: p.windowList) &&
    p.controlTag ≤ 15 && p.playbackTag ≤ 15 && p.displayTag ≤ 15 && p.captureTag ≤ 15 && p.radioTag ≤ 15 &&
    1 ≤ p.rotateN && p.rotateN ≤ 8 && 2 ≤ p.ownLimit && p.ownLimit ≤ 16 && p.ownBase < p.ownLimit && p.retryMax ≤ 3

/-- CHANNELS, APERTURE and the page table's room (Table 5-1, R66). -/
def Setup.unitsOk (p : Setup) : Bool :=
  1 ≤ p.channels && p.channels ≤ 4 && powerOfTwo 20 7 p.aperture && p.aperture / 1024 ≤ p.wPagetable.size

/-- The frame and the band (Table 3-1, Table 2-2). -/
def Setup.frameOk (p : Setup) : Bool :=
  1 ≤ p.width && p.width ≤ 1920 && 1 ≤ p.height && p.height ≤ 1080 && p.stride % 16 == 0 && 4 * p.width ≤ p.stride &&
    p.stride * p.height ≤ p.wFrame.size && 1 ≤ p.bandW && p.bandX + p.bandW ≤ p.width && 2 ≤ p.bandRows &&
    p.bandRows ≤ 4 && p.bandY + 48 * p.bandRows ≤ p.height

/-- Whether the strip rectangle shares no pixel with the band rectangle (Table 3-1). -/
def Setup.stripApart (p : Setup) : Bool :=
  p.stripX + p.stripW ≤ p.bandX || p.bandX + p.bandW ≤ p.stripX || p.stripY + 48 ≤ p.bandY ||
    p.bandY + 48 * p.bandRows ≤ p.stripY

/-- The strip and the layers' parameters (Table 3-1). -/
def Setup.layersOk (p : Setup) : Bool :=
  (!p.stripEnable || (1 ≤ p.stripW && p.stripX + p.stripW ≤ p.width && p.stripY + 48 ≤ p.height && p.stripApart)) &&
    p.shade ≤ 256 && p.digitBase ≤ 65523 && 16 ≤ p.stripAdvance && p.stripAdvance ≤ 64

/-- The times and the queue parameters (Tables 2-2, 8-2, 9-1; BANNER_FRAMES of Table 11-3). -/
def Setup.timesOk (p : Setup) : Bool :=
  p.scrollMs ≤ 2000 && 200 ≤ p.lookaheadMs && p.lookaheadMs ≤ 5000 && p.bannerFrames ≤ 1023 &&
    p.stageLeadMs ≤ 120000 && 1 ≤ p.catalogSize && p.catalogSize ≤ 16777215 && 1 ≤ p.limit && p.limit ≤ 8

/-- Every range and condition a commit is checked against (R181). -/
def Setup.ok (control : Nat) (p : Setup) : Bool :=
  p.pathOk control && p.unitsOk && p.frameOk && p.layersOk && p.timesOk

/-! ## SETUP taken (R182) -/

/-- A window in force from its parameter. -/
def WindowParam.window (w : WindowParam) : Window := ⟨w.base, w.size⟩

/-- The eight windows in force. -/
def Setup.windows (p : Setup) : Windows :=
  { playback := some p.wPlayback.window, frame := some p.wFrame.window, mic := some p.wMic.window
    handset := some p.wHandset.window, reply := some p.wReply.window, asset := some p.wAsset.window
    pagetable := some p.wPagetable.window, image := some p.wImage.window }

/-- The Path Unit under a new setup (R162). -/
def Ptu.setup (p : Setup) (u : Ptu) : Ptu :=
  Ptu.openAt (Ptu.shutAt { u with
    windows := p.windows
    tags := some ⟨p.controlTag, p.playbackTag, p.displayTag, p.captureTag, p.radioTag⟩
    rotateN := p.rotateN, ownLimit := p.ownLimit, ownBase := p.ownBase, retryMax := p.retryMax, rotation := 0 })

/-- The reply ring under a new setup: emptied, the count 0 written, the image owed (R147). The write is no reply's
placement, so no REPLY_PLACEMENT_END is its end. -/
def State.setupReplies (s : State) : State :=
  { s with
    rqu := { s.rqu with
      replyIndex := 0, producer := 0, slots := Vector.replicate 16 false, imageOwed := true }
    ptu := s.ptu.handUnwatched .reply (writesOver (baseOf s.ptu.windows.reply) (leBytes 4 0)) }

/-- A commit that passes takes effect in every block (R1, R42, R75, R90, R123, R147, R162, R182). -/
def State.applySetup (p : Setup) (s : State) : State :=
  let s := { s with
    scu := { s.scu with bannerFrames := p.bannerFrames }
    ovc := { s.ovc with latch := none }
    gxt := s.gxt.flush
    vin := s.vin.setup
    scr := { s.scr with writeIndex := 0 }
    ptu := s.ptu.setup p
    ctl := { s.ctl with setup := some p, pendingSetup := p } }
  s.resetComposition.setupReplies

/-- SETUP(section, commit, parameters) (R181). -/
def State.takeSetup (sec commit : Byte) (words : List Word) (s : State) : CommandEnd :=
  if 5 < sec.toNat then s.refuse .badArg
  else
    let p := s.ctl.pendingSetup.copySection sec.toNat (fun i => words.getD i 0)
    let s := { s with ctl := { s.ctl with pendingSetup := p } }
    if commit = 0 then .answered ⟨s, .ok, []⟩
    else if p.ok s.ptu.controlBase then .answered ⟨s.applySetup p, .ok, []⟩
    else s.refuse .badArg

/-! ## SET_SCORING (R93, R120) -/

/-- SET_SCORING. -/
def State.takeScoring (gate clarity latency : Nat) (fold : Bool) (pMax gMax fMax cadence : Nat) (s : State) :
    CommandEnd :=
  if 32767 < gate ∨ 256 < clarity ∨ gMax < pMax ∨ fMax < gMax ∨ 1023 < fMax then s.refuse .badArg
  else
    let latency := clampNat 0 500 latency
    .answered ⟨{ s with
      pje := { s.pje with prm := ⟨gate, clarity, latency, fold, pMax, gMax, fMax⟩ }
      scr := { s.scr with cadence := clampNat 1 16 cadence } }, .ok, [BitVec.ofNat 32 latency]⟩

/-! ## ENABLE_EVENTS and ACK (R185) -/

/-- A mask word's fourteen event bits. -/
def eventMask (w : Word) : BitVec 14 := w.setWidth 14

/-- ENABLE_EVENTS(mask). -/
def State.takeEnable (mask : Word) (s : State) : CommandEnd :=
  .answered ⟨{ s with ctl := s.ctl.enable (eventMask mask) s.rqu.high }, .ok, [(eventMask mask).setWidth 32]⟩

/-- ACK(mask). -/
def State.takeAck (mask : Word) (s : State) : CommandEnd :=
  let c := s.ctl.acknowledge (eventMask mask)
  .answered ⟨{ s with ctl := c }, .ok, [c.flags.setWidth 32]⟩

/-! ## ASSIGN (R90, R115, R116) -/

/-- ASSIGN(singer, mic, part). -/
def State.takeAssign (singer mic part : Nat) (s : State) : CommandEnd :=
  if h : singer < 4 then
    let i : Fin 4 := ⟨singer, h⟩
    let g := s.scr.singers.get i
    if s.scu.state = .finishing ∨ (s.scu.state = .playing ∧ g.active = true) then s.refuse .state
    else
      let taken := fun (p : AssignPart) =>
        let link := if s.scu.state = .playing then s.scu.current.map Ticket.number else none
        let r := g.assign mic p link
        CommandEnd.answered ⟨{ s with
          scr := { s.scr with singers := vset s.scr.singers i r.1 }
          vin := s.vin.assign r.2 }, .ok, [BitVec.ofNat 32 singer]⟩
      match readAssignPart part with
      | none => s.refuse .badArg
      | some .off => taken .off
      | some (.part q) =>
        if s.prm.channels ≤ mic then s.refuse .badArg
        else if s.scr.micTaken i mic then s.refuse .badArg
        else taken (.part q)
  else s.refuse .badArg

/-! ## CLEAR_ROOM and FLUSH_GLYPHS -/

/-- CLEAR_ROOM (R183). -/
def State.takeClearRoom (s : State) : CommandEnd :=
  .answered ⟨State.clearQueue { s with scr := s.scr.clear }, .ok, []⟩

/-- FLUSH_GLYPHS (R74). -/
def State.takeFlush (s : State) : CommandEnd := .answered ⟨{ s with gxt := s.gxt.flush }, .ok, []⟩

end Sys2Proof.Machine
end

