-- ==== Sys2Proof/Machine/Packets.lean ====
section
/-! DEFINITION. Handset packets taken from the tap lane one beat at a time (section 8.2), and reply taps (R154). -/

namespace Sys2Proof.Machine

/-- What a beat of a handset tap is (R128 to R130). -/
inductive PacketKind where
  | bad
  | resend
  | fresh (a : Action)
  deriving DecidableEq, Repr

/-- The handset record's number of a packet of HANDSET 0 to 15. -/
def Packet.from (p : Packet) : Fin 16 := Fin.ofNat 16 p.handset

/-- The kind of a beat (R128 to R130). -/
def State.packetKind (b : WriteBeat) (s : State) : PacketKind :=
  if b.en ≠ BitVec.allOnes 16 then .bad
  else
    let p := readPacket b.data
    if 15 < p.handset then .bad
    else if (s.rqu.handsets.get p.from).lastSeq = some p.seq then .resend
    else .fresh p.action

/-- The next beat of the handset tap at the head of the lane, and the lane after it is taken (R128). -/
def State.nextBeat (s : State) : Option (WriteBeat × State) :=
  match s.ptu.taps with
  | [] => none
  | t :: rest =>
    if t.cls = .handset then
      match bodyBeats t.req.body with
      | [] => none
      | [b] => some (b, s.dropTap)
      | b :: bs =>
        some (b, { s with ptu := { s.ptu with taps := { t with req := { t.req with body := .write bs } } :: rest } })
    else none

/-- The next beat taken when it is of kind `k`; the state unchanged otherwise (log 3). -/
def State.withPacket (k : PacketKind) (f : Packet → State → State) (s : State) : State :=
  match s.nextBeat with
  | none => s
  | some (b, s') => if s.packetKind b = k then f (readPacket b.data) s' else s

/-- BAD_PACKET (R128, R129). -/
def State.badPacket (s : State) : State :=
  s.withPacket .bad (fun _ s => { s with rqu := { s.rqu with badPacket := s.rqu.badPacket + 1 } })

/-- HANDSET_RESEND (R130): the stored last reply placed again. A SCORE reply placed again, or kept as lost, is not
reported to the Score Unit, which waits for its own hand-off alone: DESIGN CHOICE, log 31. -/
def State.handsetResend (s : State) : State :=
  s.withPacket .resend (fun p s =>
    match (s.rqu.handsets.get p.from).lastReply with
    | none => s
    | some r => s.placeReply r false)

/-- HANDSET_REQUEST (R130, R134). -/
def State.handsetRequest (s : State) : State :=
  s.withPacket (.fresh .request) (fun p s =>
    (s.noteSequence p.from p.seq).handleRequest p.from ⟨p.seq, p.song, p.key, p.singers⟩)

/-- HANDSET_CANCEL (R130, R139). -/
def State.handsetCancel (s : State) : State :=
  s.withPacket (.fresh .cancel) (fun p s => (s.noteSequence p.from p.seq).handleCancel p.from p.ticket)

/-- HANDSET_STATUS (R130, R140). -/
def State.handsetStatus (s : State) : State :=
  s.withPacket (.fresh .status) (fun p s =>
    let s := s.noteSequence p.from p.seq
    s.issueReply p.from (s.positionsOf p.from) false)

/-- BAD_ACTION_PACKET (R129, R130). -/
def State.badActionPacket (s : State) : State :=
  s.withPacket (.fresh .other) (fun p s =>
    (s.noteSequence p.from p.seq).issueReply p.from (.refused .badRequest) false)

/-- Whether a read covers the last beat of reply slot `i` (R154). -/
def coversSlot (base : Nat) (r : Request) (i : Nat) : Bool :=
  (List.range (bodyCount r.body)).any (fun j => beatAddr r.addr j == base + 32 + 32 * i)

/-- REPLY_READ (R154): the reply tap at the head of the lane. -/
def State.replyRead (s : State) : State :=
  match s.ptu.headTap .replyRead with
  | none => s
  | some r =>
    let s := s.dropTap
    let base := baseOf s.ptu.windows.reply
    { s with rqu := { s.rqu with slots := Vector.ofFn (fun i : Fin 16 =>
        if coversSlot base r i.val then false else s.rqu.slots.get i) } }

end Sys2Proof.Machine
end

