-- ==== Sys2Proof/Machine/Completions.lean ====
section
/-! DEFINITION. The ends of own operations that the blocks of chapters 1, 2, 6, 7, 9 and 11 wait for, and the end
of a measurement. -/

namespace Sys2Proof.Machine

/-! ## The Lyric Sequencer's reads (R25, R32, R40) -/

/-- CUE_FETCH_COMPLETE: the ended cue fetch. -/
def State.cueFetchComplete (s : State) : State :=
  match s.ptu.firstEnded (fun k => k == .cue) with
  | none => s
  | some o => State.endCueFetch o.data { s with ptu := s.ptu.dropEnded o.id }

/-- LINE_LOAD_COMPLETE: the oldest ended line load. -/
def State.lineLoadComplete (s : State) : State :=
  match s.ptu.firstEnded (fun k => k == .line) with
  | none => s
  | some o => State.endLineLoad o.id o.data { s with ptu := s.ptu.dropEnded o.id }

/-! ## The engine's note fetch (R102, R103, R106, R107) -/

/-- A decoded note taken: in a rebuild the leaving bound is applied first, and a note at or below it is passed
over (R103, R106). -/
def State.takeFetchedNote (n : Note) (s : State) : State :=
  let reach := s.songMs + s.prm.lookaheadMs
  let p : Pje := { s.pje with front := some n.start }
  let p := if p.rebuild then p.leave s.songMs else p
  if p.rebuild && noteLeft s.songMs p.prm.latencyMs n then { s with pje := p }
  else { s with pje := p.takeNote reach n }

/-- A note fetch ends with its data or a failure (R103, R107, R108). -/
def State.endNoteFetch (data : Option (List Beat)) (s : State) : State :=
  let off := (s.pje.noteBase + 8 * s.pje.cursor) % 16
  let s := { s with pje := { s.pje with fetch := none, cursor := s.pje.cursor + 1 } }
  let s := match data with
    | none => s
    | some bs => s.takeFetchedNote (readNote bs off)
  s.tryNoteFetch.retryJudgement.rebuildEnds

/-- NOTE_FETCH_COMPLETE: the ended note fetch. -/
def State.noteFetchComplete (s : State) : State :=
  match s.ptu.firstEnded (fun k => k == .note) with
  | none => s
  | some o => State.endNoteFetch o.data { s with ptu := s.ptu.dropEnded o.id }

/-! ## Measurement (R95) -/

/-- MEASUREMENT_END: the block in hand, if it is being measured, is judged by its period. -/
def State.measurementEnd (s : State) : State :=
  match s.pje.block with
  | none => s
  | some b =>
    match b.phase with
    | .measuring =>
      s.judge b (measure b.prm ((s.vin.channels.get b.entry.channel).halves.get b.entry.half).samples)
    | .judging _ => s

/-! ## The write-out (R19, R122) -/

/-- The write-out has ended: SONG_ENDED, BANNER and its report, and the banner count (R19). -/
def State.endWriteOut (s : State) : State :=
  let s := State.raise .songEnded { s with scu := { s.scu with phase := some .banner } }
  s.stageTest.loadBanner (if s.scu.stopped then 0 else s.scu.bannerFrames)

/-- WRITE_OUT_END: every write of the record and the index completed and no SCORE reply waited for. -/
def State.writeOutEnd (s : State) : State :=
  match s.ptu.firstEnded (fun k => k == .writeOut) with
  | none => s
  | some o =>
    if s.scr.scoreWaiting = false ∧ s.scu.phase = some .writeOut then
      State.endWriteOut { s with ptu := s.ptu.dropEnded o.id }
    else s

/-! ## Results, rewrites and replies (R152, R157, R180, R186) -/

/-- RESULT_SLOT_WRITTEN: COMMAND_DONE unless the result is ACK's, and a status rewrite owed (R180). -/
def State.resultSlotWritten (s : State) : State :=
  match s.ptu.firstEnded OpKind.isResult with
  | none => s
  | some o =>
    let s := { s with ptu := s.ptu.dropEnded o.id }
    let s := if o.kind = .result 0x04 then s else s.raise .commandDone
    { s with ctl := { s.ctl with statusOwed := true } }

/-- STATUS_REWRITE_END: the rewrite in flight has ended (R186). -/
def State.statusRewriteEnd (s : State) : State :=
  match s.ptu.firstEnded (fun k => k == .status) with
  | none => s
  | some o => { s with ptu := s.ptu.dropEnded o.id, ctl := { s.ctl with statusOp := none } }

/-- IMAGE_REWRITE_END: the rewrite in flight has ended (R157). -/
def State.imageRewriteEnd (s : State) : State :=
  match s.ptu.firstEnded (fun k => k == .image) with
  | none => s
  | some o => { s with ptu := s.ptu.dropEnded o.id, rqu := { s.rqu with imageOp := none } }

/-- REPLY_PLACEMENT_END: the oldest ended placement; a SCORE reply's is reported to the Score Unit (R152). -/
def State.replyPlacementEnd (s : State) : State :=
  match s.ptu.firstEnded OpKind.isReply with
  | none => s
  | some o =>
    let s := { s with ptu := s.ptu.dropEnded o.id }
    if o.kind = .reply true then { s with scr := { s.scr with scoreWaiting := false } } else s

end Sys2Proof.Machine
end

