-- ==== Sys2Proof/Machine/Control.lean ====
section
/-! DEFINITION. The Control Unit's decision on a submitted record (R179), each command as a submitted record
(Table 11-2), and the capture of the command slot (R178). -/

namespace Sys2Proof.Machine

/-- A submitted record of code `code` decided by the five steps of R179; `owner` is what step 5 routes it to,
none for a code of no command. -/
def State.submit (code tag : BitVec 16) (owner : Option (State → CommandEnd)) (s : State) : State :=
  if s.ctl.inProgress.isSome then s.result code tag .busy []
  else
    match owner with
    | none => s.result code tag .badCommand []
    | some f =>
      if s.ctl.setup.isNone ∧ code ≠ 0x01 then s.result code tag .notSet []
      else if (code = 0x01 ∨ code = 0x10) ∧ s.scu.state ≠ .idle then s.result code tag .busy []
      else
        match f s with
        | .answered a => a.state.result code tag a.rc a.values
        | .later t => t

/-- An owner that always answers at once. -/
def answering (f : State → Answer) : Option (State → CommandEnd) := some (fun s => .answered (f s))

/-! ## The seventeen commands (Tables 11-2 and 12-2) -/

/-- SETUP. -/
def State.submitSetup (tag : BitVec 16) (sec commit : Byte) (words : List Word) (s : State) : State :=
  s.submit 0x01 tag (some (State.takeSetup sec commit words))

/-- SET_SCORING. -/
def State.submitScoring (tag : BitVec 16) (gate clarity latency fold pMax gMax fMax cadence : Word) (s : State) : State :=
  s.submit 0x02 tag (some (State.takeScoring gate.toNat clarity.toNat latency.toNat (wordOn fold) pMax.toNat
    gMax.toNat fMax.toNat cadence.toNat))

/-- ENABLE_EVENTS. -/
def State.submitEnable (tag : BitVec 16) (mask : Word) (s : State) : State :=
  s.submit 0x03 tag (some (State.takeEnable mask))

/-- ACK. -/
def State.submitAck (tag : BitVec 16) (mask : Word) (s : State) : State := s.submit 0x04 tag (some (State.takeAck mask))

/-- START. -/
def State.submitStart (tag : BitVec 16) (ticket bank : Word) (s : State) : State :=
  s.submit 0x05 tag (some (State.takeStart tag ticket.toNat bank.toNat))

/-- STOP. -/
def State.submitStop (tag : BitVec 16) (s : State) : State := s.submit 0x06 tag (some State.takeStop)

/-- SEEK. -/
def State.submitSeek (tag : BitVec 16) (ms : Word) (s : State) : State :=
  s.submit 0x07 tag (some (State.takeSeek tag ms.toNat))

/-- SET_TEMPO. -/
def State.submitTempo (tag : BitVec 16) (value : Word) (s : State) : State :=
  s.submit 0x08 tag (some (State.takeTempo value.toNat))

/-- SET_KEY; its value is signed (R188). -/
def State.submitKey (tag : BitVec 16) (value : Word) (s : State) : State :=
  s.submit 0x09 tag (some (State.takeKey value.toInt))

/-- ASSIGN. -/
def State.submitAssign (tag : BitVec 16) (singer mic part : Word) (s : State) : State :=
  s.submit 0x0A tag (some (State.takeAssign singer.toNat mic.toNat part.toNat))

/-- INSERT; its key is signed (R188). -/
def State.submitInsert (tag : BitVec 16) (song key singers priority : Word) (s : State) : State :=
  s.submit 0x0B tag (answering (State.takeInsert song.toNat key.toInt singers.toNat (wordOn priority)))

/-- REMOVE. -/
def State.submitRemove (tag : BitVec 16) (ticket : Word) (s : State) : State :=
  s.submit 0x0C tag (answering (State.takeRemove ticket.toNat))

/-- PROMOTE. -/
def State.submitPromote (tag : BitVec 16) (ticket : Word) (s : State) : State :=
  s.submit 0x0D tag (answering (State.takePromote ticket.toNat))

/-- OPEN. -/
def State.submitOpen (tag : BitVec 16) (s : State) : State := s.submit 0x0E tag (answering State.takeOpen)

/-- CLOSE. -/
def State.submitClose (tag : BitVec 16) (s : State) : State := s.submit 0x0F tag (answering State.takeClose)

/-- CLEAR_ROOM. -/
def State.submitClearRoom (tag : BitVec 16) (s : State) : State := s.submit 0x10 tag (some State.takeClearRoom)

/-- FLUSH_GLYPHS. -/
def State.submitFlush (tag : BitVec 16) (s : State) : State := s.submit 0x11 tag (some State.takeFlush)

/-! ## The command slot (R178, R188) -/

/-- A command record decoded and submitted (R179, R188, Table 12-2). -/
def State.submitRecord (r : CommandRecord) (s : State) : State :=
  match r.code with
  | 0x01 => s.submitSetup r.tag ((r.arg 0).setWidth 8) ((r.arg 0 >>> 8).setWidth 8) r.words.tail
  | 0x02 => s.submitScoring r.tag (r.arg 0) (r.arg 1) (r.arg 2) (r.arg 3) (r.arg 4) (r.arg 5) (r.arg 6) (r.arg 7)
  | 0x03 => s.submitEnable r.tag (r.arg 0)
  | 0x04 => s.submitAck r.tag (r.arg 0)
  | 0x05 => s.submitStart r.tag (r.arg 0) (r.arg 1)
  | 0x06 => s.submitStop r.tag
  | 0x07 => s.submitSeek r.tag (r.arg 0)
  | 0x08 => s.submitTempo r.tag (r.arg 0)
  | 0x09 => s.submitKey r.tag (r.arg 0)
  | 0x0A => s.submitAssign r.tag (r.arg 0) (r.arg 1) (r.arg 2)
  | 0x0B => s.submitInsert r.tag (r.arg 0) (r.arg 1) (r.arg 2) (r.arg 3)
  | 0x0C => s.submitRemove r.tag (r.arg 0)
  | 0x0D => s.submitPromote r.tag (r.arg 0)
  | 0x0E => s.submitOpen r.tag
  | 0x0F => s.submitClose r.tag
  | 0x10 => s.submitClearRoom r.tag
  | 0x11 => s.submitFlush r.tag
  | n => s.submit (BitVec.ofNat 16 n) r.tag none

/-- A beat of a tap merged into a captured beat, byte by byte (R178). -/
def mergeBeat (old : Beat) (b : WriteBeat) : Beat :=
  packBeat ((List.range 16).map (fun k =>
    BitVec.ofNat 8 (if b.en.getLsbD k then byteAt [b.data] k else byteAt [old] k)))

/-- The index of the captured beat at which a command-slot tap begins. -/
def firstSlotBeat (addr : Word) : Nat := addr.toNat / 16 % 4

/-- A write's beats merged into the captured beats from beat `i` on (R178). -/
def mergeBeats (v : Vector Beat 4) : Nat → List WriteBeat → Vector Beat 4
  | _, [] => v
  | i, b :: rest =>
    mergeBeats (if h : i < 4 then vset v ⟨i, h⟩ (mergeBeat (v.get ⟨i, h⟩) b) else v) (i + 1) rest

/-- Whether a command-slot write carries beat 3 with at least one byte enabled (R178). -/
def submits (addr : Word) (bs : List WriteBeat) : Bool :=
  match bs[3 - firstSlotBeat addr]? with
  | some b => b.en != 0
  | none => false

/-- COMMAND_SLOT_WRITE (R178): the command-slot tap at the head of the lane. -/
def State.commandSlotWrite (s : State) : State :=
  match s.ptu.headTap .commandSlot with
  | none => s
  | some r =>
    let bs := bodyBeats r.body
    let captured := mergeBeats s.ctl.captured (firstSlotBeat r.addr) bs
    let s := { s.dropTap with ctl := { s.ctl with captured := captured } }
    if submits r.addr bs then s.submitRecord (readCommand captured) else s

/-! ## Work that waits for the intake line (R169) -/

/-- A host command's work: every host command hands a request, so while the line is full, or older commands wait,
it waits behind them (R169, log 14). -/
def State.hostWork (c : Instr) (work : State → State) (s : State) : State :=
  if s.ptu.lineFull ∨ s.ctl.waiting ≠ [] then { s with ctl := { s.ctl with waiting := s.ctl.waiting ++ [c] } }
  else work s

/-- A waiting host command submitted; no other command waits in that list. -/
def State.submitInstr (s : State) (c : Instr) : State :=
  match c with
  | .setup tag sec commit words => s.submitSetup tag sec commit words
  | .setScoring tag gate clarity latency fold pMax gMax fMax cadence =>
    s.submitScoring tag gate clarity latency fold pMax gMax fMax cadence
  | .enableEvents tag mask => s.submitEnable tag mask
  | .ack tag mask => s.submitAck tag mask
  | .start tag ticket bank => s.submitStart tag ticket bank
  | .stop tag => s.submitStop tag
  | .seek tag ms => s.submitSeek tag ms
  | .setTempo tag value => s.submitTempo tag value
  | .setKey tag value => s.submitKey tag value
  | .assign tag singer mic part => s.submitAssign tag singer mic part
  | .insert tag song key singers priority => s.submitInsert tag song key singers priority
  | .remove tag ticket => s.submitRemove tag ticket
  | .promote tag ticket => s.submitPromote tag ticket
  | .openRoom tag => s.submitOpen tag
  | .closeRoom tag => s.submitClose tag
  | .clearRoom tag => s.submitClearRoom tag
  | .flushGlyphs tag => s.submitFlush tag
  | .lineReset _ => s
  | .systemRequest _ => s
  | .arbiterDecision => s
  | .playbackBeat _ => s
  | .displayBeat _ => s
  | .passThroughResponse _ => s
  | .discardedResponse => s
  | .ownReadResponse _ => s
  | .ownWriteCompletion _ => s
  | .headerReadComplete => s
  | .cueFetchComplete => s
  | .lineLoadComplete => s
  | .noteFetchComplete => s
  | .pageWalkComplete => s
  | .glyphRowFetchComplete => s
  | .commandSlotWrite => s
  | .captureWrite => s
  | .measurementEnd => s
  | .writeOutEnd => s
  | .pagetableWrite => s
  | .replyRead => s
  | .badPacket => s
  | .handsetResend => s
  | .handsetRequest => s
  | .handsetCancel => s
  | .handsetStatus => s
  | .badActionPacket => s
  | .resultSlotWritten => s
  | .statusRewriteEnd => s
  | .imageRewriteEnd => s
  | .replyPlacementEnd => s

/-- The commands of a list submitted in order while the line has room, each closed by the rewrites it leaves owed (R157,
R186); the rest goes on waiting. -/
def State.resumeHost : List Instr → State → State
  | [], s => s
  | c :: rest, s =>
    if s.ptu.lineFull then { s with ctl := { s.ctl with waiting := c :: rest } }
    else State.resumeHost rest (s.submitInstr c).flush

/-- The waiting host commands taken up as far as the line has room (R169). -/
def State.resumeWork (s : State) : State :=
  State.resumeHost s.ctl.waiting { s with ctl := { s.ctl with waiting := [] } }

end Sys2Proof.Machine
end

