-- ==== Sys2Proof/Machine/EndCommands.lean ====
section
/-! DEFINITION. The meanings of the commands by which an own operation or a measurement ends.
Each waits while it would have to hand a request to a full intake line (R169,
log 14), and closes with the rewrites that are owed (R157, R186; log 10). -/

namespace Sys2Proof.Machine

/-- HEADER_READ_COMPLETE (R11 to R13). -/
def execHeaderReadComplete (s : State) : Host.Outcome State Fault Refusal :=
  .next (s.whenRoom State.headerReadComplete).flush

/-- CUE_FETCH_COMPLETE (R25, R40). -/
def execCueFetchComplete (s : State) : Host.Outcome State Fault Refusal :=
  .next (s.whenRoom State.cueFetchComplete).flush

/-- LINE_LOAD_COMPLETE (R32). -/
def execLineLoadComplete (s : State) : Host.Outcome State Fault Refusal :=
  .next (s.whenRoom State.lineLoadComplete).flush

/-- NOTE_FETCH_COMPLETE (R103). -/
def execNoteFetchComplete (s : State) : Host.Outcome State Fault Refusal :=
  .next (s.whenRoom State.noteFetchComplete).flush

/-- PAGE_WALK_COMPLETE (R70). -/
def execPageWalkComplete (s : State) : Host.Outcome State Fault Refusal :=
  .next (s.whenRoom State.pageWalkComplete).flush

/-- GLYPH_ROW_FETCH_COMPLETE (R54). -/
def execGlyphRowFetchComplete (s : State) : Host.Outcome State Fault Refusal :=
  .next (s.whenRoom State.glyphRowFetchComplete).flush

/-- MEASUREMENT_END (R95). -/
def execMeasurementEnd (s : State) : Host.Outcome State Fault Refusal :=
  .next (s.whenRoom State.measurementEnd).flush

/-- WRITE_OUT_END (R19, R122). -/
def execWriteOutEnd (s : State) : Host.Outcome State Fault Refusal :=
  .next (s.whenRoom State.writeOutEnd).flush

/-- RESULT_SLOT_WRITTEN (R180). -/
def execResultSlotWritten (s : State) : Host.Outcome State Fault Refusal :=
  .next (s.whenRoom State.resultSlotWritten).flush

/-- STATUS_REWRITE_END (R186). -/
def execStatusRewriteEnd (s : State) : Host.Outcome State Fault Refusal :=
  .next (s.whenRoom State.statusRewriteEnd).flush

/-- IMAGE_REWRITE_END (R157). -/
def execImageRewriteEnd (s : State) : Host.Outcome State Fault Refusal :=
  .next (s.whenRoom State.imageRewriteEnd).flush

/-- REPLY_PLACEMENT_END (R152). -/
def execReplyPlacementEnd (s : State) : Host.Outcome State Fault Refusal :=
  .next (s.whenRoom State.replyPlacementEnd).flush

end Sys2Proof.Machine
end

