-- ==== Sys2Proof/Machine/HostCommands.lean ====
section
/-! DEFINITION. The meanings of the seventeen host commands as submitted records (Table 11-2, log 1).
Each waits behind a full intake line (R169, log 14), and closes with the rewrites that are owed (R157, R186; log 10). -/

namespace Sys2Proof.Machine

/-- SETUP (R181, R182). -/
def execSetup (tag : BitVec 16) (sec commit : Byte) (words : List Word) (s : State) :
    Host.Outcome State Fault Refusal :=
  .next (s.hostWork (.setup tag sec commit words) (fun s => s.submitSetup tag sec commit words)).flush

/-- SET_SCORING (R93). -/
def execSetScoring (tag : BitVec 16) (gate clarity latency fold pMax gMax fMax cadence : Word) (s : State) :
    Host.Outcome State Fault Refusal :=
  .next (s.hostWork (.setScoring tag gate clarity latency fold pMax gMax fMax cadence)
    (fun s => s.submitScoring tag gate clarity latency fold pMax gMax fMax cadence)).flush

/-- ENABLE_EVENTS (R185). -/
def execEnableEvents (tag : BitVec 16) (mask : Word) (s : State) : Host.Outcome State Fault Refusal :=
  .next (s.hostWork (.enableEvents tag mask) (fun s => s.submitEnable tag mask)).flush

/-- ACK (R185). -/
def execAck (tag : BitVec 16) (mask : Word) (s : State) : Host.Outcome State Fault Refusal :=
  .next (s.hostWork (.ack tag mask) (fun s => s.submitAck tag mask)).flush

/-- START (R9). -/
def execStart (tag : BitVec 16) (ticket bank : Word) (s : State) : Host.Outcome State Fault Refusal :=
  .next (s.hostWork (.start tag ticket bank) (fun s => s.submitStart tag ticket bank)).flush

/-- STOP (R14). -/
def execStop (tag : BitVec 16) (s : State) : Host.Outcome State Fault Refusal :=
  .next (s.hostWork (.stop tag) (fun s => s.submitStop tag)).flush

/-- SEEK (R15). -/
def execSeek (tag : BitVec 16) (ms : Word) (s : State) : Host.Outcome State Fault Refusal :=
  .next (s.hostWork (.seek tag ms) (fun s => s.submitSeek tag ms)).flush

/-- SET_TEMPO (R6). -/
def execSetTempo (tag : BitVec 16) (value : Word) (s : State) : Host.Outcome State Fault Refusal :=
  .next (s.hostWork (.setTempo tag value) (fun s => s.submitTempo tag value)).flush

/-- SET_KEY (R7). -/
def execSetKey (tag : BitVec 16) (value : Word) (s : State) : Host.Outcome State Fault Refusal :=
  .next (s.hostWork (.setKey tag value) (fun s => s.submitKey tag value)).flush

/-- ASSIGN (R115, R116). -/
def execAssign (tag : BitVec 16) (singer mic part : Word) (s : State) : Host.Outcome State Fault Refusal :=
  .next (s.hostWork (.assign tag singer mic part) (fun s => s.submitAssign tag singer mic part)).flush

/-- INSERT (R141). -/
def execInsert (tag : BitVec 16) (song key singers priority : Word) (s : State) : Host.Outcome State Fault Refusal :=
  .next (s.hostWork (.insert tag song key singers priority)
    (fun s => s.submitInsert tag song key singers priority)).flush

/-- REMOVE (R142). -/
def execRemove (tag : BitVec 16) (ticket : Word) (s : State) : Host.Outcome State Fault Refusal :=
  .next (s.hostWork (.remove tag ticket) (fun s => s.submitRemove tag ticket)).flush

/-- PROMOTE (R143). -/
def execPromote (tag : BitVec 16) (ticket : Word) (s : State) : Host.Outcome State Fault Refusal :=
  .next (s.hostWork (.promote tag ticket) (fun s => s.submitPromote tag ticket)).flush

/-- OPEN (R144). -/
def execOpenRoom (tag : BitVec 16) (s : State) : Host.Outcome State Fault Refusal :=
  .next (s.hostWork (.openRoom tag) (fun s => s.submitOpen tag)).flush

/-- CLOSE (R144). -/
def execCloseRoom (tag : BitVec 16) (s : State) : Host.Outcome State Fault Refusal :=
  .next (s.hostWork (.closeRoom tag) (fun s => s.submitClose tag)).flush

/-- CLEAR_ROOM (R183). -/
def execClearRoom (tag : BitVec 16) (s : State) : Host.Outcome State Fault Refusal :=
  .next (s.hostWork (.clearRoom tag) (fun s => s.submitClearRoom tag)).flush

/-- FLUSH_GLYPHS (R74). -/
def execFlushGlyphs (tag : BitVec 16) (s : State) : Host.Outcome State Fault Refusal :=
  .next (s.hostWork (.flushGlyphs tag) (fun s => s.submitFlush tag)).flush

end Sys2Proof.Machine
end

