-- ==== Sys2Proof/Machine/LinkCommands.lean ====
section
/-! DEFINITION. The meanings of the commands of the two links and of the reset pin (chapters 10, 1 and 3).
Each arrival closes with the rewrites that are owed (R157, R186; log 10). -/

namespace Sys2Proof.Machine

/-- LINE_RESET (R1, R175). -/
def execLineReset (strap : BitVec 3) (s : State) : Host.Outcome State Fault Refusal :=
  .next (s.lineReset strap).flush

/-- SYSTEM_REQUEST (R159, R163); refused when its operand is no burst of 1 to 16 beats (Table 10-1, log 9). -/
def execSystemRequest (req : Request) (s : State) : Host.Outcome State Fault Refusal :=
  if bodyIsBurst req.body then .next (s.systemRequest req).flush else .refused .notABurst

/-- ARBITER_DECISION (R169, R170), and what waited for the line: the owed rewrites, the system side's requests, a frame
latch's claims and staging, the glyph requests, the host commands, then the playback taps that head the lane (log 14). -/
def execArbiterDecision (s : State) : Host.Outcome State Fault Refusal :=
  .next s.arbiterDecision.resumeWork.playTaps

/-- PLAYBACK_BEAT (R3). -/
def execPlaybackBeat (beat : ReadBeat) (s : State) : Host.Outcome State Fault Refusal :=
  .next (s.playbackBeat beat).flush

/-- DISPLAY_BEAT (R43, R168). -/
def execDisplayBeat (beat : ReadBeat) (s : State) : Host.Outcome State Fault Refusal :=
  .next (s.displayBeat beat).flush

/-- PASS_THROUGH_RESPONSE (R159). -/
def execPassThroughResponse (resp : Response) (s : State) : Host.Outcome State Fault Refusal :=
  .next (s.passThroughResponse resp).flush

/-- DISCARDED_RESPONSE (R175). -/
def execDiscardedResponse (s : State) : Host.Outcome State Fault Refusal :=
  .next s.discardedResponse.flush

/-- OWN_READ_RESPONSE (R172). -/
def execOwnReadResponse (beats : List ReadBeat) (s : State) : Host.Outcome State Fault Refusal :=
  .next (s.ownReadResponse beats).flush

/-- OWN_WRITE_COMPLETION (R174). -/
def execOwnWriteCompletion (status : Status) (s : State) : Host.Outcome State Fault Refusal :=
  .next (s.ownWriteCompletion status).flush

end Sys2Proof.Machine
end

