-- ==== Sys2Proof/Machine/TapCommands.lean ====
section
/-! DEFINITION. The meanings of the commands by which a watching block takes a tap (R164).
Each waits while it would have to hand a request to a full intake line (R169,
log 14), and closes with the rewrites that are owed (R157, R186; log 10); the playback taps it leaves at the head of the
lane are taken after it, each an arrival of its own (R164, log 17). -/

namespace Sys2Proof.Machine

/-- COMMAND_SLOT_WRITE (R178). -/
def execCommandSlotWrite (s : State) : Host.Outcome State Fault Refusal :=
  .next (s.whenRoom State.commandSlotWrite).flush.playTaps

/-- CAPTURE_WRITE (R78). -/
def execCaptureWrite (s : State) : Host.Outcome State Fault Refusal :=
  .next (s.whenRoom State.captureWrite).flush.playTaps

/-- PAGETABLE_WRITE (R72). -/
def execPagetableWrite (s : State) : Host.Outcome State Fault Refusal :=
  .next (s.whenRoom State.pagetableWrite).flush.playTaps

/-- REPLY_READ (R154). -/
def execReplyRead (s : State) : Host.Outcome State Fault Refusal :=
  .next (s.whenRoom State.replyRead).flush.playTaps

/-- BAD_PACKET (R128, R129). -/
def execBadPacket (s : State) : Host.Outcome State Fault Refusal :=
  .next (s.whenRoom State.badPacket).flush.playTaps

/-- HANDSET_RESEND (R130). -/
def execHandsetResend (s : State) : Host.Outcome State Fault Refusal :=
  .next (s.whenRoom State.handsetResend).flush.playTaps

/-- HANDSET_REQUEST (R134). -/
def execHandsetRequest (s : State) : Host.Outcome State Fault Refusal :=
  .next (s.whenRoom State.handsetRequest).flush.playTaps

/-- HANDSET_CANCEL (R139). -/
def execHandsetCancel (s : State) : Host.Outcome State Fault Refusal :=
  .next (s.whenRoom State.handsetCancel).flush.playTaps

/-- HANDSET_STATUS (R140). -/
def execHandsetStatus (s : State) : Host.Outcome State Fault Refusal :=
  .next (s.whenRoom State.handsetStatus).flush.playTaps

/-- BAD_ACTION_PACKET (R129). -/
def execBadActionPacket (s : State) : Host.Outcome State Fault Refusal :=
  .next (s.whenRoom State.badActionPacket).flush.playTaps

end Sys2Proof.Machine
end

