-- ==== Sys2Proof/Machine/Dispatch.lean ====
section
/-! DEFINITION. The dispatch: one arm for each command of the table. -/

namespace Sys2Proof.Machine

/-- The effect of a command on everything but the queue of commands. -/
def exec (i : Instr) (s : State) : Host.Outcome State Fault Refusal :=
  match i with
  | .lineReset strap => Sys2Proof.Machine.execLineReset strap s
  | .systemRequest req => Sys2Proof.Machine.execSystemRequest req s
  | .arbiterDecision => Sys2Proof.Machine.execArbiterDecision s
  | .playbackBeat beat => Sys2Proof.Machine.execPlaybackBeat beat s
  | .displayBeat beat => Sys2Proof.Machine.execDisplayBeat beat s
  | .passThroughResponse resp => Sys2Proof.Machine.execPassThroughResponse resp s
  | .discardedResponse => Sys2Proof.Machine.execDiscardedResponse s
  | .ownReadResponse beats => Sys2Proof.Machine.execOwnReadResponse beats s
  | .ownWriteCompletion status => Sys2Proof.Machine.execOwnWriteCompletion status s
  | .headerReadComplete => Sys2Proof.Machine.execHeaderReadComplete s
  | .cueFetchComplete => Sys2Proof.Machine.execCueFetchComplete s
  | .lineLoadComplete => Sys2Proof.Machine.execLineLoadComplete s
  | .noteFetchComplete => Sys2Proof.Machine.execNoteFetchComplete s
  | .pageWalkComplete => Sys2Proof.Machine.execPageWalkComplete s
  | .glyphRowFetchComplete => Sys2Proof.Machine.execGlyphRowFetchComplete s
  | .commandSlotWrite => Sys2Proof.Machine.execCommandSlotWrite s
  | .setup tag sec commit words => Sys2Proof.Machine.execSetup tag sec commit words s
  | .setScoring tag gate clarity latency fold pMax gMax fMax cadence => Sys2Proof.Machine.execSetScoring tag gate clarity latency fold pMax gMax fMax cadence s
  | .enableEvents tag mask => Sys2Proof.Machine.execEnableEvents tag mask s
  | .ack tag mask => Sys2Proof.Machine.execAck tag mask s
  | .start tag ticket bank => Sys2Proof.Machine.execStart tag ticket bank s
  | .stop tag => Sys2Proof.Machine.execStop tag s
  | .seek tag ms => Sys2Proof.Machine.execSeek tag ms s
  | .setTempo tag value => Sys2Proof.Machine.execSetTempo tag value s
  | .setKey tag value => Sys2Proof.Machine.execSetKey tag value s
  | .assign tag singer mic part => Sys2Proof.Machine.execAssign tag singer mic part s
  | .insert tag song key singers priority => Sys2Proof.Machine.execInsert tag song key singers priority s
  | .remove tag ticket => Sys2Proof.Machine.execRemove tag ticket s
  | .promote tag ticket => Sys2Proof.Machine.execPromote tag ticket s
  | .openRoom tag => Sys2Proof.Machine.execOpenRoom tag s
  | .closeRoom tag => Sys2Proof.Machine.execCloseRoom tag s
  | .clearRoom tag => Sys2Proof.Machine.execClearRoom tag s
  | .flushGlyphs tag => Sys2Proof.Machine.execFlushGlyphs tag s
  | .captureWrite => Sys2Proof.Machine.execCaptureWrite s
  | .measurementEnd => Sys2Proof.Machine.execMeasurementEnd s
  | .writeOutEnd => Sys2Proof.Machine.execWriteOutEnd s
  | .pagetableWrite => Sys2Proof.Machine.execPagetableWrite s
  | .replyRead => Sys2Proof.Machine.execReplyRead s
  | .badPacket => Sys2Proof.Machine.execBadPacket s
  | .handsetResend => Sys2Proof.Machine.execHandsetResend s
  | .handsetRequest => Sys2Proof.Machine.execHandsetRequest s
  | .handsetCancel => Sys2Proof.Machine.execHandsetCancel s
  | .handsetStatus => Sys2Proof.Machine.execHandsetStatus s
  | .badActionPacket => Sys2Proof.Machine.execBadActionPacket s
  | .resultSlotWritten => Sys2Proof.Machine.execResultSlotWritten s
  | .statusRewriteEnd => Sys2Proof.Machine.execStatusRewriteEnd s
  | .imageRewriteEnd => Sys2Proof.Machine.execImageRewriteEnd s
  | .replyPlacementEnd => Sys2Proof.Machine.execReplyPlacementEnd s

end Sys2Proof.Machine
end

