-- ==== Sys2Proof/Safety.lean ====
section
/-! DEFINITION. The terms in which claims about the part are made: what a block holds apart from the
bookkeeping of rewrites, the own requests in the order handed, which commands are host commands, and the
laws of the spec that every step keeps. -/

namespace Sys2Proof.Machine

/-! ## Own traffic and rewrites -/

/-- The own requests handed and not yet granted, in the order they were handed (R169). -/
def Ptu.handed (p : Ptu) : List OwnRequest := p.queue.map QueueEntry.req ++ p.intake ++ p.kept

/-- The requests of operation `op` of client `c` from part `k` on. -/
def requestsOf (c : Client) (op : Nat) : Nat → List (Nat × Body) → List OwnRequest
  | _, [] => []
  | k, (a, b) :: rest => ⟨c, op, k, a, b⟩ :: requestsOf c op (k + 1) rest

/-- The Path Unit apart from own requests handed and the operations they belong to: its setup, its counters and
records, the throttle, and everything that stands on its two links. -/
def Ptu.links (p : Ptu) : Ptu :=
  { p with kept := [], intake := [], queue := [], nextArrival := 0, nextOp := 0, ops := [], ended := [] }

/-- The windows in force, the CONTROL window first (R161). -/
def Ptu.windowList (p : Ptu) : List Window :=
  p.control :: [p.windows.playback, p.windows.frame, p.windows.mic, p.windows.handset, p.windows.reply,
    p.windows.asset, p.windows.pagetable, p.windows.image].filterMap id

/-- Part `k` of operation `op` has returned as `x` between `p` and `q`: an operation nobody waits for is left, one
whose parts have all returned has ended, any other waits on. -/
def Ptu.partReturned (op k : Nat) (x : PartState) (p q : Ptu) : Prop :=
  (p.ops.find? (fun o => o.id == op) = none → q.ops = p.ops ∧ q.ended = p.ended) ∧
    ∀ o, p.ops.find? (fun o => o.id == op) = some o →
      ((∀ y ∈ o.parts.set k x, y ≠ .waiting) → q.ops = p.ops.filter (fun y => y.id != op) ∧
        q.ended = p.ended ++ [{ o with parts := o.parts.set k x }]) ∧
      (.waiting ∈ o.parts.set k x → q.ended = p.ended ∧
        q.ops = p.ops.map (fun y => if y.id = op then { o with parts := o.parts.set k x } else y))

/-- The little-endian field of `len` bytes at offset `off` of a list of bytes, 0 beyond its end (R187). -/
def bytesAt (bs : List Byte) (off : Nat) : Nat → Nat
  | 0 => 0
  | len + 1 => (bs.getD off 0).toNat + 256 * bytesAt bs (off + 1) len

/-- The three groups of writes of a rewrite at `base` (R157, R186). -/
def rewriteWrites (base : Nat) (gen : Word) (body : List Byte) : List (Nat × Body) :=
  writesOver base (leBytes 4 (gen + 1).toNat) ++ writesOver (base + 4) body ++ writesOver base (leBytes 4 (gen + 2).toNat)

/-! ## Host commands -/

/-- Whether the intake line has room and no host command waits for it, so that a host command is decided at once
(R169, log 14). -/
def State.roomy (s : State) : Prop := s.ptu.lineFull = false ∧ s.ctl.waiting = []

/-- Whether the part is set up, no command is in progress and none waits for the intake line, so that a host command
other than SETUP and CLEAR_ROOM reaches its owner (R179). -/
def State.ready (s : State) : Prop := s.ctl.inProgress = none ∧ s.ctl.setup.isSome = true ∧ s.roomy

/-- CODE and HOST_TAG of a host command; none for the other commands. -/
def hostCode : Instr → Option (BitVec 16 × BitVec 16)
  | .setup tag _ _ _ => some (0x01, tag)
  | .setScoring tag _ _ _ _ _ _ _ _ => some (0x02, tag)
  | .enableEvents tag _ => some (0x03, tag)
  | .ack tag _ => some (0x04, tag)
  | .start tag _ _ => some (0x05, tag)
  | .stop tag => some (0x06, tag)
  | .seek tag _ => some (0x07, tag)
  | .setTempo tag _ => some (0x08, tag)
  | .setKey tag _ => some (0x09, tag)
  | .assign tag _ _ _ => some (0x0A, tag)
  | .insert tag _ _ _ _ => some (0x0B, tag)
  | .remove tag _ => some (0x0C, tag)
  | .promote tag _ => some (0x0D, tag)
  | .openRoom tag => some (0x0E, tag)
  | .closeRoom tag => some (0x0F, tag)
  | .clearRoom tag => some (0x10, tag)
  | .flushGlyphs tag => some (0x11, tag)
  | .lineReset _ => none
  | .systemRequest _ => none
  | .arbiterDecision => none
  | .playbackBeat _ => none
  | .displayBeat _ => none
  | .passThroughResponse _ => none
  | .discardedResponse => none
  | .ownReadResponse _ => none
  | .ownWriteCompletion _ => none
  | .headerReadComplete => none
  | .cueFetchComplete => none
  | .lineLoadComplete => none
  | .noteFetchComplete => none
  | .pageWalkComplete => none
  | .glyphRowFetchComplete => none
  | .commandSlotWrite => none
  | .captureWrite => none
  | .measurementEnd => none
  | .writeOutEnd => none
  | .pagetableWrite => none
  | .replyRead => none
  | .badPacket => none
  | .handsetResend => none
  | .handsetRequest => none
  | .handsetCancel => none
  | .handsetStatus => none
  | .badActionPacket => none
  | .resultSlotWritten => none
  | .statusRewriteEnd => none
  | .imageRewriteEnd => none
  | .replyPlacementEnd => none

/-- The host command that a command record spells (Table 12-2, R188); none for an unknown CODE. -/
def commandOf (r : CommandRecord) : Option Instr :=
  match r.code with
  | 0x01 => some (.setup r.tag ((r.arg 0).setWidth 8) ((r.arg 0 >>> 8).setWidth 8) r.words.tail)
  | 0x02 => some (.setScoring r.tag (r.arg 0) (r.arg 1) (r.arg 2) (r.arg 3) (r.arg 4) (r.arg 5) (r.arg 6) (r.arg 7))
  | 0x03 => some (.enableEvents r.tag (r.arg 0))
  | 0x04 => some (.ack r.tag (r.arg 0))
  | 0x05 => some (.start r.tag (r.arg 0) (r.arg 1))
  | 0x06 => some (.stop r.tag)
  | 0x07 => some (.seek r.tag (r.arg 0))
  | 0x08 => some (.setTempo r.tag (r.arg 0))
  | 0x09 => some (.setKey r.tag (r.arg 0))
  | 0x0A => some (.assign r.tag (r.arg 0) (r.arg 1) (r.arg 2))
  | 0x0B => some (.insert r.tag (r.arg 0) (r.arg 1) (r.arg 2) (r.arg 3))
  | 0x0C => some (.remove r.tag (r.arg 0))
  | 0x0D => some (.promote r.tag (r.arg 0))
  | 0x0E => some (.openRoom r.tag)
  | 0x0F => some (.closeRoom r.tag)
  | 0x10 => some (.clearRoom r.tag)
  | 0x11 => some (.flushGlyphs r.tag)
  | _ => none

/-! ## The laws that every step keeps -/

/-- Flags are latched only for enabled events, and NOTICE_N is low exactly while one is latched (R184). -/
def Ctl.noticeLaw (c : Ctl) : Prop := c.flags &&& ~~~c.enables = 0 ∧ c.noticeLow = (c.flags != 0)

/-- EARNED stays at or below POSSIBLE, and POSSIBLE within 32 bits (R114, R118). -/
def Totals.law (t : Totals) : Prop := t.earned ≤ t.possible ∧ t.possible ≤ accMax

/-- The score law of every singer. -/
def Scr.scoreLaw (c : Scr) : Prop := ∀ i : Fin 4, (c.singers.get i).totals.law

/-- The page of a FRESH walk record. -/
def freshPage : Option Walk → Option Nat
  | some w => if w.fresh then some w.page else none
  | none => none

/-- The cache holds at most 16 entries and no page twice; a FRESH walk's page is not cached, and no two FRESH
walks share a page (R68, R71). -/
def Gxt.cacheLaw (g : Gxt) : Prop :=
  g.cache.length ≤ 16 ∧ (g.cache.map CacheEntry.page).Nodup ∧
    (∀ k p, freshPage (g.walks.get k) = some p → ∀ e ∈ g.cache, e.page ≠ p) ∧
    (∀ j k p, freshPage (g.walks.get j) = some p → freshPage (g.walks.get k) = some p → j = k)

/-- Outstanding own reads number at most 16 and, while the throttle is OPEN, fewer than OWN_LIMIT; the
parameters stand in their ranges (Tables 10-3 and 10-5, R171). -/
def Ptu.throttleLaw (p : Ptu) : Prop :=
  p.reads.length ≤ 16 ∧ (p.shut = false → p.reads.length < p.ownLimit) ∧ p.ownBase < p.ownLimit ∧ p.ownLimit ≤ 16 ∧
    p.rotation ≤ p.rotateN

/-- The queue holds at most 32 tickets, numbered 1 to 65,535, no number twice and none the current ticket's; it stands
in the order of class and round, with at most one STAGED ticket; a NORMAL ticket's round is one more than the number of
its source's NORMAL tickets before it, and any other ticket's is 0 (R131 to R133). -/
def State.queueLaw (s : State) : Prop :=
  s.rqu.queue.length ≤ 32 ∧ (s.rqu.queue.map Ticket.number).Nodup ∧
    (∀ t ∈ s.rqu.queue, 1 ≤ t.number ∧ t.number ≤ 65535 ∧ s.scu.current.map Ticket.number ≠ some t.number) ∧
    s.rqu.queue.Pairwise (fun a b =>
      a.cls.rank ≤ b.cls.rank ∧ b.cls ≠ .staged ∧ (a.cls = b.cls → a.round ≤ b.round)) ∧
    (∀ t ∈ s.rqu.queue, t.cls ≠ .normal → t.round = 0) ∧
    (∀ p ∈ s.rqu.queue.zipIdx, p.1.cls = .normal →
      p.1.round = (s.rqu.queue.take p.2).countP (fun u => decide (u.cls = .normal ∧ u.source = p.1.source)) + 1)

/-- The whole order of the queue (R132): distinct arrival stamps, and every ticket before those behind it. -/
def State.stampLaw (s : State) : Prop :=
  (s.rqu.queue.map Ticket.arrival).Nodup ∧ s.rqu.queue.Pairwise (fun a b => a.before b = true)

/-- Every queued ticket's stamp stays less than 2^31 stamps old while `n` more are taken, so that the signed difference
of two stamps is that of their ages. -/
def Rqu.stampsWithin (n : Nat) (r : Rqu) : Prop := ∀ t ∈ r.queue, (r.arrival - t.arrival).toNat + n < 2 ^ 31

/-- The law of the song context (R2), with the fields that Table 1-1 gives to STARTING and FINISHING alone. -/
def State.songLaw (s : State) : Prop :=
  (s.scu.state = .idle ∨ s.scu.state = .starting ↔ s.scu.current = none) ∧
    (s.scu.state = .starting ↔ s.scu.startTicket.isSome = true) ∧
    (s.scu.state = .finishing ↔ s.scu.phase.isSome = true) ∧
    (∀ i : Fin 4, (s.scr.singers.get i).active = true → (s.scr.singers.get i).link = none ∨
      (s.scr.singers.get i).link = s.scu.current.map Ticket.number)

end Sys2Proof.Machine
end

