-- ==== Sys2Proof/WellFormed.lean ====
section
/-! DEFINITION. Which commands can be spelt at all: the bounds of Table 10-1 and of a command record. -/

namespace Sys2Proof

/-- The beat count of a request body. -/
def Body.count : Body → Nat
  | .read n => n
  | .write bs => bs.length

/-- A burst is 1 to 16 beats (spec 00, "Memory"; Table 10-1). -/
def Body.isBurst (b : Body) : Bool := 1 ≤ b.count && b.count ≤ 16

/-- A read response returns one beat for each of 1 to 16 requested beats (Table 10-1). -/
def Response.isWhole : Response → Bool
  | .read bs => 1 ≤ bs.length && bs.length ≤ 16
  | .write _ => true

/-- The operand bounds of a command: bursts of 1 to 16 beats, and the fourteen words A1 to A14 of a
SETUP record (R188). Every other operand is as wide as its field. -/
def Instr.wellFormed : Instr → Bool
  | .systemRequest r => r.body.isBurst
  | .passThroughResponse r => r.isWhole
  | .ownReadResponse bs => 1 ≤ bs.length && bs.length ≤ 16
  | .setup _ _ _ ws => ws.length == 14
  | .lineReset _ | .arbiterDecision | .playbackBeat _ | .displayBeat _ | .discardedResponse
  | .ownWriteCompletion _ | .headerReadComplete | .cueFetchComplete | .lineLoadComplete
  | .noteFetchComplete | .pageWalkComplete | .glyphRowFetchComplete | .commandSlotWrite
  | .setScoring _ _ _ _ _ _ _ _ _ | .enableEvents _ _ | .ack _ _ | .start _ _ _ | .stop _ | .seek _ _
  | .setTempo _ _ | .setKey _ _ | .assign _ _ _ _ | .insert _ _ _ _ _ | .remove _ _ | .promote _ _
  | .openRoom _ | .closeRoom _ | .clearRoom _ | .flushGlyphs _ | .captureWrite | .measurementEnd
  | .writeOutEnd | .pagetableWrite | .replyRead | .badPacket | .handsetResend | .handsetRequest
  | .handsetCancel | .handsetStatus | .badActionPacket | .resultSlotWritten | .statusRewriteEnd
  | .imageRewriteEnd | .replyPlacementEnd => true

end Sys2Proof
end

