-- ==== Sys2Proof/Certificates/Slice0/Obligations.lean ====
section
/-! DEFINITION. The statements for the provers, family by family. "The model's choice" in a docstring names a
convention of the assumption log on which a clause rests. -/

open Sys2Proof Sys2Proof.Machine

/-- A step runs the command at the front of the queue on the state with the queue's rest; with no command
waiting the part idles (the model's own rule for a block, log 4). -/
def Obligations.StepTakesTheFrontCommand : Prop :=
  (∀ (c : Instr) (rest : List Instr) (s : State),
    step { s with pending := c :: rest } = exec c { s with pending := rest }) ∧
  (∀ s : State, s.pending = [] → step s = .next s)

/-- Every command completes with a next state and leaves the queue of commands, but for a SYSTEM_REQUEST that is no
burst of 1 to 16 beats, which no link carries (the model's choice, log 9). That a command whose event is not there
completes too is the model's choice (log 3). -/
def Obligations.EveryCommandCompletes : Prop :=
  ∀ (c : Instr) (s : State),
    (∃ u : State, exec c s = .next u ∧ u.pending = s.pending) ∨
      (∃ r : Request, c = .systemRequest r ∧ r.body.isBurst = false ∧ exec c s = .refused .notABurst)

/-- Work that would hand an own request while the intake line holds 64 (R169). How it waits is the model's choice
(log 14): a host command behind those that wait, and a frame latch's claims and its staging at the song's end, taken up
when an arbiter decision has given the line room; every other work in its own command's place. So no command but a
decision or a reset moves anything in the line, in the queue or with a client. What a latch left waiting (R31): the
oldest unbound LINE_IN claims the lowest FREE slot, its load handed; and in IDLE the staging test is made. -/
def Obligations.WorkWaitsForTheLine : Prop :=
  (∀ (c : Instr) (code tag : BitVec 16) (s : State), hostCode c = some (code, tag) →
    (s.roomy → exec c s = .next (s.submitInstr c).flush) ∧
    (s.ptu.lineFull = true ∨ s.ctl.waiting ≠ [] →
      exec c s = .next ({ s with ctl := { s.ctl with waiting := s.ctl.waiting ++ [c] } } : State).flush)) ∧
  (∀ s : State,
    (s.ctl.waiting = [] ∨ s.ptu.lineFull = true → s.resumeWork = s) ∧
    (∀ c rest, s.ctl.waiting = c :: rest → s.ptu.lineFull = false →
      let u := (State.submitInstr { s with ctl := { s.ctl with waiting := [] } } c).flush
      s.resumeWork = State.resumeWork { u with ctl := { u.ctl with waiting := rest } })) ∧
  (∀ (c : Instr) (s u : State), s.ptu.lineFull = true → exec c s = .next u → c ≠ .arbiterDecision →
    (∀ strap, c ≠ .lineReset strap) →
    u.ptu.kept = s.ptu.kept ∧ u.ptu.intake = s.ptu.intake ∧ u.ptu.queue = s.ptu.queue) ∧
  (∀ s : State, s.ptu.lineFull = false →
    let free := fun k : Fin 8 => (s.lsq.slots.get k).state = .free
    let unbound := fun c : QueuedCue => c.slot = none ∧ ∃ n, c.cue.kind = .lineIn n
    ((∀ k, ¬ free k) ∨ (∀ c ∈ s.lsq.queue, ¬ unbound c) →
      (s.scu.state ≠ .idle → s.resumeLatch = s) ∧ (s.scu.state = .idle → s.resumeLatch = s.stageTest)) ∧
    (∀ k front c back n, free k → (∀ j, j < k → ¬ free j) → s.lsq.queue = front ++ c :: back →
      (∀ x ∈ front, ¬ unbound x) → c.slot = none → c.cue.kind = .lineIn n →
      let u := s.resumeLatch
      (∃ more, u.ptu.handed = s.ptu.handed ++ requestsOf .lineLoad s.ptu.nextOp 0
        (readsOver (s.lsq.lineBase + 512 * n) 512) ++ more) ∧
      ((∀ x ∈ s.lsq.queue, s.songMs < x.cue.time) → (∀ j, j ≠ k → ¬ free j) → s.scu.state ≠ .seeking →
        u.lsq.queue = front ++ { c with slot := some k } :: back ∧
        u.lsq.slots.get k = { s.lsq.slots.get k with
          state := .loading, line := n, late := false, wiped := s.prm.bandX, load := some s.ptu.nextOp
          filled := false } ∧
        ∀ j, j ≠ k → u.lsq.slots.get j = s.lsq.slots.get j)))

/-- A result (R180, Table 12-3): the count raised by one and one own write of the four whole beats of the result slot,
carrying CODE, HOST_TAG, the result code, the count and the values; nothing else changes. And the ends of the Control
Unit's and the Request Queue Unit's writes (R122, R152, R157, R180, R186): COMMAND_DONE but for ACK and a status rewrite
owed; a rewrite no longer in flight; a SCORE reply's placement reported. And how a range of bytes is cut into own reads
and writes (R25, R32, R152, R189): one for each 256-byte block it meets, in address order, each of whole beats from the
beat of its first byte (that its address is that beat's is the model's choice, log 26) to the beat of its last; a write's
enables are exactly the bytes of the range, each with its own data. -/
def Obligations.OwnWritesBeginAndEnd : Prop :=
  (∀ addr len : Nat,
    (len = 0 → readsOver addr len = []) ∧
    (0 < len → (readsOver addr len).length = (addr + len - 1) / 256 - addr / 256 + 1) ∧
    ∀ i r, (readsOver addr len)[i]? = some r →
      let from_ := if i = 0 then addr else 256 * (addr / 256 + i)
      let last := min (addr + len - 1) (256 * (addr / 256 + i) + 255)
      r = (from_ / 16 * 16, .read (last / 16 - from_ / 16 + 1))) ∧
  (∀ (addr : Nat) (bytes : List Byte),
    (bytes = [] → writesOver addr bytes = []) ∧
    (bytes ≠ [] → (writesOver addr bytes).length = (addr + bytes.length - 1) / 256 - addr / 256 + 1) ∧
    ∀ i w, (writesOver addr bytes)[i]? = some w →
      let from_ := if i = 0 then addr else 256 * (addr / 256 + i)
      let last := min (addr + bytes.length - 1) (256 * (addr / 256 + i) + 255)
      w.1 = from_ / 16 * 16 ∧ ∃ beats, w.2 = .write beats ∧ beats.length = last / 16 - from_ / 16 + 1 ∧
        ∀ j b, beats[j]? = some b → ∀ k < 16,
          let a := w.1 + 16 * j + k
          (b.en.getLsbD k = true ↔ from_ ≤ a ∧ a ≤ last) ∧
          (from_ ≤ a → a ≤ last → bytes[a - addr]? = some (BitVec.ofNat 8 (byteAt [b.data] k)))) ∧
  (∀ (code tag : BitVec 16) (rc : ResultCode) (vs : List Word) (s : State), s.ptu.controlBase % 256 = 0 →
    let u := s.result code tag rc vs
    (∃ beats : List WriteBeat, beats.length = 4 ∧ (∀ b ∈ beats, b.en = BitVec.allOnes 16) ∧
      u.ptu.handed =
        s.ptu.handed ++ [⟨.statusResult, s.ptu.nextOp, 0, s.ptu.controlBase + 0x40, .write beats⟩] ∧
      fieldAt (beats.map WriteBeat.data) 0 2 = code.toNat ∧ fieldAt (beats.map WriteBeat.data) 2 2 = tag.toNat ∧
      fieldAt (beats.map WriteBeat.data) 4 4 = rc.code ∧
      fieldAt (beats.map WriteBeat.data) 8 4 = (s.ctl.resultCount + 1).toNat ∧
      (∀ i < 6, fieldAt (beats.map WriteBeat.data) (12 + 4 * i) 4 = (vs.getD i 0).toNat) ∧
      (∀ i, 36 ≤ i → i < 64 → byteAt (beats.map WriteBeat.data) i = 0)) ∧
    u.ptu.ops = s.ptu.ops ++ [⟨s.ptu.nextOp, .result code, [.waiting]⟩] ∧ u.ptu.ended = s.ptu.ended ∧
    u.ptu.links = s.ptu.links ∧
    u = { s with ctl := { s.ctl with resultCount := s.ctl.resultCount + 1 }, ptu := u.ptu }) ∧
  (∀ (s : State) (o : ClientOp),
    let p := s.ptu.dropEnded o.id
    (∀ code, s.ptu.firstEnded OpKind.isResult = some o →
      o.kind = .result code → exec .resultSlotWritten s = .next ({ s with
        ptu := p
        ctl := { (if code = 0x04 then s.ctl else s.ctl.raise .commandDone) with statusOwed := true } } :
          State).flush) ∧
    (s.ptu.firstEnded (fun k => k == .status) = some o → exec .statusRewriteEnd s =
      .next ({ s with ptu := p, ctl := { s.ctl with statusOp := none } } : State).flush) ∧
    (s.ptu.firstEnded (fun k => k == .image) = some o → exec .imageRewriteEnd s =
      .next ({ s with ptu := p, rqu := { s.rqu with imageOp := none } } : State).flush) ∧
    (∀ score, s.ptu.firstEnded OpKind.isReply = some o →
      o.kind = .reply score → exec .replyPlacementEnd s = .next ({ s with
        ptu := p, scr := { s.scr with scoreWaiting := if score then false else s.scr.scoreWaiting } } : State).flush))

/-- What closes every arrival (R157, R186, R189): a rewrite that is owed with none in flight begins, the queue
image's before the status block's (log 10), as a generation made odd, the body, and the generation made even; while
the intake line is full it stays owed (log 14). The address of a range that starts off a beat is the model's choice (log 26).
Nothing else changes. What the bodies hold is the next statement's. -/
def Obligations.OwedRewritesBegin : Prop :=
  (∀ s : State, s.flush = s.beginImage.beginStatus) ∧
  (∀ s : State,
    let u := s.beginImage
    let begins := s.rqu.imageOwed = true ∧ s.rqu.imageOp = none ∧ s.ptu.intake.length < 64
    u.rqu = (if begins then { s.rqu with
      imageGen := s.rqu.imageGen + 2, imageOp := some s.ptu.nextOp, imageOwed := false } else s.rqu) ∧
    u.ptu.handed = s.ptu.handed ++ (if begins then requestsOf .queueImage s.ptu.nextOp 0
      (rewriteWrites (baseOf s.ptu.windows.image) s.rqu.imageGen s.rqu.imageBody) else []) ∧
    u.ptu.links = s.ptu.links ∧ u.ptu.ended = s.ptu.ended ∧ u = { s with rqu := u.rqu, ptu := u.ptu }) ∧
  (∀ s : State,
    let u := s.beginStatus
    let begins := s.ctl.statusOwed = true ∧ s.ctl.statusOp = none ∧ s.ptu.intake.length < 64
    u.ctl = (if begins then { s.ctl with
      statusGen := s.ctl.statusGen + 2, statusOp := some s.ptu.nextOp, statusOwed := false } else s.ctl) ∧
    u.ptu.handed = s.ptu.handed ++ (if begins then requestsOf .statusResult s.ptu.nextOp 0
      (rewriteWrites (s.ptu.controlBase + 0x80) s.ctl.statusGen s.statusBody) else []) ∧
    u.ptu.links = s.ptu.links ∧ u.ptu.ended = s.ptu.ended ∧ u = { s with ctl := u.ctl, ptu := u.ptu })

/-- The bodies of the two rewrites, field by field at the offsets of Tables 12-8 and 12-4 (R155, R186, R189): what is
absent is 0. The flags show QUEUE_HIGH's live condition while it is not enabled (R184). An OFF singer's eight bytes are
0, which is the model's reading of R116 (log 24). -/
def Obligations.RewriteBodiesMeetTheirTables : Prop :=
  (∀ r : Rqu,
    let field := fun offset len => bytesAt r.imageBody (offset - 0x004) len
    let source := fun x : Source => match x with
      | .handset h => h.val
      | .staff => 16
    r.imageBody.length = 0x1CC ∧ field 0x004 1 = r.queue.length % 256 ∧ field 0x005 1 = r.history.length % 256 ∧
    field 0x006 1 = (if r.closed then 1 else 0) ∧ field 0x007 1 = 0 ∧ field 0x00A 6 = 0 ∧
    (∀ h : Fin 16, (field 0x008 2).testBit h.val = (r.handsets.get h).slot.isSome) ∧
    (∀ i < 32,
      (∀ t, r.queue[i]? = some t → field (0x010 + 12 * i) 2 = t.number % 65536 ∧
        field (0x012 + 12 * i) 1 = source t.source ∧
        field (0x013 + 12 * i) 1 = (match t.cls with
          | .staged => 1
          | .priority => 2
          | .normal => 3) ∧
        field (0x014 + 12 * i) 4 = t.song % 2 ^ 32 ∧ field (0x018 + 12 * i) 1 = (BitVec.ofInt 8 t.key).toNat ∧
        field (0x019 + 12 * i) 1 = t.singers % 256 ∧ field (0x01A + 12 * i) 1 = t.round % 256 ∧
        field (0x01B + 12 * i) 1 = 0) ∧
      (r.queue.length ≤ i → field (0x010 + 12 * i) 12 = 0)) ∧
    (∀ j < 8,
      (∀ e, r.history[j]? = some e → field (0x190 + 8 * j) 4 = e.song % 2 ^ 32 ∧
        field (0x194 + 8 * j) 2 = e.number % 65536 ∧ field (0x196 + 8 * j) 1 = source e.source ∧
        field (0x197 + 8 * j) 1 = 0) ∧
      (r.history.length ≤ j → field (0x190 + 8 * j) 8 = 0))) ∧
  (∀ s : State,
    let field := fun offset len => bytesAt s.statusBody (offset - 0x084) len
    let source := fun x : Source => match x with
      | .handset h => h.val
      | .staff => 16
    s.statusBody.length = 0x84 ∧
    field 0x084 1 = (match s.scu.state with
      | .idle => 0
      | .starting => 1
      | .playing => 2
      | .seeking => 3
      | .finishing => 4) ∧
    field 0x085 1 = (match s.scu.phase with
      | none => 0
      | some .drain => 1
      | some .writeOut => 2
      | some .banner => 3) ∧
    field 0x086 1 = (BitVec.ofInt 8 s.scu.key).toNat ∧
    (∀ i < 8, (field 0x087 1).testBit i = [s.scu.current.isSome, s.ctl.staged.isSome, s.ptu.memError.isSome,
      s.ptu.lastGuard.isSome, s.ctl.lastMark.isSome, s.ctl.setup.isSome].getD i false) ∧
    field 0x088 4 = s.songMs % 2 ^ 32 ∧ field 0x08C 4 = s.scu.tempo % 2 ^ 32 ∧
    (s.scu.current = none → field 0x090 3 = 0 ∧ field 0x094 4 = 0) ∧
    (∀ t, s.scu.current = some t → field 0x090 2 = t.number % 65536 ∧ field 0x092 1 = source t.source ∧
      field 0x094 4 = t.song % 2 ^ 32) ∧
    field 0x093 1 = (if s.rqu.closed then 1 else 0) ∧ (s.ctl.staged = none → field 0x098 10 = 0) ∧
    (∀ c, s.ctl.staged = some c → field 0x098 2 = c.number % 65536 ∧ field 0x09A 1 = source c.source ∧
      field 0x09B 1 = (BitVec.ofInt 8 c.key).toNat ∧ field 0x09C 4 = c.song % 2 ^ 32 ∧
      field 0x0A0 1 = c.singers % 256 ∧ field 0x0A1 1 = c.hint.val) ∧
    field 0x0A2 1 = s.rqu.queue.length % 256 ∧ field 0x0A3 1 = 0 ∧ field 0x0A4 4 = s.ctl.enables.toNat ∧
    (∀ i < 32, (field 0x0A8 4).testBit i = if i = 6 ∧ s.ctl.enables.getLsbD 6 = false
      then decide (28 ≤ s.rqu.queue.length) else s.ctl.flags.getLsbD i) ∧
    (∀ i : Fin 4,
      let g := s.scr.singers.get i
      (g.active = false → field (0x0AC + 8 * i.val) 8 = 0) ∧
      (g.active = true → field (0x0AC + 8 * i.val) 1 = 1 ∧
        field (0x0AD + 8 * i.val) 1 = (match g.totals.lastBand with
          | none => 0
          | some .perfect => 1
          | some .good => 2
          | some .fair => 3
          | some .miss => 4) ∧
        field (0x0AE + 8 * i.val) 2 =
          (if g.totals.possible = 0 then 0 else g.totals.earned * 10000 / g.totals.possible) % 65536 ∧
        field (0x0B0 + 8 * i.val) 4 = g.totals.possible % 2 ^ 32)) ∧
    (∀ k < 11, field (0x0CC + 4 * k) 4 = ([s.ptu.pathFault, s.ptu.guardHit, s.vin.micGap, s.vin.blockDropped,
      s.ovc.scanLate, s.lsq.lineLate, s.pje.noteLate, s.lsq.badCue, s.rqu.badPacket, s.rqu.replyLost,
      s.gxt.glyphFault].getD k 0).toNat) ∧
    field 0x0FC 4 = s.ptu.memErrorCount.toNat ∧
    (s.ptu.memError = none → field 0x0F8 4 = 0 ∧ field 0x100 1 = 0) ∧
    (∀ e, s.ptu.memError = some e → field 0x0F8 4 = e.addr % 2 ^ 32 ∧
      field 0x100 1 = (match e.client with
        | .glyphRow => 1
        | .pageWalk => 2
        | .cueFetch => 3
        | .lineLoad => 4
        | .noteFetch => 5
        | .headerLoad => 6
        | .statusResult => 7
        | .queueImage => 8
        | .reply => 9
        | .resultRecord => 10)) ∧
    field 0x102 2 = s.ctl.lastMark.getD 0 % 65536 ∧
    (s.ptu.lastGuard = none → field 0x101 1 = 0 ∧ field 0x104 4 = 0) ∧
    (∀ g, s.ptu.lastGuard = some g → field 0x101 1 = g.tag.toNat ∧ field 0x104 4 = g.addr.toNat))

/-- LINE_RESET (R1, R161, R175): every field at its reset value, the CONTROL window at 0FFFF000h + s × 10000000h
for the sampled strap s, and the discard count raised to the responses memory still owes; while any is owed,
DISCARDED_RESPONSE lowers the count. The reset values that the spec does not give are the model's choice (logs 5 and 6),
and so is it that every other response of the memory side, given while some are owed to a reset, changes nothing
(log 3). -/
def Obligations.LineResetAndOwedResponses : Prop :=
  (∀ (strap : BitVec 3) (s : State), ∃ u : State, exec (.lineReset strap) s = .next u ∧
     u.pending = s.pending ∧ u.scu = {} ∧ u.lsq = {} ∧ u.ovc = {} ∧ u.gxt = {} ∧ u.vin = {} ∧ u.pje = {} ∧
     u.scr = {} ∧ u.rqu = {} ∧ u.ctl = {} ∧ u.ctl.setup = none ∧ u.ctl.noticeLow = false ∧
     u.ptu.controlBase = 0x0FFFF000 + strap.toNat * 0x10000000 ∧
     u.ptu.discard = s.ptu.discard + s.ptu.placed.length ∧
     { u.ptu with controlBase := State.reset.ptu.controlBase, discard := 0 } = State.reset.ptu) ∧
  (∀ s : State, 0 < s.ptu.discard →
     exec .discardedResponse s = .next ({ s with ptu := { s.ptu with discard := s.ptu.discard - 1 } }.flush) ∧
     (∀ bs, exec (.ownReadResponse bs) s = .next s.flush) ∧ (∀ st, exec (.ownWriteCompletion st) s = .next s.flush) ∧
     (∀ b, exec (.playbackBeat b) s = .next s.flush) ∧ (∀ b, exec (.displayBeat b) s = .next s.flush) ∧
     (∀ r, exec (.passThroughResponse r) s = .next s.flush))

/-- The order of R179 for every host command that the intake line lets be decided: BUSY while a command is in progress;
NOT_SET before a set-up for every command but SETUP; BUSY for SETUP and CLEAR_ROOM outside IDLE. Each is a result and
nothing else. -/
def Obligations.DecisionOrderOfHostCommands : Prop :=
  ∀ (c : Instr) (code tag : BitVec 16) (s : State), hostCode c = some (code, tag) → s.roomy →
    (s.ctl.inProgress.isSome = true → exec c s = .next (s.result code tag .busy []).flush) ∧
    (s.ctl.inProgress = none → s.ctl.setup = none → code ≠ 0x01 →
      exec c s = .next (s.result code tag .notSet []).flush) ∧
    (s.ctl.inProgress = none → (s.ctl.setup.isSome = true ∨ code = 0x01) → (code = 0x01 ∨ code = 0x10) →
      s.scu.state ≠ .idle → exec c s = .next (s.result code tag .busy []).flush)

/-- SET_TEMPO and SET_KEY (R6, R7): the clamped value in force, answered as the first value. SET_SCORING (R93, R120):
refused on a range, otherwise in force, the latency clamped to 500 and answered, the cadence clamped to 1 to 16.
ENABLE_EVENTS and ACK (R184, R185): which flags stand after them, NOTICE_N, and the values answered. -/
def Obligations.TempoScoringAndEventsAreSet : Prop :=
  (∀ (tag : BitVec 16) (v : Word) (s : State), s.ready →
    let t := if v.toNat < 32768 then 32768 else if 98304 < v.toNat then 98304 else v.toNat
    let k := if v.toInt < -12 then -12 else if 12 < v.toInt then 12 else v.toInt
    exec (.setTempo tag v) s =
      .next (State.result 0x08 tag .ok [BitVec.ofNat 32 t] { s with scu := { s.scu with tempo := t } }).flush ∧
    exec (.setKey tag v) s =
      .next (State.result 0x09 tag .ok [BitVec.ofInt 32 k] { s with scu := { s.scu with key := k } }).flush) ∧
  (∀ (tag : BitVec 16) (gate clarity latency fold pMax gMax fMax cadence : Word) (s : State), s.ready →
    let bad := 32767 < gate.toNat ∨ 256 < clarity.toNat ∨ gMax.toNat < pMax.toNat ∨ fMax.toNat < gMax.toNat ∨
      1023 < fMax.toNat
    let ms := min 500 latency.toNat
    (bad → exec (.setScoring tag gate clarity latency fold pMax gMax fMax cadence) s =
      .next (s.result 0x02 tag .badArg []).flush) ∧
    (¬ bad → exec (.setScoring tag gate clarity latency fold pMax gMax fMax cadence) s =
      .next (State.result 0x02 tag .ok [BitVec.ofNat 32 ms] { s with
        pje := { s.pje with prm :=
          { gate := gate.toNat, clarityMin := clarity.toNat, latencyMs := ms, octaveFold := fold != 0
            pMax := pMax.toNat, gMax := gMax.toNat, fMax := fMax.toNat } }
        scr := { s.scr with cadence := max 1 (min 16 cadence.toNat) } }).flush)) ∧
  (∀ (tag : BitVec 16) (mask : Word) (s : State), s.ready →
    (∃ u : State, exec (.enableEvents tag mask) s = .next (u.result 0x03 tag .ok [mask &&& 0x3FFF]).flush ∧
      u = { s with ctl := u.ctl } ∧
      (∀ i < 14, u.ctl.enables.getLsbD i = mask.getLsbD i) ∧
      (∀ i < 14, u.ctl.flags.getLsbD i =
        (mask.getLsbD i && (s.ctl.flags.getLsbD i ||
          (i == 6 && !s.ctl.enables.getLsbD 6 && decide (28 ≤ s.rqu.queue.length))))) ∧
      u.ctl.noticeLow = (u.ctl.flags != 0) ∧
      { u.ctl with enables := 0, flags := 0, noticeLow := false, statusOwed := false } =
        { s.ctl with enables := 0, flags := 0, noticeLow := false, statusOwed := false }) ∧
    (∃ u : State, exec (.ack tag mask) s = .next (u.result 0x04 tag .ok [u.ctl.flags.setWidth 32]).flush ∧
      u = { s with ctl := u.ctl } ∧
      (∀ i < 14, u.ctl.flags.getLsbD i = (s.ctl.flags.getLsbD i && !mask.getLsbD i)) ∧
      u.ctl.noticeLow = ((u.ctl.enables &&& u.ctl.flags) != 0) ∧
      { u.ctl with flags := 0, noticeLow := false } = { s.ctl with flags := 0, noticeLow := false }))

/-- STOP in PLAYING (R14, R17, R18, R122): FINISHING, entered as the statement of due cues says it, with STOPPED and the
END time, DRAIN while a block is queued or
being measured, and WRITE_OUT at once when there is none, the write-out of the current ticket's result begun. STOP, SEEK
and START refused (R9, R14, R15): the code, and nothing in the part changed but its result. That the result of STOP is
handed behind the write-out's writes is the model's choice (log 10). -/
def Obligations.StopAndRefusedSongCommands : Prop :=
  (∀ (tag : BitVec 16) (s : State), s.ready → s.scu.state = .playing →
     ∃ u : State, exec (.stop tag) s = .next (u.result 0x06 tag .ok []).flush ∧
       u = State.enterFinishing s.songMs { s with scu := { s.scu with stopped := true } } ∧
       { u.scu with phase := none } =
         { s.scu with state := .finishing, phase := none, stopped := true, endTime := some s.songMs } ∧
       (s.vin.queue = [] → s.pje.block = none → u.scu.phase = some .writeOut ∧
         (s.scu.current.isSome = true → u.scr.lastResult = s.scr.lastResult + 1 ∧
           u.scr.writeIndex = (s.scr.writeIndex + 1) % 8 ∧ u.scr.singers = s.scr.singers)) ∧
       (s.vin.queue ≠ [] ∨ (∃ b, s.pje.block = some b ∧ b.phase = .measuring) → u.scu.phase = some .drain ∧
         u.scr.lastResult = s.scr.lastResult) ∧
       u.pje.endTime = some s.songMs ∧ u.lsq = s.lsq ∧ u.ovc = s.ovc ∧ u.gxt = s.gxt ∧ u.pending = s.pending ∧
       u.ptu.links = s.ptu.links ∧ u.ctl.inProgress = none) ∧
  (∀ (tag : BitVec 16) (s : State), s.ready →
     (s.scu.state ≠ .playing → exec (.stop tag) s = .next (s.result 0x06 tag .state []).flush) ∧
     (s.scu.state ≠ .playing → ∀ ms, exec (.seek tag ms) s = .next (s.result 0x07 tag .state []).flush) ∧
     (∀ ticket bank : Word,
       let busy := s.scu.state = .playing ∨ s.scu.state = .starting ∨ s.scu.state = .seeking ∨
         (s.scu.state = .finishing ∧ s.scu.phase ≠ some .banner)
       (busy → exec (.start tag ticket bank) s = .next (s.result 0x05 tag .state []).flush) ∧
       (¬ busy → 1 < bank.toNat → exec (.start tag ticket bank) s = .next (s.result 0x05 tag .badArg []).flush) ∧
       (¬ busy → bank.toNat ≤ 1 → (∀ t ∈ s.rqu.queue, t.cls = .staged → t.number ≠ ticket.toNat) →
         exec (.start tag ticket bank) s = .next (s.result 0x05 tag .stale []).flush)))

/-- SEEK in PLAYING (R15, R40, R41, R88, R96, R106): SEEKING at the clamped target, the command in progress, both
rebuilds begun; a list of no records ends its own at once, and SEEKING is left when both have ended. The voices: the
analysis queue emptied, the block in hand dropped, HOLD cleared, every half FREE but one that stays ANALYSING, which is
not the dropped block's; the decimators and the capture position kept. START taken from IDLE or from the banner (R9,
R21): STARTING with the starting ticket and bank, the header's 32 bytes read at the base of the named half of the ASSET
window, the queue as it was, no result yet; from the banner, the song left as WRITE_OUT_END's statement says it. That the
slots which SEEK frees hold the content of reset is the model's choice (log 21). -/
def Obligations.SeekAndStartBegin : Prop :=
  (∀ (tag : BitVec 16) (ms : Word) (s : State), s.ready → s.scu.state = .playing →
    let t := min ms.toNat s.scu.length
    ∃ u : State, exec (.seek tag ms) s = .next u.leaveSeeking.flush ∧
      (0 < s.lsq.cueCount ∨ 0 < s.pje.noteCount → u.leaveSeeking = u) ∧
      u.scu = { s.scu with acc := t * 48 * 65536, seeked := true, state := .seeking } ∧ u.songMs = t ∧
      u.lsq.rebuild = (if 0 < s.lsq.cueCount then some ⟨t, [], true⟩ else none) ∧ u.lsq.cursor = 0 ∧
      u.lsq.fetch.isSome = decide (0 < s.lsq.cueCount) ∧
      u.lsq.queue = [] ∧ u.lsq.band = [] ∧ u.lsq.held = none ∧ u.lsq.endTaken = false ∧
      (∀ k : Fin 8, u.lsq.slots.get k = {}) ∧
      u.pje.rebuild = decide (0 < s.pje.noteCount) ∧ u.pje.winA = [] ∧ u.pje.winB = [] ∧ u.pje.block = none ∧
      u.vin = { s.vin with queue := [], channels := u.vin.channels } ∧
      (∀ ch : Fin 4,
        let c := s.vin.channels.get ch
        let d := u.vin.channels.get ch
        d.hold = false ∧ d.sum = c.sum ∧ d.count = c.count ∧
        ∀ k : Fin 2,
          let stays := (c.halves.get k).state = .analysing ∧
            ∀ b, s.pje.block = some b → ¬ (b.entry.channel = ch ∧ b.entry.half = k)
          (stays → d.halves.get k = c.halves.get k) ∧ (¬ stays → d.halves.get k = {})) ∧
      u.ctl.inProgress = some ⟨0x07, tag⟩ ∧ u.ctl.resultCount = s.ctl.resultCount ∧
      u.scr = s.scr ∧ u.ovc = s.ovc ∧ u.gxt = s.gxt ∧ u.pending = s.pending ∧ u.ptu.links = s.ptu.links) ∧
  (∀ (tag : BitVec 16) (ticket bank : Word) (t : Ticket) (w : Window) (s : State), s.ready →
    s.rqu.stagedTicket = some t → t.number = ticket.toNat → s.ptu.windows.asset = some w →
    w.base % 256 = 0 → w.size % 512 = 0 → (hb : bank.toNat < 2) →
    (s.scu.state = .idle ∨ (s.scu.state = .finishing ∧ s.scu.phase = some .banner)) →
    ∃ u : State, exec (.start tag ticket bank) s = .next u.flush ∧
      u.scu.state = .starting ∧ u.scu.startTicket = some ticket.toNat ∧
      u.scu.startBank = some ⟨bank.toNat, hb⟩ ∧ u.scu.acc = s.scu.acc ∧ u.scu.tempo = s.scu.tempo ∧
      u.scu.key = s.scu.key ∧ u.scu.bank = s.scu.bank ∧ u.scu.length = s.scu.length ∧
      (s.scu.state = .idle → u.scu = { s.scu with
        state := .starting, startTicket := some ticket.toNat, startBank := some ⟨bank.toNat, hb⟩ } ∧
        u.lsq = s.lsq ∧ u.pje = s.pje ∧ u.vin = s.vin ∧ u.scr = s.scr) ∧
      (s.scu.state = .finishing → u.scu.current = none ∧ u.scu.phase = none ∧ u.scu.bannerCount = 0 ∧
        u.scu.seeked = false ∧ u.scu.stopped = false ∧ u.scu.endPending = false ∧ u.scu.endTime = none ∧
        u.lsq.band = [] ∧ u.lsq.queue = [] ∧ u.pje.winA = [] ∧ u.pje.winB = [] ∧
        u.lsq = s.leaveSong.lsq ∧ u.pje = s.leaveSong.pje ∧ u.vin = s.leaveSong.vin ∧
        (∀ i : Fin 4, u.scr.singers.get i = { s.scr.singers.get i with link := none })) ∧
      u.ptu.handed = s.ptu.handed ++
        [⟨.headerLoad, s.ptu.nextOp, 0, w.base + bank.toNat * (w.size / 2), .read 2⟩] ∧
      u.ptu.links = s.ptu.links ∧ u.ctl = { s.ctl with inProgress := some ⟨0x05, tag⟩ } ∧ u.rqu = s.rqu ∧
      u.ovc = s.ovc ∧ u.gxt = s.gxt ∧ u.pending = s.pending)

/-- SETUP (R42, R75, R90, R123, R147, R162, R181, R182): a bad section, a section without commit and a commit that
fails a check change at most the pending record; a commit that passes takes effect in every block. The producer count
it writes is no reply's placement, so no operation waits for its end. The CONTROL window, the counters, the last guarded
write, the memory error record and everything on the two links stand as they were. -/
def Obligations.SetupIsCheckedAndTaken : Prop :=
  (∀ (tag : BitVec 16) (sec commit : Byte) (ws : List Word) (s : State), s.ctl.inProgress = none →
     s.scu.state = .idle → s.roomy →
     let p := s.ctl.pendingSetup.copySection sec.toNat (fun i => ws.getD i 0)
     (5 < sec.toNat → exec (.setup tag sec commit ws) s = .next (s.result 0x01 tag .badArg []).flush) ∧
     (sec.toNat ≤ 5 → commit = 0 → exec (.setup tag sec commit ws) s =
       .next (State.result 0x01 tag .ok [] { s with ctl := { s.ctl with pendingSetup := p } }).flush) ∧
     (sec.toNat ≤ 5 → commit ≠ 0 → p.ok s.ptu.controlBase = false → exec (.setup tag sec commit ws) s =
       .next (State.result 0x01 tag .badArg [] { s with ctl := { s.ctl with pendingSetup := p } }).flush)) ∧
  (∀ (tag : BitVec 16) (sec commit : Byte) (ws : List Word) (s : State), s.ctl.inProgress = none →
     s.scu.state = .idle → s.roomy → sec.toNat ≤ 5 → commit ≠ 0 →
     let p := s.ctl.pendingSetup.copySection sec.toNat (fun i => ws.getD i 0)
     p.ok s.ptu.controlBase = true →
     ∃ u : State, exec (.setup tag sec commit ws) s = .next (u.result 0x01 tag .ok []).flush ∧
       u.ctl = { s.ctl with setup := some p, pendingSetup := p } ∧
       u.scu = { s.scu with bannerFrames := p.bannerFrames } ∧ u.lsq = s.lsq ∧ u.pje = s.pje ∧
       u.ovc = { s.ovc with latch := none, buffers := Vector.replicate 3 {}, decision := none } ∧
       u.gxt.cache = [] ∧ u.gxt.intake = s.gxt.intake ∧ u.gxt.glyphFault = s.gxt.glyphFault ∧
       (∀ k : Fin 8, u.gxt.walks.get k = (s.gxt.walks.get k).map (fun w => { w with fresh := false })) ∧
       u.vin = { s.vin with channels := Vector.replicate 4 {}, queue := [], expected := none } ∧
       u.scr = { s.scr with writeIndex := 0 } ∧
       u.rqu = { s.rqu with
         replyIndex := 0, producer := 0, slots := Vector.replicate 16 false, imageOwed := true } ∧
       u.ptu.windows = p.windows ∧
       u.ptu.tags = some ⟨p.controlTag, p.playbackTag, p.displayTag, p.captureTag, p.radioTag⟩ ∧
       u.ptu.rotateN = p.rotateN ∧ u.ptu.ownLimit = p.ownLimit ∧ u.ptu.ownBase = p.ownBase ∧
       u.ptu.retryMax = p.retryMax ∧ u.ptu.rotation = 0 ∧ u.ptu.reads = s.ptu.reads ∧
       (p.ownLimit ≤ s.ptu.reads.length → u.ptu.shut = true) ∧
       (s.ptu.reads.length ≤ p.ownBase → u.ptu.shut = false) ∧
       (p.ownBase < s.ptu.reads.length ∧ s.ptu.reads.length < p.ownLimit → u.ptu.shut = s.ptu.shut) ∧
       u.ptu.handed = s.ptu.handed ++ requestsOf .reply s.ptu.nextOp 0 (writesOver p.wReply.base (leBytes 4 0)) ∧
       u.ptu.ops = s.ptu.ops.filter (fun o => !o.kind.isRow) ∧
       u.ptu.ended = s.ptu.ended.filter (fun o => !o.kind.isRow) ∧
       u.ptu.placed = s.ptu.placed ∧ u.ptu.passQueue = s.ptu.passQueue ∧ u.ptu.taps = s.ptu.taps ∧
       u.ptu.controlBase = s.ptu.controlBase ∧ u.ptu.pathFault = s.ptu.pathFault ∧ u.ptu.guardHit = s.ptu.guardHit ∧
       u.ptu.lastGuard = s.ptu.lastGuard ∧ u.ptu.memError = s.ptu.memError ∧
       u.ptu.memErrorCount = s.ptu.memErrorCount ∧ u.ptu.discard = s.ptu.discard ∧
       u.ptu.sysHeld = s.ptu.sysHeld ∧ u.ptu.sysOrder = s.ptu.sysOrder ∧ u.ptu.sysOut = s.ptu.sysOut ∧
       u.pending = s.pending)

/-- What a commit is checked against (R162, R66, Tables 2-2, 3-1, 5-1, 8-2, 9-1 and 11-3), range by range; what a record
that passes guarantees: no byte in two of the nine windows, and a page table with room for every page of the aperture;
and the order of the words of each section (R188, Table 11-3). -/
def Obligations.CheckedSetupsMeetTheTables : Prop :=
  (∀ (control : Nat) (p : Setup),
    let inBand := fun (x y : Nat) => p.bandX ≤ x ∧ x < p.bandX + p.bandW ∧ p.bandY ≤ y ∧ y < p.bandY + 48 * p.bandRows
    let inStrip := fun (x y : Nat) => p.stripX ≤ x ∧ x < p.stripX + p.stripW ∧ p.stripY ≤ y ∧ y < p.stripY + 48
    p.ok control = true ↔
      (∀ w ∈ p.windowList, (∃ k, 12 ≤ k ∧ k ≤ 28 ∧ w.size = 2 ^ k) ∧ w.base % w.size = 0) ∧
      ((⟨control, 4096⟩ : WindowParam) :: p.windowList).Pairwise
        (fun v w => ∀ a, ¬ (v.window.holds a = true ∧ w.window.holds a = true)) ∧
      (p.controlTag ≤ 15 ∧ p.playbackTag ≤ 15 ∧ p.displayTag ≤ 15 ∧ p.captureTag ≤ 15 ∧ p.radioTag ≤ 15) ∧
      (1 ≤ p.rotateN ∧ p.rotateN ≤ 8 ∧ 2 ≤ p.ownLimit ∧ p.ownLimit ≤ 16 ∧ p.ownBase < p.ownLimit ∧ p.retryMax ≤ 3) ∧
      (1 ≤ p.channels ∧ p.channels ≤ 4 ∧ (∃ k, 20 ≤ k ∧ k ≤ 27 ∧ p.aperture = 2 ^ k) ∧
        p.aperture / 1024 ≤ p.wPagetable.size) ∧
      (1 ≤ p.width ∧ p.width ≤ 1920 ∧ 1 ≤ p.height ∧ p.height ≤ 1080 ∧ p.stride % 16 = 0 ∧ 4 * p.width ≤ p.stride ∧
        p.stride * p.height ≤ p.wFrame.size) ∧
      (1 ≤ p.bandW ∧ p.bandX + p.bandW ≤ p.width ∧ 2 ≤ p.bandRows ∧ p.bandRows ≤ 4 ∧
        p.bandY + 48 * p.bandRows ≤ p.height) ∧
      (p.stripEnable = true → 1 ≤ p.stripW ∧ p.stripX + p.stripW ≤ p.width ∧ p.stripY + 48 ≤ p.height ∧
        ∀ x y, ¬ (inBand x y ∧ inStrip x y)) ∧
      (p.shade ≤ 256 ∧ p.digitBase ≤ 65523 ∧ 16 ≤ p.stripAdvance ∧ p.stripAdvance ≤ 64) ∧
      (p.scrollMs ≤ 2000 ∧ 200 ≤ p.lookaheadMs ∧ p.lookaheadMs ≤ 5000 ∧ p.bannerFrames ≤ 1023 ∧
        p.stageLeadMs ≤ 120000 ∧ 1 ≤ p.catalogSize ∧ p.catalogSize ≤ 16777215 ∧ 1 ≤ p.limit ∧ p.limit ≤ 8)) ∧
  (∀ (control : Nat) (p : Setup), p.ok control = true →
    (∀ a : Nat, (((⟨control, 4096⟩ : Window) :: p.windowList.map WindowParam.window).filter
      (fun w => w.holds a)).length ≤ 1) ∧
    (∀ page : Nat, page < p.aperture / 4096 → 4 * page + 4 ≤ p.wPagetable.size)) ∧
  (∀ (p : Setup) (a : Nat → Word),
    let n := fun i => (a i).toNat
    let colour := fun i => (a i).toNat % 16777216
    p.copySection 0 a = { p with
      wPlayback := ⟨n 0, n 1⟩, wFrame := ⟨n 2, n 3⟩, wMic := ⟨n 4, n 5⟩, wHandset := ⟨n 6, n 7⟩ } ∧
    p.copySection 1 a = { p with
      wReply := ⟨n 0, n 1⟩, wAsset := ⟨n 2, n 3⟩, wPagetable := ⟨n 4, n 5⟩, wImage := ⟨n 6, n 7⟩ } ∧
    p.copySection 2 a = { p with
      controlTag := n 0, playbackTag := n 1, displayTag := n 2, captureTag := n 3, radioTag := n 4, rotateN := n 5
      ownLimit := n 6, ownBase := n 7, retryMax := n 8, channels := n 9, aperture := n 10 } ∧
    p.copySection 3 a = { p with
      width := n 0, height := n 1, stride := n 2, bandX := n 3, bandY := n 4, bandW := n 5, bandRows := n 6
      stripEnable := decide (n 7 ≠ 0), stripX := n 8, stripY := n 9, stripW := n 10, stripAdvance := n 11
      digitBase := n 12, shade := n 13 } ∧
    p.copySection 4 a = { p with
      wipeA := colour 0, wipeB := colour 1, wipeBoth := colour 2, fill := colour 3, stripColour := colour 4
      bannerColour := colour 5 } ∧
    p.copySection 5 a = { p with
      scrollMs := n 0, lookaheadMs := n 1, bannerFrames := n 2, stageLeadMs := n 3, catalogSize := n 4, limit := n 5
      recentBlock := decide (n 6 ≠ 0), dupBlock := decide (n 7 ≠ 0) })

/-- ASSIGN (R90, R115, R116): refused in the order of its checks; taken, it sets the singer's record and resets the
halves, HOLD, decimators and capture position of the channels it touches: those of the old and the new microphone of a
part, and the one an ACTIVE singer set OFF held. Every other singer, the rest of the Score Unit and of the Voice Intake
and every other block are unchanged. -/
def Obligations.AssignIsCheckedAndTaken : Prop :=
  (∀ (tag : BitVec 16) (singer mic part : Word) (s : State), s.ready →
      let g := fun i : Fin 4 => s.scr.singers.get i
      (3 < singer.toNat → exec (.assign tag singer mic part) s = .next (s.result 0x0A tag .badArg []).flush) ∧
      (∀ i : Fin 4, singer.toNat = i.val →
        let late := s.scu.state = .finishing ∨ (s.scu.state = .playing ∧ (g i).active = true)
        (late → exec (.assign tag singer mic part) s = .next (s.result 0x0A tag .state []).flush) ∧
        (¬ late → 2 < part.toNat → exec (.assign tag singer mic part) s = .next (s.result 0x0A tag .badArg []).flush) ∧
        (¬ late → part.toNat = 1 ∨ part.toNat = 2 →
          s.prm.channels ≤ mic.toNat ∨
            (∃ j : Fin 4, j ≠ i ∧ (g j).active = true ∧ (g j).mic = some mic.toNat) →
          exec (.assign tag singer mic part) s = .next (s.result 0x0A tag .badArg []).flush))) ∧
  (∀ (tag : BitVec 16) (singer mic part : Word) (i : Fin 4) (s : State), s.ready → singer.toNat = i.val →
      s.scu.state ≠ .finishing → (s.scu.state = .playing → (s.scr.singers.get i).active = false) →
      let old := s.scr.singers.get i
      let link := if s.scu.state = .playing then s.scu.current.map Ticket.number else none
      let resets := fun (v : Vin) (touched : Nat → Prop) =>
        { v with channels := s.vin.channels, expected := s.vin.expected } = s.vin ∧ v.expected = none ∧
        ∀ ch : Fin 4, (v.channels.get ch).sum = 0 ∧ (v.channels.get ch).count = 0 ∧
          (touched ch.val → (v.channels.get ch).halves = Vector.replicate 2 {} ∧ (v.channels.get ch).hold = false) ∧
          (¬ touched ch.val → (v.channels.get ch).halves = (s.vin.channels.get ch).halves ∧
            (v.channels.get ch).hold = (s.vin.channels.get ch).hold)
      let taken := fun (u : State) => exec (.assign tag singer mic part) s =
          .next (u.result 0x0A tag .ok [BitVec.ofNat 32 i.val]).flush ∧
        u = { s with scr := u.scr, vin := u.vin } ∧ { u.scr with singers := s.scr.singers } = s.scr ∧
        (∀ j, j ≠ i → u.scr.singers.get j = s.scr.singers.get j)
      (part.toNat = 0 → ∃ u : State, taken u ∧
        u.scr.singers.get i = (if old.active then { old with active := false, mic := none, part := none } else old) ∧
        (old.active = false ∨ old.mic = none → u.vin = s.vin) ∧
        (∀ m, old.active = true → old.mic = some m → resets u.vin (fun ch => ch = m))) ∧
      (part.toNat = 1 ∨ part.toNat = 2 → mic.toNat < s.prm.channels → mic.toNat < 4 →
        (∀ j : Fin 4, j ≠ i → (s.scr.singers.get j).active = true → (s.scr.singers.get j).mic ≠ some mic.toNat) →
        ∃ u : State, taken u ∧
        u.scr.singers.get i =
          { active := true, mic := some mic.toNat, part := some (if part.toNat = 1 then .a else .b)
            link := if old.active then old.link else link, totals := if old.active then old.totals else {} } ∧
        resets u.vin (fun ch => ch = mic.toNat ∨ (old.active = true ∧ old.mic = some ch))))

/-- A reply issued (R151 to R153): stored as the handset's last reply under its last sequence; placed in the slot
at the write index when that is CONSUMED, as its 32 bytes and then the producer count, and otherwise kept as lost
and counted. The SEQUENCE of a handset never heard is free (log 8). REPLY_READ (R154): the slots whose last beat the
read covers become CONSUMED, and the tap is gone. -/
def Obligations.RepliesArePlacedAndRead : Prop :=
  (∀ (h : Fin 16) (body : ReplyBody) (s : State),
    let u := s.issueReply h body false
    let old := s.rqu.handsets.get h
    let r : Reply := ⟨h, old.lastSeq.getD Config.unheardSequence, body⟩
    let i := s.rqu.replyIndex
    let base := baseOf s.ptu.windows.reply
    u = { s with rqu := u.rqu, ptu := u.ptu } ∧ u.ptu.links = s.ptu.links ∧
    (∀ j, j ≠ h → u.rqu.handsets.get j = s.rqu.handsets.get j) ∧
    (s.rqu.slots.get i = false →
      u.rqu.handsets.get h = { old with lastReply := some r, lost := false } ∧
      u.rqu.producer = s.rqu.producer + 1 ∧ u.rqu.replyIndex.val = (i.val + 1) % 16 ∧
      u.rqu.slots.get i = true ∧ (∀ j, j ≠ i → u.rqu.slots.get j = s.rqu.slots.get j) ∧
      u.rqu.replyLost = s.rqu.replyLost ∧
      u.ptu.handed = s.ptu.handed ++ requestsOf .reply s.ptu.nextOp 0
        (writesOver (base + 16 + 32 * i.val) r.bytes ++ writesOver base (leBytes 4 (s.rqu.producer + 1).toNat))) ∧
    (s.rqu.slots.get i = true →
      u.rqu.handsets.get h = { old with lastReply := some r, lost := true } ∧
      u.rqu.replyLost = s.rqu.replyLost + 1 ∧ u.rqu.producer = s.rqu.producer ∧ u.rqu.slots = s.rqu.slots ∧
      u.rqu.replyIndex = i ∧ u.ptu = s.ptu) ∧
    { u.rqu with
      handsets := s.rqu.handsets, producer := s.rqu.producer, replyIndex := s.rqu.replyIndex
      slots := s.rqu.slots, replyLost := s.rqu.replyLost } = s.rqu) ∧
  (∀ (s : State) (t : Tap) (rest : List Tap) (n : Nat), s.ptu.taps = t :: rest → t.cls = .replyRead →
    t.req.body = .read n →
    ∃ u : State, exec .replyRead s = .next u.flush.playTaps ∧
      u = { s with rqu := { s.rqu with slots := u.rqu.slots }, ptu := { s.ptu with taps := rest } } ∧
      ∀ i : Fin 16,
        ((∃ j < n, beatAddr t.req.addr j = baseOf s.ptu.windows.reply + 32 + 32 * i.val) →
          u.rqu.slots.get i = false) ∧
        ((∀ j < n, beatAddr t.req.addr j ≠ baseOf s.ptu.windows.reply + 32 + 32 * i.val) →
          u.rqu.slots.get i = s.rqu.slots.get i))

/-- The number of a new ticket (R131): the first number after the last issued, counting 65,535 back to 1, that no
queued ticket and no current ticket holds. INSERT (R141): its refusals, and a staff ticket admitted with that number and
a new arrival stamp, answered with its number and its position, behind the staging it brings (the model's choice,
log 10). That a bad argument is answered BAD_ARG at a full queue too is the model's choice (log 30). Its admission (R146) raises QUEUE_CHANGED, and QUEUE_HIGH when it takes the count from 27 to 28; then the
staging test is made, as its own statement says. -/
def Obligations.InsertAdmitsAStaffTicket : Prop :=
  (∀ s : State, s.rqu.queue.length ≤ 32 → s.rqu.lastNumber ≤ 65535 →
    ∃ k, s.newNumber = (s.rqu.lastNumber + k) % 65535 + 1 ∧ s.numberHeld s.newNumber = false ∧
      1 ≤ s.newNumber ∧ s.newNumber ≤ 65535 ∧
      ∀ j < k, s.numberHeld ((s.rqu.lastNumber + j) % 65535 + 1) = true) ∧
  (∀ (tag : BitVec 16) (song key singers prio : Word) (s : State), s.ready →
    let bad := song.toNat = 0 ∨ s.prm.catalogSize < song.toNat ∨ key.toInt < -12 ∨ 12 < key.toInt ∨
      (singers.toNat ≠ 1 ∧ singers.toNat ≠ 2)
    let t : Ticket :=
      { number := s.newNumber, source := .staff, song := song.toNat, key := key.toInt, singers := singers.toNat
        cls := if prio = 0 then .normal else .priority
        round := if prio = 0 then
          1 + s.rqu.queue.countP (fun u => decide (u.source = .staff ∧ u.cls = .normal)) else 0
        arrival := s.rqu.arrival + 1 }
    (bad → exec (.insert tag song key singers prio) s = .next (s.result 0x0B tag .badArg []).flush) ∧
    (¬ bad → 32 ≤ s.rqu.queue.length →
      exec (.insert tag song key singers prio) s = .next (s.result 0x0B tag .queueFull []).flush) ∧
    (¬ bad → s.rqu.queue.length < 32 → s.rqu.lastNumber ≤ 65535 →
      ∃ u : State, exec (.insert tag song key singers prio) s = .next (u.result 0x0B tag .ok
          [BitVec.ofNat 32 t.number,
            BitVec.ofNat 32 ((s.rqu.queue.takeWhile (fun x => !t.before x)).length + 1)]).flush ∧
        (u.rqu.queue.map Ticket.number).Perm (t.number :: s.rqu.queue.map Ticket.number) ∧
        (∃ x ∈ u.rqu.queue, x.number = t.number ∧ x.source = .staff ∧ x.song = t.song ∧ x.key = t.key ∧
          x.singers = t.singers ∧ x.arrival = t.arrival) ∧
        u.rqu.lastNumber = t.number ∧ u.rqu.arrival = s.rqu.arrival + 1 ∧ u.rqu.imageOwed = true ∧
        u.rqu.history = s.rqu.history ∧ u.rqu.closed = s.rqu.closed ∧
        (∃ v : State, u = v.stageTest ∧ v = { s with rqu := v.rqu, ctl := v.ctl } ∧
          v.rqu = { s.rqu with
            queue := placeTicket t s.rqu.queue, lastNumber := t.number, arrival := t.arrival, imageOwed := true } ∧
          (v.stagingHolds = false → u = v) ∧
          { v.ctl with flags := 0, noticeLow := false, statusOwed := false } =
            { s.ctl with flags := 0, noticeLow := false, statusOwed := false } ∧
          ∀ i < 14, v.ctl.flags.getLsbD i = (s.ctl.flags.getLsbD i ||
            (s.ctl.enables.getLsbD i && (i == 5 || (i == 6 && s.rqu.queue.length == 27))))) ∧
        u.scu = s.scu ∧ u.lsq = s.lsq ∧ u.ovc = s.ovc ∧ u.gxt = s.gxt ∧ u.vin = s.vin ∧ u.pje = s.pje ∧
        u.scr = s.scr ∧ u.pending = s.pending ∧ u.ptu.links = s.ptu.links))

/-- REMOVE (R137, R142): STATE for the current ticket, BAD_ARG for a number nobody holds, and otherwise CANCELLED for
its handset and the ticket's departure, as the statement of departures says it, from a queue of any length. That CANCELLED
comes first and the result last is the model's choice (log 10). -/
def Obligations.RemoveTakesATicketAway : Prop :=
  ∀ (tag : BitVec 16) (n : Word) (s : State), s.ready →
    (s.rqu.ticket n.toNat = none → s.scu.current.map Ticket.number = some n.toNat →
      exec (.remove tag n) s = .next (s.result 0x0C tag .state []).flush) ∧
    (s.rqu.ticket n.toNat = none → s.scu.current.map Ticket.number ≠ some n.toNat →
      exec (.remove tag n) s = .next (s.result 0x0C tag .badArg []).flush) ∧
    (∀ t, s.rqu.ticket n.toNat = some t →
      ∃ u : State, exec (.remove tag n) s = .next (u.result 0x0C tag .ok []).flush ∧
        (t.source = .staff → u = s.depart t true) ∧
        (∀ h, t.source = .handset h → u = (s.issueReply h (.cancelled n.toNat) false).depart t true) ∧
        (s.rqu.queue.length < 32 → (u.rqu.queue.map Ticket.number).Perm
          ((s.rqu.queue.map Ticket.number).filter (fun m => m != n.toNat)) ∧ u.rqu.lastNumber = s.rqu.lastNumber ∧
          u.rqu.arrival = s.rqu.arrival ∧ u.rqu.lastDrained = s.rqu.lastDrained) ∧
        (t.cls = .staged → s.ctl.enables.getLsbD 2 = true → u.ctl.flags.getLsbD 2 = true) ∧
        (s.rqu.queue.length < 32 → (∃ x ∈ s.rqu.queue, x.cls = .staged ∧ x.number ≠ n.toNat) →
          ∀ h, t.source = .handset h → ∃ r, (u.rqu.handsets.get h).lastReply = some r ∧
            r.handset = h ∧ r.body = .cancelled n.toNat) ∧
        u.rqu.imageOwed = true ∧ u.rqu.history = s.rqu.history ∧ u.rqu.closed = s.rqu.closed ∧
        u.scu = s.scu ∧ u.lsq = s.lsq ∧ u.ovc = s.ovc ∧ u.gxt = s.gxt ∧ u.vin = s.vin ∧ u.pje = s.pje ∧
        u.scr = s.scr ∧ u.pending = s.pending ∧ u.ptu.links = s.ptu.links)

/-- PROMOTE (R132, R133, R143): its refusals, and a NORMAL ticket moved to the end of the PRIORITY group under a new
stamp while no staging is due, its source's later rounds lowered: where the PRIORITY tickets stand at round 0 with older
stamps, every ticket before it is STAGED or PRIORITY and every ticket behind it is NORMAL, and its place is answered; of
the events QUEUE_CHANGED alone is raised (R146). -/
def Obligations.PromoteMovesANormalTicket : Prop :=
  ∀ (tag : BitVec 16) (n : Word) (s : State), s.ready →
    (s.rqu.ticket n.toNat = none → s.scu.current.map Ticket.number = some n.toNat →
      exec (.promote tag n) s = .next (s.result 0x0D tag .state []).flush) ∧
    (s.rqu.ticket n.toNat = none → s.scu.current.map Ticket.number ≠ some n.toNat →
      exec (.promote tag n) s = .next (s.result 0x0D tag .badArg []).flush) ∧
    (∀ t, s.rqu.ticket n.toNat = some t → t.cls ≠ .normal →
      exec (.promote tag n) s = .next (s.result 0x0D tag .state []).flush) ∧
    (∀ t, s.rqu.ticket n.toNat = some t → t.cls = .normal →
      ((∃ x ∈ s.rqu.queue, x.cls = .staged ∧ x.number ≠ n.toNat) ∨
        (s.scu.state = .playing ∧ s.songMs + s.prm.stageLeadMs < s.scu.length)) →
      ∃ (u : State) (front back : List Ticket),
        exec (.promote tag n) s = .next (u.result 0x0D tag .ok [BitVec.ofNat 32 (front.length + 1)]).flush ∧
        u.rqu.queue = front ++ { t with cls := .priority, round := 0, arrival := s.rqu.arrival + 1 } :: back ∧
        ((∀ x ∈ s.rqu.queue, x.cls = .priority →
            x.round = 0 ∧ (s.rqu.arrival + 1 - x.arrival).msb = false) →
          (∀ x ∈ front, x.cls = .staged ∨ x.cls = .priority) ∧ (∀ x ∈ back, x.cls = .normal)) ∧
        ((s.rqu.queue.map Ticket.number).Nodup →
          (u.rqu.queue.map Ticket.number).Perm (s.rqu.queue.map Ticket.number)) ∧
        (∀ x ∈ u.rqu.queue, x.number ≠ n.toNat → ∃ y ∈ s.rqu.queue, x =
          { y with round := if y.cls = .normal ∧ y.source = t.source ∧ t.round < y.round then y.round - 1 else y.round }) ∧
        u.rqu.arrival = s.rqu.arrival + 1 ∧ u.rqu.imageOwed = true ∧ u.rqu.lastNumber = s.rqu.lastNumber ∧
        u.rqu.handsets = s.rqu.handsets ∧ u.rqu.history = s.rqu.history ∧ u.rqu.closed = s.rqu.closed ∧
        u.scu = s.scu ∧ u.lsq = s.lsq ∧ u.ovc = s.ovc ∧ u.gxt = s.gxt ∧ u.vin = s.vin ∧ u.pje = s.pje ∧
        u.scr = s.scr ∧ u.ptu = s.ptu ∧ u.pending = s.pending ∧
        { u.ctl with flags := 0, noticeLow := false, statusOwed := false } =
          { s.ctl with flags := 0, noticeLow := false, statusOwed := false } ∧
        ∀ i < 14, u.ctl.flags.getLsbD i = (s.ctl.flags.getLsbD i || (s.ctl.enables.getLsbD i && i == 5)))

/-- Staging (R146, R148, R149): whether the head of a queue becomes STAGED, and what that changes: TICKET_STAGED and
QUEUE_CHANGED, the staged copy with the hint of the other bank, and CALLED for a handset. -/
def Obligations.StagingTakesTheHead : Prop :=
  ∀ (s : State),
    let u := s.stageTest
    let due := (∀ x ∈ s.rqu.queue, x.cls ≠ .staged) ∧
      (s.scu.state = .idle ∨ s.scu.state = .finishing ∨
        ((s.scu.state = .playing ∨ s.scu.state = .seeking) ∧ s.scu.length ≤ s.songMs + s.prm.stageLeadMs))
    (s.rqu.queue = [] → u = s) ∧ (¬ due → u = s) ∧
    (∀ t rest, s.rqu.queue = t :: rest → due →
      (∃ q, u.rqu.queue = { t with cls := .staged, round := 0 } :: q ∧ q.Perm (rest.map (fun x =>
        if t.cls = .normal ∧ x.cls = .normal ∧ x.source = t.source ∧ t.round < x.round then
          { x with round := x.round - 1 } else x))) ∧
      (∃ hint : Fin 2, hint ≠ s.scu.bank ∧
        u.ctl.staged = some ⟨t.number, t.source, t.song, t.key, t.singers, hint⟩) ∧
      (∀ i < 14, u.ctl.flags.getLsbD i =
        (s.ctl.flags.getLsbD i || (s.ctl.enables.getLsbD i && (i == 1 || i == 5)))) ∧ u.rqu.imageOwed = true ∧
      (t.source = .staff → u.rqu.handsets = s.rqu.handsets ∧ u.ptu = s.ptu) ∧
      (∀ h, t.source = .handset h → (∃ r, (u.rqu.handsets.get h).lastReply = some r ∧ r.handset = h ∧
        r.body = .called t.number t.song) ∧ ∀ j, j ≠ h → u.rqu.handsets.get j = s.rqu.handsets.get j) ∧
      u.rqu.history = s.rqu.history ∧ u.rqu.closed = s.rqu.closed ∧ u.rqu.lastNumber = s.rqu.lastNumber ∧
      u.rqu.arrival = s.rqu.arrival ∧ u.scu = s.scu ∧ u.lsq = s.lsq ∧ u.ovc = s.ovc ∧ u.gxt = s.gxt ∧
      u.vin = s.vin ∧ u.pje = s.pje ∧ u.scr = s.scr ∧ u.pending = s.pending ∧ u.ptu.links = s.ptu.links)

/-- A ticket's departure and the pending drain (R137, R138, R146): the ticket out of the queue, QUEUE_CHANGED raised and
QUEUE_HIGH not, a staged copy cleared with it and its withdrawal raised, and from a queue of 32 the drain, then the staging test. The drain visits the sixteen
handsets in number order from the one after the last drained; each visit that finds space and an occupied slot takes the
request out and answers it by Table 8-5 as a new REQUEST, its last sequence unchanged. -/
def Obligations.DeparturesDrainTheSlots : Prop :=
  (∀ (s : State) (t : Ticket) (withdrawn : Bool), t ∈ s.rqu.queue → ∃ v : State,
    s.depart t withdrawn = (if s.rqu.queue.length = 32 then v.drainSlots else v).stageTest ∧
    (v.rqu.queue.map Ticket.number).Perm ((s.rqu.queue.map Ticket.number).filter (fun m => m != t.number)) ∧
    (t.cls ≠ .normal → v.rqu.queue = s.rqu.queue.filter (fun x => x.number != t.number)) ∧
    v.rqu.imageOwed = true ∧ { v.rqu with queue := s.rqu.queue, imageOwed := s.rqu.imageOwed } = s.rqu ∧
    (t.cls = .staged → v.ctl.staged = none) ∧ (t.cls ≠ .staged → v.ctl.staged = s.ctl.staged) ∧
    (∀ i < 14, v.ctl.flags.getLsbD i = (s.ctl.flags.getLsbD i ||
      (s.ctl.enables.getLsbD i && (i == 5 || (i == 2 && t.cls == .staged && withdrawn))))) ∧
    v = { s with rqu := v.rqu, ctl := v.ctl }) ∧
  (∀ s : State, ∃ order : List (Fin 16), s.drainSlots = order.foldl State.drainVisit s ∧ order.length = 16 ∧
    ∀ i < 16, (order.getD i 0).val = (match s.rqu.lastDrained with
      | none => i
      | some l => (l.val + 1 + i) % 16)) ∧
  (∀ (s : State) (h : Fin 16),
    ((s.rqu.handsets.get h).slot = none ∨ 32 ≤ s.rqu.queue.length → s.drainVisit h = s) ∧
    (∀ r, (s.rqu.handsets.get h).slot = some r → s.rqu.queue.length < 32 →
      let s1 : State := { s with rqu := { s.rqu with
        lastDrained := some h, imageOwed := true
        handsets := vset s.rqu.handsets h { s.rqu.handsets.get h with slot := none } } }
      (∀ why, s.checkRequest h r.song = .refuse why → s.drainVisit h = s1.issueReply h (.refused why) false) ∧
      (s.checkRequest h r.song = .accept → s.drainVisit h = s1.acceptRequest h r.song r.key r.singers) ∧
      s.checkRequest h r.song ≠ .full ∧ ((s.drainVisit h).rqu.handsets.get h).slot = none ∧
      ((s.drainVisit h).rqu.handsets.get h).lastSeq = (s.rqu.handsets.get h).lastSeq)) ∧
  (∀ (s : State) (h : Fin 16) (song : Nat),
    let unknown := song = 0 ∨ s.prm.catalogSize < song
    let recent := s.prm.recentBlock = true ∧ ∃ e ∈ s.rqu.history, e.song = song
    let duplicate := s.prm.dupBlock = true ∧ ∃ t ∈ s.rqu.queue, t.song = song
    let waiting := s.rqu.queue.countP (fun t => decide (t.source = .handset h))
    s.checkRequest h song =
      if s.rqu.closed = true then .refuse .closed
      else if unknown then .refuse .unknownSong
      else if recent then .refuse .recent
      else if duplicate then .refuse .duplicate
      else if s.prm.limit ≤ waiting then .refuse .limit
      else if 32 ≤ s.rqu.queue.length then .full else .accept)

/-- OPEN and CLOSE (R144): the room's state, every pending slot emptied by CLOSE with REFUSED(CLOSED). CLEAR_ROOM and
FLUSH_GLYPHS (R74, R127, R183): what each empties, and nothing else but QUEUE_CHANGED for a queue that was not empty. -/
def Obligations.RoomAndGlyphCommands : Prop :=
  (∀ (tag : BitVec 16) (s : State), s.ready →
     exec (.openRoom tag) s = .next (State.result 0x0E tag .ok [] { s with
       rqu := { s.rqu with closed := false, imageOwed := s.rqu.imageOwed || s.rqu.closed } }).flush ∧
     ∃ u : State, exec (.closeRoom tag) s = .next (u.result 0x0F tag .ok []).flush ∧
       u = { s with rqu := u.rqu, ptu := u.ptu } ∧ u.ptu.links = s.ptu.links ∧ u.rqu.closed = true ∧
       u.rqu.queue = s.rqu.queue ∧ u.rqu.history = s.rqu.history ∧ u.rqu.lastNumber = s.rqu.lastNumber ∧
       (s.rqu.closed = false → u.rqu.imageOwed = true) ∧
       (∀ h : Fin 16, (u.rqu.handsets.get h).slot = none ∧
         (u.rqu.handsets.get h).lastSeq = (s.rqu.handsets.get h).lastSeq ∧
         ((s.rqu.handsets.get h).slot = none → u.rqu.handsets.get h = s.rqu.handsets.get h) ∧
         ((s.rqu.handsets.get h).slot.isSome = true → ∃ r, (u.rqu.handsets.get h).lastReply = some r ∧
           r.handset = h ∧ r.body = .refused .closed)) ∧
       ((∀ h : Fin 16, (s.rqu.handsets.get h).slot = none) → u.ptu = s.ptu)) ∧
  (∀ (tag : BitVec 16) (s : State), s.ready →
     (s.scu.state = .idle → ∃ u : State, exec (.clearRoom tag) s = .next (u.result 0x10 tag .ok []).flush ∧
       u = { s with rqu := u.rqu, scr := u.scr, ctl := u.ctl } ∧
       u.rqu = { s.rqu with
         queue := [], history := [], handsets := Vector.replicate 16 {}, arrival := 0, lastDrained := none
         closed := false, imageOwed := true } ∧
       u.scr = { s.scr with singers := Vector.replicate 4 {}, cadenceCount := 0 } ∧
       (s.rqu.queue = [] → u.ctl = { s.ctl with staged := none }) ∧
       (s.rqu.queue ≠ [] → u.ctl = Ctl.raise .queueChanged { s.ctl with staged := none })) ∧
     (∃ u : State, exec (.flushGlyphs tag) s = .next (u.result 0x11 tag .ok []).flush ∧ u = { s with gxt := u.gxt } ∧
       u.gxt.cache = [] ∧ u.gxt.intake = s.gxt.intake ∧ u.gxt.glyphFault = s.gxt.glyphFault ∧
       (∀ k : Fin 8, u.gxt.walks.get k = (s.gxt.walks.get k).map (fun w => { w with fresh := false }))))

/-- A new REQUEST packet (R128, R130, R131, R134 to R136, R146): the sequence noted; refused by the first row of Table
8-5 that applies, held in an empty pending slot when the queue is full, or admitted. An admission, from a packet or a
drained slot: a NORMAL ticket with the next free number and a new stamp in its ordered place, ACCEPTED with its position,
QUEUE_CHANGED, and QUEUE_HIGH when the count goes from 27 to 28; then the staging test, as its own statement says. -/
def Obligations.RequestPacketsAreChecked : Prop :=
  (∀ (s s' : State) (b : WriteBeat), s.nextBeat = some (b, s') → s.packetKind b = .fresh .request →
     s.ptu.lineFull = false →
     let p := readPacket b.data
     let h := p.from
     let s1 := s'.noteSequence h p.seq
     let refused := fun why => exec .handsetRequest s = .next (s1.issueReply h (.refused why) false).flush.playTaps
     let waiting := s.rqu.queue.countP (fun t => decide (t.source = .handset h))
     let open1 := s.rqu.closed = false
     let open2 := open1 ∧ p.song ≠ 0 ∧ p.song ≤ s.prm.catalogSize
     let open3 := open2 ∧ (s.prm.recentBlock = false ∨ ∀ e ∈ s.rqu.history, e.song ≠ p.song)
     let open4 := open3 ∧ (s.prm.dupBlock = false ∨ ∀ t ∈ s.rqu.queue, t.song ≠ p.song)
     let open5 := open4 ∧ waiting < s.prm.limit
     (s.rqu.closed = true → refused .closed) ∧
     (open1 → (p.song = 0 ∨ s.prm.catalogSize < p.song) → refused .unknownSong) ∧
     (open2 → s.prm.recentBlock = true → (∃ e ∈ s.rqu.history, e.song = p.song) → refused .recent) ∧
     (open3 → s.prm.dupBlock = true → (∃ t ∈ s.rqu.queue, t.song = p.song) → refused .duplicate) ∧
     (open4 → s.prm.limit ≤ waiting → refused .limit) ∧
     (open5 → 32 ≤ s.rqu.queue.length → (s.rqu.handsets.get h).slot.isSome = true → refused .queueFull) ∧
     (open5 → 32 ≤ s.rqu.queue.length → (s.rqu.handsets.get h).slot = none →
       exec .handsetRequest s = .next (State.issueReply h .held false { s1 with rqu := { s1.rqu with
         imageOwed := true
         handsets := vset s1.rqu.handsets h
           { s1.rqu.handsets.get h with slot := some ⟨p.seq, p.song, p.key, p.singers⟩ } } }).flush.playTaps)) ∧
  (∀ (s : State) (h : Fin 16) (song : Nat) (key : Int) (singers : Nat), s.rqu.queue.length < 32 →
     s.rqu.lastNumber ≤ 65535 →
     let t : Ticket :=
       { number := s.newNumber, source := .handset h, song := song, key := key, singers := singers
         cls := .normal
         round := 1 + s.rqu.queue.countP (fun u => decide (u.source = .handset h ∧ u.cls = .normal))
         arrival := s.rqu.arrival + 1 }
     let joined : State := { s with rqu := { s.rqu with
       queue := placeTicket t s.rqu.queue, lastNumber := t.number, arrival := t.arrival } }
     let answered := joined.issueReply h
       (.accepted t.number ((s.rqu.queue.takeWhile (fun x => !t.before x)).length + 1)) false
     ∃ v : State, s.acceptRequest h song key singers = v.stageTest ∧ (v.stagingHolds = false → v.stageTest = v) ∧
       v = { answered with rqu := { answered.rqu with imageOwed := true }, ctl := v.ctl } ∧
       { v.ctl with flags := 0, noticeLow := false, statusOwed := false } =
         { s.ctl with flags := 0, noticeLow := false, statusOwed := false } ∧
       ∀ i < 14, v.ctl.flags.getLsbD i = (s.ctl.flags.getLsbD i ||
         (s.ctl.enables.getLsbD i && (i == 5 || (i == 6 && s.rqu.queue.length == 27))))) ∧
  (∀ (s s' : State) (b : WriteBeat), s.nextBeat = some (b, s') → s.packetKind b = .fresh .request →
     s.checkRequest (readPacket b.data).from (readPacket b.data).song = .accept →
     s.rqu.lastNumber ≤ 65535 → s.ptu.lineFull = false →
     let p := readPacket b.data
     let h := p.from
     let u := (s'.noteSequence h p.seq).acceptRequest h p.song p.key p.singers
     exec .handsetRequest s = .next u.flush.playTaps ∧
       (u.rqu.queue.map Ticket.number).Perm (s.newNumber :: s.rqu.queue.map Ticket.number) ∧
       (∃ x ∈ u.rqu.queue, x.number = s.newNumber ∧ x.source = .handset h ∧ x.song = p.song ∧ x.key = p.key ∧
         x.singers = p.singers ∧ x.arrival = s.rqu.arrival + 1) ∧
       u.rqu.lastNumber = s.newNumber ∧ u.rqu.arrival = s.rqu.arrival + 1 ∧
       (u.rqu.handsets.get h).lastSeq = some p.seq ∧ u.rqu.imageOwed = true ∧
       (s.ctl.enables.getLsbD 5 = true → u.ctl.flags.getLsbD 5 = true) ∧
       u.rqu.history = s.rqu.history ∧ u.rqu.closed = s.rqu.closed ∧
       u.scu = s.scu ∧ u.lsq = s.lsq ∧ u.ovc = s.ovc ∧ u.gxt = s.gxt ∧ u.vin = s.vin ∧ u.pje = s.pje ∧
       u.scr = s.scr ∧ u.pending = s.pending ∧ u.ptu.links = s'.ptu.links)

/-- A new CANCEL packet (R130, R139): of a held request, of a ticket that is not the handset's to cancel, and of
its own ticket, which departs as the statement of departures says it, from a queue of any length, behind its CANCELLED
(the model's choice, log 10). -/
def Obligations.CancelPacketAnswers : Prop :=
  ∀ (s s' : State) (b : WriteBeat), s.nextBeat = some (b, s') → s.packetKind b = .fresh .cancel →
    s.ptu.lineFull = false →
    let p := readPacket b.data
    let h := p.from
    let s1 := s'.noteSequence h p.seq
    let refused := fun why => exec .handsetCancel s = .next (s1.issueReply h (.refused why) false).flush.playTaps
    (p.ticket = 0 → (s.rqu.handsets.get h).slot = none → refused .unknownTicket) ∧
    (p.ticket = 0 → (s.rqu.handsets.get h).slot.isSome = true →
      exec .handsetCancel s = .next (State.issueReply h (.cancelled 0) false { s1 with rqu := { s1.rqu with
        imageOwed := true
        handsets := vset s1.rqu.handsets h { s1.rqu.handsets.get h with slot := none } } }).flush.playTaps) ∧
    (p.ticket ≠ 0 → s.rqu.ticket p.ticket = none →
      (s.scu.current.map Ticket.number ≠ some p.ticket → refused .unknownTicket) ∧
      (∀ c, s.scu.current = some c → c.number = p.ticket →
        (c.source = .handset h → refused .inUse) ∧ (c.source ≠ .handset h → refused .notYours))) ∧
    (∀ t, p.ticket ≠ 0 → s.rqu.ticket p.ticket = some t →
      (t.source ≠ .handset h → refused .notYours) ∧
      (t.source = .handset h →
        ∃ u : State, exec .handsetCancel s = .next u.flush.playTaps ∧
          u = (s1.issueReply h (.cancelled p.ticket) false).depart t true ∧
          (s.rqu.queue.length < 32 → (u.rqu.queue.map Ticket.number).Perm
            ((s.rqu.queue.map Ticket.number).filter (fun m => m != p.ticket))) ∧
          (s.rqu.queue.length < 32 → (∃ x ∈ s.rqu.queue, x.cls = .staged ∧ x.number ≠ p.ticket) →
            ∃ r, (u.rqu.handsets.get h).lastReply = some r ∧ r.handset = h ∧ r.seq = p.seq ∧
              r.body = .cancelled p.ticket) ∧
          (t.cls = .staged → s.ctl.enables.getLsbD 2 = true → u.ctl.flags.getLsbD 2 = true) ∧
          u.scu = s.scu ∧ u.lsq = s.lsq ∧ u.ovc = s.ovc ∧ u.gxt = s.gxt ∧ u.vin = s.vin ∧ u.pje = s.pje ∧
          u.scr = s.scr ∧ u.pending = s.pending ∧ u.ptu.links = s'.ptu.links))

/-- A beat of a handset tap (R128 to R130): bad with a byte enable clear or HANDSET above 15, a resend when its
SEQUENCE is the record's last, otherwise new under its ACTION; taking it leaves the rest of the lane. The answers to
STATUS, an unknown ACTION, a bad packet and a resend (R140). That a SCORE reply placed again, or kept as lost, is not
reported to the Score Unit is the model's choice (log 31). -/
def Obligations.PacketsAreTakenOneByOne : Prop :=
  (∀ (s : State) (t : Tap) (rest : List Tap) (b : WriteBeat) (bs : List WriteBeat),
     s.ptu.taps = t :: rest → t.cls = .handset → t.req.body = .write (b :: bs) →
     (∃ s', s.nextBeat = some (b, s') ∧ s' = { s with ptu := { s.ptu with taps := s'.ptu.taps } } ∧
       (bs = [] → s'.ptu.taps = rest) ∧
       (bs ≠ [] → s'.ptu.taps = { t with req := { t.req with body := .write bs } } :: rest)) ∧
     (b.en ≠ BitVec.allOnes 16 ∨ 15 < byteAt [b.data] 0 → s.packetKind b = .bad) ∧
     (b.en = BitVec.allOnes 16 → ∀ h : Fin 16, byteAt [b.data] 0 = h.val →
       ((s.rqu.handsets.get h).lastSeq = some (BitVec.ofNat 8 (byteAt [b.data] 1)) → s.packetKind b = .resend) ∧
       ((s.rqu.handsets.get h).lastSeq ≠ some (BitVec.ofNat 8 (byteAt [b.data] 1)) →
         (byteAt [b.data] 2 = 1 → s.packetKind b = .fresh .request) ∧
         (byteAt [b.data] 2 = 2 → s.packetKind b = .fresh .cancel) ∧
         (byteAt [b.data] 2 = 3 → s.packetKind b = .fresh .status) ∧
         (byteAt [b.data] 2 = 0 ∨ 3 < byteAt [b.data] 2 → s.packetKind b = .fresh .other)))) ∧
  (∀ (s s' : State) (b : WriteBeat), s.nextBeat = some (b, s') →
     let p := readPacket b.data
     let h := p.from
     let s1 := s'.noteSequence h p.seq
     (s.packetKind b = .fresh .status → s.ptu.lineFull = false → exec .handsetStatus s = .next (s1.issueReply h (.positions
       (((s.rqu.queue.filter (fun t => decide (t.source = .handset h))).map
         (fun t => ⟨t.number, positionOf t.number s.rqu.queue, t.cls⟩)).take 8)
       (s.rqu.handsets.get h).slot.isSome
       (match s.scu.current with
         | some c => if c.source = .handset h then some c.number else none
         | none => none)) false).flush.playTaps) ∧
     (s.packetKind b = .fresh .other → s.ptu.lineFull = false →
       exec .badActionPacket s = .next (s1.issueReply h (.refused .badRequest) false).flush.playTaps) ∧
     ((b.en ≠ BitVec.allOnes 16 ∨ 15 < byteAt [b.data] 0) → exec .badPacket s =
       .next ({ s' with rqu := { s'.rqu with badPacket := s'.rqu.badPacket + 1 } } : State).flush.playTaps) ∧
     (s.packetKind b = .resend → s.ptu.lineFull = false → ∀ r, (s.rqu.handsets.get h).lastReply = some r →
       exec .handsetResend s = .next (s'.placeReply r false).flush.playTaps ∧
         (s'.placeReply r false).scr = s.scr))

/-- The records the part reads, byte by byte (R187): a byte is eight bits of its beat, a field little-endian. The bank
header (Table 12-5), a cue (Table 12-6, R24), a note (R102), a line (Table 12-7, R34), a page-table entry (R65), a handset
packet (Table 8-3, R129) and the command record (Table 12-2, R188), each field as its rule takes it. -/
def Obligations.RecordsAreReadByteByByte : Prop :=
  (∀ (bs : List Beat) (i : Nat), byteAt bs i = (bs.getD (i / 16) 0).toNat / 2 ^ (8 * (i % 16)) % 256) ∧
  (∀ (bs : List Beat) (off : Nat),
    let b := fun i => byteAt bs (off + i)
    let two := fun i => b i + 256 * b (i + 1)
    let three := fun i => two i + 65536 * b (i + 2)
    let four := fun i => three i + 16777216 * b (i + 3)
    let part := fun x : Nat => if x = 1 then LinePart.a else if x = 2 then .b else .both
    (off = 0 → readHeader bs =
      { song := three 0x00, length := four 0x04, cueCount := four 0x08, cueOffset := four 0x0C, lineCount := four 0x10
        lineOffset := four 0x14, noteCount := four 0x18, noteOffset := four 0x1C }) ∧
    (∀ lines, readCue bs off lines =
      if b 3 = 1 ∧ two 4 < lines then some ⟨three 0, .lineIn (two 4)⟩
      else if b 3 = 2 then some ⟨three 0, .bandClear⟩
      else if b 3 = 3 then some ⟨three 0, .mark (two 4)⟩
      else if b 3 = 4 then some ⟨three 0, .songEnd⟩ else none) ∧
    readNote bs off =
      { start := three 0, duration := if two 3 = 0 then 1 else two 3
        period := if two 5 < 192 then 192 else if 2816 < two 5 then 2816 else two 5, part := part (b 7 % 16)
        weight := if b 7 / 16 = 0 then 1 else if 4 < b 7 / 16 then 4 else b 7 / 16 } ∧
    (let r := readLine bs off
     let g := min 48 (b 0)
     r.glyphs.length = g ∧ r.syllables.length = (if b 0 = 0 then 0 else min 32 (b 1)) ∧ r.part = part (b 2) ∧
     r.align = (if b 3 = 1 then .centre else .left) ∧
     (∀ i x, r.glyphs[i]? = some x → x.index = two (0x10 + 4 * i) ∧
       x.advance = max 1 (min 64 (b (0x12 + 4 * i)))) ∧
     (∀ k x, r.syllables[k]? = some x → x.first = min g (b (0xD0 + 8 * k)) ∧
       x.count = min (b (0xD1 + 8 * k)) (g - x.first) ∧ x.duration = max 1 (two (0xD2 + 8 * k)) ∧
       x.start = three (0xD4 + 8 * k))) ∧
    (readEntry bs off = if 2 ^ 31 ≤ four 0 then some (four 0 % 2 ^ 20) else none)) ∧
  (∀ d : Beat,
    let b := byteAt [d]
    let p := readPacket d
    p.handset = b 0 ∧ p.seq.toNat = b 1 ∧
    p.action = (if b 2 = 1 then .request else if b 2 = 2 then .cancel else if b 2 = 3 then .status else .other) ∧
    p.key = max (-12) (min 12 (if b 3 < 128 then (b 3 : Int) else b 3 - 256)) ∧
    p.song = b 4 + 256 * b 5 + 65536 * b 6 ∧ p.singers = (if b 7 = 2 then 2 else 1) ∧ p.ticket = b 8 + 256 * b 9 ∧
    (p.handset ≤ 15 → p.from.val = b 0)) ∧
  (∀ captured : Vector Beat 4,
    let b := byteAt [captured.get 0, captured.get 1, captured.get 2, captured.get 3]
    let r := readCommand captured
    r.code = b 0 + 256 * b 1 ∧ r.tag.toNat = b 2 + 256 * b 3 ∧ r.words.length = 15 ∧
    ∀ i < 15, (r.arg i).toNat =
      b (4 + 4 * i) + 256 * b (5 + 4 * i) + 65536 * b (6 + 4 * i) + 16777216 * b (7 + 4 * i))

/-- A reply record's 32 bytes by its kind (section 12.4, R189), every byte no field fills 0; and the strip text (R50): a
field for each of the first three tickets and a field for each ACTIVE singer, two spaces between them, numbers in decimal
without leading zeros, a score as its whole part of two digits or more, a point and two digits. Characters are the offsets
of Table 3-3: 10 for the point, 11 for the space, 12 for the dash. -/
def Obligations.RepliesAndStripAreSpelled : Prop :=
  (∀ r : Reply,
    let field := bytesAt r.bytes
    let rest := fun used => ∀ i, used ≤ i → i < 32 → field i 1 = 0
    let head := fun (kind third : Nat) => field 2 1 = kind ∧ field 3 1 = third
    r.bytes.length = 32 ∧ field 0 1 = r.handset.val ∧ field 1 1 = r.seq.toNat ∧
    (∀ n pos, r.body = .accepted n pos → head 1 0 ∧ field 4 2 = n % 65536 ∧ field 6 1 = pos % 256 ∧ rest 7) ∧
    (r.body = .held → head 2 0 ∧ rest 4) ∧
    (∀ why, r.body = .refused why → head 3 (match why with
      | .closed => 1
      | .unknownSong => 2
      | .recent => 3
      | .duplicate => 4
      | .limit => 5
      | .queueFull => 6
      | .badRequest => 7
      | .inUse => 8
      | .notYours => 9
      | .unknownTicket => 10) ∧ rest 4) ∧
    (∀ n, r.body = .cancelled n → head 4 0 ∧ field 4 2 = n % 65536 ∧ rest 6) ∧
    (∀ n song, r.body = .called n song → head 5 0 ∧ field 4 2 = n % 65536 ∧ field 6 2 = 0 ∧
      field 8 3 = song % 2 ^ 24 ∧ rest 11) ∧
    (∀ es held cur, r.body = .positions es held cur → es.length ≤ 8 → head 6 es.length ∧
      field 4 1 = (if held then 1 else 0) + (if cur.isSome then 2 else 0) ∧ field 5 1 = 0 ∧
      (cur = none → field 6 2 = 0) ∧ (∀ c, cur = some c → field 6 2 = c % 65536) ∧
      (∀ i e, es[i]? = some e → field (8 + 3 * i) 2 = e.number % 65536 ∧ field (10 + 3 * i) 1 = e.position % 64 +
        64 * (match e.cls with
          | .staged => 1
          | .priority => 2
          | .normal => 3)) ∧ rest (8 + 3 * es.length)) ∧
    (∀ n song es, r.body = .score n song es → es.length ≤ 4 → head 7 es.length ∧ field 4 2 = n % 65536 ∧
      field 6 2 = 0 ∧ field 8 3 = song % 2 ^ 24 ∧ field 11 1 = 0 ∧
      (∀ i e, es[i]? = some e → field (12 + 3 * i) 1 = e.singer % 256 ∧ field (13 + 3 * i) 2 = e.score % 65536) ∧
      rest (12 + 3 * es.length))) ∧
  (∀ (queue : List Ticket) (singers : List (Nat × Singer)),
    (∀ t ∈ queue, t.number ≤ 65535 ∧ t.song ≤ 16777215) →
    (∀ p ∈ singers, p.2.totals.earned ≤ p.2.totals.possible) →
    let spells := fun (n : Nat) (ds : List Nat) => ds ≠ [] ∧ (∀ d ∈ ds, d < 10) ∧
      ds.foldl (fun a d => 10 * a + d) 0 = n ∧ (1 < ds.length → ds.head? ≠ some 0)
    ∃ fields : List (List StripChar),
      stripText queue singers = (fields.intersperse [⟨11, .separator⟩, ⟨11, .separator⟩]).flatten ∧
      fields.length = min 3 queue.length + singers.length ∧
      (∀ i t, i < 3 → queue[i]? = some t → ∃ number song, spells t.number number ∧ spells t.song song ∧
        fields[i]? = some ((number ++ 11 :: song).map (fun o => ⟨o, .ticket⟩))) ∧
      (∀ i p, singers[i]? = some p →
        let possible := p.2.totals.possible
        let score := p.2.totals.earned * 10000 / possible
        (possible = 0 → fields[min 3 queue.length + i]? = some ([12, 12, 10, 12, 12].map (fun o => ⟨o, .score⟩))) ∧
        (possible ≠ 0 → ∃ whole, spells (score / 100) whole ∧ fields[min 3 queue.length + i]? =
          some (((if whole.length = 1 then 0 :: whole else whole) ++ [10, score % 100 / 10, score % 10]).map
            (fun o => ⟨o, .score⟩)))))

/-- SYSTEM_REQUEST (R159, R160, R163, R165, R166, R169). A write with a beat in a guarded region: dropped, answered
OKAY in its place, counted and recorded, GUARD_HIT raised, a malformed one counted as a PATH_FAULT too. The beats of a
burst that runs past 0FFFFFFFFh are taken to lie from address 0 on, which is the model's choice (log 15). Any other
request: kept waiting while the intake line holds 64 (as the model's own list, log 14); otherwise forwarded behind those
before it, untouched and counted when its beats lie in two 256-byte blocks, with ASSET_TOUCHED for a write that has an
enabled byte in the bank in use. -/
def Obligations.SystemRequestsAreTaken : Prop :=
  (∀ (r : Request) (bs : List WriteBeat) (s : State), r.body = .write bs → 1 ≤ bs.length → bs.length ≤ 16 →
    s.ptu.intake.length < 64 → s.ptu.sysHeld = [] →
    (∃ i < bs.length,
      (s.ptu.controlBase + 0x40 ≤ beatAddr r.addr i ∧ beatAddr r.addr i < s.ptu.controlBase + 4096) ∨
      (∃ w : Window, (s.ptu.windows.reply = some w ∨ s.ptu.windows.image = some w) ∧
        w.base ≤ beatAddr r.addr i ∧ beatAddr r.addr i < w.base + w.size)) →
    ∃ u : State, exec (.systemRequest r) s = .next u.flush ∧
      u = { s with ptu := u.ptu, ctl := s.ctl.raise .guardHit } ∧
      { u.ptu with sysOrder := s.ptu.sysOrder, sysOut := s.ptu.sysOut } =
        { s.ptu with
          guardHit := s.ptu.guardHit + 1, lastGuard := some ⟨r.addr, r.tag⟩
          pathFault := s.ptu.pathFault + (if malformed r then 1 else 0) } ∧
      (s.ptu.sysOrder.head? = some .forwarded →
        u.ptu.sysOrder = s.ptu.sysOrder ++ [.guarded] ∧ u.ptu.sysOut = s.ptu.sysOut) ∧
      (s.ptu.sysOrder = [] → u.ptu.sysOrder = [] ∧ u.ptu.sysOut = s.ptu.sysOut ++ [.completion .okay])) ∧
  (∀ (r : Request) (s : State), r.body.isBurst = true →
    (64 ≤ s.ptu.intake.length ∨ s.ptu.sysHeld ≠ [] → exec (.systemRequest r) s =
      .next ({ s with ptu := { s.ptu with sysHeld := s.ptu.sysHeld ++ [r] } } : State).flush) ∧
    (s.ptu.intake.length < 64 → s.ptu.sysHeld = [] → s.ptu.guardsOff r = false →
      let first := r.addr.toNat / 16 * 16
      let wide := ∃ i < r.body.count, (first + 16 * i) / 256 ≠ first / 256
      let touched := ∃ (w : Window) (b : Fin 2) (bs : List WriteBeat) (i : Nat) (x : WriteBeat),
        s.ptu.windows.asset = some w ∧ s.scu.bankInUse = some b ∧ r.body = .write bs ∧ bs[i]? = some x ∧ x.en ≠ 0 ∧
          w.base + b.val * (w.size / 2) ≤ beatAddr r.addr i ∧
          beatAddr r.addr i < w.base + b.val * (w.size / 2) + w.size / 2
      ∃ u : State, exec (.systemRequest r) s = .next u.flush ∧ u = { s with ptu := u.ptu, ctl := u.ctl } ∧
        (wide → u.ctl = s.ctl ∧ u.ptu = { s.ptu with
          pathFault := s.ptu.pathFault + 1, passQueue := s.ptu.passQueue ++ [⟨r, .plain⟩]
          sysOrder := s.ptu.sysOrder ++ [.forwarded] }) ∧
        (¬ wide → u.ptu = { s.ptu with
          passQueue := s.ptu.passQueue ++ [⟨r, s.ptu.classify r⟩], sysOrder := s.ptu.sysOrder ++ [.forwarded] }) ∧
        (¬ wide → touched → u.ctl = s.ctl.raise .assetTouched) ∧ (¬ wide → ¬ touched → u.ctl = s.ctl)))

/-- The actions of Table 10-4 (R163, R167) for a well-formed request that is not guarded, windows sharing no byte. -/
def Obligations.ClassesOfTheWindowTable : Prop :=
  ∀ (p : Ptu) (r : Request), (∀ a, (p.windowList.filter (fun w => w.holds a)).length ≤ 1) →
    let a := beatAddr r.addr 0
    let inside := fun w : Option Window => ∃ x, w = some x ∧ x.base ≤ a ∧ a < x.base + x.size
    let inControl := p.controlBase ≤ a ∧ a < p.controlBase + 4096
    let tagged := fun f : Tags → Nat => ∃ g, p.tags = some g ∧ f g = r.tag.toNat
    (∀ bs, r.body = .write bs →
      (inControl → p.tags = none ∨ tagged Tags.control → p.classify r = .commandSlot) ∧
      (inControl → p.tags ≠ none → ¬ tagged Tags.control → p.classify r = .plain) ∧
      (inside p.windows.mic → tagged Tags.capture → p.classify r = .capture) ∧
      (inside p.windows.mic → ¬ tagged Tags.capture → p.classify r = .plain) ∧
      (inside p.windows.handset → tagged Tags.radio → p.classify r = .handset) ∧
      (inside p.windows.handset → ¬ tagged Tags.radio → p.classify r = .plain) ∧
      (inside p.windows.pagetable → p.classify r = .pagetable) ∧
      (inside p.windows.playback ∨ inside p.windows.frame ∨ inside p.windows.asset → p.classify r = .plain)) ∧
    (∀ n, r.body = .read n →
      (inside p.windows.playback → tagged Tags.playback → p.classify r = .playback) ∧
      (inside p.windows.playback → ¬ tagged Tags.playback → p.classify r = .plain) ∧
      (inside p.windows.frame → tagged Tags.display → p.classify r = .display) ∧
      (inside p.windows.frame → ¬ tagged Tags.display → p.classify r = .plain) ∧
      (inside p.windows.reply → tagged Tags.radio → p.classify r = .replyRead) ∧
      (inside p.windows.reply → ¬ tagged Tags.radio → p.classify r = .plain) ∧
      (inControl ∨ inside p.windows.mic ∨ inside p.windows.handset ∨ inside p.windows.asset ∨
        inside p.windows.pagetable ∨ inside p.windows.image → p.classify r = .plain)) ∧
    ((∀ w ∈ p.windowList, w.holds a = false) → p.classify r = .plain)

/-- ARBITER_DECISION (R159, R164, R169 to R172): a pass-through request goes while no own request waits or the
rotation count is below ROTATE_N, with its tap; otherwise the chosen own request goes and the count is 0. Then the owed
rewrites begin; the held requests of the system side arrive in order while the line holds fewer than 64; a full line that
has gained room lets what a frame latch left waiting, the Glyph Translator, the waiting host commands and the playback
taps at the head of the lane go on, in this order (the model's choice, logs 14, 17 and 23), each arrival closed by the
rewrites it leaves owed (R157). An own request carries the control tag in force at its
placement, a retry too (log 27), or tag 0 before a set-up. A
decision with nothing waiting changes nothing of the arbiter's (log 3). The own request it chooses (R169, Table 10-6): of
the lowest class that waits, reads awaiting a retry first, then the earliest arrival; a read of the queue does not wait
while the throttle is SHUT. -/
def Obligations.ArbiterRotates : Prop :=
  (∀ s : State,
    let p := s.ptu.arbitrate
    let t := State.releaseHeld (State.flush { s with ptu := p })
    exec .arbiterDecision s = .next
      (if s.ptu.lineFull = true ∧ t.ptu.lineFull = false then t.resumeLatch.pump.flush else t).resumeWork.playTaps ∧
    (s.ptu.sysHeld = [] ∨ s.ptu.lineFull = true → s.releaseHeld = s) ∧
    (∀ r rest, s.ptu.sysHeld = r :: rest → s.ptu.lineFull = false →
      let u := (State.arrive { s with ptu := { s.ptu with sysHeld := [] } } r).flush
      s.releaseHeld = State.releaseHeld { u with ptu := { u.ptu with sysHeld := rest } }) ∧
    (s.ptu.passQueue = [] → s.ptu.chosen = none → p = s.ptu) ∧
    (∀ q rest, s.ptu.passQueue = q :: rest → s.ptu.chosen = none ∨ s.ptu.rotation < s.ptu.rotateN → p = { s.ptu with
      passQueue := rest, placed := s.ptu.placed ++ [.pass q 0]
      rotation := min s.ptu.rotateN (s.ptu.rotation + 1)
      taps := if q.cls = .plain ∨ q.cls = .playback ∨ q.cls = .display then s.ptu.taps
        else s.ptu.taps ++ [⟨q.cls, q.req⟩] }) ∧
    (∀ w, s.ptu.chosen = some w → s.ptu.passQueue = [] ∨ s.ptu.rotateN ≤ s.ptu.rotation →
      let tag := match s.ptu.tags with
        | some g => g.control
        | none => 0
      p.rotation = 0 ∧ p.passQueue = s.ptu.passQueue ∧ p.taps = s.ptu.taps ∧ p.sysHeld = s.ptu.sysHeld ∧
        p.ops = s.ptu.ops ∧ p.sysOrder = s.ptu.sysOrder ∧ p.windows = s.ptu.windows ∧
        (∀ r, w = .retry r → p.placed = s.ptu.placed ++ [.ownRead r.arrival tag] ∧
          p.handed = s.ptu.handed ∧ p.shut = s.ptu.shut ∧
          p.reads = s.ptu.reads.map (fun x => if x.arrival = r.arrival then
            { x with awaiting := false, attempts := x.attempts + 1 } else x)) ∧
        (∀ e, w = .fresh e →
          p.handed = (s.ptu.queue.filter (fun x => x.arrival != e.arrival)).map QueueEntry.req ++
            s.ptu.intake ++ s.ptu.kept ∧
          (∀ bs, e.req.body = .write bs → p.placed = s.ptu.placed ++ [.ownWrite e.req tag] ∧
            p.reads = s.ptu.reads ∧ p.shut = s.ptu.shut) ∧
          (∀ n, e.req.body = .read n → p.placed = s.ptu.placed ++ [.ownRead e.arrival tag] ∧
            p.reads = s.ptu.reads ++ [⟨e.req, e.arrival, 1, s.ptu.retryMax, false⟩] ∧
            (s.ptu.ownLimit ≤ s.ptu.reads.length + 1 → p.shut = true) ∧
            (s.ptu.reads.length + 1 < s.ptu.ownLimit → p.shut = s.ptu.shut))))) ∧
  (∀ p : Ptu,
    let retries := p.reads.filter (fun r => r.awaiting)
    let entries := p.queue.filter (fun e => bodyIsWrite e.req.body || !p.shut)
    (p.chosen = none ↔ retries = [] ∧ entries = []) ∧
    (∀ r, p.chosen = some (.retry r) → r ∈ retries ∧
      (∀ x ∈ retries, r.req.client.rank < x.req.client.rank ∨
        (r.req.client.rank = x.req.client.rank ∧ r.arrival ≤ x.arrival)) ∧
      (∀ e ∈ entries, r.req.client.rank ≤ e.req.client.rank)) ∧
    (∀ e, p.chosen = some (.fresh e) → e ∈ entries ∧ (∀ x ∈ retries, e.req.client.rank < x.req.client.rank) ∧
      (∀ y ∈ entries, e.req.client.rank < y.req.client.rank ∨
        (e.req.client.rank = y.req.client.rank ∧ e.arrival ≤ y.arrival))))

/-- Memory's responses. Those of pass-through requests go to the SoC in the order of its requests (R159, R165): one
beat of a read at a time or a whole response, the request leaving with its last item, and then the OKAY of each guarded
write whose turn has come. OWN_READ_RESPONSE and OWN_WRITE_COMPLETION (R171 to R174): data handed to the client; an ERROR
retried while retries remain, and final otherwise; a failed write recorded and completed all the same. -/
def Obligations.MemoryResponsesAreReturned : Prop :=
  (∀ (s : State) (q : PassReq) (n : Nat) (rest : List Placed) (more : List SysSlot),
    s.ptu.discard = 0 → s.ptu.placed = .pass q n :: rest → s.ptu.sysOrder = .forwarded :: more →
    let okays := List.replicate (more.takeWhile (fun x => x == .guarded)).length (SysOut.completion .okay)
    let left := more.dropWhile (fun x => x == .guarded)
    (∀ b, n + 1 < bodyCount q.req.body → s.ptu.returnBeat q n b =
      { s.ptu with placed := .pass q (n + 1) :: rest, sysOut := s.ptu.sysOut ++ [.beat b] }) ∧
    (∀ b, bodyCount q.req.body ≤ n + 1 → s.ptu.returnBeat q n b =
      { s.ptu with placed := rest, sysOut := s.ptu.sysOut ++ .beat b :: okays, sysOrder := left }) ∧
    (q.cls ≠ .playback → q.cls ≠ .display →
      (∀ bs, 1 ≤ bs.length → q.req.body = .read bs.length →
        exec (.passThroughResponse (.read bs)) s = .next ({ s with ptu := { s.ptu with
          placed := rest, sysOut := s.ptu.sysOut ++ bs.map SysOut.beat ++ okays, sysOrder := left } } : State).flush) ∧
      (∀ st ws, q.req.body = .write ws →
        exec (.passThroughResponse (.write st)) s = .next ({ s with ptu := { s.ptu with
          placed := rest, sysOut := s.ptu.sysOut ++ .completion st :: okays, sysOrder := left } } : State).flush))) ∧
  (∀ (bs : List ReadBeat) (s : State) (a tag : Nat) (rest : List Placed) (r : OwnRead), s.ptu.discard = 0 →
    s.ptu.placed = .ownRead a tag :: rest → s.ptu.reads.find? (fun x => x.arrival == a) = some r →
    bs.length = bodyCount r.req.body →
    let left := s.ptu.reads.filter (fun x => x.arrival != r.arrival)
    let ended := fun (u : State) (x : PartState) => u.ptu.placed = rest ∧ u.ptu.reads = left ∧
      (left.length ≤ s.ptu.ownBase → u.ptu.shut = false) ∧ (s.ptu.ownBase < left.length → u.ptu.shut = s.ptu.shut) ∧
      Ptu.partReturned r.req.op r.req.part x s.ptu u.ptu ∧ u.ptu.handed = s.ptu.handed
    ((∀ b ∈ bs, b.status = .okay) → ∃ u : State, exec (.ownReadResponse bs) s = .next u.flush ∧
      u = { s with ptu := u.ptu } ∧ ended u (.data (bs.map ReadBeat.data)) ∧ u.ptu.memError = s.ptu.memError ∧
      u.ptu.memErrorCount = s.ptu.memErrorCount) ∧
    ((∃ b ∈ bs, b.status = .error) → r.attempts ≤ r.limit → exec (.ownReadResponse bs) s =
      .next ({ s with ptu := { s.ptu with
        placed := rest
        reads := s.ptu.reads.map (fun x => if x.arrival = r.arrival then { x with awaiting := true } else x) } } :
          State).flush) ∧
    ((∃ b ∈ bs, b.status = .error) → r.limit < r.attempts → ∃ u : State,
      exec (.ownReadResponse bs) s = .next u.flush ∧
      u = { s with ptu := u.ptu, ctl := s.ctl.raise .memoryError } ∧ ended u .failed ∧
      u.ptu.memError = some ⟨r.req.addr, r.req.client⟩ ∧ u.ptu.memErrorCount = s.ptu.memErrorCount + 1)) ∧
  (∀ (st : Status) (s : State) (r : OwnRequest) (tag : Nat) (rest : List Placed), s.ptu.discard = 0 →
    s.ptu.placed = .ownWrite r tag :: rest →
    ∃ u : State, exec (.ownWriteCompletion st) s = .next u.flush ∧
      Ptu.partReturned r.op r.part (.data []) s.ptu u.ptu ∧ u.ptu.placed = rest ∧ u.ptu.handed = s.ptu.handed ∧
      u.ptu.reads = s.ptu.reads ∧ u.ptu.shut = s.ptu.shut ∧
      (st = .okay → u = { s with ptu := u.ptu } ∧ u.ptu.memError = s.ptu.memError ∧
        u.ptu.memErrorCount = s.ptu.memErrorCount) ∧
      (st = .error → u = { s with ptu := u.ptu, ctl := s.ctl.raise .memoryError } ∧
        u.ptu.memError = some ⟨r.addr, r.client⟩ ∧ u.ptu.memErrorCount = s.ptu.memErrorCount + 1))

/-- A pixel of a blended beat (R59): as read outside the layers; inside, each channel shaded by SHADE and blended with
the buffer's foreground and alpha, alpha 0 where no glyph covers it, the X byte unchanged. DISPLAY_BEAT that is no
latch (R42, R43, R52, R57 to R61, R168): while the latch record is empty every beat is untouched and nothing is
composed; with a record the first beat of a scanline makes its compose request, for the scanline two below,
before anything else; then a beat is untouched outside the layers, on a scanline decided PASS and after its BLEND buffer
was freed; blended, ERROR beats excepted, from the buffer of a BLEND decision, which is freed with the last layer beat;
and at a first layer beat without a READY buffer, a PASS decision and SCAN_LATE. -/
def Obligations.DisplayBeatsAreBlendedOrPass : Prop :=
  (∀ (l : LatchRecord) (y x : Nat) (ps : List Pixel) (d : Beat), l.prm.shade ≤ 256 → (∀ p ∈ ps, p.alpha ≤ 255) →
    ∀ j < 4,
      let v := pixelOf d j
      let out := pixelOf (blendBeat l y x ps d) j
      (l.covers y (x + j) = false → out = v) ∧
      (l.covers y (x + j) = true → out / 2 ^ 24 = v / 2 ^ 24 ∧
        ∀ k < 3, ∀ fg a,
          ((∃ p, ps.find? (fun p => p.x == x + j) = some p ∧ fg = p.colour / 256 ^ k % 256 ∧ a = p.alpha) ∨
            (ps.find? (fun p => p.x == x + j) = none ∧ a = 0)) →
          out / 256 ^ k % 256 =
            (fg * a + v / 256 ^ k % 256 * l.prm.shade / 256 * (255 - a) + 127) / 255)) ∧
  (∀ (b : ReadBeat) (s : State) (q : PassReq) (n : Nat) (rest : List Placed),
    s.ptu.discard = 0 → s.ptu.placed = .pass q n :: rest → q.cls = .display →
    (s.ovc.latch = none → ∀ w, s.ptu.windows.frame = some w → 0 < s.prm.stride * s.prm.height →
      ((beatAddr q.req.addr n : Int) - w.base) % (s.prm.stride * s.prm.height : Nat) ≠ 0 →
      exec (.displayBeat b) s = .next ({ s with ptu := s.ptu.returnBeat q n b } : State).flush) ∧
    (s.ptu.windows.frame = none → exec (.displayBeat b) s = .next
      ({ s with ptu := s.ptu.returnBeat q n b } : State).flush)) ∧
  (∀ (b : ReadBeat) (s0 : State) (q : PassReq) (n : Nat) (rest : List Placed) (w : Window) (l : LatchRecord),
    s0.ptu.discard = 0 → s0.ptu.placed = .pass q n :: rest → q.cls = .display → s0.ptu.windows.frame = some w →
    0 < s0.prm.stride * s0.prm.height → s0.ovc.latch = some l →
    let off := (((beatAddr q.req.addr n : Int) - w.base) % (s0.prm.stride * s0.prm.height : Nat)).toNat
    let y := off / s0.prm.stride
    let x := off % s0.prm.stride / 4
    let s := if x = 0 then s0.compose (y + 2) else s0
    let layered := ∃ j < 4, l.covers y (x + j) = true
    let blended := fun k => if b.status = .okay then
      { b with data := blendBeat l y x (s.ovc.buffers.get k).pixels b.data } else b
    let after := fun k => if x ≤ l.lastColumn y ∧ l.lastColumn y < x + 4 then vset s.ovc.buffers k {} else s.ovc.buffers
    off ≠ 0 →
    (¬ layered → exec (.displayBeat b) s0 = .next ({ s with ptu := s.ptu.returnBeat q n b } : State).flush) ∧
    (layered → s.ovc.decision = some ⟨y, .pass⟩ →
      exec (.displayBeat b) s0 = .next ({ s with ptu := s.ptu.returnBeat q n b } : State).flush) ∧
    (∀ k comp, layered → s.ovc.decision = some ⟨y, .blend k comp⟩ →
      ((s.ovc.buffers.get k).comp ≠ comp ∨ (s.ovc.buffers.get k).state ≠ .ready →
        exec (.displayBeat b) s0 = .next ({ s with ptu := s.ptu.returnBeat q n b } : State).flush) ∧
      ((s.ovc.buffers.get k).comp = comp → (s.ovc.buffers.get k).state = .ready →
        exec (.displayBeat b) s0 = .next ({ s with
          ovc := { s.ovc with buffers := after k }, ptu := s.ptu.returnBeat q n (blended k) } : State).flush)) ∧
    (∀ k, layered → (∀ d, s.ovc.decision = some d → d.y ≠ y) → s.ovc.holding y (fun st => st == .ready) = some k →
      exec (.displayBeat b) s0 = .next ({ s with
        ovc := { s.ovc with buffers := after k, decision := some ⟨y, .blend k (s.ovc.buffers.get k).comp⟩ }
        ptu := s.ptu.returnBeat q n (blended k) } : State).flush) ∧
    (layered → (∀ d, s.ovc.decision = some d → d.y ≠ y) → s.ovc.holding y (fun st => st == .ready) = none →
      ∃ u : State, exec (.displayBeat b) s0 = .next u.flush ∧
        u = { s with ovc := u.ovc, ctl := s.ctl.raise .scanLate, ptu := s.ptu.returnBeat q n b } ∧
        u.ovc = { s.ovc with
          buffers := u.ovc.buffers, decision := some ⟨y, .pass⟩, scanLate := s.ovc.scanLate + 1 } ∧
        (∀ k, s.ovc.holding y (fun st => st == .composing) = some k →
          u.ovc.buffers.get k = { s.ovc.buffers.get k with discard := true }) ∧
        (∀ k, s.ovc.holding y (fun st => st == .composing) ≠ some k → u.ovc.buffers.get k = s.ovc.buffers.get k)))

/-- A compose request (R52, R53): ignored without a record, outside the layers and the frame, for a scanline already
held, and with no FREE buffer; otherwise the lowest FREE buffer holds the scanline with its composition set, READY when
it has no glyph row and COMPOSING with one translation request for each distinct row otherwise, the requests behind
those the compositor already has waiting; that what stands at the intake is tried again before them is the model's choice
(log 23). The set: the glyphs of the one drawn entry whose 48 rows hold the scanline
that show in the band's columns, in line order, then the strip's characters that start in its columns, in the order of the
text; and its rows, each once, in the order of first appearance. -/
def Obligations.ScanlinesAreComposed : Prop :=
  (∀ (y : Nat) (s : State),
    (s.ovc.latch = none → s.compose y = s) ∧
    (∀ l, s.ovc.latch = some l →
      (l.bandAt y = false → l.stripAt y = false → s.compose y = s) ∧ (l.prm.height ≤ y → s.compose y = s)) ∧
    ((∃ k : Fin 3, (s.ovc.buffers.get k).y = some y ∧ (s.ovc.buffers.get k).discard = false ∧
      (s.ovc.buffers.get k).state ≠ .free) → s.compose y = s) ∧
    ((∀ k : Fin 3, (s.ovc.buffers.get k).state ≠ .free) → s.compose y = s) ∧
    (∀ (l : LatchRecord) (k : Fin 3), s.ovc.latch = some l → (l.bandAt y = true ∨ l.stripAt y = true) →
      y < l.prm.height → (∀ j : Fin 3, (s.ovc.buffers.get j).state ≠ .free → (s.ovc.buffers.get j).discard = false →
        (s.ovc.buffers.get j).y ≠ some y) →
      (s.ovc.buffers.get k).state = .free → (∀ j : Fin 3, j < k → (s.ovc.buffers.get j).state ≠ .free) →
      let set := l.compositionSet y
      let rows := distinctRows set
      s.compose y = State.pump { s with ovc := { s.ovc with
        buffers := vset s.ovc.buffers k { state := (if rows = [] then .ready else .composing), y := some y, discard := false
                                          outstanding := rows.length, comp := s.ovc.nextComp, set := set, pixels := [] }
        nextComp := s.ovc.nextComp + 1
        waiting := s.ovc.waiting ++ rows.map (fun r => ⟨1536 * r.1 + 32 * r.2, s.ovc.nextComp, r.1, r.2⟩) } })) ∧
  (∀ set : List Appearance, (distinctRows set).Nodup ∧
    (∀ r, r ∈ distinctRows set ↔ ∃ a ∈ set, r = (a.glyph, a.row)) ∧
    (distinctRows set).Pairwise (fun r q => set.findIdx (fun a => decide ((a.glyph, a.row) = r)) <
      set.findIdx (fun a => decide ((a.glyph, a.row) = q)))) ∧
  (∀ (l : LatchRecord) (y : Nat),
    (l.bandAt y = true ↔ l.state ≠ .idle ∧ l.prm.bandY ≤ y ∧ y < l.prm.bandY + 48 * l.prm.bandRows) ∧
    (l.stripAt y = true ↔ l.prm.stripEnable = true ∧ l.prm.stripY ≤ y ∧ y < l.prm.stripY + 48) ∧
    (∃ band strip : List Appearance, l.compositionSet y = band ++ strip ∧
      (l.bandAt y = false → band = []) ∧ (l.stripAt y = false → strip = []) ∧
      ((∀ e ∈ l.entries, ¬ (e.top ≤ (y : Int) ∧ (y : Int) ≤ e.top + 47)) → band = []) ∧
      (∀ e front back, l.entries = front ++ e :: back → (e.top ≤ (y : Int) ∧ (y : Int) ≤ e.top + 47) →
        (∀ f ∈ front, ¬ (f.top ≤ (y : Int) ∧ (y : Int) ≤ f.top + 47)) → l.bandAt y = true →
        (e.drawnEmpty = true → band = []) ∧
        (e.drawnEmpty = false → ∀ a, a ∈ band ↔ ∃ (i : Nat) (g : Glyph) (p : Nat), e.glyphs[i]? = some g ∧ e.positions[i]? = some p ∧
          l.prm.bandX < p + g.advance ∧ p < l.prm.bandX + l.prm.bandW ∧
          a = { glyph := g.index, row := ((y : Int) - e.top).toNat, left := p, advance := g.advance
                clipFrom := l.prm.bandX, clipTo := l.prm.bandX + l.prm.bandW, paint := .band e.part e.wiped }) ∧
        (e.drawnEmpty = false → ∃ shown : List Nat, shown.Pairwise (· < ·) ∧
          (∀ i, i ∈ shown ↔ ∃ g p, e.glyphs[i]? = some g ∧ e.positions[i]? = some p ∧
            l.prm.bandX < p + g.advance ∧ p < l.prm.bandX + l.prm.bandW) ∧
          band.map (fun a => (some a.glyph, some a.left)) =
            shown.map (fun i => ((e.glyphs[i]?).map Glyph.index, e.positions[i]?)))) ∧
      (l.stripAt y = true → ∃ shown : List Nat, shown.Pairwise (· < ·) ∧
        (∀ i, i ∈ shown ↔ i < l.text.length ∧ i * l.prm.stripAdvance < l.prm.stripW) ∧
        strip.map (fun a => (some a.glyph, a.left)) = shown.map (fun i =>
          ((l.text[i]?).map (fun c => l.prm.digitBase + c.offset), l.prm.stripX + i * l.prm.stripAdvance))) ∧
      (l.stripAt y = true → ∀ a, a ∈ strip ↔ ∃ (i : Nat) (c : StripChar), l.text[i]? = some c ∧ i * l.prm.stripAdvance < l.prm.stripW ∧
        a = { glyph := l.prm.digitBase + c.offset, row := y - l.prm.stripY
              left := l.prm.stripX + i * l.prm.stripAdvance, advance := l.prm.stripAdvance, clipFrom := l.prm.stripX
              clipTo := l.prm.stripX + l.prm.stripW
              paint := .strip (if c.field = .score ∧ l.bannerShown = true then l.prm.bannerColour
                else l.prm.stripColour) })))

/-- A translation request (R64, R65, R68, R69): beyond the aperture it fails at once and is counted; it is answered
from the cache, its mapping made the most recently used; it joins the FRESH walk of its page, or begins a walk on the
lowest FREE record; with no waiter place or no record it stays at the intake. And the intake: what is there is taken
again before the compositor's next request, and while it cannot be taken none behind it is; when this is done besides
R69's walk completions is the model's choice (log 23). -/
def Obligations.TranslationsAreTakenInOrder : Prop :=
  (∀ (q : GlyphReq) (s : State),
    let page := q.va / 4096
    let inside := q.va < s.prm.aperture
    let missed := ∀ e ∈ s.gxt.cache, e.page ≠ page
    let walked := fun k => ∃ w, s.gxt.walks.get k = some w ∧ w.fresh = true ∧ w.page = page
    let waiters := ((List.finRange 8).map (fun k => match s.gxt.walks.get k with
      | some w => w.waiters.length
      | none => 0)).sum
    (¬ inside → s.takeGlyph q = some (State.endRow q.comp q.glyph q.row none { s with
      gxt := { s.gxt with glyphFault := s.gxt.glyphFault + 1 } })) ∧
    (∀ e, inside → e ∈ s.gxt.cache → e.page = page → (s.gxt.cache.map CacheEntry.page).Nodup →
      ∃ u, s.takeGlyph q = some u ∧
        u.gxt = { s.gxt with cache := s.gxt.cache.filter (fun x => x.page != page) ++ [e] } ∧
        u = { s with gxt := u.gxt, ptu := u.ptu } ∧
        (s.ovc.composing q.comp = none → u.ptu = s.ptu) ∧
        ((s.ovc.composing q.comp).isSome = true → u.ptu.handed = s.ptu.handed ++
          requestsOf .glyphRow s.ptu.nextOp 0 (readsOver (e.phys * 4096 + q.va % 4096) 32))) ∧
    (∀ k w, inside → missed → waiters < 64 → walked k → (∀ j, j < k → ¬ walked j) → s.gxt.walks.get k = some w →
      s.takeGlyph q = some { s with gxt := { s.gxt with
        walks := vset s.gxt.walks k (some { w with waiters := w.waiters ++ [q] }) } }) ∧
    (∀ k, inside → missed → waiters < 64 → (∀ j, ¬ walked j) → s.gxt.walks.get k = none →
      (∀ j, j < k → s.gxt.walks.get j ≠ none) →
      ∃ u, s.takeGlyph q = some u ∧ u = { s with gxt := u.gxt, ptu := u.ptu } ∧
        u.gxt = { s.gxt with walks := vset s.gxt.walks k (some ⟨page, true, s.ptu.nextOp, [q]⟩) } ∧
        u.ptu.handed = s.ptu.handed ++ requestsOf .pageWalk s.ptu.nextOp 0
          (readsOver (baseOf s.ptu.windows.pagetable + 4 * page) 4)) ∧
    (inside → missed → (64 ≤ waiters ∨ ((∀ j, ¬ walked j) ∧ ∀ j, s.gxt.walks.get j ≠ none)) → s.takeGlyph q = none)) ∧
  (∀ s : State,
    (s.gxt.intake = none → s.ovc.waiting = [] → s.pump = s) ∧
    (∀ q, s.gxt.intake = some q → State.takeGlyph q { s with gxt := { s.gxt with intake := none } } = none →
      s.pump = s) ∧
    (∀ q rest, s.gxt.intake = none → s.ovc.waiting = q :: rest → s.pump = State.pump { s with
      gxt := { s.gxt with intake := some q }, ovc := { s.ovc with waiting := rest } }) ∧
    (∀ q u, s.gxt.intake = some q → State.takeGlyph q { s with gxt := { s.gxt with intake := none } } = some u →
      s.ptu.lineFull = false → s.pump = u.pump))

/-- A frame latch (R20, R31, R36 to R38, R42, R45 to R48, R52, R57, R186). The Lyric Sequencer's steps: LEAVING slots
outside the band freed, a scroll at offset 48 ended and its departing top freed with its load orphaned, the wiped x of the
band's loaded slots brought up to date. The record of this frame: the band's slots in order, each with its top row and its
wiped x. Then the claims; the composition begun anew with the requests for scanlines 0, 1 and 2; the latch's own beat
decided and returned as any beat of scanline 0; and last the banner counted down to the return to IDLE, and a status
rewrite owed. That the record is taken before the claims is the model's choice (log 22), and so is it that the banner
count falls last (log 28). And the claims: unbound LINE_INs in list order take the FREE slots from the lowest; a due one
that waited at the head is taken with those due behind it. And the wipe boundary of a slot (R37). -/
def Obligations.FrameLatchTakesTheRecord : Prop :=
  (∀ (b : ReadBeat) (s : State) (q : PassReq) (n : Nat) (rest : List Placed) (w : Window),
    s.ptu.discard = 0 → s.ptu.placed = .pass q n :: rest → q.cls = .display → s.ptu.windows.frame = some w →
    0 < s.prm.stride * s.prm.height →
    ((beatAddr q.req.addr n : Int) - w.base) % (s.prm.stride * s.prm.height : Nat) = 0 →
    let offset := match s.lsq.scroll with
      | none => 48
      | some t0 => if s.prm.scrollMs = 0 then 48 else min 48 (48 * (s.songMs - t0) / s.prm.scrollMs)
    let ends := s.lsq.scroll.isSome = true ∧ offset = 48
    let departs := ends ∧ s.lsq.band.length = s.prm.bandRows + 1
    let band := if departs then s.lsq.band.tail else s.lsq.band
    ∃ (u v : State) (l : LatchRecord), exec (.displayBeat b) s = .next u.flush ∧ u.ctl.statusOwed = true ∧
      u.ovc.latch = some l ∧ l.prm = s.prm ∧ l.songMs = s.songMs ∧ l.state = s.scu.state ∧ l.phase = s.scu.phase ∧
      (l.bannerShown = true ↔ s.scu.state = .finishing ∧ s.scu.phase = some .banner) ∧
      l.text = stripText s.rqu.queue s.scr.activeSingers ∧
      l.entries = band.zipIdx.map (fun ki =>
        let c := s.lsq.slots.get ki.1
        { top := (s.prm.bandY : Int) + ((s.prm.bandRows : Int) - band.length + ki.2) * 48 + (48 - offset)
          drawnEmpty := !c.filled, part := c.part, glyphs := c.glyphs, positions := c.positions
          wiped := if c.filled then max c.wiped (c.boundary s.songMs) else c.wiped }) ∧
      (∀ k : Fin 3, (u.ovc.buffers.get k).state ≠ .free → ∃ y ≤ 2, (u.ovc.buffers.get k).y = some y) ∧
      u.scu.acc = s.scu.acc ∧ u.pending = s.pending ∧
      (s.scu.state = .finishing → s.scu.phase = some .banner → 1 < s.scu.bannerCount →
        u.scu = { s.scu with bannerCount := s.scu.bannerCount - 1 }) ∧
      (s.scu.state = .finishing → s.scu.phase = some .banner → s.scu.bannerCount ≤ 1 →
        u.scu = { s.scu with
          state := .idle, phase := none, current := none, bannerCount := 0, seeked := false, stopped := false
          endPending := false, endTime := none } ∧
        ∀ i : Fin 4, (u.scr.singers.get i).link = none) ∧
      v = { s with lsq := v.lsq, ptu := v.ptu, ovc := { s.ovc with latch := some l } } ∧
      v.lsq = { s.lsq with
        slots := v.lsq.slots, band := band, scroll := if ends then none else s.lsq.scroll } ∧
      (∀ k : Fin 8,
        let c := s.lsq.slots.get k
        (k ∉ s.lsq.band → v.lsq.slots.get k = (if c.state = .leaving then { c with state := .free } else c)) ∧
        (k ∈ band → ¬ (departs ∧ s.lsq.band.head? = some k) → v.lsq.slots.get k =
          (if c.filled then { c with wiped := max c.wiped (c.boundary s.songMs) } else c)) ∧
        (k ∉ band → departs → s.lsq.band.head? = some k →
          v.lsq.slots.get k = { c with state := .free, load := none } ∧ v.ptu = s.ptu.orphanId c.load)) ∧
      (¬ departs → v.ptu = s.ptu) ∧
      (let r := State.compose 2 (State.compose 1 (State.compose 0 v.latchClaims.resetComposition))
       let layered := ∃ j < 4, l.covers 0 j = true
       let gives := fun (t : State) (out : ReadBeat) =>
         u = { t.afterLatch with ptu := t.afterLatch.ptu.returnBeat q n out }
       (¬ layered → gives r b) ∧
       (∀ k, layered → r.ovc.holding 0 (fun st => st == .ready) = some k →
         gives { r with ovc := { r.ovc with
             buffers := if l.lastColumn 0 < 4 then vset r.ovc.buffers k {} else r.ovc.buffers
             decision := some ⟨0, .blend k (r.ovc.buffers.get k).comp⟩ } }
           (if b.status = .okay then { b with data := blendBeat l 0 0 (r.ovc.buffers.get k).pixels b.data } else b)) ∧
       (layered → r.ovc.holding 0 (fun st => st == .ready) = none → ∃ buffers,
         gives { r with
           ovc := { r.ovc with
             buffers := buffers, decision := some ⟨0, .pass⟩, scanLate := r.ovc.scanLate + 1 }
           ctl := r.ctl.raise .scanLate } b ∧
         (∀ k, r.ovc.holding 0 (fun st => st == .composing) = some k →
           buffers.get k = { r.ovc.buffers.get k with discard := true }) ∧
         (∀ k, r.ovc.holding 0 (fun st => st == .composing) ≠ some k → buffers.get k = r.ovc.buffers.get k)))) ∧
  (∀ s : State, s.resetComposition = { s with
      ovc := { s.ovc with buffers := Vector.replicate 3 {}, decision := none }
      ptu := { s.ptu with
        ops := s.ptu.ops.filter (fun o => !o.kind.isRow), ended := s.ptu.ended.filter (fun o => !o.kind.isRow) } } ∧
    (let banner := s.scu.state = .finishing ∧ s.scu.phase = some .banner
     let owed := fun t : State => { t with ctl := { t.ctl with statusOwed := true } }
     (¬ banner → s.afterLatch = owed s) ∧
     (banner → 1 < s.scu.bannerCount → s.afterLatch =
       owed { s with scu := { s.scu with bannerCount := s.scu.bannerCount - 1 } }) ∧
     (banner → s.scu.bannerCount ≤ 1 → s.ptu.lineFull = false → s.afterLatch = owed s.leaveSong.stageTest))) ∧
  (∀ s : State, s.ptu.lineFull = false →
    let free := fun k : Fin 8 => (s.lsq.slots.get k).state = .free
    let unbound := fun c : QueuedCue => c.slot = none ∧ ∃ n, c.cue.kind = .lineIn n
    let waits := fun t : State => t.lsq.endTaken = false ∧
      ∃ c back, t.lsq.queue = c :: back ∧ c.cue.time ≤ t.songMs ∧ c.slot = none ∧ ∃ n, c.cue.kind = .lineIn n
    let t := s.bindFree
    ((∀ k, ¬ free k) ∨ (∀ c ∈ s.lsq.queue, ¬ unbound c) → t = s) ∧
    (∀ k front c back n, free k → (∀ j, j < k → ¬ free j) → s.lsq.queue = front ++ c :: back →
      (∀ x ∈ front, ¬ unbound x) → c.slot = none → c.cue.kind = .lineIn n →
      t = State.bindFree (State.claimSlot k .loading n { s with
        lsq := { s.lsq with queue := front ++ { c with slot := some k } :: back } })) ∧
    (s.scu.state = .seeking → s.latchClaims = t.tryCueFetch.rebuildEnds) ∧
    (s.scu.state ≠ .seeking → waits s → ¬ waits t → s.latchClaims = t.takeCues.tryCueFetch) ∧
    (s.scu.state ≠ .seeking → ¬ waits s ∨ waits t → s.latchClaims = t.tryCueFetch)) ∧
  (∀ (s : State) (k : Fin 8) (st : SlotState) (n : Nat),
    let u := s.claimSlot k st n
    u = { s with lsq := { s.lsq with slots := u.lsq.slots }, ptu := u.ptu } ∧ u.ptu.links = s.ptu.links ∧
    u.lsq.slots.get k = { s.lsq.slots.get k with
      state := st, line := n, late := false, wiped := s.prm.bandX, load := some s.ptu.nextOp, filled := false } ∧
    (∀ j, j ≠ k → u.lsq.slots.get j = s.lsq.slots.get j) ∧
    u.ptu.handed = s.ptu.handed ++ requestsOf .lineLoad s.ptu.nextOp 0 (readsOver (s.lsq.lineBase + 512 * n) 512)) ∧
  (∀ (c : LineSlot) (t : Nat),
    ((∀ k ∈ c.syllables, t < k.start) → c.boundary t = c.pos 0) ∧
    (∀ k before after, c.syllables = before ++ k :: after → k.start ≤ t → (∀ x ∈ after, t < x.start) →
      c.boundary t = if k.start + k.duration ≤ t then c.pos (k.first + k.count)
        else c.pos k.first + (c.pos (k.first + k.count) - c.pos k.first) * (t - k.start) / k.duration))

/-- GLYPH_ROW_FETCH_COMPLETE (R54, R55): a row applied to its composition, one row less outstanding, READY at the
last or FREE under a discard mark; a row of an orphaned composition is dropped. A row applied (R51, R54, R56): each
column that an appearance of the row covers inside its span takes the last such appearance's colour, 17 times its
coverage as alpha, 0 for a failed fetch, unless an appearance later in drawing order stands there already; every other
column stays as it was. -/
def Obligations.GlyphRowsEndAComposition : Prop :=
  (∀ (prm : Setup) (b : StagingBuffer) (glyph row x : Nat) (data : Option (List Beat)),
    let covers := fun a : Appearance => a.glyph = glyph ∧ a.row = row ∧ a.left ≤ x ∧ x < a.left + a.advance ∧
      a.clipFrom ≤ x ∧ x < a.clipTo
    let pixel := fun c : StagingBuffer => c.pixels.find? (fun p => p.x == x)
    let u := b.applyRow prm glyph row data
    u = { b with pixels := u.pixels } ∧ ((∀ a ∈ b.set, ¬ covers a) → pixel u = pixel b) ∧
    (∀ (o : Nat) (a : Appearance), b.set[o]? = some a → covers a →
      (∀ o' a', o < o' → b.set[o']? = some a' → ¬ covers a') →
      ((∃ p ∈ b.pixels, p.x = x ∧ o < p.order) → pixel u = pixel b) ∧
      ((∀ p ∈ b.pixels, p.x = x → p.order ≤ o) → ∃ p, pixel u = some p ∧ p.x = x ∧ p.order = o ∧
        (data = none → p.alpha = 0) ∧
        (∀ bs, data = some bs →
          let j := x - a.left
          p.alpha = 17 * (if j % 2 = 0 then byteAt bs (j / 2) % 16 else byteAt bs (j / 2) / 16)) ∧
        (∀ colour, a.paint = .strip colour → p.colour = colour) ∧
        (∀ part wiped, a.paint = .band part wiped → p.colour = (if x < wiped then (match part with
          | .a => prm.wipeA
          | .b => prm.wipeB
          | .both => prm.wipeBoth) else prm.fill))))) ∧
  (∀ (s : State) (o : ClientOp) (comp glyph row : Nat),
    s.ptu.firstEnded OpKind.isRow = some o →
    o.kind = .row comp glyph row →
    let p := s.ptu.dropEnded o.id
    ((∀ k : Fin 3, (s.ovc.buffers.get k).state = .composing → (s.ovc.buffers.get k).comp ≠ comp) →
      exec .glyphRowFetchComplete s = .next ({ s with ptu := p } : State).flush) ∧
    (∀ (k : Fin 3) (l : LatchRecord), s.ovc.composing comp = some k → s.ovc.latch = some l →
      let b := (s.ovc.buffers.get k).applyRow l.prm glyph row o.data
      ∃ u : State, exec .glyphRowFetchComplete s = .next u.flush ∧
        u = { s with ptu := p, ovc := { s.ovc with buffers := u.ovc.buffers } } ∧
        (∀ j, j ≠ k → u.ovc.buffers.get j = s.ovc.buffers.get j) ∧
        (1 < (s.ovc.buffers.get k).outstanding →
          u.ovc.buffers.get k = { b with outstanding := (s.ovc.buffers.get k).outstanding - 1 }) ∧
        ((s.ovc.buffers.get k).outstanding ≤ 1 → (s.ovc.buffers.get k).discard = false →
          u.ovc.buffers.get k = { b with state := .ready, outstanding := 0 }) ∧
        ((s.ovc.buffers.get k).outstanding ≤ 1 → (s.ovc.buffers.get k).discard = true →
          u.ovc.buffers.get k = {})))

/-- PAGE_WALK_COMPLETE (R55, R64, R65, R69 to R71): the record FREE; a VALID mapping of a FRESH walk cached as the most
recently used and of a STALE one not; the row reads of the waiters handed in order, each at its physical address, but none
for a waiter of an orphaned composition; an invalid or failed walk counted once for each waiter, each waiter's row ended
as a failed one; and last the request at the intake, and those behind it, taken again, as the statement of translations
says it. PAGETABLE_WRITE (R72): the mappings of the entries below the aperture's
end that an enabled byte covers leave the cache, the walks of those pages become STALE, and nothing else changes but the
lane. -/
def Obligations.WalksEndAndTableWritesInvalidate : Prop :=
  (∀ (s : State) (o : ClientOp) (k : Fin 8) (w : Walk), s.ptu.firstEnded (fun x => x == .walk) = some o →
    s.gxt.walkOf o.id = some k → s.gxt.walks.get k = some w → s.ptu.lineFull = false →
    let live := w.waiters.filter (fun q => (s.ovc.composing q.comp).isSome)
    ∃ u : State, exec .pageWalkComplete s = .next u.pump.flush ∧
      (s.gxt.intake = none → s.ovc.waiting = [] → u.pump = u) ∧ u.gxt.walks.get k = none ∧
      (∀ j, j ≠ k → u.gxt.walks.get j = s.gxt.walks.get j) ∧ u.gxt.intake = s.gxt.intake ∧
      u.ovc.waiting = s.ovc.waiting ∧
      (∀ bs page, o.data = some bs → readEntry bs (4 * w.page % 16) = some page →
        u.gxt.glyphFault = s.gxt.glyphFault ∧ u.ovc = s.ovc ∧
        (w.fresh = false → u.gxt.cache = s.gxt.cache) ∧
        (w.fresh = true → s.gxt.cache.length < 16 → u.gxt.cache = s.gxt.cache ++ [⟨w.page, page⟩]) ∧
        (w.fresh = true → 16 ≤ s.gxt.cache.length → u.gxt.cache = s.gxt.cache.tail ++ [⟨w.page, page⟩]) ∧
        u.ptu.handed = s.ptu.handed ++ (live.zipIdx.map (fun qi => requestsOf .glyphRow (s.ptu.nextOp + qi.2) 0
          (readsOver (page * 4096 + qi.1.va % 4096) 32))).flatten ∧
        u.ptu.ops.map (fun x => (x.id, x.kind)) = s.ptu.ops.map (fun x => (x.id, x.kind)) ++
          live.zipIdx.map (fun qi => (s.ptu.nextOp + qi.2, .row qi.1.comp qi.1.glyph qi.1.row))) ∧
      ((o.data = none ∨ ∃ bs, o.data = some bs ∧ readEntry bs (4 * w.page % 16) = none) →
        u.gxt.glyphFault = s.gxt.glyphFault + BitVec.ofNat 32 w.waiters.length ∧ u.gxt.cache = s.gxt.cache ∧
        u.ovc = (w.waiters.foldl (fun t q => State.endRow q.comp q.glyph q.row none t) s).ovc ∧
        u.ptu = s.ptu.dropEnded o.id) ∧
      u.scu = s.scu ∧ u.lsq = s.lsq ∧ u.vin = s.vin ∧ u.pje = s.pje ∧ u.scr = s.scr ∧ u.rqu = s.rqu ∧
      u.ctl = s.ctl ∧ u.pending = s.pending ∧ u.ptu.links = s.ptu.links) ∧
  (∀ (s : State) (t : Tap) (rest : List Tap) (bs : List WriteBeat), s.ptu.taps = t :: rest → t.cls = .pagetable →
    t.req.body = .write bs → (∀ i < bs.length, baseOf s.ptu.windows.pagetable ≤ beatAddr t.req.addr i) →
    let covered := fun page => page < s.prm.aperture / 4096 ∧ ∃ (i k : Nat) (b : WriteBeat) (e : Nat),
      bs[i]? = some b ∧ k < 4 ∧ e < 4 ∧ b.en.getLsbD (4 * k + e) = true ∧
      page = (beatAddr t.req.addr i - baseOf s.ptu.windows.pagetable) / 4 + k
    ∃ u : State, exec .pagetableWrite s = .next u.flush.playTaps ∧
      u = { s with ptu := { s.ptu with taps := rest }, gxt := u.gxt } ∧
      (∀ e, e ∈ u.gxt.cache ↔ e ∈ s.gxt.cache ∧ ¬ covered e.page) ∧
      u.gxt.cache.Sublist s.gxt.cache ∧ u.gxt.intake = s.gxt.intake ∧ u.gxt.glyphFault = s.gxt.glyphFault ∧
      (∀ k : Fin 8, s.gxt.walks.get k = none → u.gxt.walks.get k = none) ∧
      (∀ (k : Fin 8) (w : Walk), s.gxt.walks.get k = some w →
        (covered w.page → u.gxt.walks.get k = some { w with fresh := false }) ∧
        (¬ covered w.page → u.gxt.walks.get k = some w)))

/-- PLAYBACK_BEAT (R3 to R5, R164): with no tap waiting, the accumulator raised by 4 × TEMPO in PLAYING and SEEKING,
saturating at the greatest SONG_MS into FINISHING, entered as the statement of due cues says it and with no offer before
it (the model's reading, log 16), or, in SEEKING, into END pending; left as it is in every other STATE. Behind other taps its tap waits in the lane, and is taken when it heads it (log 17), an arrival of its own that closes
with the rewrites it leaves owed (R157). -/
def Obligations.PlaybackBeatsAdvanceSongTime : Prop :=
  (∀ (b : ReadBeat) (s : State) (q : PassReq) (n : Nat) (rest : List Placed),
    s.ptu.discard = 0 → s.ptu.placed = .pass q n :: rest → q.cls = .playback →
    let raised := s.scu.acc + 4 * s.scu.tempo
    (∀ t taps, s.ptu.taps = t :: taps → t.cls ≠ .playback → exec (.playbackBeat b) s =
      .next ({ s with ptu := { s.ptu.returnBeat q n b with
        taps := s.ptu.taps ++ [⟨.playback, q.req⟩] } } : State).flush) ∧
    (s.ptu.taps = [] → s.scu.state ≠ .playing → s.scu.state ≠ .seeking →
      exec (.playbackBeat b) s = .next ({ s with ptu := s.ptu.returnBeat q n b } : State).flush) ∧
    (s.ptu.taps = [] → s.ptu.lineFull = false → s.scu.state = .playing ∨ s.scu.state = .seeking →
      ∃ u : State, exec (.playbackBeat b) s = .next u.flush ∧ u.ptu.links = (s.ptu.returnBeat q n b).links ∧
        u.ovc = s.ovc ∧ u.gxt = s.gxt ∧ u.pending = s.pending ∧
        u.scu.tempo = s.scu.tempo ∧ u.scu.key = s.scu.key ∧ u.scu.current = s.scu.current ∧
        u.scu.length = s.scu.length ∧
        (raised < 805306368 * 65536 → u.scu.acc = raised ∧
          (s.scu.state = .seeking → u.scu = { s.scu with acc := raised }) ∧
          (raised / 65536 / 48 = s.songMs → u = { s with
            scu := { s.scu with acc := raised }, ptu := s.ptu.returnBeat q n b }) ∧
          (raised / 65536 / 48 ≠ s.songMs → u = State.offer { s with
            scu := { s.scu with acc := raised }, ptu := s.ptu.returnBeat q n b })) ∧
        (805306368 * 65536 ≤ raised → u.scu.acc = 805306367 * 65536 ∧ u.songMs = 16777215 ∧
          (s.scu.state = .seeking → u.scu = { s.scu with acc := 805306367 * 65536, endPending := true }) ∧
          (s.scu.state = .seeking → u = { s with scu := u.scu, ptu := s.ptu.returnBeat q n b }) ∧
          (s.scu.state = .playing → u = State.enterFinishing 16777215 { s with
            scu := { s.scu with acc := 805306367 * 65536 }, ptu := s.ptu.returnBeat q n b }) ∧
          (s.scu.state = .playing → u.scu.state = .finishing ∧ u.scu.endTime = some 16777215 ∧
            u.pje.endTime = some 16777215 ∧ u.scu.stopped = s.scu.stopped)))) ∧
  (∀ (s : State) (t : Tap) (rest : List Tap), s.ptu.taps = t :: rest →
    (t.cls ≠ .playback → s.playTaps = s) ∧
    (t.cls = .playback → s.ptu.lineFull = false →
      s.playTaps = (State.playbackTap { s with ptu := { s.ptu with taps := rest } }).flush.playTaps))

/-- An offer of SONG_MS (R4, R26, R28 to R33, R39): to the Lyric Sequencer, the engine and the queue, or in SEEKING to the
queue alone. The sequencer admits its held cue, takes due cues from the head in list order, and tests its next fetch;
taking stops at an empty queue, a head that is not due, a LINE_IN without a slot, and once END is taken. And each
kind's effect: MARK recorded and raised; END handed on in PLAYING only; BAND_CLEAR's slots LEAVING and the scroll
ended; LINE_IN at the bottom of the band under a new scroll, a running one snapped first, late when its load is not in.
A held LINE_IN claims the lowest FREE slot as it is admitted, or stands unbound (R31). And the entry into FINISHING (R17,
R89, R108, R112): the END time handed on, both drain reports opened anew; the staging test; each report that is due made;
and a judgement that waits tried again, as the statements of staging, the write-out and judgements say it. That an offer
reaches the three places in this order is the model's choice (log 10): R4 names them, and gives none; so is the order of
the entry's parts, which is that in which R17 and R18 name them. The judgement's retry there is the model's reading
(log 19). -/
def Obligations.DueCuesAreTaken : Prop :=
  (∀ s : State, (s.scu.state = .seeking → s.offer = s.stageTest) ∧
    (s.scu.state ≠ .seeking → s.offer = s.offerLsq.offerPje.stageTest) ∧
    s.offerLsq = s.retryHeldCue.takeCues.tryCueFetch) ∧
  (∀ (s : State) (c : Cue), s.lsq.held = some c →
    (s.songMs + s.prm.lookaheadMs < c.time ∨ 8 ≤ s.lsq.queue.length → s.retryHeldCue = s) ∧
    (c.time ≤ s.songMs + s.prm.lookaheadMs → s.lsq.queue.length < 8 → s.retryHeldCue.lsq.held = none ∧
      s.retryHeldCue.lsq.queue.map QueuedCue.cue = s.lsq.queue.map QueuedCue.cue ++ [c]) ∧
    (c.time ≤ s.songMs + s.prm.lookaheadMs → s.lsq.queue.length < 8 →
      let joined := fun slot : Option (Fin 8) => { s with lsq := { s.lsq with
        held := none, queue := s.lsq.queue ++ [⟨c, slot⟩], pred := some c.time
        badCue := match s.lsq.pred with
          | none => s.lsq.badCue
          | some p => if c.time < p then s.lsq.badCue + 1 else s.lsq.badCue } }
      let free := fun k : Fin 8 => (s.lsq.slots.get k).state = .free
      s.retryHeldCue = (joined none).bindFree ∧
      ((∀ k, ¬ free k) ∨ ((∀ n, c.kind ≠ .lineIn n) ∧ ∀ x ∈ s.lsq.queue, ∀ n, x.cue.kind = .lineIn n → x.slot ≠ none) →
        s.retryHeldCue = joined none) ∧
      (∀ k n, free k → (∀ j, j < k → ¬ free j) → c.kind = .lineIn n →
        (∀ x ∈ s.lsq.queue, ∀ m, x.cue.kind = .lineIn m → x.slot ≠ none) →
        s.retryHeldCue = State.claimSlot k .loading n (joined (some k))))) ∧
  (∀ s : State, s.lsq.held = none → s.retryHeldCue = s) ∧
  (∀ (t : Nat) (s : State), s.enterFinishing t = State.retryJudgement (State.pjeDrain (State.vinDrain (State.stageTest
    { s with
      scu := { s.scu with state := .finishing, phase := some .drain, endTime := some t }
      vin := { s.vin with drainReported := false }
      pje := { s.pje with drainReported := false, endTime := some t } })))) ∧
  (∀ s : State,
    (s.lsq.queue = [] ∨ s.lsq.endTaken = true → s.takeCues = s) ∧
    (∀ c rest, s.lsq.queue = c :: rest →
      let waits := c.slot = none ∧ ∃ n, c.cue.kind = .lineIn n
      (s.songMs < c.cue.time ∨ waits → s.takeCues = s) ∧
      (s.lsq.endTaken = false → c.cue.time ≤ s.songMs → ¬ waits → s.lsq.queue.length ≤ 8 →
        s.takeCues = (State.takeCue c s.songMs { s with
          lsq := { s.lsq with queue := rest } }).retryHeldCue.tryCueFetch.takeCues))) ∧
  (∀ (s : State) (c : QueuedCue) (t : Nat),
    let u := s.takeCue c t
    (∀ n, c.cue.kind = .mark n → u = { s with ctl := u.ctl } ∧ u.ctl.lastMark = some n ∧
      (s.ctl.enables.getLsbD 4 = true → u.ctl.flags.getLsbD 4 = true)) ∧
    (c.cue.kind = .songEnd → u.lsq = { s.lsq with endTaken := true } ∧
      (s.scu.state ≠ .playing → u = { s with lsq := u.lsq }) ∧
      (s.scu.state = .playing → u = State.enterFinishing t { s with lsq := { s.lsq with endTaken := true } }) ∧
      (s.scu.state = .playing → u.scu.state = .finishing ∧ u.scu.endTime = some t ∧ u.pje.endTime = some t ∧
        u.scu.stopped = s.scu.stopped)) ∧
    (c.cue.kind = .bandClear → u = { s with lsq := u.lsq, ptu := u.ptu } ∧ u.lsq.band = [] ∧
      u.lsq.scroll = (if s.lsq.band = [] then s.lsq.scroll else none) ∧ u.lsq.queue = s.lsq.queue ∧
      (∀ k, k ∈ s.lsq.band → u.lsq.slots.get k = { s.lsq.slots.get k with state := .leaving, load := none }) ∧
      (∀ k, k ∉ s.lsq.band → u.lsq.slots.get k = s.lsq.slots.get k)) ∧
    (∀ n k, c.cue.kind = .lineIn n → c.slot = some k → k ∉ s.lsq.band → (s.lsq.slots.get k).state ≠ .free →
      1 ≤ s.prm.bandRows →
      let snaps := s.lsq.scroll.isSome = true ∧ s.lsq.band.length = s.prm.bandRows + 1
      let band := if snaps then s.lsq.band.tail else s.lsq.band
      let old := s.lsq.slots.get k
      u = { s with lsq := u.lsq, ptu := u.ptu, ctl := u.ctl } ∧
      u.lsq.band = band ++ [k] ∧ u.lsq.scroll = some t ∧
      u.lsq.queue.map QueuedCue.cue = s.lsq.queue.map QueuedCue.cue ∧
      u.lsq.slots.get k = { old with state := .shown, late := old.late || !old.filled } ∧
      u.lsq.lineLate = s.lsq.lineLate + (if old.filled then 0 else 1) ∧
      (old.filled = true → u.ctl = s.ctl) ∧ (old.filled = false → u.ctl = s.ctl.raise .lineLate) ∧
      (∀ top rest, band = top :: rest → band.length = s.prm.bandRows →
        (u.lsq.slots.get top).state = .leaving ∧ (u.lsq.slots.get top).load = none) ∧
      (∀ top, ¬ snaps → s.lsq.band.head? = some top → s.lsq.band.length ≠ s.prm.bandRows →
        u.lsq.slots.get top = s.lsq.slots.get top)))

/-- HEADER_READ_COMPLETE (R11 to R13, R22, R105, R121, R137, R145): with a good header the STAGED ticket becomes the
current ticket by its departure from the queue, the song is primed at SONG_MS 0, its first fetches are handed and the
START answers OK; it answers STALE when the ticket is no longer STAGED and BAD_ASSET for an unreadable or bad header, in
IDLE with nothing else of the song changed. That a list of no records with an offset beyond the bank is bad is the
model's reading of R11 (log 11); that the departure's drain comes before the history entry, so that drained requests are
checked against the older history, and the result after both, is the model's choice (log 10). -/
def Obligations.HeaderReadEndsTheStart : Prop :=
  (∀ (s : State) (o : ClientOp) (t : Ticket) (bank : Fin 2) (w : Window) (bs : List Beat) (c : InProgress),
     s.ptu.firstEnded (fun k => k == .header) = some o → o.data = some bs → s.ptu.lineFull = false →
     s.scu.startTicket = some t.number → s.scu.startBank = some bank → s.ptu.windows.asset = some w →
     s.rqu.stagedTicket = some t → s.ctl.inProgress = some c → s.pje.block = none →
     let h := readHeader bs
     let base := w.base + bank.val * (w.size / 2)
     let v := State.depart t false { s with ptu := s.ptu.dropEnded o.id, scu := { s.scu with current := some t } }
     h.song = t.song → h.length ≤ 16777215 → h.cueCount ≤ 1024 → h.lineCount ≤ 512 → h.noteCount ≤ 4096 →
     h.cueOffset + 8 * h.cueCount ≤ w.size / 2 → h.lineOffset + 512 * h.lineCount ≤ w.size / 2 →
     h.noteOffset + 8 * h.noteCount ≤ w.size / 2 →
     ∃ u : State, exec .headerReadComplete s = .next (u.result c.code c.tag .ok []).flush ∧
       u.scu = { s.scu with
         state := .playing, current := some t, startTicket := none, startBank := none, bank := bank
         length := h.length, acc := 0, tempo := 65536, key := t.key, seeked := false, stopped := false
         endPending := false, endTime := none } ∧ u.songMs = 0 ∧
       u.lsq.cueBase = base + h.cueOffset ∧ u.lsq.cueCount = h.cueCount ∧ u.lsq.lineBase = base + h.lineOffset ∧
       u.lsq.lineCount = h.lineCount ∧ u.lsq.cursor = 0 ∧ u.lsq.band = [] ∧ u.lsq.queue = [] ∧
       u.lsq.fetch.isSome = decide (0 < h.cueCount) ∧
       u.pje.noteBase = base + h.noteOffset ∧ u.pje.noteCount = h.noteCount ∧ u.pje.cursor = 0 ∧
       u.pje.winA = [] ∧ u.pje.winB = [] ∧ u.pje.fetch.isSome = decide (0 < h.noteCount) ∧
       (∀ i : Fin 4, u.scr.singers.get i = (if (s.scr.singers.get i).active then
         { s.scr.singers.get i with totals := {}, link := some t.number } else s.scr.singers.get i)) ∧
       u.scr.cadenceCount = 0 ∧ u.scr.cadence = s.scr.cadence ∧
       (u.rqu.queue.map Ticket.number).Perm (v.rqu.queue.map Ticket.number) ∧
       (∀ j : Fin 16, (u.rqu.handsets.get j).slot = (v.rqu.handsets.get j).slot) ∧
       u.rqu.lastDrained = v.rqu.lastDrained ∧ u.rqu.lastNumber = v.rqu.lastNumber ∧
       u.rqu.history = ⟨t.song, t.number, t.source⟩ :: s.rqu.history.take 7 ∧ u.rqu.imageOwed = true ∧
       (s.rqu.queue.length < 32 → (u.rqu.queue.map Ticket.number).Perm
         ((s.rqu.queue.map Ticket.number).filter (fun m => m != t.number))) ∧
       u.ctl.inProgress = none ∧ u.ctl.resultCount = s.ctl.resultCount ∧ u.vin = s.vin ∧ u.ovc = s.ovc ∧
       u.gxt = s.gxt ∧ u.pending = s.pending ∧ u.ptu.links = s.ptu.links) ∧
  (∀ (s : State) (o : ClientOp) (n : Nat) (bank : Fin 2) (w : Window) (c : InProgress),
     s.ptu.firstEnded (fun k => k == .header) = some o → s.scu.startTicket = some n → s.scu.startBank = some bank →
     s.ptu.windows.asset = some w → s.ctl.inProgress = some c → s.ptu.lineFull = false →
     let gone := ∀ t, s.rqu.stagedTicket = some t → t.number ≠ n
     let bad := ∀ t, s.rqu.stagedTicket = some t → ∀ bs, o.data = some bs →
       (readHeader bs).song ≠ t.song ∨ 16777215 < (readHeader bs).length ∨ 1024 < (readHeader bs).cueCount ∨
         512 < (readHeader bs).lineCount ∨ 4096 < (readHeader bs).noteCount ∨
         w.size / 2 < (readHeader bs).cueOffset + 8 * (readHeader bs).cueCount ∨
         w.size / 2 < (readHeader bs).lineOffset + 512 * (readHeader bs).lineCount ∨
         w.size / 2 < (readHeader bs).noteOffset + 8 * (readHeader bs).noteCount
     let ended := fun (u : State) =>
       u.scu = { s.scu with state := .idle, startTicket := none, startBank := none } ∧ u.ctl.inProgress = none ∧
         u.lsq = s.lsq ∧ u.pje = s.pje ∧ u.vin = s.vin ∧ u.scr = s.scr ∧ u.ovc = s.ovc ∧ u.gxt = s.gxt ∧
         u.pending = s.pending ∧ u.ptu.links = s.ptu.links
     (gone → ∃ u : State, exec .headerReadComplete s = .next (u.result c.code c.tag .stale []).flush ∧ ended u ∧
       (s.rqu.stagedTicket = none → s.rqu.queue ≠ [] → ∃ t, u.rqu.queue.head? = some t ∧ t.cls = .staged)) ∧
     (¬ gone → bad → ∃ u : State, exec .headerReadComplete s = .next (u.result c.code c.tag .badAsset []).flush ∧
       ended u ∧ u.rqu = s.rqu))

/-- CUE_FETCH_COMPLETE outside a rescan (R24 to R27, R41): a failed or rejected cue passed over, a rejected one counted;
a cue within the look-ahead queued while the queue has room, one out of order counted; any other cue held; and the next
fetch issued in PLAYING and SEEKING while its conditions hold. A LINE_IN that joins the queue claims the lowest FREE slot,
which begins to load its line, or stands unbound when no slot is FREE (R31); no other outcome touches a slot. In SEEKING
the tests for the rebuilds' ends follow. -/
def Obligations.FetchedCuesAreQueuedOrHeld : Prop :=
  (∀ s : State,
    let issues := s.lsq.fetch = none ∧ s.lsq.held = none ∧ s.lsq.cursor < s.lsq.cueCount ∧ s.lsq.queue.length < 8 ∧
      s.lsq.endTaken = false ∧ (∀ c ∈ s.lsq.queue, ∀ n, c.cue.kind = .lineIn n → c.slot ≠ none) ∧
      (s.scu.state = .playing ∨ s.scu.state = .seeking)
    let u := s.tryCueFetch
    (¬ issues → u = s) ∧
    (issues → u = { s with lsq := { s.lsq with fetch := some s.ptu.nextOp }, ptu := u.ptu } ∧
      u.ptu.links = s.ptu.links ∧ u.ptu.handed = s.ptu.handed ++ requestsOf .cueFetch s.ptu.nextOp 0
        (readsOver (s.lsq.cueBase + 8 * s.lsq.cursor) 8) ∧
      u.ptu.ops.map (fun x => (x.id, x.kind)) = s.ptu.ops.map (fun x => (x.id, x.kind)) ++ [(s.ptu.nextOp, .cue)])) ∧
  (∀ (s : State) (o : ClientOp), s.ptu.firstEnded (fun k => k == .cue) = some o →
    (∀ r, s.lsq.rebuild = some r → r.scanning = false) → s.ptu.lineFull = false →
    let off := (s.lsq.cueBase + 8 * s.lsq.cursor) % 16
    ∃ u : State, exec .cueFetchComplete s = .next u.rebuildEnds.flush ∧
      (s.scu.state ≠ .seeking → s.lsq.rebuild = none → s.pje.rebuild = false → u.rebuildEnds = u) ∧
      u.lsq.cursor = s.lsq.cursor + 1 ∧
      u.scu = s.scu ∧ u.ovc = s.ovc ∧ u.gxt = s.gxt ∧ u.vin = s.vin ∧ u.pje = s.pje ∧ u.scr = s.scr ∧
      u.rqu = s.rqu ∧ u.ctl = s.ctl ∧ u.pending = s.pending ∧ u.ptu.links = s.ptu.links ∧
      u.lsq.band = s.lsq.band ∧ u.lsq.scroll = s.lsq.scroll ∧ u.lsq.rebuild = s.lsq.rebuild ∧
      (u.lsq.fetch.isSome = true ↔ u.lsq.cursor < u.lsq.cueCount ∧ u.lsq.held = none ∧ u.lsq.queue.length < 8 ∧
        u.lsq.endTaken = false ∧ (∀ c ∈ u.lsq.queue, ∀ n, c.cue.kind = .lineIn n → c.slot ≠ none) ∧
        (s.scu.state = .playing ∨ s.scu.state = .seeking)) ∧
      (o.data = none → u.lsq.queue = s.lsq.queue ∧ u.lsq.held = s.lsq.held ∧ u.lsq.badCue = s.lsq.badCue) ∧
      (∀ bs, o.data = some bs → readCue bs off s.lsq.lineCount = none →
        u.lsq.queue = s.lsq.queue ∧ u.lsq.held = s.lsq.held ∧ u.lsq.badCue = s.lsq.badCue + 1) ∧
      (∀ bs c, o.data = some bs → readCue bs off s.lsq.lineCount = some c →
        (c.time ≤ s.songMs + s.prm.lookaheadMs → s.lsq.queue.length < 8 →
          u.lsq.queue.map QueuedCue.cue = s.lsq.queue.map QueuedCue.cue ++ [c] ∧ u.lsq.held = s.lsq.held ∧
          u.lsq.pred = some c.time ∧
          (∀ p, s.lsq.pred = some p → c.time < p → u.lsq.badCue = s.lsq.badCue + 1) ∧
          ((∀ p, s.lsq.pred = some p → p ≤ c.time) → u.lsq.badCue = s.lsq.badCue)) ∧
        (s.songMs + s.prm.lookaheadMs < c.time ∨ 8 ≤ s.lsq.queue.length →
          u.lsq.queue = s.lsq.queue ∧ u.lsq.held = some c ∧ u.lsq.badCue = s.lsq.badCue)) ∧
      (let v : State := { s with
        ptu := s.ptu.dropEnded o.id, lsq := { s.lsq with cursor := s.lsq.cursor + 1, fetch := none } }
       let unbound := fun x : QueuedCue => x.slot = none ∧ ∃ n, x.cue.kind = .lineIn n
       let free := fun k : Fin 8 => (s.lsq.slots.get k).state = .free
       (o.data = none → u = v.tryCueFetch) ∧
       (∀ bs, o.data = some bs → readCue bs off s.lsq.lineCount = none →
         u = State.tryCueFetch { v with lsq := { v.lsq with badCue := s.lsq.badCue + 1 } }) ∧
       (∀ bs c, o.data = some bs → readCue bs off s.lsq.lineCount = some c →
         (s.songMs + s.prm.lookaheadMs < c.time ∨ 8 ≤ s.lsq.queue.length →
           u = State.tryCueFetch { v with lsq := { v.lsq with held := some c } }) ∧
         (c.time ≤ s.songMs + s.prm.lookaheadMs → s.lsq.queue.length < 8 →
           let joined := fun slot : Option (Fin 8) => { v with lsq := { v.lsq with
             queue := s.lsq.queue ++ [⟨c, slot⟩], pred := some c.time, badCue := u.lsq.badCue } }
           u = (joined none).bindFree.tryCueFetch ∧
           ((∀ k, ¬ free k) ∨ ((∀ n, c.kind ≠ .lineIn n) ∧ ∀ x ∈ s.lsq.queue, ¬ unbound x) →
             u = (joined none).tryCueFetch ∧ u.lsq.queue = s.lsq.queue ++ [⟨c, none⟩] ∧ u.lsq.slots = s.lsq.slots) ∧
           (∀ k n, free k → (∀ j, j < k → ¬ free j) → c.kind = .lineIn n → (∀ x ∈ s.lsq.queue, ¬ unbound x) →
             u = (State.claimSlot k .loading n (joined (some k))).tryCueFetch ∧
             u.lsq.queue = s.lsq.queue ++ [⟨c, some k⟩] ∧
             u.lsq.slots.get k = { s.lsq.slots.get k with
               state := .loading, line := n, late := false, wiped := s.prm.bandX, load := some s.ptu.nextOp
               filled := false } ∧
             (∀ j, j ≠ k → u.lsq.slots.get j = s.lsq.slots.get j) ∧
             ∃ fetch, u.ptu.handed = s.ptu.handed ++ requestsOf .lineLoad s.ptu.nextOp 0
               (readsOver (s.lsq.lineBase + 512 * n) 512) ++ fetch)))))

/-- LINE_LOAD_COMPLETE (R32, R34, R35): the slot filled with the record, its glyphs placed from the left edge and its
wipe at it; a failed load leaves it empty and late, LINE_LATE raised, counted once. In SEEKING the tests for the
rebuilds' ends follow. -/
def Obligations.LineLoadsFillTheirSlot : Prop :=
  ∀ (s : State) (o : ClientOp) (k : Fin 8), s.ptu.firstEnded (fun x => x == .line) = some o →
    s.lsq.slotLoading o.id = some k → s.ptu.lineFull = false →
    let c := s.lsq.slots.get k
    ∃ u : State, exec .lineLoadComplete s = .next u.rebuildEnds.flush ∧
      (s.scu.state ≠ .seeking → s.lsq.rebuild = none → s.pje.rebuild = false → u.rebuildEnds = u) ∧
      u = { s with lsq := u.lsq, ctl := u.ctl, ptu := s.ptu.dropEnded o.id } ∧
      (∀ j, j ≠ k → u.lsq.slots.get j = s.lsq.slots.get j) ∧ u.lsq.queue = s.lsq.queue ∧ u.lsq.band = s.lsq.band ∧
      u.lsq.rebuild = s.lsq.rebuild ∧ u.lsq.fetch = s.lsq.fetch ∧ u.lsq.scroll = s.lsq.scroll ∧
      (u.lsq.slots.get k).load = none ∧ (u.lsq.slots.get k).filled = true ∧
      (u.lsq.slots.get k).line = c.line ∧ (c.state = .loading → (u.lsq.slots.get k).state = .loaded) ∧
      (c.state ≠ .loading → (u.lsq.slots.get k).state = c.state) ∧
      (∀ bs, o.data = some bs →
        let r := readLine bs ((s.lsq.lineBase + 512 * c.line) % 16)
        let width := (r.glyphs.map Glyph.advance).sum
        let x := if r.align = .centre ∧ width ≤ s.prm.bandW then s.prm.bandX + (s.prm.bandW - width) / 2
          else s.prm.bandX
        let v := u.lsq.slots.get k
        v.part = r.part ∧ v.align = r.align ∧ v.glyphs = r.glyphs ∧ v.syllables = r.syllables ∧ v.wiped = x ∧
          v.late = c.late ∧ v.positions.length = r.glyphs.length + 1 ∧
          (∀ i ≤ r.glyphs.length, v.pos i = x + ((r.glyphs.take i).map Glyph.advance).sum) ∧
          u.ctl = s.ctl ∧ u.lsq.lineLate = s.lsq.lineLate) ∧
      (o.data = none → (u.lsq.slots.get k).late = true ∧ (u.lsq.slots.get k).glyphs = [] ∧
        (u.lsq.slots.get k).syllables = [] ∧ u.ctl = s.ctl.raise .lineLate ∧
        u.lsq.lineLate = s.lsq.lineLate + (if c.late then 0 else 1))

/-- NOTE_FETCH_COMPLETE in every STATE (R102 to R104, R106 to R108): in the rebuild the leaving bound is applied first and
a note at or below it passed over; a failed fetch passed over; a note within the look-ahead admitted to the window of its
part, or to both, when each has room; any other note held; and the next fetch issued while notes are read, in PLAYING,
the rebuild and DRAIN. Then a judgement that waits is tried again, and nothing changes when none waits; and the tests for
the rebuilds' ends follow. -/
def Obligations.FetchedNotesEnterTheWindows : Prop :=
  ∀ (s : State) (o : ClientOp), s.ptu.firstEnded (fun k => k == .note) = some o → s.ptu.lineFull = false →
    let off := (s.pje.noteBase + 8 * s.pje.cursor) % 16
    let stays := fun (n : Note) => s.pje.rebuild = false ∨ s.songMs < n.start + n.duration + s.pje.prm.latencyMs + 1000
    let read := s.scu.state = .playing ∨ (s.scu.state = .seeking ∧ s.pje.rebuild = true) ∨
      (s.scu.state = .finishing ∧ s.scu.phase = some .drain)
    ∃ u : State, exec .noteFetchComplete s = .next (u.retryJudgement.rebuildEnds).flush ∧
      ((∀ b, s.pje.block = some b → b.phase = .measuring) → u.retryJudgement = u) ∧
      (∀ b period, s.pje.block = some b → b.phase = .judging period → u.retryJudgement = u.judge b period) ∧
      (∀ v : State, v.scu.state ≠ .seeking → v.lsq.rebuild = none → v.pje.rebuild = false → v.rebuildEnds = v) ∧
      u.pje.cursor = s.pje.cursor + 1 ∧
      u.scu = s.scu ∧ u.lsq = s.lsq ∧ u.ovc = s.ovc ∧ u.gxt = s.gxt ∧ u.vin = s.vin ∧ u.scr = s.scr ∧
      u.rqu = s.rqu ∧ u.ctl = s.ctl ∧ u.pending = s.pending ∧ u.ptu.links = s.ptu.links ∧
      u.pje.block = s.pje.block ∧ u.pje.noteLate = s.pje.noteLate ∧ u.pje.rebuild = s.pje.rebuild ∧
      u.pje.prm = s.pje.prm ∧ u.pje.endTime = s.pje.endTime ∧ u.pje.drainReported = s.pje.drainReported ∧
      (u.pje.fetch.isSome = true ↔ u.pje.cursor < u.pje.noteCount ∧ u.pje.held = none ∧ read) ∧
      (o.data = none → u.pje.winA = s.pje.winA ∧ u.pje.winB = s.pje.winB ∧ u.pje.front = s.pje.front ∧
        u.pje.held = s.pje.held) ∧
      (∀ bs, o.data = some bs →
        let n := readNote bs off
        ∃ winA winB : List Note,
          winA.Sublist s.pje.winA ∧ (∀ m, m ∈ winA ↔ m ∈ s.pje.winA ∧ stays m) ∧
          winB.Sublist s.pje.winB ∧ (∀ m, m ∈ winB ↔ m ∈ s.pje.winB ∧ stays m) ∧
          (s.pje.rebuild = false → winA = s.pje.winA ∧ winB = s.pje.winB) ∧
          (let roomA := n.part = .b ∨ winA.length < 4
           let roomB := n.part = .a ∨ winB.length < 4
           u.pje.front = some n.start ∧
           (¬ stays n → u.pje.held = s.pje.held ∧ u.pje.winA = winA ∧ u.pje.winB = winB) ∧
           (stays n → n.start ≤ s.songMs + s.prm.lookaheadMs → roomA → roomB → u.pje.held = s.pje.held ∧
             u.pje.winA = (if n.part = .b then winA else winA ++ [n]) ∧
             u.pje.winB = (if n.part = .a then winB else winB ++ [n])) ∧
           (stays n → s.songMs + s.prm.lookaheadMs < n.start ∨ ¬ roomA ∨ ¬ roomB →
             u.pje.held = some n ∧ u.pje.winA = winA ∧ u.pje.winB = winB)))

/-- The SEEK rebuilds (R16, R40, R41, R106). A cue of the rescan: beyond the target, or an END at or before it, it
stops the rescan where it stands; any other moves the cursor on, a LINE_IN joining the candidates (the oldest of
BAND_ROWS + 1 dropped), a BAND_CLEAR emptying them; the end of the list stops it too. Once it stops, each candidate claims
the next FREE slot, SHOWN, its load begun. The sequencer's rebuild ends when no band load is in flight and the cursor
stands, the engine's when no fetch is in flight and the next is stopped; when both have ended SEEKING ends with OK: in
PLAYING under an offer, or with END pending in FINISHING at the greatest SONG_MS, where the engine still takes the offer
held for it (log 25). That the offer reaches the sequencer, the engine and the queue in this order is the model's choice
(log 10). That a rejected or unreadable cue at or before the target is passed over, and that one beyond it
stops the rescan, is the model's reading of R40 (log 13). -/
def Obligations.SeekRebuildsAndEnds : Prop :=
  (∀ (s : State) (o : ClientOp) (r : Rescan), s.ptu.firstEnded (fun k => k == .cue) = some o →
    s.lsq.rebuild = some r → r.scanning = true → s.ptu.lineFull = false →
    let off := (s.lsq.cueBase + 8 * s.lsq.cursor) % 16
    let v : State := { s with ptu := s.ptu.dropEnded o.id, lsq := { s.lsq with fetch := none } }
    let stops := fun (v : State) => exec .cueFetchComplete s = .next (State.stopRescan r v).tryCueFetch.rebuildEnds.flush
    let goesOn := fun (cs : List Nat) =>
      let r' : Rescan := { r with candidates := cs }
      let v' : State := { v with lsq := { v.lsq with cursor := s.lsq.cursor + 1, rebuild := some r' } }
      exec .cueFetchComplete s = .next
        (if s.lsq.cueCount ≤ s.lsq.cursor + 1 then v'.stopRescan r' else v').tryCueFetch.rebuildEnds.flush
    (o.data = none → goesOn r.candidates) ∧
    (∀ bs, o.data = some bs →
      (r.target < fieldAt bs off 3 → stops v) ∧
      (fieldAt bs off 3 ≤ r.target →
        (readCue bs off s.lsq.lineCount = none → goesOn r.candidates) ∧
        (∀ c, readCue bs off s.lsq.lineCount = some c →
          (c.kind = .songEnd → stops v) ∧ (c.kind = .bandClear → goesOn []) ∧
          (∀ m, c.kind = .mark m → goesOn r.candidates) ∧
          (∀ n, c.kind = .lineIn n →
            (r.candidates.length ≠ s.prm.bandRows → goesOn (r.candidates ++ [n])) ∧
            (r.candidates.length = s.prm.bandRows → goesOn ((r.candidates ++ [n]).tail))))))) ∧
  (∀ (s : State) (r : Rescan), s.lsq.slots = Vector.replicate 8 {} → s.lsq.band = [] → r.candidates.length ≤ 8 →
    let u := s.stopRescan r
    u.lsq.rebuild = some { r with scanning := false } ∧
    u.lsq.band = (List.finRange 8).take r.candidates.length ∧
    (∀ (k : Fin 8) n, r.candidates[k.val]? = some n → u.lsq.slots.get k = {
      state := .shown, line := n, late := false, wiped := s.prm.bandX, load := some (s.ptu.nextOp + k.val) }) ∧
    (∀ k : Fin 8, r.candidates.length ≤ k.val → u.lsq.slots.get k = {}) ∧
    u.ptu.handed = s.ptu.handed ++ (r.candidates.zipIdx.map (fun ni => requestsOf .lineLoad (s.ptu.nextOp + ni.2) 0
      (readsOver (s.lsq.lineBase + 512 * ni.1) 512))).flatten ∧
    u.lsq.queue = s.lsq.queue ∧ u.lsq.cursor = s.lsq.cursor ∧ u.lsq.scroll = s.lsq.scroll ∧
    u = { s with lsq := u.lsq, ptu := u.ptu }) ∧
  (∀ s : State, s.rebuildEnds = s.lsqRebuildEnd.pjeRebuildEnd.leaveSeeking ∧
    (let ended := ∃ r, s.lsq.rebuild = some r ∧ r.scanning = false ∧ s.lsq.fetch = none ∧
       (s.lsq.held ≠ none ∨ 8 ≤ s.lsq.queue.length ∨
         (∃ c ∈ s.lsq.queue, c.slot = none ∧ ∃ n, c.cue.kind = .lineIn n) ∨ s.lsq.cueCount ≤ s.lsq.cursor) ∧
       ∀ k ∈ s.lsq.band, (s.lsq.slots.get k).load = none
     (ended → s.lsqRebuildEnd = { s with lsq := { s.lsq with rebuild := none } }) ∧ (¬ ended → s.lsqRebuildEnd = s)) ∧
    (let ended := s.pje.rebuild = true ∧ s.pje.fetch = none ∧ (s.pje.held ≠ none ∨ s.pje.noteCount ≤ s.pje.cursor)
     (ended → s.pjeRebuildEnd = { s with pje := { s.pje with rebuild := false } }) ∧ (¬ ended → s.pjeRebuildEnd = s))) ∧
  (∀ s : State,
    (s.scu.state ≠ .seeking ∨ s.lsq.rebuild ≠ none ∨ s.pje.rebuild = true → s.leaveSeeking = s) ∧
    (∀ c, s.scu.state = .seeking → s.lsq.rebuild = none → s.pje.rebuild = false → s.ctl.inProgress = some c →
      let v := State.result c.code c.tag .ok [] { s with ctl := { s.ctl with inProgress := none } }
      (s.scu.endPending = false → s.leaveSeeking =
        ((State.offerLsq { v with scu := { s.scu with state := .playing } }).offerPje).stageTest) ∧
      (s.scu.endPending = true → s.leaveSeeking =
        (State.enterFinishing 16777215 { v with scu := { s.scu with endPending := false } }).offerPje)))

/-- MEASUREMENT_END and the judging of a block (R86, R87, R94 to R96, R108, R110, R112, R117, R118, R120; Table 6-3): the
block being measured is judged by its period, and so is, by the period it kept, a block whose judgement waits and is tried
again. A block of another ticket, before the latency, at or past the END time in FINISHING, without a singer, over a rest
or late is not judged; one whose note is not yet known waits; over a note the taken deviation of the least of the three
candidates sets its band and points, and the cadence counts the judgement, with SCORE_TICK at SCORE_CADENCE; a judgement
for a singer linked to no such ticket, outside the song or past DRAIN, or that would carry POSSIBLE past its limit is
discarded. The analysis then ends: its half released, to fill at once under HOLD, which ends, and FREE otherwise; the
engine's drain report made in DRAIN when the queue is empty (R112), and otherwise the next block taken, with the Voice
Intake's report when that take leaves the queue empty in DRAIN (R89); the second report lets the write-out begin. That the
release and the next take are one step is the model's reading (log 20); that a MEASUREMENT_END of a block already judging,
whose measurement has ended before, changes nothing is the model's choice (log 3). -/
def Obligations.MeasuredBlocksAreJudged : Prop :=
  (∀ (v : Vin) (ch : Fin 4) (k : Fin 2),
    let c := v.channels.get ch
    let u := v.release ch k
    u = { v with channels := u.channels } ∧ (∀ j, j ≠ ch → u.channels.get j = v.channels.get j) ∧
    (c.hold = true →
      u.channels.get ch = { c with hold := false, halves := vset c.halves k { state := .filling, samples := [] } }) ∧
    (c.hold = false →
      u.channels.get ch = { c with halves := vset c.halves k { state := .free, samples := [] } })) ∧
  (∀ (s : State) (e : BlockEntry),
    let v : State := { s with pje := { s.pje with block := none }, vin := s.vin.release e.channel e.half }
    let drains := s.scu.state = .finishing ∧ s.scu.phase = some .drain
    (s.vin.queue = [] →
      (drains → s.pje.drainReported = false →
        s.endAnalysis e = State.drainCheck { v with pje := { v.pje with drainReported := true } }) ∧
      (¬ drains ∨ s.pje.drainReported = true → s.endAnalysis e = v)) ∧
    (∀ e' rest, s.vin.queue = e' :: rest → ∃ u : State, u = { v with pje := u.pje, vin := u.vin } ∧
      (drains → rest = [] → s.vin.drainReported = false →
        s.endAnalysis e = State.drainCheck { u with vin := { u.vin with drainReported := true } }) ∧
      (¬ drains ∨ rest ≠ [] ∨ s.vin.drainReported = true → s.endAnalysis e = u) ∧
      u.pje = { s.pje with block := some ⟨e', s.pje.prm, .measuring⟩ } ∧ u.vin.queue = rest ∧
      u.vin.drainReported = s.vin.drainReported ∧
      ((u.vin.channels.get e'.channel).halves.get e'.half).state = .analysing ∧
      ((u.vin.channels.get e'.channel).halves.get e'.half).samples =
        ((v.vin.channels.get e'.channel).halves.get e'.half).samples)) ∧
  (∀ (s : State) (b : BlockInHand), s.pje.block = some b →
    (b.phase = .measuring → s.retryJudgement = s ∧ (s.ptu.lineFull = false → exec .measurementEnd s = .next (s.judge b
      (measure b.prm ((s.vin.channels.get b.entry.channel).halves.get b.entry.half).samples)).flush)) ∧
    (∀ period, b.phase = .judging period → s.retryJudgement = s.judge b period ∧
      exec .measurementEnd s = .next s.flush)) ∧
  (∀ (s : State) (b : BlockInHand) (period : Option Nat) (i : Fin 4),
    let e := b.entry
    let t := e.songMs - b.prm.latencyMs
    let past := s.scu.state = .finishing ∧ ∃ x, s.pje.endTime = some x ∧ x ≤ t
    let mine := s.scu.current.map Ticket.number = some e.ticket ∧ b.prm.latencyMs ≤ e.songMs ∧ ¬ past
    let found := s.pje.lookup s.songMs t (s.scr.singers.get i).part
    (¬ mine ∨ s.scr.holder e.channel.val = none → s.judge b period = s.endAnalysis e) ∧
    (mine → s.scr.holder e.channel.val = some i →
      (found = .rest → s.judge b period = s.endAnalysis e) ∧
      (found = .late → s.judge b period = State.endAnalysis e { s with
        pje := { s.pje with noteLate := s.pje.noteLate + 1 } }) ∧
      (found = .wait → s.judge b period = { s with
        pje := { s.pje with block := some { b with phase := .judging period } } }) ∧
      (∀ n, found = .note n →
        let taken := s.scu.state ≠ .idle ∧ (s.scu.phase = none ∨ s.scu.phase = some .drain)
        let old := (s.scr.singers.get i).totals
        ((∀ j : Fin 4, (s.scr.singers.get j).active = true → (s.scr.singers.get j).mic = some e.channel.val →
            (s.scr.singers.get j).link ≠ some e.ticket) ∨ ¬ taken ∨
          ((s.scr.singers.get i).link = some e.ticket ∧ 4294967295 < old.possible + 4 * n.weight) →
          s.judge b period = s.endAnalysis e) ∧
        ((s.scr.singers.get i).link = some e.ticket → taken → old.possible + 4 * n.weight ≤ 4294967295 →
          ∃ u : State, s.judge b period = u.endAnalysis e ∧ u = { s with scr := u.scr, ctl := u.ctl } ∧
          { u.scr with singers := s.scr.singers, cadenceCount := s.scr.cadenceCount } = s.scr ∧
          (s.scr.cadenceCount + 1 < s.scr.cadence →
            u.scr.cadenceCount = s.scr.cadenceCount + 1 ∧ u.ctl = s.ctl) ∧
          (s.scr.cadence ≤ s.scr.cadenceCount + 1 → u.scr.cadenceCount = 0 ∧ u.ctl = s.ctl.raise .scoreTick) ∧
          (∀ j, j ≠ i → u.scr.singers.get j = s.scr.singers.get j) ∧
          (let new := (u.scr.singers.get i).totals
           let up := fun (x k : Nat) => min 4294967295 (x + k)
           u.scr.singers.get i = { s.scr.singers.get i with totals := new } ∧
           (period = none → new = { old with
             earned := up old.earned 0, possible := old.possible + 4 * n.weight, miss := up old.miss 1
             unvoiced := up old.unvoiced 1, streak := 0, lastBand := some .miss }) ∧
           (∀ lm, period = some lm →
             let lr := scaledPeriod n.period e.key
             let dev := fun c : Nat => ((lm : Int) - c).natAbs * 4096 / c
             let least := min (dev lr) (min (dev ((lr + 1) / 2)) (dev (2 * lr)))
             let d := if b.prm.octaveFold then least else dev lr
             let base := { old with
               possible := old.possible + 4 * n.weight
               folds := if b.prm.octaveFold = true ∧ least < dev lr then up old.folds 1 else old.folds }
             (d ≤ b.prm.pMax → new = { base with
               earned := up old.earned (4 * n.weight), perfect := up old.perfect 1, streak := up old.streak 1
               maxStreak := max old.maxStreak (up old.streak 1), lastBand := some .perfect }) ∧
             (b.prm.pMax < d → d ≤ b.prm.gMax → new = { base with
               earned := up old.earned (3 * n.weight), good := up old.good 1, streak := up old.streak 1
               maxStreak := max old.maxStreak (up old.streak 1), lastBand := some .good }) ∧
             (b.prm.pMax < d → b.prm.gMax < d → d ≤ b.prm.fMax → new = { base with
               earned := up old.earned n.weight, fair := up old.fair 1, streak := 0, lastBand := some .fair }) ∧
             (b.prm.pMax < d → b.prm.gMax < d → b.prm.fMax < d → new = { base with
               earned := up old.earned 0, miss := up old.miss 1, streak := 0, lastBand := some .miss })))))))

/-- The engine's part of an offer (R103, R104, R108): the notes at or below the leaving bound leave both windows; the held
note is admitted if it now may be and stays held otherwise; the next fetch is issued when its conditions hold; and a
judgement that waits is tried again, as the statement of judgements says, nothing changing when none waits. The lookup
(R108): too late, or notes that are not ready with no fetch in flight, is LATE; not ready with a fetch in
flight waits; ready, it finds the covering note with the latest start in the window of the singer's part, the later
admitted of two with one start, and a rest where no note covers the time. -/
def Obligations.OffersAndLookupsFindTheNotes : Prop :=
  (∀ s : State,
    let stays := fun (n : Note) => s.songMs < n.start + n.duration + s.pje.prm.latencyMs + 1000
    let read := s.scu.state = .playing ∨ (s.scu.state = .seeking ∧ s.pje.rebuild = true) ∨
      (s.scu.state = .finishing ∧ s.scu.phase = some .drain)
    ∃ (u : State) (winA winB : List Note), s.offerPje = u.retryJudgement ∧
      ((∀ b, s.pje.block = some b → b.phase = .measuring) → u.retryJudgement = u) ∧
      (∀ b period, s.pje.block = some b → b.phase = .judging period → u.retryJudgement = u.judge b period) ∧
      winA.Sublist s.pje.winA ∧ (∀ m, m ∈ winA ↔ m ∈ s.pje.winA ∧ stays m) ∧
      winB.Sublist s.pje.winB ∧ (∀ m, m ∈ winB ↔ m ∈ s.pje.winB ∧ stays m) ∧
      u = { s with pje := u.pje, ptu := u.ptu } ∧
      { u.pje with winA := s.pje.winA, winB := s.pje.winB, held := s.pje.held, fetch := s.pje.fetch } = s.pje ∧
      (s.pje.held = none → u.pje.held = none ∧ u.pje.winA = winA ∧ u.pje.winB = winB) ∧
      (∀ n, s.pje.held = some n →
        let fits := n.start ≤ s.songMs + s.prm.lookaheadMs ∧ (n.part = .b ∨ winA.length < 4) ∧
          (n.part = .a ∨ winB.length < 4)
        (fits → u.pje.held = none ∧ u.pje.winA = (if n.part = .b then winA else winA ++ [n]) ∧
          u.pje.winB = (if n.part = .a then winB else winB ++ [n])) ∧
        (¬ fits → u.pje.held = some n ∧ u.pje.winA = winA ∧ u.pje.winB = winB)) ∧
      (let issues := s.pje.fetch = none ∧ u.pje.held = none ∧ s.pje.cursor < s.pje.noteCount ∧ read
       (issues → u.pje.fetch = some s.ptu.nextOp ∧ u.ptu.links = s.ptu.links ∧ u.ptu.handed = s.ptu.handed ++
         requestsOf .noteFetch s.ptu.nextOp 0 (readsOver (s.pje.noteBase + 8 * s.pje.cursor) 8)) ∧
       (¬ issues → u.pje.fetch = s.pje.fetch ∧ u.ptu = s.ptu))) ∧
  (∀ (p : Pje) (songMs t : Nat) (part : Option SingerPart),
    let stale := t + p.prm.latencyMs + 1000 < songMs
    let ready := (∃ f, p.front = some f ∧ t < f) ∨ (p.cursor = p.noteCount ∧ p.held = none)
    let win := match part with
      | some .a => p.winA
      | some .b => p.winB
      | none => []
    let covers := fun n : Note => n.start ≤ t ∧ t < n.start + n.duration
    (p.lookup songMs t part = .late ↔ stale ∨ (¬ ready ∧ p.fetch = none)) ∧
    (p.lookup songMs t part = .wait ↔ ¬ stale ∧ ¬ ready ∧ p.fetch ≠ none) ∧
    (p.lookup songMs t part = .rest ↔ ¬ stale ∧ ready ∧ ∀ n ∈ win, ¬ covers n) ∧
    (∀ n, p.lookup songMs t part = .note n ↔ ¬ stale ∧ ready ∧ ∃ before after, win = before ++ n :: after ∧ covers n ∧
      (∀ m ∈ before, covers m → m.start ≤ n.start) ∧ (∀ m ∈ after, covers m → m.start < n.start)))

/-- The write-out (R18, R89, R112, R122, R124, Tables 12-8 and 12-9): each drain report made once in DRAIN, the Voice
Intake's when the queue is empty and the engine's when it has no block in hand besides; begun when both stand, with the
result number and the write index advanced, the 192-byte record and then the index written, and for a handset the SCORE
reply of the ACTIVE singers, waited for unless it is lost. Its end, WRITE_OUT_END (R19, R20, R122): BANNER with the
banner count and SONG_ENDED, or IDLE at once after STOP or with no banner frames; nothing while the SCORE reply is
waited for (the model's choice for an end that has not come, log 3). And what the return to IDLE empties (R20, R23,
R89, R105, R121): the song context; the Lyric Sequencer but for its list bases and counters, its slots at their content
of reset (the model's choice, log 21); the engine's windows, held note, fetch front, cursor, END time and report; every
half FREE, HOLD and decimators cleared, the capture position kept; the singers' links; and the reads of both lists
orphaned. -/
def Obligations.WriteOutBeginsAndEnds : Prop :=
  (∀ s : State,
    let goes := fun o : ClientOp => o.kind.isLyric || o.kind.isNote
    ∃ u : State, s.leaveSong = u ∧
      u = { s with scu := u.scu, lsq := u.lsq, vin := u.vin, pje := u.pje, scr := u.scr, ptu := u.ptu } ∧
      u.scu = { s.scu with
        state := .idle, phase := none, current := none, bannerCount := 0, seeked := false, stopped := false
        endPending := false, endTime := none } ∧
      u.lsq = { s.lsq with
        cursor := 0, held := none, fetch := none, queue := [], slots := Vector.replicate 8 {}, band := []
        scroll := none, pred := none, endTaken := false, rebuild := none } ∧
      u.vin = { s.vin with channels := Vector.replicate 4 {}, drainReported := false } ∧
      u.pje = { s.pje with
        winA := [], winB := [], held := none, front := none, cursor := 0, fetch := none, endTime := none
        drainReported := false } ∧
      (∀ i : Fin 4, u.scr.singers.get i = { s.scr.singers.get i with link := none }) ∧
      { u.scr with singers := s.scr.singers } = s.scr ∧
      u.ptu = { s.ptu with
        ops := s.ptu.ops.filter (fun o => !goes o), ended := s.ptu.ended.filter (fun o => !goes o) }) ∧
  (∀ s : State,
    let due := s.scu.state = .finishing ∧ s.scu.phase = some .drain ∧ s.vin.drainReported = true ∧
      s.pje.drainReported = true
    (¬ due → s.drainCheck = s) ∧
    (due → s.drainCheck = (State.beginWriteOut { s with scu := { s.scu with phase := some .writeOut } }).stageTest) ∧
    (let empty := s.scu.state = .finishing ∧ s.scu.phase = some .drain ∧ s.vin.queue = []
     (empty → s.vin.drainReported = false →
       s.vinDrain = State.drainCheck { s with vin := { s.vin with drainReported := true } }) ∧
     (¬ empty ∨ s.vin.drainReported = true → s.vinDrain = s) ∧
     (empty → s.pje.block = none → s.pje.drainReported = false →
       s.pjeDrain = State.drainCheck { s with pje := { s.pje with drainReported := true } }) ∧
     (¬ empty ∨ s.pje.block ≠ none ∨ s.pje.drainReported = true → s.pjeDrain = s))) ∧
  (∀ (s : State) (t : Ticket), s.scu.current = some t →
    let n := s.scr.lastResult + 1
    let idx := s.scr.writeIndex
    let base := baseOf s.ptu.windows.image
    let singers := s.scr.activeSingers
    ∃ (v : State) (bytes : List Byte), bytes.length = 192 ∧
      v.ptu.handed = s.ptu.handed ++ requestsOf .resultRecord s.ptu.nextOp 0
        (writesOver (base + 0x400 + 0x100 * idx) bytes ++ writesOver (base + 0x200) (leBytes 4 ((idx + 1) % 8))) ∧
      v = { s with ptu := v.ptu, scr := { s.scr with
        lastResult := n, writeIndex := (idx + 1) % 8, scoreWaiting := v.scr.scoreWaiting } } ∧
      v.ptu.links = s.ptu.links ∧ v.ptu.ops.map (fun x => (x.id, x.kind)) =
        s.ptu.ops.map (fun x => (x.id, x.kind)) ++ [(s.ptu.nextOp, .writeOut)] ∧
      bytes.take 20 = leBytes 4 n.toNat ++ leBytes 2 t.number ++ leBytes 1 t.source.code ++
        leBytes 1 singers.length ++ leBytes 4 t.song ++ [BitVec.ofInt 8 t.key, BitVec.ofInt 8 s.scu.key] ++
        leBytes 1 ((if s.scu.seeked then 1 else 0) + (if s.scu.stopped then 2 else 0)) ++ [0] ++
        leBytes 4 s.scu.tempo ∧
      (∀ j i g, singers[j]? = some (i, g) → (bytes.drop (32 + 40 * j)).take 40 =
        leBytes 1 i ++ leBytes 1 (partCode g.part) ++ leBytes 2 g.totals.score ++ leBytes 4 g.totals.possible ++
        leBytes 4 g.totals.perfect ++ leBytes 4 g.totals.good ++ leBytes 4 g.totals.fair ++ leBytes 4 g.totals.miss ++
        leBytes 4 g.totals.unvoiced ++ leBytes 4 g.totals.maxStreak ++ leBytes 4 g.totals.dropped ++
        leBytes 4 g.totals.folds) ∧
      (t.source = .staff → v.scr.scoreWaiting = false ∧ s.beginWriteOut = v) ∧
      (∀ h, t.source = .handset h → v.scr.scoreWaiting = true ∧ s.beginWriteOut = v.issueReply h
        (.score t.number t.song (singers.map (fun p => ⟨p.1, p.2.totals.score⟩))) true ∧
        (s.beginWriteOut.scr.scoreWaiting = true ↔ s.rqu.slots.get s.rqu.replyIndex = false))) ∧
  (∀ (s : State) (o : ClientOp), s.ptu.firstEnded (fun k => k == .writeOut) = some o → s.scu.state = .finishing →
    s.scu.phase = some .writeOut →
    (s.scr.scoreWaiting = true → exec .writeOutEnd s = .next s.flush) ∧
    (s.scr.scoreWaiting = false → s.ptu.lineFull = false → ∃ u : State, exec .writeOutEnd s = .next u.flush ∧
      (s.ctl.enables.getLsbD 3 = true → u.ctl.flags.getLsbD 3 = true) ∧
      u.ovc = s.ovc ∧ u.gxt = s.gxt ∧ u.pending = s.pending ∧ u.ptu.links = s.ptu.links ∧
      (let v := State.stageTest { s with
         ptu := s.ptu.dropEnded o.id, ctl := s.ctl.raise .songEnded, scu := { s.scu with phase := some .banner } }
       (s.scu.stopped = false → 0 < s.scu.bannerFrames →
         u = { v with scu := { v.scu with bannerCount := s.scu.bannerFrames } }) ∧
       (s.scu.stopped = true ∨ s.scu.bannerFrames = 0 → u = v.leaveSong.stageTest)) ∧
      (s.scu.stopped = false → 0 < s.scu.bannerFrames →
        u.scu = { s.scu with phase := some .banner, bannerCount := s.scu.bannerFrames } ∧ u.lsq = s.lsq ∧
        u.pje = s.pje ∧ u.vin = s.vin ∧ u.scr = s.scr) ∧
      (s.scu.stopped = true ∨ s.scu.bannerFrames = 0 →
        u.scu = { s.scu with
          state := .idle, phase := none, current := none, bannerCount := 0, seeked := false, stopped := false
          endPending := false, endTime := none } ∧ u.lsq.band = [] ∧ u.pje.winA = [] ∧ u.pje.winB = [] ∧
        (∀ i : Fin 4, u.scr.singers.get i = { s.scr.singers.get i with link := none }))))

/-- COMMAND_SLOT_WRITE (R178, R179, R188): enabled bytes merged into the captured beats; a write that carries an
enabled byte of beat 3 submits the record, decided as the host command it spells (log 1), or answered BUSY or
BAD_COMMAND. -/
def Obligations.CommandSlotWritesSubmitRecords : Prop :=
  ∀ (s : State) (t : Tap) (rest : List Tap) (bs : List WriteBeat), s.ptu.taps = t :: rest →
    t.cls = .commandSlot → t.req.body = .write bs →
    ∃ captured : Vector Beat 4,
      (∀ (i : Fin 4) (k : Nat), k < 16 →
        (∀ j x, bs[j]? = some x → firstSlotBeat t.req.addr + j = i.val → x.en.getLsbD k = true →
          byteAt [captured.get i] k = byteAt [x.data] k) ∧
        ((∀ j x, bs[j]? = some x → firstSlotBeat t.req.addr + j = i.val → x.en.getLsbD k = false) →
          byteAt [captured.get i] k = byteAt [s.ctl.captured.get i] k)) ∧
      (let s1 : State := { s with ptu := { s.ptu with taps := rest }, ctl := { s.ctl with captured := captured } }
       let submitted := ∃ j x, bs[j]? = some x ∧ firstSlotBeat t.req.addr + j = 3 ∧ x.en ≠ 0
       let r := readCommand captured
       (¬ submitted → exec .commandSlotWrite s = .next s1.flush.playTaps) ∧
       (submitted → s.roomy → ∀ c, commandOf r = some c → ∃ u : State, exec c s1 = .next u.flush ∧
         exec .commandSlotWrite s = .next u.flush.playTaps) ∧
       (submitted → s.ptu.lineFull = false → commandOf r = none → s.ctl.inProgress = none →
         exec .commandSlotWrite s =
           .next (s1.result (BitVec.ofNat 16 r.code) r.tag .badCommand []).flush.playTaps) ∧
       (submitted → s.ptu.lineFull = false → commandOf r = none → s.ctl.inProgress.isSome = true →
         exec .commandSlotWrite s = .next (s1.result (BitVec.ofNat 16 r.code) r.tag .busy []).flush.playTaps))

/-- CAPTURE_WRITE (R78 to R81): a partial write is a gap; a whole one goes on, starts the ring, or crosses a gap, and
then gives its samples in order, each beat's eight from its first byte; with no song they are skipped, the phase moving
on with each. That a write whose low four address bits are not 0 is taken at its first beat's 16-byte place is the model's
choice (log 29). -/
def Obligations.CaptureWritesKeepThePhase : Prop :=
  ∀ (s : State) (t : Tap) (rest : List Tap) (bs : List WriteBeat) (w : Window), s.ptu.taps = t :: rest →
    t.cls = .capture → t.req.body = .write bs → s.ptu.windows.mic = some w →
    let first := beatAddr t.req.addr 0
    let silent := s.vin.channels.map (fun c : Channel => { c with sum := 0, count := 0 })
    let next := first + 16 * bs.length
    let expected := some (if next = w.base + w.size then w.base else next)
    let ring := (((first : Int) - w.base) % (2 * s.prm.channels : Nat)).toNat / 2
    let samples := (bs.map (fun b => (List.range 8).map
      (fun i => (BitVec.ofNat 16 (fieldAt [b.data] (2 * i) 2)).toInt))).flatten
    let done := fun (u : State) => exec .captureWrite s = .next u.flush.playTaps
    let seated := fun (v : Vin) => ({ s with ptu := { s.ptu with taps := rest }, vin := v } : State)
    let taken := fun (v : Vin) =>
      let u := samples.foldl State.takeSample (seated v)
      done { u with vin := { u.vin with expected := expected } }
    ((∃ b ∈ bs, b.en ≠ BitVec.allOnes 16) →
      done (seated { s.vin with channels := silent, micGap := s.vin.micGap + 1, expected := none })) ∧
    ((∀ b ∈ bs, b.en = BitVec.allOnes 16) →
      (s.vin.expected = some first → taken s.vin) ∧
      (s.vin.expected = none → taken { s.vin with channels := silent, phase := ring }) ∧
      (∀ x, s.vin.expected = some x → x ≠ first →
        taken { s.vin with channels := silent, phase := ring, micGap := s.vin.micGap + 1 })) ∧
    ((∀ b ∈ bs, b.en = BitVec.allOnes 16) → s.scu.state = .idle ∨ s.scu.state = .starting → 1 ≤ s.prm.channels →
      (s.vin.expected = some first → s.vin.phase < s.prm.channels → done (seated { s.vin with
        phase := (s.vin.phase + 8 * bs.length) % s.prm.channels, expected := expected })) ∧
      (s.vin.expected = none → done (seated { s.vin with
        channels := silent, phase := (ring + 8 * bs.length) % s.prm.channels, expected := expected })) ∧
      (∀ x, s.vin.expected = some x → x ≠ first → done (seated { s.vin with
        channels := silent, phase := (ring + 8 * bs.length) % s.prm.channels, micGap := s.vin.micGap + 1
        expected := expected })))

/-- A sample of a live channel while a song runs (R81 to R83): summed, the fourth giving floor of a quarter of the
sum to the FILLING half, to half 0 if FREE and half 1 otherwise where none is FILLING; the 256th completes the block.
A block that completes (R83 to R87): QUEUED in PLAYING with SONG_MS, KEY and the ticket, the other half FILLING, HOLD
when that half is in analysis, or the older block dropped and counted; taken at once by an idle engine; the half emptied
in every other STATE. -/
def Obligations.SamplesFillBlocks : Prop :=
  (∀ (s : State) (x : Int) (ch : Fin 4), s.vin.phase = ch.val → ch.val < s.prm.channels →
     let c := s.vin.channels.get ch
     let next := (s.vin.phase + 1) % s.prm.channels
     let live := ∃ i : Fin 4, (s.scr.singers.get i).active = true ∧ (s.scr.singers.get i).mic = some ch.val
     let runs := s.scu.state = .playing ∨ s.scu.state = .seeking ∨ s.scu.state = .finishing
     let with_ := fun (c' : Channel) => { s with vin := { s.vin with
       phase := next, channels := vset s.vin.channels ch c' } }
     (¬ live ∨ ¬ runs → s.takeSample x = { s with vin := { s.vin with phase := next } }) ∧
     (live → runs → c.count ≠ 3 → s.takeSample x = with_ { c with sum := c.sum + x, count := c.count + 1 }) ∧
     (live → runs → c.count = 3 → c.hold = true → s.takeSample x = with_ { c with sum := 0, count := 0 }) ∧
     (live → runs → c.count = 3 → c.hold = false → ∃ y : Int, 4 * y ≤ c.sum + x ∧ c.sum + x < 4 * y + 4 ∧
       (∀ k : Fin 2, (c.halves.get k).state = .filling → (∀ j : Fin 2, j < k → (c.halves.get j).state ≠ .filling) →
         let filled := with_ { c with
           sum := 0, count := 0
           halves := vset c.halves k { c.halves.get k with samples := (c.halves.get k).samples ++ [y] } }
         ((c.halves.get k).samples.length < 255 → s.takeSample x = filled) ∧
         ((c.halves.get k).samples.length = 255 → s.takeSample x = filled.completeBlock ch k)) ∧
       (∀ k : Fin 2, (∀ j : Fin 2, (c.halves.get j).state ≠ .filling) →
         (if (c.halves.get 0).state = .free then k = 0 else k = 1) →
         s.takeSample x = with_ { c with
           sum := 0, count := 0
           halves := vset c.halves k { state := .filling, samples := [y] } }))) ∧
  (∀ (s : State) (ch : Fin 4) (k o : Fin 2) (t : Ticket), k ≠ o → s.pje.block.isSome = true →
     let c := s.vin.channels.get ch
     let full := { c.halves.get k with state := HalfState.queued }
     let entry : BlockEntry := ⟨ch, k, s.songMs, s.scu.key, t.number⟩
     let u := s.completeBlock ch k
     (s.scu.state ≠ .playing → u = { s with vin := { s.vin with
       channels := vset s.vin.channels ch { c with halves := vset c.halves k { state := .filling } } } }) ∧
     (s.scu.state = .playing → s.scu.current = some t →
       ((c.halves.get o).state = .free → u = { s with vin := { s.vin with
         queue := s.vin.queue ++ [entry]
         channels := vset s.vin.channels ch
           { c with halves := vset (vset c.halves k full) o { state := .filling } } } }) ∧
       ((c.halves.get o).state = .analysing → u = { s with vin := { s.vin with
         queue := s.vin.queue ++ [entry]
         channels := vset s.vin.channels ch { c with halves := vset c.halves k full, hold := true } } }) ∧
       ((c.halves.get o).state = .queued →
         u.vin.queue = s.vin.queue.filter (fun e => !(e.channel == ch && e.half == o)) ++ [entry] ∧
         u.vin.blockDropped = s.vin.blockDropped + 1 ∧ u.ctl = s.ctl.raise .blockDropped ∧
         u.vin.channels = vset s.vin.channels ch
           { c with halves := vset (vset c.halves k full) o { state := .filling } } ∧
         u = { s with vin := u.vin, scr := u.scr, ctl := u.ctl } ∧
         (∀ i, s.scr.holder ch.val = some i → u.scr = s.scr.setTotals i { (s.scr.singers.get i).totals with
           dropped := min 4294967295 ((s.scr.singers.get i).totals.dropped + 1) }) ∧
         (s.scr.holder ch.val = none → u.scr = s.scr)))) ∧
  (∀ (s : State) (ch : Fin 4) (k o : Fin 2) (t : Ticket), k ≠ o → s.pje.block = none → s.vin.queue = [] →
     s.scu.state = .playing → s.scu.current = some t → ((s.vin.channels.get ch).halves.get o).state = .free →
     let c := s.vin.channels.get ch
     let halves := vset (vset c.halves o { state := .filling }) k { c.halves.get k with state := .analysing }
     let entry : BlockEntry := ⟨ch, k, s.songMs, s.scu.key, t.number⟩
     s.completeBlock ch k = { s with
       pje := { s.pje with block := some ⟨entry, s.pje.prm, .measuring⟩ }
       vin := { s.vin with channels := vset s.vin.channels ch { c with halves := halves } } })

/-- Flags are latched only for enabled events and NOTICE_N is low exactly while one is (R184, R185): every step keeps
it. -/
def Obligations.NoticeLawIsKept : Prop :=
  ∀ s t : State, s.ctl.noticeLaw → step s = .next t → t.ctl.noticeLaw

/-- EARNED never passes POSSIBLE, and POSSIBLE stays within 32 bits, for every singer (R114, R118): every step keeps
it. -/
def Obligations.ScoreLawIsKept : Prop :=
  ∀ s t : State, s.scr.scoreLaw → step s = .next t → t.scr.scoreLaw

/-- The cache holds each page once, at most 16 of them, and none that a FRESH walk is looking for; no two FRESH walks
look for one page (R68, R70, R71): every step keeps it. -/
def Obligations.CacheLawIsKept : Prop :=
  ∀ s t : State, s.gxt.cacheLaw → step s = .next t → t.gxt.cacheLaw

/-- Outstanding own reads stay below OWN_LIMIT while the throttle is OPEN and at most 16 ever, and the rotation count
at most ROTATE_N (R162, R170, R171): every step keeps it. -/
def Obligations.ThrottleLawIsKept : Prop :=
  ∀ s t : State, s.ptu.throttleLaw → step s = .next t → t.ptu.throttleLaw

/-- A current ticket stands exactly in PLAYING, SEEKING and FINISHING, a starting ticket exactly in STARTING, a phase
exactly in FINISHING, and ACTIVE singers are linked to no other ticket (R2, R12, R20, R121): every step keeps it. -/
def Obligations.SongLawIsKept : Prop :=
  ∀ s t : State, s.songLaw → step s = .next t → t.songLaw

/-- The queue's numbers stay distinct, in range and apart from the current ticket's, its count at most 32, its tickets
in the order of class and round and at most one STAGED, every NORMAL ticket's round one more than the number of its
source's NORMAL tickets before it, and the round of any other 0 (R131 to R133, R149): every step keeps it. -/
def Obligations.QueueLawIsKept : Prop :=
  ∀ s t : State, s.queueLaw → step s = .next t → t.queueLaw

/-- The whole order of R132: no two queued tickets share an arrival stamp, and every ticket stands before those behind
it by class, round and the signed difference of the stamps. Every step keeps it while no queued ticket's stamp is 2^31
stamps old, with room for the stamps that one step can take: sixteen for each host command it decides. -/
def Obligations.QueueOrderIsKept : Prop :=
  ∀ s t : State, s.queueLaw → s.stampLaw → s.rqu.stampsWithin (16 * (s.ctl.waiting.length + 1)) → step s = .next t →
    t.stampLaw

/-- The state after reset meets the laws that every step keeps. -/
def Obligations.ResetMeetsTheLaws : Prop :=
  State.reset.ctl.noticeLaw ∧ State.reset.scr.scoreLaw ∧ State.reset.gxt.cacheLaw ∧ State.reset.ptu.throttleLaw ∧
    State.reset.songLaw ∧ State.reset.queueLaw ∧ State.reset.stampLaw

/-- The function of lags (R98): each D(L) the sum of 80 differences, Dmin the least and Dmax the greatest of the 165,
every one within its bound, for every block of 256 samples. The chosen lag (R99), the first that is a local minimum within
an eighth of Dmin, never an edge; and which blocks are VOICED (R97, R100): those with a chosen lag, Dmax above 0, the
level at GATE and the clarity at CLARITY_MIN. -/
def Obligations.LagsAreSummedAndChosen : Prop :=
  (∀ x : List Int, x.length = 256 → (∀ v ∈ x, -32768 ≤ v ∧ v ≤ 32767) →
    let d := amdfTable x
    (∀ l, 12 ≤ l → l ≤ 176 →
      dAt d l = ((List.range 80).map (fun n => (x.getD n 0 - x.getD (n + l) 0).natAbs)).sum ∧
      dAt d l ≤ 5242800 ∧ dMin d ≤ dAt d l ∧ dAt d l ≤ dMax d) ∧
    (∃ l, 12 ≤ l ∧ l ≤ 176 ∧ dMin d = dAt d l) ∧ (∃ l, 12 ≤ l ∧ l ≤ 176 ∧ dMax d = dAt d l)) ∧
  (∀ (prm : Scoring) (x : List Int),
    let d := amdfTable x
    let dip := fun l => 13 ≤ l ∧ l ≤ 175 ∧ dAt d l ≤ dAt d (l - 1) ∧ dAt d l ≤ dAt d (l + 1) ∧
      dAt d l ≤ dMin d + dMin d / 8
    let loud := prm.gate ≤ (x.map Int.natAbs).sum / 256
    let clear := fun l => prm.clarityMin ≤ 256 - 256 * dAt d l / dMax d
    (∀ l, chosenLag d = some l ↔ dip l ∧ ∀ j < l, ¬ dip j) ∧ (∀ l, 256 * dAt d l / dMax d ≤ 256) ∧
      ((∃ m, measure prm x = some m) ↔ ∃ l, dip l ∧ (∀ j < l, ¬ dip j) ∧ dMax d ≠ 0 ∧ loud ∧ clear l))

/-- The measured period (R101): refined from the chosen lag by a fraction of a sixteenth, the nearest to 8 × num / den
with halves away from zero, clamped to −8 to +8; within 200 to 2808, and towards the lower neighbour. -/
def Obligations.PeriodIsRefinedByTheParabola : Prop :=
  ∀ (prm : Scoring) (x : List Int) (m : Nat), measure prm x = some m →
    ∃ (l : Nat) (frac : Int), chosenLag (amdfTable x) = some l ∧ (m : Int) = 16 * l + frac ∧ 200 ≤ m ∧ m ≤ 2808 ∧
      (let a : Int := dAt (amdfTable x) (l - 1)
       let b : Int := dAt (amdfTable x) l
       let c : Int := dAt (amdfTable x) (l + 1)
       let num := a - c
       let den := a - 2 * b + c
       (den ≤ 0 → frac = 0) ∧
       (0 < den → ∃ near : Int, near.natAbs = (16 * num.natAbs + den.toNat) / (2 * den.toNat) ∧
         (near = 0 ∨ near.sign = num.sign) ∧ 2 * (near * den - 8 * num).natAbs ≤ den.toNat ∧
         (2 * (near * den - 8 * num).natAbs = den.toNat → 8 * num.natAbs ≤ (near * den).natAbs) ∧
         frac = (if near < -8 then -8 else if 8 < near then 8 else near)) ∧
       (0 < frac → c < a) ∧ (frac < 0 → a < c))

/-- The scaled reference period (R109): by K[s], which is 65,536 × 2^(s/12) rounded, divided for a raised key and
multiplied for a lowered one; unchanged at 0, doubled at −12, halved upward at +12, within 96 to 5632; a block is judged
by the KEY of its own entry. -/
def Obligations.ReferencePeriodIsScaledByTheKey : Prop :=
  (∀ s ≤ 12, (2 * semitone s - 1) ^ 12 ≤ 131072 ^ 12 * 2 ^ s ∧ 131072 ^ 12 * 2 ^ s ≤ (2 * semitone s + 1) ^ 12) ∧
  (∀ (lr : Nat) (k : Int), -12 ≤ k → k ≤ 12 →
    (k = 0 → scaledPeriod lr k = lr) ∧
    (0 < k → scaledPeriod lr k = (lr * 65536 + semitone k.toNat / 2) / semitone k.toNat) ∧
    (k < 0 → scaledPeriod lr k = (lr * semitone (-k).toNat + 32768) / 65536) ∧
    (k = -12 → scaledPeriod lr k = 2 * lr) ∧ (k = 12 → scaledPeriod lr k = (lr + 1) / 2) ∧
    (192 ≤ lr → lr ≤ 2816 → 96 ≤ scaledPeriod lr k ∧ scaledPeriod lr k ≤ 5632)) ∧
  (∀ (b : BlockInHand) (lm : Nat) (n : Note), (judgeOver b (some lm) n).band =
    bandOf b.prm (takenDeviation b.prm.octaveFold lm (scaledPeriod n.period b.entry.key)).1)
end

