-- ==== Sys2Proof/Laws/State.lean ====
section
/-! SUPPORT. One lemma for each named update of the state, saying which fields it leaves and what its own
field becomes; all hold by definition, and all are simp lemmas. -/

namespace Sys2Proof.Machine

/-! ## Vectors -/

@[simp] theorem vset_get_self {α : Type} {n : Nat} (v : Vector α n) (i : Fin n) (x : α) : (vset v i x).get i = x := by
  simp [vset, Vector.get_eq_getElem]

theorem vset_get_ne {α : Type} {n : Nat} (v : Vector α n) {i j : Fin n} (x : α) (h : i ≠ j) :
    (vset v i x).get j = v.get j := by
  have : i.val ≠ j.val := fun e => h (Fin.ext e)
  simp [vset, Vector.get_eq_getElem, this]

theorem vset_get {α : Type} {n : Nat} (v : Vector α n) (i j : Fin n) (x : α) :
    (vset v i x).get j = if i = j then x else v.get j := by
  split
  · next h => subst h; simp
  · next h => exact vset_get_ne v x h

@[simp] theorem map_get {α β : Type} {n : Nat} (v : Vector α n) (f : α → β) (i : Fin n) : (v.map f).get i = f (v.get i) := by
  simp [Vector.get_eq_getElem]

@[simp] theorem replicate_get {α : Type} {n : Nat} (x : α) (i : Fin n) : (Vector.replicate n x).get i = x := by
  simp [Vector.get_eq_getElem]

theorem vfind_some {α : Type} {n : Nat} {v : Vector α n} {p : α → Bool} {i : Fin n} (h : vfind v p = some i) :
    p (v.get i) = true := by
  have := List.find?_some h
  simpa using this

theorem vfind_none {α : Type} {n : Nat} {v : Vector α n} {p : α → Bool} (h : vfind v p = none) (i : Fin n) :
    p (v.get i) = false := by
  have := List.find?_eq_none.mp h i (List.mem_finRange i)
  simpa using this

/-! ## Flags and notices -/

@[simp] theorem Ctl.setFlags_fields (c : Ctl) (e f : BitVec 14) :
    (c.setFlags e f).enables = e ∧ (c.setFlags e f).flags = f ∧ (c.setFlags e f).noticeLow = ((e &&& f) != 0) ∧
      (c.setFlags e f).captured = c.captured ∧ (c.setFlags e f).setup = c.setup ∧
      (c.setFlags e f).pendingSetup = c.pendingSetup ∧ (c.setFlags e f).inProgress = c.inProgress ∧
      (c.setFlags e f).resultCount = c.resultCount ∧ (c.setFlags e f).lastMark = c.lastMark ∧
      (c.setFlags e f).staged = c.staged ∧ (c.setFlags e f).statusGen = c.statusGen ∧
      (c.setFlags e f).statusOp = c.statusOp ∧ (c.setFlags e f).statusOwed = c.statusOwed ∧
      (c.setFlags e f).waiting = c.waiting :=
  ⟨rfl, rfl, rfl, rfl, rfl, rfl, rfl, rfl, rfl, rfl, rfl, rfl, rfl, rfl⟩

/-- An event raised touches only the flags, NOTICE_N and the owed status rewrite. -/
@[simp] theorem Ctl.raise_fields (e : Event) (c : Ctl) :
    (c.raise e).enables = c.enables ∧ (c.raise e).captured = c.captured ∧ (c.raise e).setup = c.setup ∧
      (c.raise e).pendingSetup = c.pendingSetup ∧ (c.raise e).inProgress = c.inProgress ∧
      (c.raise e).resultCount = c.resultCount ∧ (c.raise e).lastMark = c.lastMark ∧
      (c.raise e).staged = c.staged ∧ (c.raise e).statusGen = c.statusGen ∧ (c.raise e).statusOp = c.statusOp ∧
      (c.raise e).waiting = c.waiting := by
  unfold Ctl.raise
  split
  · simp
  · split <;> simp

@[simp] theorem State.raise_frame (e : Event) (s : State) :
    (s.raise e).ctl = s.ctl.raise e ∧ (s.raise e).pending = s.pending ∧ (s.raise e).scu = s.scu ∧
      (s.raise e).lsq = s.lsq ∧ (s.raise e).ovc = s.ovc ∧ (s.raise e).gxt = s.gxt ∧ (s.raise e).vin = s.vin ∧
      (s.raise e).pje = s.pje ∧ (s.raise e).scr = s.scr ∧ (s.raise e).rqu = s.rqu ∧ (s.raise e).ptu = s.ptu :=
  ⟨rfl, rfl, rfl, rfl, rfl, rfl, rfl, rfl, rfl, rfl, rfl⟩

@[simp] theorem Ctl.acknowledge_fields (m : BitVec 14) (c : Ctl) :
    (c.acknowledge m).enables = c.enables ∧ (c.acknowledge m).flags = c.flags &&& ~~~m ∧
      (c.acknowledge m).setup = c.setup ∧ (c.acknowledge m).inProgress = c.inProgress ∧
      (c.acknowledge m).resultCount = c.resultCount ∧ (c.acknowledge m).statusOwed = c.statusOwed :=
  ⟨rfl, rfl, rfl, rfl, rfl, rfl⟩

/-! ## Named updates of one block -/

@[simp] theorem Lsq.setSlot_fields (q : Lsq) (k : Fin 8) (c : LineSlot) :
    (q.setSlot k c).slots = vset q.slots k c ∧ (q.setSlot k c).queue = q.queue ∧ (q.setSlot k c).band = q.band ∧
      (q.setSlot k c).cursor = q.cursor ∧ (q.setSlot k c).held = q.held ∧ (q.setSlot k c).fetch = q.fetch ∧
      (q.setSlot k c).cueBase = q.cueBase ∧ (q.setSlot k c).cueCount = q.cueCount ∧
      (q.setSlot k c).lineBase = q.lineBase ∧ (q.setSlot k c).lineCount = q.lineCount ∧
      (q.setSlot k c).scroll = q.scroll ∧ (q.setSlot k c).pred = q.pred ∧ (q.setSlot k c).endTaken = q.endTaken ∧
      (q.setSlot k c).rebuild = q.rebuild ∧ (q.setSlot k c).badCue = q.badCue ∧
      (q.setSlot k c).lineLate = q.lineLate :=
  ⟨rfl, rfl, rfl, rfl, rfl, rfl, rfl, rfl, rfl, rfl, rfl, rfl, rfl, rfl, rfl, rfl⟩

@[simp] theorem Vin.setChannel_fields (v : Vin) (ch : Fin 4) (c : Channel) :
    (v.setChannel ch c).channels = vset v.channels ch c ∧ (v.setChannel ch c).queue = v.queue ∧
      (v.setChannel ch c).expected = v.expected ∧ (v.setChannel ch c).phase = v.phase ∧
      (v.setChannel ch c).drainReported = v.drainReported ∧ (v.setChannel ch c).micGap = v.micGap ∧
      (v.setChannel ch c).blockDropped = v.blockDropped :=
  ⟨rfl, rfl, rfl, rfl, rfl, rfl, rfl⟩

@[simp] theorem Channel.setHalf_fields (c : Channel) (k : Fin 2) (h : Half) :
    (c.setHalf k h).halves = vset c.halves k h ∧ (c.setHalf k h).sum = c.sum ∧ (c.setHalf k h).count = c.count ∧
      (c.setHalf k h).hold = c.hold :=
  ⟨rfl, rfl, rfl, rfl⟩

@[simp] theorem Vin.release_fields (ch : Fin 4) (k : Fin 2) (v : Vin) :
    (v.release ch k).queue = v.queue ∧ (v.release ch k).expected = v.expected ∧ (v.release ch k).phase = v.phase ∧
      (v.release ch k).drainReported = v.drainReported ∧ (v.release ch k).micGap = v.micGap ∧
      (v.release ch k).blockDropped = v.blockDropped := by
  unfold Vin.release
  dsimp only
  split <;> simp

@[simp] theorem Scr.setTotals_fields (i : Fin 4) (t : Totals) (c : Scr) :
    (c.setTotals i t).singers = vset c.singers i { c.singers.get i with totals := t } ∧
      (c.setTotals i t).cadence = c.cadence ∧ (c.setTotals i t).cadenceCount = c.cadenceCount ∧
      (c.setTotals i t).writeIndex = c.writeIndex ∧ (c.setTotals i t).lastResult = c.lastResult ∧
      (c.setTotals i t).scoreWaiting = c.scoreWaiting :=
  ⟨rfl, rfl, rfl, rfl, rfl, rfl⟩

/-- A singer's PART, MIC, STATE and link are untouched by new accumulators. -/
theorem Scr.setTotals_get (i j : Fin 4) (t : Totals) (c : Scr) :
    (c.setTotals i t).singers.get j = if i = j then { c.singers.get j with totals := t } else c.singers.get j := by
  unfold Scr.setTotals
  rw [vset_get]
  split
  · next h => subst h; rfl
  · rfl

@[simp] theorem State.setSlot_frame (h : Fin 16) (x : Option HeldRequest) (s : State) :
    (s.setSlot h x).pending = s.pending ∧ (s.setSlot h x).scu = s.scu ∧ (s.setSlot h x).lsq = s.lsq ∧
      (s.setSlot h x).ovc = s.ovc ∧ (s.setSlot h x).gxt = s.gxt ∧ (s.setSlot h x).vin = s.vin ∧
      (s.setSlot h x).pje = s.pje ∧ (s.setSlot h x).scr = s.scr ∧ (s.setSlot h x).ptu = s.ptu ∧
      (s.setSlot h x).ctl = s.ctl ∧ (s.setSlot h x).rqu.queue = s.rqu.queue ∧
      (s.setSlot h x).rqu.lastNumber = s.rqu.lastNumber ∧ (s.setSlot h x).rqu.arrival = s.rqu.arrival :=
  ⟨rfl, rfl, rfl, rfl, rfl, rfl, rfl, rfl, rfl, rfl, rfl, rfl, rfl⟩

@[simp] theorem State.noteSequence_frame (h : Fin 16) (q : Byte) (s : State) :
    (s.noteSequence h q).pending = s.pending ∧ (s.noteSequence h q).scu = s.scu ∧ (s.noteSequence h q).lsq = s.lsq ∧
      (s.noteSequence h q).ovc = s.ovc ∧ (s.noteSequence h q).gxt = s.gxt ∧ (s.noteSequence h q).vin = s.vin ∧
      (s.noteSequence h q).pje = s.pje ∧ (s.noteSequence h q).scr = s.scr ∧ (s.noteSequence h q).ptu = s.ptu ∧
      (s.noteSequence h q).ctl = s.ctl ∧ (s.noteSequence h q).rqu.queue = s.rqu.queue ∧
      (s.noteSequence h q).rqu.lastNumber = s.rqu.lastNumber :=
  ⟨rfl, rfl, rfl, rfl, rfl, rfl, rfl, rfl, rfl, rfl, rfl, rfl⟩

@[simp] theorem State.joinQueue_frame (t : Ticket) (s : State) :
    (s.joinQueue t).pending = s.pending ∧ (s.joinQueue t).scu = s.scu ∧ (s.joinQueue t).lsq = s.lsq ∧
      (s.joinQueue t).ovc = s.ovc ∧ (s.joinQueue t).gxt = s.gxt ∧ (s.joinQueue t).vin = s.vin ∧
      (s.joinQueue t).pje = s.pje ∧ (s.joinQueue t).scr = s.scr ∧ (s.joinQueue t).ptu = s.ptu ∧
      (s.joinQueue t).ctl = s.ctl ∧ (s.joinQueue t).rqu.queue = placeTicket t s.rqu.queue :=
  ⟨rfl, rfl, rfl, rfl, rfl, rfl, rfl, rfl, rfl, rfl, rfl⟩

@[simp] theorem State.dropTap_frame (s : State) :
    (s.dropTap).pending = s.pending ∧ (s.dropTap).scu = s.scu ∧ (s.dropTap).lsq = s.lsq ∧ (s.dropTap).ovc = s.ovc ∧
      (s.dropTap).gxt = s.gxt ∧ (s.dropTap).vin = s.vin ∧ (s.dropTap).pje = s.pje ∧ (s.dropTap).scr = s.scr ∧
      (s.dropTap).rqu = s.rqu ∧ (s.dropTap).ctl = s.ctl ∧ (s.dropTap).ptu = { s.ptu with taps := s.ptu.taps.tail } :=
  ⟨rfl, rfl, rfl, rfl, rfl, rfl, rfl, rfl, rfl, rfl, rfl⟩

@[simp] theorem State.countNoteLate_frame (s : State) :
    (s.countNoteLate).pending = s.pending ∧ (s.countNoteLate).scu = s.scu ∧ (s.countNoteLate).lsq = s.lsq ∧
      (s.countNoteLate).ovc = s.ovc ∧ (s.countNoteLate).gxt = s.gxt ∧ (s.countNoteLate).vin = s.vin ∧
      (s.countNoteLate).scr = s.scr ∧ (s.countNoteLate).rqu = s.rqu ∧ (s.countNoteLate).ptu = s.ptu ∧
      (s.countNoteLate).ctl = s.ctl ∧ (s.countNoteLate).pje = { s.pje with noteLate := s.pje.noteLate + 1 } :=
  ⟨rfl, rfl, rfl, rfl, rfl, rfl, rfl, rfl, rfl, rfl, rfl⟩

@[simp] theorem State.pushHistory_frame (t : Ticket) (s : State) :
    (s.pushHistory t).pending = s.pending ∧ (s.pushHistory t).scu = s.scu ∧ (s.pushHistory t).lsq = s.lsq ∧
      (s.pushHistory t).ovc = s.ovc ∧ (s.pushHistory t).gxt = s.gxt ∧ (s.pushHistory t).vin = s.vin ∧
      (s.pushHistory t).pje = s.pje ∧ (s.pushHistory t).scr = s.scr ∧ (s.pushHistory t).ptu = s.ptu ∧
      (s.pushHistory t).ctl = s.ctl ∧ (s.pushHistory t).rqu.queue = s.rqu.queue ∧
      (s.pushHistory t).rqu.lastNumber = s.rqu.lastNumber :=
  ⟨rfl, rfl, rfl, rfl, rfl, rfl, rfl, rfl, rfl, rfl, rfl, rfl⟩

end Sys2Proof.Machine
end

