-- ==== Sys2Proof/Laws/Traffic.lean ====
section
/-! SUPPORT. What handing own requests, beginning an operation, orphaning and a result do, said once: the
requests handed stay in the order handed, and the two links are left alone. -/

namespace Sys2Proof.Machine

@[simp] theorem Ptu.enqueue_handed (r : OwnRequest) (p : Ptu) (hk : p.kept = []) (hi : p.intake = []) :
    (p.enqueue r).handed = p.handed ++ [r] := by
  simp [Ptu.enqueue, Ptu.handed, hk, hi]

/-- A request handed stands behind every request handed before it (R169). -/
@[simp] theorem Ptu.hand_handed (r : OwnRequest) (p : Ptu) : (p.hand r).handed = p.handed ++ [r] := by
  unfold Ptu.hand
  split
  · next h => exact Ptu.enqueue_handed r p h.1 h.2.1
  · split
    · next h => simp [Ptu.handed, h.1]
    · simp [Ptu.handed]

@[simp] theorem Ptu.hand_links (r : OwnRequest) (p : Ptu) : (p.hand r).links = p.links := by
  unfold Ptu.hand Ptu.enqueue
  split
  · rfl
  · split <;> rfl

/-- Handing leaves the operations and everything the two links hold. -/
@[simp] theorem Ptu.hand_fields (r : OwnRequest) (p : Ptu) :
    (p.hand r).nextOp = p.nextOp ∧ (p.hand r).ops = p.ops ∧ (p.hand r).ended = p.ended ∧
      (p.hand r).controlBase = p.controlBase ∧ (p.hand r).windows = p.windows ∧ (p.hand r).tags = p.tags ∧
      (p.hand r).rotateN = p.rotateN ∧ (p.hand r).ownLimit = p.ownLimit ∧ (p.hand r).ownBase = p.ownBase ∧
      (p.hand r).retryMax = p.retryMax ∧ (p.hand r).reads = p.reads ∧ (p.hand r).shut = p.shut ∧
      (p.hand r).rotation = p.rotation ∧ (p.hand r).discard = p.discard ∧ (p.hand r).placed = p.placed ∧
      (p.hand r).passQueue = p.passQueue ∧ (p.hand r).taps = p.taps ∧ (p.hand r).sysHeld = p.sysHeld ∧
      (p.hand r).sysOrder = p.sysOrder ∧ (p.hand r).sysOut = p.sysOut ∧ (p.hand r).memError = p.memError ∧
      (p.hand r).memErrorCount = p.memErrorCount ∧ (p.hand r).pathFault = p.pathFault ∧
      (p.hand r).guardHit = p.guardHit ∧ (p.hand r).lastGuard = p.lastGuard := by
  unfold Ptu.hand Ptu.enqueue
  split
  · simp
  · split <;> simp

@[simp] theorem Ptu.handAll_handed (c : Client) (op : Nat) (rs : List (Nat × Body)) :
    ∀ (k : Nat) (p : Ptu), (Ptu.handAll c op k rs p).handed = p.handed ++ requestsOf c op k rs := by
  induction rs with
  | nil => intro k p; simp [Ptu.handAll, requestsOf]
  | cons x rest ih => intro k p; simp [Ptu.handAll, requestsOf, ih]

@[simp] theorem Ptu.handAll_links (c : Client) (op : Nat) (rs : List (Nat × Body)) :
    ∀ (k : Nat) (p : Ptu), (Ptu.handAll c op k rs p).links = p.links := by
  induction rs with
  | nil => intro k p; rfl
  | cons x rest ih => intro k p; simp [Ptu.handAll, ih]

@[simp] theorem Ptu.handAll_fields (c : Client) (op : Nat) (rs : List (Nat × Body)) :
    ∀ (k : Nat) (p : Ptu), (Ptu.handAll c op k rs p).nextOp = p.nextOp ∧ (Ptu.handAll c op k rs p).ops = p.ops ∧
      (Ptu.handAll c op k rs p).ended = p.ended ∧ (Ptu.handAll c op k rs p).controlBase = p.controlBase ∧
      (Ptu.handAll c op k rs p).windows = p.windows ∧ (Ptu.handAll c op k rs p).tags = p.tags ∧
      (Ptu.handAll c op k rs p).rotateN = p.rotateN ∧ (Ptu.handAll c op k rs p).ownLimit = p.ownLimit ∧
      (Ptu.handAll c op k rs p).ownBase = p.ownBase ∧ (Ptu.handAll c op k rs p).retryMax = p.retryMax ∧
      (Ptu.handAll c op k rs p).reads = p.reads ∧ (Ptu.handAll c op k rs p).shut = p.shut ∧
      (Ptu.handAll c op k rs p).rotation = p.rotation ∧ (Ptu.handAll c op k rs p).discard = p.discard ∧
      (Ptu.handAll c op k rs p).placed = p.placed ∧ (Ptu.handAll c op k rs p).passQueue = p.passQueue ∧
      (Ptu.handAll c op k rs p).taps = p.taps ∧ (Ptu.handAll c op k rs p).sysHeld = p.sysHeld ∧
      (Ptu.handAll c op k rs p).sysOrder = p.sysOrder ∧ (Ptu.handAll c op k rs p).sysOut = p.sysOut := by
  induction rs with
  | nil => intro k p; simp [Ptu.handAll]
  | cons x rest ih => intro k p; simp [Ptu.handAll, ih]

/-- An operation begun hands its requests in order behind all those handed before. -/
@[simp] theorem Ptu.startOp_handed (kind : OpKind) (c : Client) (rs : List (Nat × Body)) (p : Ptu) :
    (p.startOp kind c rs).handed = p.handed ++ requestsOf c p.nextOp 0 rs := by
  unfold Ptu.startOp
  rw [Ptu.handAll_handed]
  rfl

@[simp] theorem Ptu.startOp_links (kind : OpKind) (c : Client) (rs : List (Nat × Body)) (p : Ptu) :
    (p.startOp kind c rs).links = p.links := by
  unfold Ptu.startOp
  rw [Ptu.handAll_links]
  rfl

@[simp] theorem Ptu.startOp_fields (kind : OpKind) (c : Client) (rs : List (Nat × Body)) (p : Ptu) :
    (p.startOp kind c rs).nextOp = p.nextOp + 1 ∧
      (p.startOp kind c rs).ops = p.ops ++ [⟨p.nextOp, kind, List.replicate rs.length .waiting⟩] ∧
      (p.startOp kind c rs).ended = p.ended ∧ (p.startOp kind c rs).controlBase = p.controlBase ∧
      (p.startOp kind c rs).windows = p.windows ∧ (p.startOp kind c rs).tags = p.tags ∧
      (p.startOp kind c rs).rotateN = p.rotateN ∧ (p.startOp kind c rs).ownLimit = p.ownLimit ∧
      (p.startOp kind c rs).ownBase = p.ownBase ∧ (p.startOp kind c rs).retryMax = p.retryMax ∧
      (p.startOp kind c rs).reads = p.reads ∧ (p.startOp kind c rs).shut = p.shut ∧
      (p.startOp kind c rs).rotation = p.rotation ∧ (p.startOp kind c rs).discard = p.discard ∧
      (p.startOp kind c rs).placed = p.placed ∧ (p.startOp kind c rs).passQueue = p.passQueue ∧
      (p.startOp kind c rs).taps = p.taps ∧ (p.startOp kind c rs).sysHeld = p.sysHeld ∧
      (p.startOp kind c rs).sysOrder = p.sysOrder ∧ (p.startOp kind c rs).sysOut = p.sysOut := by
  simp [Ptu.startOp]

/-- Requests handed with no operation of their own stand in order behind all those handed before. -/
@[simp] theorem Ptu.handUnwatched_handed (c : Client) (rs : List (Nat × Body)) (p : Ptu) :
    (p.handUnwatched c rs).handed = p.handed ++ requestsOf c p.nextOp 0 rs := by
  unfold Ptu.handUnwatched
  rw [Ptu.handAll_handed]
  rfl

@[simp] theorem Ptu.handUnwatched_links (c : Client) (rs : List (Nat × Body)) (p : Ptu) :
    (p.handUnwatched c rs).links = p.links := by
  unfold Ptu.handUnwatched
  rw [Ptu.handAll_links]
  rfl

@[simp] theorem Ptu.handUnwatched_fields (c : Client) (rs : List (Nat × Body)) (p : Ptu) :
    (p.handUnwatched c rs).nextOp = p.nextOp + 1 ∧ (p.handUnwatched c rs).ops = p.ops ∧
      (p.handUnwatched c rs).ended = p.ended ∧ (p.handUnwatched c rs).controlBase = p.controlBase ∧
      (p.handUnwatched c rs).windows = p.windows ∧ (p.handUnwatched c rs).tags = p.tags ∧
      (p.handUnwatched c rs).rotateN = p.rotateN ∧ (p.handUnwatched c rs).ownLimit = p.ownLimit ∧
      (p.handUnwatched c rs).ownBase = p.ownBase ∧ (p.handUnwatched c rs).retryMax = p.retryMax ∧
      (p.handUnwatched c rs).reads = p.reads ∧ (p.handUnwatched c rs).shut = p.shut ∧
      (p.handUnwatched c rs).rotation = p.rotation ∧ (p.handUnwatched c rs).placed = p.placed ∧
      (p.handUnwatched c rs).passQueue = p.passQueue ∧ (p.handUnwatched c rs).taps = p.taps := by
  simp [Ptu.handUnwatched]

/-! ## Work that waits for the line (R169) -/

/-- A work that may wait either has its effect or changes nothing. -/
theorem State.whenRoom_cases (work : State → State) (s : State) :
    s.whenRoom work = work s ∨ (s.whenRoom work = s ∧ s.ptu.lineFull = true) := by
  unfold State.whenRoom
  split
  · next h =>
    simp only [Bool.and_eq_true] at h
    exact .inr ⟨rfl, h.1⟩
  · exact .inl rfl

/-- With room in the line no work waits. -/
@[simp] theorem State.whenRoom_room (work : State → State) {s : State} (h : s.ptu.lineFull = false) :
    s.whenRoom work = work s := by
  simp [State.whenRoom, h]

/-- What a work keeps of a state, it keeps when it may wait. -/
theorem State.whenRoom_keeps {α : Type} (f : State → α) (work : State → State) (s : State) (h : f (work s) = f s) :
    f (s.whenRoom work) = f s := by
  rcases State.whenRoom_cases work s with e | ⟨e, _⟩ <;> rw [e]
  exact h

/-- Orphaning drops operations and nothing else: their requests run on. -/
@[simp] theorem Ptu.orphan_fields (sel : OpKind → Bool) (p : Ptu) :
    (p.orphan sel).handed = p.handed ∧ (p.orphan sel).queue = p.queue ∧ (p.orphan sel).intake = p.intake ∧
      (p.orphan sel).kept = p.kept ∧ (p.orphan sel).nextOp = p.nextOp ∧ (p.orphan sel).windows = p.windows ∧
      (p.orphan sel).reads = p.reads ∧ (p.orphan sel).shut = p.shut ∧ (p.orphan sel).rotation = p.rotation ∧
      (p.orphan sel).rotateN = p.rotateN ∧ (p.orphan sel).ownLimit = p.ownLimit ∧
      (p.orphan sel).ownBase = p.ownBase ∧ (p.orphan sel).placed = p.placed ∧
      (p.orphan sel).passQueue = p.passQueue ∧ (p.orphan sel).taps = p.taps ∧
      (p.orphan sel).controlBase = p.controlBase :=
  ⟨rfl, rfl, rfl, rfl, rfl, rfl, rfl, rfl, rfl, rfl, rfl, rfl, rfl, rfl, rfl, rfl⟩

@[simp] theorem Ptu.orphanId_fields (id : Option Nat) (p : Ptu) :
    (p.orphanId id).handed = p.handed ∧ (p.orphanId id).nextOp = p.nextOp ∧ (p.orphanId id).windows = p.windows ∧
      (p.orphanId id).reads = p.reads ∧ (p.orphanId id).shut = p.shut ∧ (p.orphanId id).rotation = p.rotation ∧
      (p.orphanId id).rotateN = p.rotateN ∧ (p.orphanId id).ownLimit = p.ownLimit ∧
      (p.orphanId id).ownBase = p.ownBase ∧ (p.orphanId id).placed = p.placed ∧
      (p.orphanId id).passQueue = p.passQueue ∧ (p.orphanId id).taps = p.taps ∧
      (p.orphanId id).controlBase = p.controlBase := by
  cases id <;> simp [Ptu.orphanId, Ptu.handed]

@[simp] theorem Ptu.orphan_links (sel : OpKind → Bool) (p : Ptu) : (p.orphan sel).links = p.links := rfl

@[simp] theorem Ptu.orphanId_links (id : Option Nat) (p : Ptu) : (p.orphanId id).links = p.links := by
  cases id <;> rfl

/-- An ended operation taken leaves what is handed and everything on the links. -/
@[simp] theorem Ptu.dropEnded_fields (id : Nat) (p : Ptu) :
    (p.dropEnded id).links = p.links ∧ (p.dropEnded id).handed = p.handed ∧ (p.dropEnded id).nextOp = p.nextOp ∧
      (p.dropEnded id).ops = p.ops ∧ (p.dropEnded id).windows = p.windows :=
  ⟨rfl, rfl, rfl, rfl, rfl⟩

/-- Two states of the Path Unit that agree on the links agree on each field of the links. -/
theorem Ptu.links_fields {p q : Ptu} (h : p.links = q.links) :
    p.controlBase = q.controlBase ∧ p.windows = q.windows ∧ p.tags = q.tags ∧ p.rotateN = q.rotateN ∧
      p.ownLimit = q.ownLimit ∧ p.ownBase = q.ownBase ∧ p.retryMax = q.retryMax ∧ p.reads = q.reads ∧
      p.shut = q.shut ∧ p.rotation = q.rotation ∧ p.discard = q.discard ∧ p.pathFault = q.pathFault ∧
      p.guardHit = q.guardHit ∧ p.lastGuard = q.lastGuard ∧ p.memError = q.memError ∧
      p.memErrorCount = q.memErrorCount ∧ p.passQueue = q.passQueue ∧ p.placed = q.placed ∧ p.taps = q.taps ∧
      p.sysHeld = q.sysHeld ∧ p.sysOrder = q.sysOrder ∧ p.sysOut = q.sysOut := by
  simp only [Ptu.links, Ptu.mk.injEq] at h
  simp [h]

/-- A result touches the result count and own traffic, and nothing else. -/
@[simp] theorem State.result_frame (code tag : BitVec 16) (rc : ResultCode) (vs : List Word) (s : State) :
    (s.result code tag rc vs).pending = s.pending ∧ (s.result code tag rc vs).scu = s.scu ∧
      (s.result code tag rc vs).lsq = s.lsq ∧ (s.result code tag rc vs).ovc = s.ovc ∧
      (s.result code tag rc vs).gxt = s.gxt ∧ (s.result code tag rc vs).vin = s.vin ∧
      (s.result code tag rc vs).pje = s.pje ∧ (s.result code tag rc vs).scr = s.scr ∧
      (s.result code tag rc vs).rqu = s.rqu ∧ (s.result code tag rc vs).ptu.links = s.ptu.links ∧
      (s.result code tag rc vs).ctl = { s.ctl with resultCount := s.ctl.resultCount + 1 } :=
  ⟨rfl, rfl, rfl, rfl, rfl, rfl, rfl, rfl, rfl, Ptu.startOp_links .., rfl⟩

end Sys2Proof.Machine
end

