-- ==== Sys2Proof/Laws/FramesQueue.lean ====
section
/-! SUPPORT. The frames of the Request Queue Unit's operations and of the rewrites that close a step. Each lemma says once which blocks an operation leaves as they were. -/

namespace Sys2Proof.Machine

@[simp] theorem State.beginImage_frame (s : State) :
    (s.beginImage).pending = s.pending ∧ (s.beginImage).scu = s.scu ∧ (s.beginImage).lsq = s.lsq ∧
      (s.beginImage).ovc = s.ovc ∧ (s.beginImage).gxt = s.gxt ∧ (s.beginImage).vin = s.vin ∧
      (s.beginImage).pje = s.pje ∧ (s.beginImage).scr = s.scr ∧ (s.beginImage).ctl = s.ctl ∧
      (s.beginImage).ptu.links = s.ptu.links := by
  unfold State.beginImage
  split <;> simp

@[simp] theorem State.beginStatus_frame (s : State) :
    (s.beginStatus).pending = s.pending ∧ (s.beginStatus).scu = s.scu ∧ (s.beginStatus).lsq = s.lsq ∧
      (s.beginStatus).ovc = s.ovc ∧ (s.beginStatus).gxt = s.gxt ∧ (s.beginStatus).vin = s.vin ∧
      (s.beginStatus).pje = s.pje ∧ (s.beginStatus).scr = s.scr ∧ (s.beginStatus).rqu = s.rqu ∧
      (s.beginStatus).ptu.links = s.ptu.links := by
  unfold State.beginStatus
  split <;> simp

/-- What closes a step touches the two generations and own traffic only. -/
@[simp] theorem State.flush_frame (s : State) :
    (s.flush).pending = s.pending ∧ (s.flush).scu = s.scu ∧ (s.flush).lsq = s.lsq ∧ (s.flush).ovc = s.ovc ∧
      (s.flush).gxt = s.gxt ∧ (s.flush).vin = s.vin ∧ (s.flush).pje = s.pje ∧ (s.flush).scr = s.scr ∧
      (s.flush).ptu.links = s.ptu.links := by
  simp [State.flush]

/-- What has begun is no longer owed, so closing an arrival twice is closing it once. -/
@[simp] theorem State.flush_flush (s : State) : s.flush.flush = s.flush := by
  have image : ∀ t : State, (t.rqu.imageOwed = true → t.rqu.imageOp = none → t.ptu.lineFull = true) →
      t.beginImage = t := fun t h => if_neg fun c => by simp [h c.1 c.2.1] at c
  have status : ∀ t : State, (t.ctl.statusOwed = true → t.ctl.statusOp = none → t.ptu.lineFull = true) →
      t.beginStatus = t := fun t h => if_neg fun c => by simp [h c.1 c.2.1] at c
  have begun : ∀ t : State, t.beginImage = t ∨ t.beginImage.rqu.imageOwed = false := fun t => by
    unfold State.beginImage; split <;> simp
  have begun' : ∀ t : State, t.beginStatus = t ∨ t.beginStatus.ctl.statusOwed = false := fun t => by
    unfold State.beginStatus; split <;> simp
  have hi : s.beginImage.beginStatus.beginImage = s.beginImage.beginStatus := by
    rcases begun' s.beginImage with h | h
    · rw [h]
      rcases begun s with g | g
      · rw [g, g]
      · exact image _ (by simp [g])
    · rcases begun s with g | g
      · rw [g]
        rw [g] at h
        refine image _ fun ho hn => ?_
        by_cases hl : s.ptu.lineFull = true
        · have : s.beginStatus = s := status s (fun _ _ => hl)
          rw [this]; exact hl
        · have hb : s.beginImage.rqu.imageOwed = false := by
            simp only [State.beginStatus_frame] at ho hn
            simp [State.beginImage, ho, hn, hl]
          rw [g] at hb
          simp [hb] at ho
      · exact image _ (by simp [g])
  unfold State.flush
  rw [hi]
  rcases begun' s.beginImage with h | h
  · rw [h, h]
  · exact status _ (by simp [h])

@[simp] theorem State.queueChanged_frame (old : Nat) (s : State) :
    (s.queueChanged old).pending = s.pending ∧ (s.queueChanged old).scu = s.scu ∧
      (s.queueChanged old).lsq = s.lsq ∧ (s.queueChanged old).ovc = s.ovc ∧ (s.queueChanged old).gxt = s.gxt ∧
      (s.queueChanged old).vin = s.vin ∧ (s.queueChanged old).pje = s.pje ∧ (s.queueChanged old).scr = s.scr ∧
      (s.queueChanged old).ptu = s.ptu := by
  unfold State.queueChanged
  dsimp only
  repeat' split
  all_goals simp

@[simp] theorem State.placeReply_frame (r : Reply) (score : Bool) (s : State) :
    (s.placeReply r score).pending = s.pending ∧ (s.placeReply r score).scu = s.scu ∧
      (s.placeReply r score).lsq = s.lsq ∧ (s.placeReply r score).ovc = s.ovc ∧
      (s.placeReply r score).gxt = s.gxt ∧ (s.placeReply r score).vin = s.vin ∧
      (s.placeReply r score).pje = s.pje ∧ (s.placeReply r score).ctl = s.ctl ∧
      (s.placeReply r score).ptu.links = s.ptu.links := by
  unfold State.placeReply
  dsimp only
  repeat' split
  all_goals simp

@[simp] theorem State.issueReply_frame (h : Fin 16) (b : ReplyBody) (score : Bool) (s : State) :
    (s.issueReply h b score).pending = s.pending ∧ (s.issueReply h b score).scu = s.scu ∧
      (s.issueReply h b score).lsq = s.lsq ∧ (s.issueReply h b score).ovc = s.ovc ∧
      (s.issueReply h b score).gxt = s.gxt ∧ (s.issueReply h b score).vin = s.vin ∧
      (s.issueReply h b score).pje = s.pje ∧ (s.issueReply h b score).ctl = s.ctl ∧
      (s.issueReply h b score).ptu.links = s.ptu.links := by
  simp [State.issueReply]

@[simp] theorem State.placeReply_scr (r : Reply) (s : State) : (s.placeReply r false).scr = s.scr := by
  unfold State.placeReply
  dsimp only
  split <;> simp

@[simp] theorem State.issueReply_scr (h : Fin 16) (b : ReplyBody) (s : State) : (s.issueReply h b false).scr = s.scr := by
  simp [State.issueReply]

/-- Placing a reply leaves the queue of tickets. -/
@[simp] theorem State.placeReply_queue (r : Reply) (score : Bool) (s : State) :
    (s.placeReply r score).rqu.queue = s.rqu.queue ∧ (s.placeReply r score).rqu.lastNumber = s.rqu.lastNumber ∧
      (s.placeReply r score).rqu.arrival = s.rqu.arrival ∧ (s.placeReply r score).rqu.closed = s.rqu.closed ∧
      (s.placeReply r score).rqu.history = s.rqu.history := by
  unfold State.placeReply
  dsimp only
  split <;> simp

/-- Issuing a reply leaves the queue of tickets. -/
@[simp] theorem State.issueReply_queue (h : Fin 16) (b : ReplyBody) (score : Bool) (s : State) :
    (s.issueReply h b score).rqu.queue = s.rqu.queue ∧ (s.issueReply h b score).rqu.lastNumber = s.rqu.lastNumber ∧
      (s.issueReply h b score).rqu.arrival = s.rqu.arrival ∧ (s.issueReply h b score).rqu.closed = s.rqu.closed ∧
      (s.issueReply h b score).rqu.history = s.rqu.history := by
  simp [State.issueReply]

@[simp] theorem State.replyToSource_frame (src : Source) (b : ReplyBody) (s : State) :
    (s.replyToSource src b).pending = s.pending ∧ (s.replyToSource src b).scu = s.scu ∧
      (s.replyToSource src b).lsq = s.lsq ∧ (s.replyToSource src b).ovc = s.ovc ∧
      (s.replyToSource src b).gxt = s.gxt ∧ (s.replyToSource src b).vin = s.vin ∧
      (s.replyToSource src b).pje = s.pje ∧ (s.replyToSource src b).scr = s.scr ∧
      (s.replyToSource src b).ctl = s.ctl ∧ (s.replyToSource src b).ptu.links = s.ptu.links := by
  unfold State.replyToSource
  split <;> simp

/-- The staging test touches the queue, replies and the staged copy only. -/
@[simp] theorem State.stageTest_frame (s : State) :
    (s.stageTest).pending = s.pending ∧ (s.stageTest).scu = s.scu ∧ (s.stageTest).lsq = s.lsq ∧
      (s.stageTest).ovc = s.ovc ∧ (s.stageTest).gxt = s.gxt ∧ (s.stageTest).vin = s.vin ∧
      (s.stageTest).pje = s.pje ∧ (s.stageTest).scr = s.scr ∧ (s.stageTest).ptu.links = s.ptu.links := by
  unfold State.stageTest
  split
  · simp
  · split <;> simp

@[simp] theorem State.acceptRequest_frame (h : Fin 16) (song : Nat) (key : Int) (singers : Nat) (s : State) :
    (s.acceptRequest h song key singers).pending = s.pending ∧
      (s.acceptRequest h song key singers).scu = s.scu ∧ (s.acceptRequest h song key singers).lsq = s.lsq ∧
      (s.acceptRequest h song key singers).ovc = s.ovc ∧ (s.acceptRequest h song key singers).gxt = s.gxt ∧
      (s.acceptRequest h song key singers).vin = s.vin ∧ (s.acceptRequest h song key singers).pje = s.pje ∧
      (s.acceptRequest h song key singers).scr = s.scr ∧
      (s.acceptRequest h song key singers).ptu.links = s.ptu.links := by
  simp [State.acceptRequest]

@[simp] theorem State.handleRequest_frame (h : Fin 16) (req : HeldRequest) (s : State) :
    (s.handleRequest h req).pending = s.pending ∧ (s.handleRequest h req).scu = s.scu ∧
      (s.handleRequest h req).lsq = s.lsq ∧ (s.handleRequest h req).ovc = s.ovc ∧
      (s.handleRequest h req).gxt = s.gxt ∧ (s.handleRequest h req).vin = s.vin ∧
      (s.handleRequest h req).pje = s.pje ∧ (s.handleRequest h req).scr = s.scr ∧
      (s.handleRequest h req).ptu.links = s.ptu.links := by
  unfold State.handleRequest
  split
  · simp
  · split <;> simp
  · simp

@[simp] theorem State.drainVisit_frame (h : Fin 16) (s : State) :
    (s.drainVisit h).pending = s.pending ∧ (s.drainVisit h).scu = s.scu ∧ (s.drainVisit h).lsq = s.lsq ∧
      (s.drainVisit h).ovc = s.ovc ∧ (s.drainVisit h).gxt = s.gxt ∧ (s.drainVisit h).vin = s.vin ∧
      (s.drainVisit h).pje = s.pje ∧ (s.drainVisit h).scr = s.scr ∧
      (s.drainVisit h).ptu.links = s.ptu.links := by
  unfold State.drainVisit
  split
  · simp
  · split
    · dsimp only
      split <;> simp
    · simp

@[simp] theorem State.drainVisit_foldl_frame (l : List (Fin 16)) (s : State) :
    (l.foldl State.drainVisit s).pending = s.pending ∧ (l.foldl State.drainVisit s).scu = s.scu ∧
      (l.foldl State.drainVisit s).lsq = s.lsq ∧ (l.foldl State.drainVisit s).ovc = s.ovc ∧
      (l.foldl State.drainVisit s).gxt = s.gxt ∧ (l.foldl State.drainVisit s).vin = s.vin ∧
      (l.foldl State.drainVisit s).pje = s.pje ∧ (l.foldl State.drainVisit s).scr = s.scr ∧
      (l.foldl State.drainVisit s).ptu.links = s.ptu.links := by
  induction l generalizing s with
  | nil => simp
  | cons x rest ih => simp [ih]

@[simp] theorem State.drainSlots_frame (s : State) :
    (s.drainSlots).pending = s.pending ∧ (s.drainSlots).scu = s.scu ∧ (s.drainSlots).lsq = s.lsq ∧
      (s.drainSlots).ovc = s.ovc ∧ (s.drainSlots).gxt = s.gxt ∧ (s.drainSlots).vin = s.vin ∧
      (s.drainSlots).pje = s.pje ∧ (s.drainSlots).scr = s.scr ∧ (s.drainSlots).ptu.links = s.ptu.links := by
  simp [State.drainSlots]

/-- A departure touches the queue, replies and the staged copy only. -/
@[simp] theorem State.depart_frame (t : Ticket) (w : Bool) (s : State) :
    (s.depart t w).pending = s.pending ∧ (s.depart t w).scu = s.scu ∧ (s.depart t w).lsq = s.lsq ∧
      (s.depart t w).ovc = s.ovc ∧ (s.depart t w).gxt = s.gxt ∧ (s.depart t w).vin = s.vin ∧
      (s.depart t w).pje = s.pje ∧ (s.depart t w).scr = s.scr ∧ (s.depart t w).ptu.links = s.ptu.links := by
  unfold State.depart
  dsimp only
  split <;> split <;> (try split) <;> simp

@[simp] theorem State.handleCancel_frame (h : Fin 16) (n : Nat) (s : State) :
    (s.handleCancel h n).pending = s.pending ∧ (s.handleCancel h n).scu = s.scu ∧
      (s.handleCancel h n).lsq = s.lsq ∧ (s.handleCancel h n).ovc = s.ovc ∧ (s.handleCancel h n).gxt = s.gxt ∧
      (s.handleCancel h n).vin = s.vin ∧ (s.handleCancel h n).pje = s.pje ∧ (s.handleCancel h n).scr = s.scr ∧
      (s.handleCancel h n).ptu.links = s.ptu.links := by
  unfold State.handleCancel
  repeat' split
  all_goals simp

@[simp] theorem State.takeInsert_frame (song : Nat) (key : Int) (singers : Nat) (priority : Bool) (s : State) :
    ((s.takeInsert song key singers priority).state).pending = s.pending ∧
      ((s.takeInsert song key singers priority).state).scu = s.scu ∧
      ((s.takeInsert song key singers priority).state).lsq = s.lsq ∧
      ((s.takeInsert song key singers priority).state).ovc = s.ovc ∧
      ((s.takeInsert song key singers priority).state).gxt = s.gxt ∧
      ((s.takeInsert song key singers priority).state).vin = s.vin ∧
      ((s.takeInsert song key singers priority).state).pje = s.pje ∧
      ((s.takeInsert song key singers priority).state).scr = s.scr ∧
      ((s.takeInsert song key singers priority).state).ptu.links = s.ptu.links := by
  unfold State.takeInsert
  split
  · simp
  · split <;> simp

@[simp] theorem State.takeRemove_frame (n : Nat) (s : State) :
    ((s.takeRemove n).state).pending = s.pending ∧ ((s.takeRemove n).state).scu = s.scu ∧
      ((s.takeRemove n).state).lsq = s.lsq ∧ ((s.takeRemove n).state).ovc = s.ovc ∧
      ((s.takeRemove n).state).gxt = s.gxt ∧ ((s.takeRemove n).state).vin = s.vin ∧
      ((s.takeRemove n).state).pje = s.pje ∧ ((s.takeRemove n).state).scr = s.scr ∧
      ((s.takeRemove n).state).ptu.links = s.ptu.links := by
  unfold State.takeRemove
  split
  · simp
  · split <;> simp

@[simp] theorem State.takePromote_frame (n : Nat) (s : State) :
    ((s.takePromote n).state).pending = s.pending ∧ ((s.takePromote n).state).scu = s.scu ∧
      ((s.takePromote n).state).lsq = s.lsq ∧ ((s.takePromote n).state).ovc = s.ovc ∧
      ((s.takePromote n).state).gxt = s.gxt ∧ ((s.takePromote n).state).vin = s.vin ∧
      ((s.takePromote n).state).pje = s.pje ∧ ((s.takePromote n).state).scr = s.scr ∧
      ((s.takePromote n).state).ptu.links = s.ptu.links := by
  unfold State.takePromote
  split
  · split <;> simp
  · split <;> simp

@[simp] theorem State.takeOpen_frame (s : State) :
    (s.takeOpen.state).pending = s.pending ∧ (s.takeOpen.state).scu = s.scu ∧ (s.takeOpen.state).lsq = s.lsq ∧
      (s.takeOpen.state).ovc = s.ovc ∧ (s.takeOpen.state).gxt = s.gxt ∧ (s.takeOpen.state).vin = s.vin ∧
      (s.takeOpen.state).pje = s.pje ∧ (s.takeOpen.state).scr = s.scr ∧ (s.takeOpen.state).ptu = s.ptu ∧
      (s.takeOpen.state).ctl = s.ctl := by
  simp [State.takeOpen]

@[simp] theorem State.closeVisit_frame (h : Fin 16) (s : State) :
    (s.closeVisit h).pending = s.pending ∧ (s.closeVisit h).scu = s.scu ∧ (s.closeVisit h).lsq = s.lsq ∧
      (s.closeVisit h).ovc = s.ovc ∧ (s.closeVisit h).gxt = s.gxt ∧ (s.closeVisit h).vin = s.vin ∧
      (s.closeVisit h).pje = s.pje ∧ (s.closeVisit h).scr = s.scr ∧ (s.closeVisit h).ctl = s.ctl ∧
      (s.closeVisit h).ptu.links = s.ptu.links := by
  unfold State.closeVisit
  split <;> simp

@[simp] theorem State.closeVisit_foldl_frame (l : List (Fin 16)) (s : State) :
    (l.foldl State.closeVisit s).pending = s.pending ∧ (l.foldl State.closeVisit s).scu = s.scu ∧
      (l.foldl State.closeVisit s).lsq = s.lsq ∧ (l.foldl State.closeVisit s).ovc = s.ovc ∧
      (l.foldl State.closeVisit s).gxt = s.gxt ∧ (l.foldl State.closeVisit s).vin = s.vin ∧
      (l.foldl State.closeVisit s).pje = s.pje ∧ (l.foldl State.closeVisit s).scr = s.scr ∧
      (l.foldl State.closeVisit s).ctl = s.ctl ∧ (l.foldl State.closeVisit s).ptu.links = s.ptu.links := by
  induction l generalizing s with
  | nil => simp
  | cons x rest ih => simp [ih]

@[simp] theorem State.takeClose_frame (s : State) :
    (s.takeClose.state).pending = s.pending ∧ (s.takeClose.state).scu = s.scu ∧
      (s.takeClose.state).lsq = s.lsq ∧ (s.takeClose.state).ovc = s.ovc ∧ (s.takeClose.state).gxt = s.gxt ∧
      (s.takeClose.state).vin = s.vin ∧ (s.takeClose.state).pje = s.pje ∧ (s.takeClose.state).scr = s.scr ∧
      (s.takeClose.state).ctl = s.ctl ∧ (s.takeClose.state).ptu.links = s.ptu.links := by
  simp [State.takeClose]

@[simp] theorem State.clearQueue_frame (s : State) :
    (s.clearQueue).pending = s.pending ∧ (s.clearQueue).scu = s.scu ∧ (s.clearQueue).lsq = s.lsq ∧
      (s.clearQueue).ovc = s.ovc ∧ (s.clearQueue).gxt = s.gxt ∧ (s.clearQueue).vin = s.vin ∧
      (s.clearQueue).pje = s.pje ∧ (s.clearQueue).scr = s.scr ∧ (s.clearQueue).ptu = s.ptu := by
  unfold State.clearQueue
  dsimp only
  split <;> simp

end Sys2Proof.Machine
end

