-- ==== Sys2Proof/Laws/FramesSong.lean ====
section
/-! SUPPORT. The frames of the song's operations: clock, lyrics, voices, judgements and scores. Each lemma says once which blocks an operation leaves as they were. -/

namespace Sys2Proof.Machine

@[simp] theorem State.tick_frame (s : State) :
    (s.tick).pending = s.pending ∧ (s.tick).scu = s.scu ∧ (s.tick).lsq = s.lsq ∧ (s.tick).ovc = s.ovc ∧
      (s.tick).gxt = s.gxt ∧ (s.tick).vin = s.vin ∧ (s.tick).pje = s.pje ∧ (s.tick).rqu = s.rqu ∧
      (s.tick).ptu = s.ptu := by
  unfold State.tick
  split <;> simp

@[simp] theorem State.applyJudgement_frame (j : Judgement) (s : State) :
    (s.applyJudgement j).pending = s.pending ∧ (s.applyJudgement j).scu = s.scu ∧
      (s.applyJudgement j).lsq = s.lsq ∧ (s.applyJudgement j).ovc = s.ovc ∧ (s.applyJudgement j).gxt = s.gxt ∧
      (s.applyJudgement j).vin = s.vin ∧ (s.applyJudgement j).pje = s.pje ∧ (s.applyJudgement j).rqu = s.rqu ∧
      (s.applyJudgement j).ptu = s.ptu := by
  unfold State.applyJudgement
  dsimp only
  repeat' split
  all_goals simp

@[simp] theorem State.beginWriteOut_frame (s : State) :
    (s.beginWriteOut).pending = s.pending ∧ (s.beginWriteOut).scu = s.scu ∧ (s.beginWriteOut).lsq = s.lsq ∧
      (s.beginWriteOut).ovc = s.ovc ∧ (s.beginWriteOut).gxt = s.gxt ∧ (s.beginWriteOut).vin = s.vin ∧
      (s.beginWriteOut).pje = s.pje ∧ (s.beginWriteOut).ctl = s.ctl ∧
      (s.beginWriteOut).ptu.links = s.ptu.links := by
  unfold State.beginWriteOut
  dsimp only
  repeat' split
  all_goals simp

@[simp] theorem State.drainCheck_frame (s : State) :
    (s.drainCheck).pending = s.pending ∧ (s.drainCheck).lsq = s.lsq ∧ (s.drainCheck).ovc = s.ovc ∧
      (s.drainCheck).gxt = s.gxt ∧ (s.drainCheck).vin = s.vin ∧ (s.drainCheck).pje = s.pje ∧
      (s.drainCheck).ptu.links = s.ptu.links := by
  unfold State.drainCheck
  split <;> simp

@[simp] theorem State.vinDrain_frame (s : State) :
    (s.vinDrain).pending = s.pending ∧ (s.vinDrain).lsq = s.lsq ∧ (s.vinDrain).ovc = s.ovc ∧
      (s.vinDrain).gxt = s.gxt ∧ (s.vinDrain).pje = s.pje ∧ (s.vinDrain).ptu.links = s.ptu.links := by
  unfold State.vinDrain
  split <;> simp

@[simp] theorem State.pjeDrain_frame (s : State) :
    (s.pjeDrain).pending = s.pending ∧ (s.pjeDrain).lsq = s.lsq ∧ (s.pjeDrain).ovc = s.ovc ∧
      (s.pjeDrain).gxt = s.gxt ∧ (s.pjeDrain).vin = s.vin ∧ (s.pjeDrain).ptu.links = s.ptu.links := by
  unfold State.pjeDrain
  split <;> simp

@[simp] theorem State.tryNoteFetch_frame (s : State) :
    (s.tryNoteFetch).pending = s.pending ∧ (s.tryNoteFetch).scu = s.scu ∧ (s.tryNoteFetch).lsq = s.lsq ∧
      (s.tryNoteFetch).ovc = s.ovc ∧ (s.tryNoteFetch).gxt = s.gxt ∧ (s.tryNoteFetch).vin = s.vin ∧
      (s.tryNoteFetch).scr = s.scr ∧ (s.tryNoteFetch).rqu = s.rqu ∧ (s.tryNoteFetch).ctl = s.ctl ∧
      (s.tryNoteFetch).ptu.links = s.ptu.links := by
  unfold State.tryNoteFetch
  split <;> simp

@[simp] theorem State.takeBlock_frame (s : State) :
    (s.takeBlock).pending = s.pending ∧ (s.takeBlock).lsq = s.lsq ∧ (s.takeBlock).ovc = s.ovc ∧
      (s.takeBlock).gxt = s.gxt ∧ (s.takeBlock).ptu.links = s.ptu.links := by
  unfold State.takeBlock
  split <;> simp

@[simp] theorem State.endAnalysis_frame (e : BlockEntry) (s : State) :
    (s.endAnalysis e).pending = s.pending ∧ (s.endAnalysis e).lsq = s.lsq ∧ (s.endAnalysis e).ovc = s.ovc ∧
      (s.endAnalysis e).gxt = s.gxt ∧ (s.endAnalysis e).ptu.links = s.ptu.links := by
  simp [State.endAnalysis]

/-- Judging a block leaves the lyrics, the overlay and the glyphs. -/
@[simp] theorem State.judge_frame (b : BlockInHand) (period : Option Nat) (s : State) :
    (s.judge b period).pending = s.pending ∧ (s.judge b period).lsq = s.lsq ∧ (s.judge b period).ovc = s.ovc ∧
      (s.judge b period).gxt = s.gxt ∧ (s.judge b period).ptu.links = s.ptu.links := by
  unfold State.judge
  dsimp only
  repeat' split
  all_goals simp

@[simp] theorem State.retryJudgement_frame (s : State) :
    (s.retryJudgement).pending = s.pending ∧ (s.retryJudgement).lsq = s.lsq ∧ (s.retryJudgement).ovc = s.ovc ∧
      (s.retryJudgement).gxt = s.gxt ∧ (s.retryJudgement).ptu.links = s.ptu.links := by
  unfold State.retryJudgement
  repeat' split
  all_goals simp

@[simp] theorem State.offerPje_frame (s : State) :
    (s.offerPje).pending = s.pending ∧ (s.offerPje).lsq = s.lsq ∧ (s.offerPje).ovc = s.ovc ∧
      (s.offerPje).gxt = s.gxt ∧ (s.offerPje).ptu.links = s.ptu.links := by
  simp [State.offerPje]

@[simp] theorem State.abortAnalysis_frame (s : State) :
    (s.abortAnalysis).pending = s.pending ∧ (s.abortAnalysis).scu = s.scu ∧ (s.abortAnalysis).lsq = s.lsq ∧
      (s.abortAnalysis).ovc = s.ovc ∧ (s.abortAnalysis).gxt = s.gxt ∧ (s.abortAnalysis).scr = s.scr ∧
      (s.abortAnalysis).rqu = s.rqu ∧ (s.abortAnalysis).ptu = s.ptu ∧ (s.abortAnalysis).ctl = s.ctl := by
  unfold State.abortAnalysis
  split <;> simp

@[simp] theorem State.retireSlot_frame (k : Fin 8) (st : SlotState) (s : State) :
    (s.retireSlot k st).pending = s.pending ∧ (s.retireSlot k st).scu = s.scu ∧
      (s.retireSlot k st).ovc = s.ovc ∧ (s.retireSlot k st).gxt = s.gxt ∧ (s.retireSlot k st).vin = s.vin ∧
      (s.retireSlot k st).pje = s.pje ∧ (s.retireSlot k st).scr = s.scr ∧ (s.retireSlot k st).rqu = s.rqu ∧
      (s.retireSlot k st).ctl = s.ctl ∧ (s.retireSlot k st).ptu.links = s.ptu.links := by
  simp [State.retireSlot]

@[simp] theorem State.claimSlot_frame (k : Fin 8) (st : SlotState) (line : Nat) (s : State) :
    (s.claimSlot k st line).pending = s.pending ∧ (s.claimSlot k st line).scu = s.scu ∧
      (s.claimSlot k st line).ovc = s.ovc ∧ (s.claimSlot k st line).gxt = s.gxt ∧
      (s.claimSlot k st line).vin = s.vin ∧ (s.claimSlot k st line).pje = s.pje ∧
      (s.claimSlot k st line).scr = s.scr ∧ (s.claimSlot k st line).rqu = s.rqu ∧
      (s.claimSlot k st line).ctl = s.ctl ∧ (s.claimSlot k st line).ptu.links = s.ptu.links := by
  simp [State.claimSlot]

@[simp] theorem State.bindUnbound_frame (n : Nat) (s : State) :
    (s.bindUnbound n).pending = s.pending ∧ (s.bindUnbound n).scu = s.scu ∧ (s.bindUnbound n).ovc = s.ovc ∧
      (s.bindUnbound n).gxt = s.gxt ∧ (s.bindUnbound n).vin = s.vin ∧ (s.bindUnbound n).pje = s.pje ∧
      (s.bindUnbound n).scr = s.scr ∧ (s.bindUnbound n).rqu = s.rqu ∧ (s.bindUnbound n).ctl = s.ctl ∧
      (s.bindUnbound n).ptu.links = s.ptu.links := by
  induction n generalizing s with
  | zero => simp [State.bindUnbound]
  | succ n ih =>
    unfold State.bindUnbound
    split <;> simp [ih]

@[simp] theorem State.bindFree_frame (s : State) :
    (s.bindFree).pending = s.pending ∧ (s.bindFree).scu = s.scu ∧ (s.bindFree).ovc = s.ovc ∧
      (s.bindFree).gxt = s.gxt ∧ (s.bindFree).vin = s.vin ∧ (s.bindFree).pje = s.pje ∧
      (s.bindFree).scr = s.scr ∧ (s.bindFree).rqu = s.rqu ∧ (s.bindFree).ctl = s.ctl ∧
      (s.bindFree).ptu.links = s.ptu.links := by
  simp [State.bindFree]

@[simp] theorem State.lineLateRaised_frame (c : Bool) (s : State) :
    (s.lineLateRaised c).pending = s.pending ∧ (s.lineLateRaised c).scu = s.scu ∧
      (s.lineLateRaised c).ovc = s.ovc ∧ (s.lineLateRaised c).gxt = s.gxt ∧ (s.lineLateRaised c).vin = s.vin ∧
      (s.lineLateRaised c).pje = s.pje ∧ (s.lineLateRaised c).scr = s.scr ∧ (s.lineLateRaised c).rqu = s.rqu ∧
      (s.lineLateRaised c).ptu = s.ptu := by
  unfold State.lineLateRaised
  cases c <;> simp

/-- Entry into FINISHING leaves the lyrics, the overlay and the glyphs. -/
@[simp] theorem State.enterFinishing_frame (n : Nat) (s : State) :
    (s.enterFinishing n).pending = s.pending ∧ (s.enterFinishing n).lsq = s.lsq ∧
      (s.enterFinishing n).ovc = s.ovc ∧ (s.enterFinishing n).gxt = s.gxt ∧
      (s.enterFinishing n).ptu.links = s.ptu.links := by
  simp [State.enterFinishing]

@[simp] theorem State.leaveSong_frame (s : State) :
    (s.leaveSong).pending = s.pending ∧ (s.leaveSong).ovc = s.ovc ∧ (s.leaveSong).gxt = s.gxt ∧
      (s.leaveSong).rqu = s.rqu ∧ (s.leaveSong).ctl = s.ctl ∧ (s.leaveSong).ptu.links = s.ptu.links := by
  simp [State.leaveSong]

@[simp] theorem State.returnToIdle_frame (s : State) :
    (s.returnToIdle).pending = s.pending ∧ (s.returnToIdle).ovc = s.ovc ∧ (s.returnToIdle).gxt = s.gxt ∧
      (s.returnToIdle).ptu.links = s.ptu.links := by
  simp [State.returnToIdle]

@[simp] theorem State.loadBanner_frame (n : Nat) (s : State) :
    (s.loadBanner n).pending = s.pending ∧ (s.loadBanner n).ovc = s.ovc ∧ (s.loadBanner n).gxt = s.gxt ∧
      (s.loadBanner n).ptu.links = s.ptu.links := by
  unfold State.loadBanner
  split <;> simp

@[simp] theorem State.bannerLatch_frame (s : State) :
    (s.bannerLatch).pending = s.pending ∧ (s.bannerLatch).ovc = s.ovc ∧ (s.bannerLatch).gxt = s.gxt ∧
      (s.bannerLatch).ptu.links = s.ptu.links := by
  unfold State.bannerLatch
  split
  · split
    · rcases State.whenRoom_cases State.stageTest s.leaveSong with e | ⟨e, _⟩ <;> rw [e] <;> simp
    · simp
  · simp

@[simp] theorem State.resumeStaging_frame (s : State) :
    (s.resumeStaging).pending = s.pending ∧ (s.resumeStaging).scu = s.scu ∧ (s.resumeStaging).lsq = s.lsq ∧
      (s.resumeStaging).ovc = s.ovc ∧ (s.resumeStaging).gxt = s.gxt ∧ (s.resumeStaging).vin = s.vin ∧
      (s.resumeStaging).pje = s.pje ∧ (s.resumeStaging).ptu.links = s.ptu.links := by
  unfold State.resumeStaging
  split
  · rcases State.whenRoom_cases State.stageTest s with e | ⟨e, _⟩ <;> rw [e] <;> simp
  · simp

@[simp] theorem State.queueCue_frame (c : Cue) (s : State) :
    (s.queueCue c).pending = s.pending ∧ (s.queueCue c).scu = s.scu ∧ (s.queueCue c).ovc = s.ovc ∧
      (s.queueCue c).gxt = s.gxt ∧ (s.queueCue c).vin = s.vin ∧ (s.queueCue c).pje = s.pje ∧
      (s.queueCue c).scr = s.scr ∧ (s.queueCue c).rqu = s.rqu ∧ (s.queueCue c).ctl = s.ctl ∧
      (s.queueCue c).ptu.links = s.ptu.links := by
  simp [State.queueCue]

@[simp] theorem State.takeIn_frame (c : Cue) (s : State) :
    (s.takeIn c).pending = s.pending ∧ (s.takeIn c).scu = s.scu ∧ (s.takeIn c).ovc = s.ovc ∧
      (s.takeIn c).gxt = s.gxt ∧ (s.takeIn c).vin = s.vin ∧ (s.takeIn c).pje = s.pje ∧
      (s.takeIn c).scr = s.scr ∧ (s.takeIn c).rqu = s.rqu ∧ (s.takeIn c).ctl = s.ctl ∧
      (s.takeIn c).ptu.links = s.ptu.links := by
  unfold State.takeIn
  split <;> simp

@[simp] theorem State.retryHeldCue_frame (s : State) :
    (s.retryHeldCue).pending = s.pending ∧ (s.retryHeldCue).scu = s.scu ∧ (s.retryHeldCue).ovc = s.ovc ∧
      (s.retryHeldCue).gxt = s.gxt ∧ (s.retryHeldCue).vin = s.vin ∧ (s.retryHeldCue).pje = s.pje ∧
      (s.retryHeldCue).scr = s.scr ∧ (s.retryHeldCue).rqu = s.rqu ∧ (s.retryHeldCue).ctl = s.ctl ∧
      (s.retryHeldCue).ptu.links = s.ptu.links := by
  unfold State.retryHeldCue
  split <;> simp

@[simp] theorem State.tryCueFetch_frame (s : State) :
    (s.tryCueFetch).pending = s.pending ∧ (s.tryCueFetch).scu = s.scu ∧ (s.tryCueFetch).ovc = s.ovc ∧
      (s.tryCueFetch).gxt = s.gxt ∧ (s.tryCueFetch).vin = s.vin ∧ (s.tryCueFetch).pje = s.pje ∧
      (s.tryCueFetch).scr = s.scr ∧ (s.tryCueFetch).rqu = s.rqu ∧ (s.tryCueFetch).ctl = s.ctl ∧
      (s.tryCueFetch).ptu.links = s.ptu.links := by
  unfold State.tryCueFetch
  split <;> simp

@[simp] theorem State.snapScroll_frame (s : State) :
    (s.snapScroll).pending = s.pending ∧ (s.snapScroll).scu = s.scu ∧ (s.snapScroll).ovc = s.ovc ∧
      (s.snapScroll).gxt = s.gxt ∧ (s.snapScroll).vin = s.vin ∧ (s.snapScroll).pje = s.pje ∧
      (s.snapScroll).scr = s.scr ∧ (s.snapScroll).rqu = s.rqu ∧ (s.snapScroll).ctl = s.ctl ∧
      (s.snapScroll).ptu.links = s.ptu.links := by
  unfold State.snapScroll
  split
  · simp
  · dsimp only
    split
    · split <;> simp
    · simp

@[simp] theorem State.takeLineIn_frame (k : Fin 8) (n : Nat) (s : State) :
    (s.takeLineIn k n).pending = s.pending ∧ (s.takeLineIn k n).scu = s.scu ∧ (s.takeLineIn k n).ovc = s.ovc ∧
      (s.takeLineIn k n).gxt = s.gxt ∧ (s.takeLineIn k n).vin = s.vin ∧ (s.takeLineIn k n).pje = s.pje ∧
      (s.takeLineIn k n).scr = s.scr ∧ (s.takeLineIn k n).rqu = s.rqu ∧
      (s.takeLineIn k n).ptu.links = s.ptu.links := by
  unfold State.takeLineIn
  dsimp only
  repeat' split
  all_goals simp

@[simp] theorem State.retireSlot_foldl_frame (st : SlotState) (l : List (Fin 8)) (s : State) :
    (l.foldl (fun s k => State.retireSlot k st s) s).pending = s.pending ∧
      (l.foldl (fun s k => State.retireSlot k st s) s).scu = s.scu ∧
      (l.foldl (fun s k => State.retireSlot k st s) s).ovc = s.ovc ∧
      (l.foldl (fun s k => State.retireSlot k st s) s).gxt = s.gxt ∧
      (l.foldl (fun s k => State.retireSlot k st s) s).vin = s.vin ∧
      (l.foldl (fun s k => State.retireSlot k st s) s).pje = s.pje ∧
      (l.foldl (fun s k => State.retireSlot k st s) s).scr = s.scr ∧
      (l.foldl (fun s k => State.retireSlot k st s) s).rqu = s.rqu ∧
      (l.foldl (fun s k => State.retireSlot k st s) s).ctl = s.ctl ∧
      (l.foldl (fun s k => State.retireSlot k st s) s).ptu.links = s.ptu.links := by
  induction l generalizing s with
  | nil => simp
  | cons x rest ih => simp [ih]

@[simp] theorem State.takeBandClear_frame (s : State) :
    (s.takeBandClear).pending = s.pending ∧ (s.takeBandClear).scu = s.scu ∧ (s.takeBandClear).ovc = s.ovc ∧
      (s.takeBandClear).gxt = s.gxt ∧ (s.takeBandClear).vin = s.vin ∧ (s.takeBandClear).pje = s.pje ∧
      (s.takeBandClear).scr = s.scr ∧ (s.takeBandClear).rqu = s.rqu ∧ (s.takeBandClear).ctl = s.ctl ∧
      (s.takeBandClear).ptu.links = s.ptu.links := by
  simp [State.takeBandClear]

@[simp] theorem State.takeMark_frame (n : Nat) (s : State) :
    (s.takeMark n).pending = s.pending ∧ (s.takeMark n).scu = s.scu ∧ (s.takeMark n).lsq = s.lsq ∧
      (s.takeMark n).ovc = s.ovc ∧ (s.takeMark n).gxt = s.gxt ∧ (s.takeMark n).vin = s.vin ∧
      (s.takeMark n).pje = s.pje ∧ (s.takeMark n).scr = s.scr ∧ (s.takeMark n).rqu = s.rqu ∧
      (s.takeMark n).ptu = s.ptu := by
  simp [State.takeMark]

@[simp] theorem State.takeSongEnd_frame (n : Nat) (s : State) :
    (s.takeSongEnd n).pending = s.pending ∧ (s.takeSongEnd n).ovc = s.ovc ∧ (s.takeSongEnd n).gxt = s.gxt ∧
      (s.takeSongEnd n).ptu.links = s.ptu.links := by
  unfold State.takeSongEnd
  dsimp only
  split <;> simp

@[simp] theorem State.takeCue_frame (c : QueuedCue) (n : Nat) (s : State) :
    (s.takeCue c n).pending = s.pending ∧ (s.takeCue c n).ovc = s.ovc ∧ (s.takeCue c n).gxt = s.gxt ∧
      (s.takeCue c n).ptu.links = s.ptu.links := by
  unfold State.takeCue
  split <;> simp

@[simp] theorem State.takeDue_frame (fuel n : Nat) (s : State) :
    (s.takeDue fuel n).pending = s.pending ∧ (s.takeDue fuel n).ovc = s.ovc ∧ (s.takeDue fuel n).gxt = s.gxt ∧
      (s.takeDue fuel n).ptu.links = s.ptu.links := by
  induction fuel generalizing s with
  | zero => simp [State.takeDue]
  | succ fuel ih =>
    unfold State.takeDue
    split
    · simp
    · split <;> simp [ih]

@[simp] theorem State.takeCues_frame (s : State) :
    (s.takeCues).pending = s.pending ∧ (s.takeCues).ovc = s.ovc ∧ (s.takeCues).gxt = s.gxt ∧
      (s.takeCues).ptu.links = s.ptu.links := by
  simp [State.takeCues]

@[simp] theorem State.offerLsq_frame (s : State) :
    (s.offerLsq).pending = s.pending ∧ (s.offerLsq).ovc = s.ovc ∧ (s.offerLsq).gxt = s.gxt ∧
      (s.offerLsq).ptu.links = s.ptu.links := by
  simp [State.offerLsq]

/-- A SONG_MS offer leaves the overlay and the glyphs. -/
@[simp] theorem State.offer_frame (s : State) :
    (s.offer).pending = s.pending ∧ (s.offer).ovc = s.ovc ∧ (s.offer).gxt = s.gxt ∧
      (s.offer).ptu.links = s.ptu.links := by
  unfold State.offer
  split <;> simp

@[simp] theorem State.finishCommand_frame (rc : ResultCode) (s : State) :
    (s.finishCommand rc).pending = s.pending ∧ (s.finishCommand rc).scu = s.scu ∧
      (s.finishCommand rc).lsq = s.lsq ∧ (s.finishCommand rc).ovc = s.ovc ∧ (s.finishCommand rc).gxt = s.gxt ∧
      (s.finishCommand rc).vin = s.vin ∧ (s.finishCommand rc).pje = s.pje ∧ (s.finishCommand rc).scr = s.scr ∧
      (s.finishCommand rc).rqu = s.rqu ∧ (s.finishCommand rc).ptu.links = s.ptu.links := by
  unfold State.finishCommand
  split <;> simp

@[simp] theorem State.lsqRebuildEnd_frame (s : State) :
    (s.lsqRebuildEnd).pending = s.pending ∧ (s.lsqRebuildEnd).scu = s.scu ∧ (s.lsqRebuildEnd).ovc = s.ovc ∧
      (s.lsqRebuildEnd).gxt = s.gxt ∧ (s.lsqRebuildEnd).vin = s.vin ∧ (s.lsqRebuildEnd).pje = s.pje ∧
      (s.lsqRebuildEnd).scr = s.scr ∧ (s.lsqRebuildEnd).rqu = s.rqu ∧ (s.lsqRebuildEnd).ptu = s.ptu ∧
      (s.lsqRebuildEnd).ctl = s.ctl := by
  unfold State.lsqRebuildEnd
  repeat' split
  all_goals simp

@[simp] theorem State.pjeRebuildEnd_frame (s : State) :
    (s.pjeRebuildEnd).pending = s.pending ∧ (s.pjeRebuildEnd).scu = s.scu ∧ (s.pjeRebuildEnd).lsq = s.lsq ∧
      (s.pjeRebuildEnd).ovc = s.ovc ∧ (s.pjeRebuildEnd).gxt = s.gxt ∧ (s.pjeRebuildEnd).vin = s.vin ∧
      (s.pjeRebuildEnd).scr = s.scr ∧ (s.pjeRebuildEnd).rqu = s.rqu ∧ (s.pjeRebuildEnd).ptu = s.ptu ∧
      (s.pjeRebuildEnd).ctl = s.ctl := by
  unfold State.pjeRebuildEnd
  split <;> simp

@[simp] theorem State.leaveSeeking_frame (s : State) :
    (s.leaveSeeking).pending = s.pending ∧ (s.leaveSeeking).ovc = s.ovc ∧ (s.leaveSeeking).gxt = s.gxt ∧
      (s.leaveSeeking).ptu.links = s.ptu.links := by
  unfold State.leaveSeeking
  dsimp only
  split
  · split <;> simp
  · simp

@[simp] theorem State.rebuildEnds_frame (s : State) :
    (s.rebuildEnds).pending = s.pending ∧ (s.rebuildEnds).ovc = s.ovc ∧ (s.rebuildEnds).gxt = s.gxt ∧
      (s.rebuildEnds).ptu.links = s.ptu.links := by
  simp [State.rebuildEnds]

@[simp] theorem State.showCandidate_frame (n : Nat) (s : State) :
    (s.showCandidate n).pending = s.pending ∧ (s.showCandidate n).scu = s.scu ∧
      (s.showCandidate n).ovc = s.ovc ∧ (s.showCandidate n).gxt = s.gxt ∧ (s.showCandidate n).vin = s.vin ∧
      (s.showCandidate n).pje = s.pje ∧ (s.showCandidate n).scr = s.scr ∧ (s.showCandidate n).rqu = s.rqu ∧
      (s.showCandidate n).ctl = s.ctl ∧ (s.showCandidate n).ptu.links = s.ptu.links := by
  unfold State.showCandidate
  split <;> simp

@[simp] theorem State.showCandidate_foldl_frame (l : List Nat) (s : State) :
    (l.foldl State.showCandidate s).pending = s.pending ∧ (l.foldl State.showCandidate s).scu = s.scu ∧
      (l.foldl State.showCandidate s).ovc = s.ovc ∧ (l.foldl State.showCandidate s).gxt = s.gxt ∧
      (l.foldl State.showCandidate s).vin = s.vin ∧ (l.foldl State.showCandidate s).pje = s.pje ∧
      (l.foldl State.showCandidate s).scr = s.scr ∧ (l.foldl State.showCandidate s).rqu = s.rqu ∧
      (l.foldl State.showCandidate s).ctl = s.ctl ∧
      (l.foldl State.showCandidate s).ptu.links = s.ptu.links := by
  induction l generalizing s with
  | nil => simp
  | cons x rest ih => simp [ih]

@[simp] theorem State.stopRescan_frame (r : Rescan) (s : State) :
    (s.stopRescan r).pending = s.pending ∧ (s.stopRescan r).scu = s.scu ∧ (s.stopRescan r).ovc = s.ovc ∧
      (s.stopRescan r).gxt = s.gxt ∧ (s.stopRescan r).vin = s.vin ∧ (s.stopRescan r).pje = s.pje ∧
      (s.stopRescan r).scr = s.scr ∧ (s.stopRescan r).rqu = s.rqu ∧ (s.stopRescan r).ctl = s.ctl ∧
      (s.stopRescan r).ptu.links = s.ptu.links := by
  simp [State.stopRescan]

@[simp] theorem State.rescanCue_frame (r : Rescan) (d : Option (List Beat)) (off : Nat) (s : State) :
    (s.rescanCue r d off).pending = s.pending ∧ (s.rescanCue r d off).scu = s.scu ∧
      (s.rescanCue r d off).ovc = s.ovc ∧ (s.rescanCue r d off).gxt = s.gxt ∧
      (s.rescanCue r d off).vin = s.vin ∧ (s.rescanCue r d off).pje = s.pje ∧
      (s.rescanCue r d off).scr = s.scr ∧ (s.rescanCue r d off).rqu = s.rqu ∧
      (s.rescanCue r d off).ctl = s.ctl ∧ (s.rescanCue r d off).ptu.links = s.ptu.links := by
  unfold State.rescanCue
  dsimp only
  repeat' split
  all_goals simp

@[simp] theorem State.startRescan_frame (n : Nat) (s : State) :
    (s.startRescan n).pending = s.pending ∧ (s.startRescan n).scu = s.scu ∧ (s.startRescan n).ovc = s.ovc ∧
      (s.startRescan n).gxt = s.gxt ∧ (s.startRescan n).vin = s.vin ∧ (s.startRescan n).pje = s.pje ∧
      (s.startRescan n).scr = s.scr ∧ (s.startRescan n).rqu = s.rqu ∧ (s.startRescan n).ctl = s.ctl ∧
      (s.startRescan n).ptu.links = s.ptu.links := by
  unfold State.startRescan
  dsimp only
  split <;> simp

@[simp] theorem State.cueArrived_frame (d : Option (List Beat)) (off : Nat) (s : State) :
    (s.cueArrived d off).pending = s.pending ∧ (s.cueArrived d off).scu = s.scu ∧
      (s.cueArrived d off).ovc = s.ovc ∧ (s.cueArrived d off).gxt = s.gxt ∧ (s.cueArrived d off).vin = s.vin ∧
      (s.cueArrived d off).pje = s.pje ∧ (s.cueArrived d off).scr = s.scr ∧ (s.cueArrived d off).rqu = s.rqu ∧
      (s.cueArrived d off).ctl = s.ctl ∧ (s.cueArrived d off).ptu.links = s.ptu.links := by
  unfold State.cueArrived
  dsimp only
  repeat' split
  all_goals simp

@[simp] theorem State.endCueFetch_frame (d : Option (List Beat)) (s : State) :
    (s.endCueFetch d).pending = s.pending ∧ (s.endCueFetch d).ovc = s.ovc ∧ (s.endCueFetch d).gxt = s.gxt ∧
      (s.endCueFetch d).ptu.links = s.ptu.links := by
  unfold State.endCueFetch
  dsimp only
  repeat' split
  all_goals simp

@[simp] theorem State.endLineLoad_frame (op : Nat) (d : Option (List Beat)) (s : State) :
    (s.endLineLoad op d).pending = s.pending ∧ (s.endLineLoad op d).ovc = s.ovc ∧
      (s.endLineLoad op d).gxt = s.gxt ∧ (s.endLineLoad op d).ptu.links = s.ptu.links := by
  unfold State.endLineLoad
  dsimp only
  repeat' split
  all_goals simp

@[simp] theorem State.endScroll_frame (n : Nat) (s : State) :
    (s.endScroll n).pending = s.pending ∧ (s.endScroll n).scu = s.scu ∧ (s.endScroll n).ovc = s.ovc ∧
      (s.endScroll n).gxt = s.gxt ∧ (s.endScroll n).vin = s.vin ∧ (s.endScroll n).pje = s.pje ∧
      (s.endScroll n).scr = s.scr ∧ (s.endScroll n).rqu = s.rqu ∧ (s.endScroll n).ctl = s.ctl ∧
      (s.endScroll n).ptu.links = s.ptu.links := by
  unfold State.endScroll
  dsimp only
  repeat' split
  all_goals simp

@[simp] theorem State.latchLsq_frame (s : State) :
    (s.latchLsq).pending = s.pending ∧ (s.latchLsq).scu = s.scu ∧ (s.latchLsq).ovc = s.ovc ∧
      (s.latchLsq).gxt = s.gxt ∧ (s.latchLsq).vin = s.vin ∧ (s.latchLsq).pje = s.pje ∧
      (s.latchLsq).scr = s.scr ∧ (s.latchLsq).rqu = s.rqu ∧ (s.latchLsq).ctl = s.ctl ∧
      (s.latchLsq).ptu.links = s.ptu.links := by
  simp [State.latchLsq]

@[simp] theorem State.latchClaims_frame (s : State) :
    (s.latchClaims).pending = s.pending ∧ (s.latchClaims).ovc = s.ovc ∧ (s.latchClaims).gxt = s.gxt ∧
      (s.latchClaims).ptu.links = s.ptu.links := by
  unfold State.latchClaims
  generalize hw : (fun s : State => _) = work
  rcases State.whenRoom_cases work s with e | ⟨e, _⟩ <;> rw [e]
  · rw [← hw]
    dsimp only
    split
    · simp
    · split <;> simp
  · simp

/-- What a latch left waiting leaves the compositor, the translator and the links as they are. -/
@[simp] theorem State.resumeLatch_frame (s : State) :
    (s.resumeLatch).pending = s.pending ∧ (s.resumeLatch).ovc = s.ovc ∧ (s.resumeLatch).gxt = s.gxt ∧
      (s.resumeLatch).ptu.links = s.ptu.links := by
  unfold State.resumeLatch
  split <;> simp

/-- With no claim waiting and a song in hand, a latch has left nothing to take up. -/
theorem State.resumeLatch_none {s : State} (hc : s.lsq.claimWaits = false) (hs : s.scu.state ≠ .idle) :
    s.resumeLatch = s := by
  simp [State.resumeLatch, State.resumeStaging, hc, hs]

@[simp] theorem State.dropBlock_frame (ch : Fin 4) (k : Fin 2) (s : State) :
    (s.dropBlock ch k).pending = s.pending ∧ (s.dropBlock ch k).scu = s.scu ∧ (s.dropBlock ch k).lsq = s.lsq ∧
      (s.dropBlock ch k).ovc = s.ovc ∧ (s.dropBlock ch k).gxt = s.gxt ∧ (s.dropBlock ch k).pje = s.pje ∧
      (s.dropBlock ch k).rqu = s.rqu ∧ (s.dropBlock ch k).ptu = s.ptu := by
  simp [State.dropBlock]

@[simp] theorem State.completeBlock_frame (ch : Fin 4) (k : Fin 2) (s : State) :
    (s.completeBlock ch k).pending = s.pending ∧ (s.completeBlock ch k).lsq = s.lsq ∧
      (s.completeBlock ch k).ovc = s.ovc ∧ (s.completeBlock ch k).gxt = s.gxt ∧
      (s.completeBlock ch k).ptu.links = s.ptu.links := by
  unfold State.completeBlock
  dsimp only
  repeat' split
  all_goals simp

@[simp] theorem State.storeSample_frame (ch : Fin 4) (y : Int) (s : State) :
    (s.storeSample ch y).pending = s.pending ∧ (s.storeSample ch y).lsq = s.lsq ∧
      (s.storeSample ch y).ovc = s.ovc ∧ (s.storeSample ch y).gxt = s.gxt ∧
      (s.storeSample ch y).ptu.links = s.ptu.links := by
  unfold State.storeSample
  dsimp only
  repeat' split
  all_goals simp

@[simp] theorem State.takeSample_frame (x : Int) (s : State) :
    (s.takeSample x).pending = s.pending ∧ (s.takeSample x).lsq = s.lsq ∧ (s.takeSample x).ovc = s.ovc ∧
      (s.takeSample x).gxt = s.gxt ∧ (s.takeSample x).ptu.links = s.ptu.links := by
  unfold State.takeSample
  dsimp only
  repeat' split
  all_goals simp

@[simp] theorem State.takeSample_foldl_frame (l : List Int) (s : State) :
    (l.foldl State.takeSample s).pending = s.pending ∧ (l.foldl State.takeSample s).lsq = s.lsq ∧
      (l.foldl State.takeSample s).ovc = s.ovc ∧ (l.foldl State.takeSample s).gxt = s.gxt ∧
      (l.foldl State.takeSample s).ptu.links = s.ptu.links := by
  induction l generalizing s with
  | nil => simp
  | cons x rest ih => simp [ih]

@[simp] theorem State.takeSample_beats_foldl_frame (l : List WriteBeat) (s : State) :
    (l.foldl (fun s b => (beatSamples b.data).foldl State.takeSample s) s).pending = s.pending ∧
      (l.foldl (fun s b => (beatSamples b.data).foldl State.takeSample s) s).lsq = s.lsq ∧
      (l.foldl (fun s b => (beatSamples b.data).foldl State.takeSample s) s).ovc = s.ovc ∧
      (l.foldl (fun s b => (beatSamples b.data).foldl State.takeSample s) s).gxt = s.gxt ∧
      (l.foldl (fun s b => (beatSamples b.data).foldl State.takeSample s) s).ptu.links = s.ptu.links := by
  induction l generalizing s with
  | nil => simp
  | cons x rest ih => simp [ih]

@[simp] theorem State.takeCapture_frame (r : Request) (s : State) :
    (s.takeCapture r).pending = s.pending ∧ (s.takeCapture r).lsq = s.lsq ∧ (s.takeCapture r).ovc = s.ovc ∧
      (s.takeCapture r).gxt = s.gxt ∧ (s.takeCapture r).ptu.links = s.ptu.links := by
  unfold State.takeCapture
  split
  · simp
  · dsimp only
    split <;> simp

@[simp] theorem State.captureWrite_frame (s : State) :
    (s.captureWrite).pending = s.pending ∧ (s.captureWrite).lsq = s.lsq ∧ (s.captureWrite).ovc = s.ovc ∧
      (s.captureWrite).gxt = s.gxt := by
  unfold State.captureWrite
  split <;> simp

@[simp] theorem State.playbackTap_frame (s : State) :
    (s.playbackTap).pending = s.pending ∧ (s.playbackTap).ovc = s.ovc ∧ (s.playbackTap).gxt = s.gxt ∧
      (s.playbackTap).ptu.links = s.ptu.links := by
  unfold State.playbackTap
  dsimp only
  repeat' split
  all_goals simp

@[simp] theorem State.beginStart_frame (tag : BitVec 16) (n : Nat) (b : Fin 2) (s : State) :
    (s.beginStart tag n b).pending = s.pending ∧ (s.beginStart tag n b).ovc = s.ovc ∧
      (s.beginStart tag n b).gxt = s.gxt ∧ (s.beginStart tag n b).ptu.links = s.ptu.links := by
  unfold State.beginStart
  dsimp only
  repeat' split
  all_goals simp

@[simp] theorem State.failStart_frame (rc : ResultCode) (s : State) :
    (s.failStart rc).pending = s.pending ∧ (s.failStart rc).ovc = s.ovc ∧ (s.failStart rc).gxt = s.gxt ∧
      (s.failStart rc).ptu.links = s.ptu.links := by
  simp [State.failStart]

@[simp] theorem State.primeSong_frame (t : Ticket) (b : Fin 2) (n : Nat) (h : Header) (s : State) :
    (s.primeSong t b n h).pending = s.pending ∧ (s.primeSong t b n h).ovc = s.ovc ∧
      (s.primeSong t b n h).gxt = s.gxt ∧ (s.primeSong t b n h).vin = s.vin ∧
      (s.primeSong t b n h).rqu = s.rqu ∧ (s.primeSong t b n h).ctl = s.ctl ∧
      (s.primeSong t b n h).ptu.links = s.ptu.links := by
  simp [State.primeSong]

@[simp] theorem State.completeStart_frame (t : Ticket) (b : Fin 2) (n : Nat) (h : Header) (s : State) :
    (s.completeStart t b n h).pending = s.pending ∧ (s.completeStart t b n h).ovc = s.ovc ∧
      (s.completeStart t b n h).gxt = s.gxt ∧ (s.completeStart t b n h).ptu.links = s.ptu.links := by
  simp [State.completeStart]

@[simp] theorem State.headerEnded_frame (d : Option (List Beat)) (s : State) :
    (s.headerEnded d).pending = s.pending ∧ (s.headerEnded d).ovc = s.ovc ∧ (s.headerEnded d).gxt = s.gxt ∧
      (s.headerEnded d).ptu.links = s.ptu.links := by
  unfold State.headerEnded
  dsimp only
  repeat' split
  all_goals simp

@[simp] theorem State.headerReadComplete_frame (s : State) :
    (s.headerReadComplete).pending = s.pending ∧ (s.headerReadComplete).ovc = s.ovc ∧
      (s.headerReadComplete).gxt = s.gxt ∧ (s.headerReadComplete).ptu.links = s.ptu.links := by
  unfold State.headerReadComplete
  split <;> simp

@[simp] theorem State.startNoteRebuild_frame (s : State) :
    (s.startNoteRebuild).pending = s.pending ∧ (s.startNoteRebuild).scu = s.scu ∧
      (s.startNoteRebuild).lsq = s.lsq ∧ (s.startNoteRebuild).ovc = s.ovc ∧ (s.startNoteRebuild).gxt = s.gxt ∧
      (s.startNoteRebuild).vin = s.vin ∧ (s.startNoteRebuild).scr = s.scr ∧ (s.startNoteRebuild).rqu = s.rqu ∧
      (s.startNoteRebuild).ctl = s.ctl ∧ (s.startNoteRebuild).ptu.links = s.ptu.links := by
  simp [State.startNoteRebuild]

@[simp] theorem State.beginSeek_frame (tag : BitVec 16) (n : Nat) (s : State) :
    (s.beginSeek tag n).pending = s.pending ∧ (s.beginSeek tag n).ovc = s.ovc ∧
      (s.beginSeek tag n).gxt = s.gxt ∧ (s.beginSeek tag n).ptu.links = s.ptu.links := by
  simp [State.beginSeek]

@[simp] theorem State.takeFetchedNote_frame (n : Note) (s : State) :
    (s.takeFetchedNote n).pending = s.pending ∧ (s.takeFetchedNote n).scu = s.scu ∧
      (s.takeFetchedNote n).lsq = s.lsq ∧ (s.takeFetchedNote n).ovc = s.ovc ∧
      (s.takeFetchedNote n).gxt = s.gxt ∧ (s.takeFetchedNote n).vin = s.vin ∧
      (s.takeFetchedNote n).scr = s.scr ∧ (s.takeFetchedNote n).rqu = s.rqu ∧
      (s.takeFetchedNote n).ptu = s.ptu ∧ (s.takeFetchedNote n).ctl = s.ctl := by
  unfold State.takeFetchedNote
  dsimp only
  repeat' split
  all_goals simp

@[simp] theorem State.endNoteFetch_frame (d : Option (List Beat)) (s : State) :
    (s.endNoteFetch d).pending = s.pending ∧ (s.endNoteFetch d).ovc = s.ovc ∧ (s.endNoteFetch d).gxt = s.gxt ∧
      (s.endNoteFetch d).ptu.links = s.ptu.links := by
  unfold State.endNoteFetch
  dsimp only
  split <;> simp

@[simp] theorem State.cueFetchComplete_frame (s : State) :
    (s.cueFetchComplete).pending = s.pending ∧ (s.cueFetchComplete).ovc = s.ovc ∧
      (s.cueFetchComplete).gxt = s.gxt ∧ (s.cueFetchComplete).ptu.links = s.ptu.links := by
  unfold State.cueFetchComplete
  split <;> simp

@[simp] theorem State.lineLoadComplete_frame (s : State) :
    (s.lineLoadComplete).pending = s.pending ∧ (s.lineLoadComplete).ovc = s.ovc ∧
      (s.lineLoadComplete).gxt = s.gxt ∧ (s.lineLoadComplete).ptu.links = s.ptu.links := by
  unfold State.lineLoadComplete
  split <;> simp

@[simp] theorem State.noteFetchComplete_frame (s : State) :
    (s.noteFetchComplete).pending = s.pending ∧ (s.noteFetchComplete).ovc = s.ovc ∧
      (s.noteFetchComplete).gxt = s.gxt ∧ (s.noteFetchComplete).ptu.links = s.ptu.links := by
  unfold State.noteFetchComplete
  split <;> simp

@[simp] theorem State.measurementEnd_frame (s : State) :
    (s.measurementEnd).pending = s.pending ∧ (s.measurementEnd).lsq = s.lsq ∧ (s.measurementEnd).ovc = s.ovc ∧
      (s.measurementEnd).gxt = s.gxt ∧ (s.measurementEnd).ptu.links = s.ptu.links := by
  unfold State.measurementEnd
  repeat' split
  all_goals simp

@[simp] theorem State.endWriteOut_frame (s : State) :
    (s.endWriteOut).pending = s.pending ∧ (s.endWriteOut).ovc = s.ovc ∧ (s.endWriteOut).gxt = s.gxt ∧
      (s.endWriteOut).ptu.links = s.ptu.links := by
  simp [State.endWriteOut]

@[simp] theorem State.writeOutEnd_frame (s : State) :
    (s.writeOutEnd).pending = s.pending ∧ (s.writeOutEnd).ovc = s.ovc ∧ (s.writeOutEnd).gxt = s.gxt ∧
      (s.writeOutEnd).ptu.links = s.ptu.links := by
  unfold State.writeOutEnd
  repeat' split
  all_goals simp

end Sys2Proof.Machine
end

