-- ==== Sys2Proof/Laws/FramesGlyph.lean ====
section
/-! SUPPORT. The frames of the Glyph Translator's and the Overlay Compositor's operations. Each lemma says once which blocks an operation leaves as they were. -/

namespace Sys2Proof.Machine

@[simp] theorem State.endRow_frame (c gl row : Nat) (d : Option (List Beat)) (s : State) :
    (s.endRow c gl row d).pending = s.pending ∧ (s.endRow c gl row d).scu = s.scu ∧
      (s.endRow c gl row d).lsq = s.lsq ∧ (s.endRow c gl row d).gxt = s.gxt ∧
      (s.endRow c gl row d).vin = s.vin ∧ (s.endRow c gl row d).pje = s.pje ∧
      (s.endRow c gl row d).scr = s.scr ∧ (s.endRow c gl row d).rqu = s.rqu ∧
      (s.endRow c gl row d).ptu = s.ptu ∧ (s.endRow c gl row d).ctl = s.ctl := by
  unfold State.endRow
  split <;> simp

@[simp] theorem State.answerAddress_frame (q : GlyphReq) (n : Nat) (s : State) :
    (s.answerAddress q n).pending = s.pending ∧ (s.answerAddress q n).scu = s.scu ∧
      (s.answerAddress q n).lsq = s.lsq ∧ (s.answerAddress q n).ovc = s.ovc ∧
      (s.answerAddress q n).gxt = s.gxt ∧ (s.answerAddress q n).vin = s.vin ∧
      (s.answerAddress q n).pje = s.pje ∧ (s.answerAddress q n).scr = s.scr ∧
      (s.answerAddress q n).rqu = s.rqu ∧ (s.answerAddress q n).ctl = s.ctl ∧
      (s.answerAddress q n).ptu.links = s.ptu.links := by
  unfold State.answerAddress
  split <;> simp

@[simp] theorem State.answerFailure_frame (q : GlyphReq) (s : State) :
    (s.answerFailure q).pending = s.pending ∧ (s.answerFailure q).scu = s.scu ∧
      (s.answerFailure q).lsq = s.lsq ∧ (s.answerFailure q).vin = s.vin ∧ (s.answerFailure q).pje = s.pje ∧
      (s.answerFailure q).scr = s.scr ∧ (s.answerFailure q).rqu = s.rqu ∧ (s.answerFailure q).ptu = s.ptu ∧
      (s.answerFailure q).ctl = s.ctl := by
  simp [State.answerFailure]

@[simp] theorem State.beginWalk_frame (k : Fin 8) (n : Nat) (q : GlyphReq) (s : State) :
    (s.beginWalk k n q).pending = s.pending ∧ (s.beginWalk k n q).scu = s.scu ∧
      (s.beginWalk k n q).lsq = s.lsq ∧ (s.beginWalk k n q).ovc = s.ovc ∧ (s.beginWalk k n q).vin = s.vin ∧
      (s.beginWalk k n q).pje = s.pje ∧ (s.beginWalk k n q).scr = s.scr ∧ (s.beginWalk k n q).rqu = s.rqu ∧
      (s.beginWalk k n q).ctl = s.ctl ∧ (s.beginWalk k n q).ptu.links = s.ptu.links := by
  simp [State.beginWalk]

/-- A request taken touches the compositor, the translator and own traffic only. -/
theorem State.takeGlyph_frame {q : GlyphReq} {s t : State} (h : s.takeGlyph q = some t) :
    t.pending = s.pending ∧ t.scu = s.scu ∧ t.lsq = s.lsq ∧ t.vin = s.vin ∧ t.pje = s.pje ∧ t.scr = s.scr ∧
      t.rqu = s.rqu ∧ t.ctl = s.ctl ∧ t.ptu.links = s.ptu.links := by
  unfold State.takeGlyph at h
  dsimp only at h
  repeat' split at h
  all_goals first
    | (cases h; done)
    | (cases h; simp)

@[simp] theorem State.retakeIntake_frame (s : State) :
    (s.retakeIntake).pending = s.pending ∧ (s.retakeIntake).scu = s.scu ∧ (s.retakeIntake).lsq = s.lsq ∧
      (s.retakeIntake).vin = s.vin ∧ (s.retakeIntake).pje = s.pje ∧ (s.retakeIntake).scr = s.scr ∧
      (s.retakeIntake).rqu = s.rqu ∧ (s.retakeIntake).ctl = s.ctl ∧
      (s.retakeIntake).ptu.links = s.ptu.links := by
  unfold State.retakeIntake
  generalize hw : (fun s : State => _) = work
  rcases State.whenRoom_cases work s with e | ⟨e, _⟩ <;> rw [e]
  · rw [← hw]
    dsimp only
    split
    · simp
    · next q _ =>
      cases h : State.takeGlyph q { s with gxt := { s.gxt with intake := none } } with
      | none => simp
      | some t =>
        have := State.takeGlyph_frame h
        simpa using this
  · simp

@[simp] theorem State.feedIntake_frame (s : State) :
    (s.feedIntake).pending = s.pending ∧ (s.feedIntake).scu = s.scu ∧ (s.feedIntake).lsq = s.lsq ∧
      (s.feedIntake).vin = s.vin ∧ (s.feedIntake).pje = s.pje ∧ (s.feedIntake).scr = s.scr ∧
      (s.feedIntake).rqu = s.rqu ∧ (s.feedIntake).ctl = s.ctl ∧ (s.feedIntake).ptu.links = s.ptu.links := by
  unfold State.feedIntake
  split <;> simp

@[simp] theorem State.pumpGlyphs_frame (n : Nat) (s : State) :
    (s.pumpGlyphs n).pending = s.pending ∧ (s.pumpGlyphs n).scu = s.scu ∧ (s.pumpGlyphs n).lsq = s.lsq ∧
      (s.pumpGlyphs n).vin = s.vin ∧ (s.pumpGlyphs n).pje = s.pje ∧ (s.pumpGlyphs n).scr = s.scr ∧
      (s.pumpGlyphs n).rqu = s.rqu ∧ (s.pumpGlyphs n).ctl = s.ctl ∧
      (s.pumpGlyphs n).ptu.links = s.ptu.links := by
  induction n generalizing s with
  | zero => simp [State.pumpGlyphs]
  | succ n ih => simp [State.pumpGlyphs, ih]

/-- The intake pumped touches the compositor, the translator and own traffic only. -/
@[simp] theorem State.pump_frame (s : State) :
    (s.pump).pending = s.pending ∧ (s.pump).scu = s.scu ∧ (s.pump).lsq = s.lsq ∧ (s.pump).vin = s.vin ∧
      (s.pump).pje = s.pje ∧ (s.pump).scr = s.scr ∧ (s.pump).rqu = s.rqu ∧ (s.pump).ctl = s.ctl ∧
      (s.pump).ptu.links = s.ptu.links := by
  simp [State.pump]

@[simp] theorem State.answerAddress_foldl_frame (page : Nat) (l : List GlyphReq) (s : State) :
    (l.foldl (fun t q => State.answerAddress q (physOf page q.va) t) s).pending = s.pending ∧
      (l.foldl (fun t q => State.answerAddress q (physOf page q.va) t) s).scu = s.scu ∧
      (l.foldl (fun t q => State.answerAddress q (physOf page q.va) t) s).lsq = s.lsq ∧
      (l.foldl (fun t q => State.answerAddress q (physOf page q.va) t) s).ovc = s.ovc ∧
      (l.foldl (fun t q => State.answerAddress q (physOf page q.va) t) s).gxt = s.gxt ∧
      (l.foldl (fun t q => State.answerAddress q (physOf page q.va) t) s).vin = s.vin ∧
      (l.foldl (fun t q => State.answerAddress q (physOf page q.va) t) s).pje = s.pje ∧
      (l.foldl (fun t q => State.answerAddress q (physOf page q.va) t) s).scr = s.scr ∧
      (l.foldl (fun t q => State.answerAddress q (physOf page q.va) t) s).rqu = s.rqu ∧
      (l.foldl (fun t q => State.answerAddress q (physOf page q.va) t) s).ctl = s.ctl ∧
      (l.foldl (fun t q => State.answerAddress q (physOf page q.va) t) s).ptu.links = s.ptu.links := by
  induction l generalizing s with
  | nil => simp
  | cons x rest ih => simp [ih]

@[simp] theorem State.answerFailure_foldl_frame (l : List GlyphReq) (s : State) :
    (l.foldl (fun t q => State.answerFailure q t) s).pending = s.pending ∧
      (l.foldl (fun t q => State.answerFailure q t) s).scu = s.scu ∧
      (l.foldl (fun t q => State.answerFailure q t) s).lsq = s.lsq ∧
      (l.foldl (fun t q => State.answerFailure q t) s).vin = s.vin ∧
      (l.foldl (fun t q => State.answerFailure q t) s).pje = s.pje ∧
      (l.foldl (fun t q => State.answerFailure q t) s).scr = s.scr ∧
      (l.foldl (fun t q => State.answerFailure q t) s).rqu = s.rqu ∧
      (l.foldl (fun t q => State.answerFailure q t) s).ptu = s.ptu ∧
      (l.foldl (fun t q => State.answerFailure q t) s).ctl = s.ctl := by
  induction l generalizing s with
  | nil => simp
  | cons x rest ih => simp [ih]

@[simp] theorem State.endWalk_frame (k : Fin 8) (w : Walk) (d : Option (List Beat)) (s : State) :
    (s.endWalk k w d).pending = s.pending ∧ (s.endWalk k w d).scu = s.scu ∧ (s.endWalk k w d).lsq = s.lsq ∧
      (s.endWalk k w d).vin = s.vin ∧ (s.endWalk k w d).pje = s.pje ∧ (s.endWalk k w d).scr = s.scr ∧
      (s.endWalk k w d).rqu = s.rqu ∧ (s.endWalk k w d).ctl = s.ctl ∧
      (s.endWalk k w d).ptu.links = s.ptu.links := by
  unfold State.endWalk
  dsimp only
  repeat' split
  all_goals simp

@[simp] theorem State.pageWalkComplete_frame (s : State) :
    (s.pageWalkComplete).pending = s.pending ∧ (s.pageWalkComplete).scu = s.scu ∧
      (s.pageWalkComplete).lsq = s.lsq ∧ (s.pageWalkComplete).vin = s.vin ∧ (s.pageWalkComplete).pje = s.pje ∧
      (s.pageWalkComplete).scr = s.scr ∧ (s.pageWalkComplete).rqu = s.rqu ∧ (s.pageWalkComplete).ctl = s.ctl ∧
      (s.pageWalkComplete).ptu.links = s.ptu.links := by
  unfold State.pageWalkComplete
  dsimp only
  repeat' split
  all_goals simp

@[simp] theorem State.glyphRowFetchComplete_frame (s : State) :
    (s.glyphRowFetchComplete).pending = s.pending ∧ (s.glyphRowFetchComplete).scu = s.scu ∧
      (s.glyphRowFetchComplete).lsq = s.lsq ∧ (s.glyphRowFetchComplete).vin = s.vin ∧
      (s.glyphRowFetchComplete).pje = s.pje ∧ (s.glyphRowFetchComplete).scr = s.scr ∧
      (s.glyphRowFetchComplete).rqu = s.rqu ∧ (s.glyphRowFetchComplete).ctl = s.ctl ∧
      (s.glyphRowFetchComplete).ptu.links = s.ptu.links := by
  unfold State.glyphRowFetchComplete
  dsimp only
  split
  · simp
  · split <;> simp

@[simp] theorem State.pagetableWrite_frame (s : State) :
    (s.pagetableWrite).pending = s.pending ∧ (s.pagetableWrite).scu = s.scu ∧ (s.pagetableWrite).lsq = s.lsq ∧
      (s.pagetableWrite).vin = s.vin ∧ (s.pagetableWrite).pje = s.pje ∧ (s.pagetableWrite).scr = s.scr ∧
      (s.pagetableWrite).rqu = s.rqu ∧ (s.pagetableWrite).ctl = s.ctl := by
  unfold State.pagetableWrite
  split <;> simp

@[simp] theorem State.claimBuffer_frame (k : Fin 3) (l : LatchRecord) (y : Nat) (s : State) :
    (s.claimBuffer k l y).pending = s.pending ∧ (s.claimBuffer k l y).scu = s.scu ∧
      (s.claimBuffer k l y).lsq = s.lsq ∧ (s.claimBuffer k l y).vin = s.vin ∧
      (s.claimBuffer k l y).pje = s.pje ∧ (s.claimBuffer k l y).scr = s.scr ∧
      (s.claimBuffer k l y).rqu = s.rqu ∧ (s.claimBuffer k l y).ctl = s.ctl ∧
      (s.claimBuffer k l y).ptu.links = s.ptu.links := by
  simp [State.claimBuffer]

@[simp] theorem State.compose_frame (y : Nat) (s : State) :
    (s.compose y).pending = s.pending ∧ (s.compose y).scu = s.scu ∧ (s.compose y).lsq = s.lsq ∧
      (s.compose y).vin = s.vin ∧ (s.compose y).pje = s.pje ∧ (s.compose y).scr = s.scr ∧
      (s.compose y).rqu = s.rqu ∧ (s.compose y).ctl = s.ctl ∧ (s.compose y).ptu.links = s.ptu.links := by
  unfold State.compose
  repeat' split
  all_goals simp

@[simp] theorem State.resetComposition_frame (s : State) :
    (s.resetComposition).pending = s.pending ∧ (s.resetComposition).scu = s.scu ∧
      (s.resetComposition).lsq = s.lsq ∧ (s.resetComposition).gxt = s.gxt ∧ (s.resetComposition).vin = s.vin ∧
      (s.resetComposition).pje = s.pje ∧ (s.resetComposition).scr = s.scr ∧ (s.resetComposition).rqu = s.rqu ∧
      (s.resetComposition).ctl = s.ctl ∧ (s.resetComposition).ptu.links = s.ptu.links := by
  simp [State.resetComposition]

@[simp] theorem State.frameLatch_frame (s : State) :
    (s.frameLatch).pending = s.pending ∧ (s.frameLatch).ptu.links = s.ptu.links := by
  simp [State.frameLatch]

@[simp] theorem State.afterLatch_frame (s : State) :
    (s.afterLatch).pending = s.pending ∧ (s.afterLatch).ovc = s.ovc ∧ (s.afterLatch).gxt = s.gxt ∧
      (s.afterLatch).ptu.links = s.ptu.links := by
  simp [State.afterLatch]

@[simp] theorem State.makeDecision_frame (y : Nat) (s : State) :
    (s.makeDecision y).pending = s.pending ∧ (s.makeDecision y).scu = s.scu ∧ (s.makeDecision y).lsq = s.lsq ∧
      (s.makeDecision y).gxt = s.gxt ∧ (s.makeDecision y).vin = s.vin ∧ (s.makeDecision y).pje = s.pje ∧
      (s.makeDecision y).scr = s.scr ∧ (s.makeDecision y).rqu = s.rqu ∧ (s.makeDecision y).ptu = s.ptu := by
  unfold State.makeDecision
  split
  · simp
  · split <;> simp

@[simp] theorem State.layerBeat_frame (l : LatchRecord) (y x : Nat) (b : ReadBeat) (s : State) :
    ((s.layerBeat l y x b).1).pending = s.pending ∧ ((s.layerBeat l y x b).1).scu = s.scu ∧
      ((s.layerBeat l y x b).1).lsq = s.lsq ∧ ((s.layerBeat l y x b).1).gxt = s.gxt ∧
      ((s.layerBeat l y x b).1).vin = s.vin ∧ ((s.layerBeat l y x b).1).pje = s.pje ∧
      ((s.layerBeat l y x b).1).scr = s.scr ∧ ((s.layerBeat l y x b).1).rqu = s.rqu ∧
      ((s.layerBeat l y x b).1).ptu = s.ptu := by
  unfold State.layerBeat
  dsimp only
  repeat' split
  all_goals simp

@[simp] theorem State.displayAt_frame (a : Nat) (b : ReadBeat) (s : State) :
    ((s.displayAt a b).1).pending = s.pending ∧ ((s.displayAt a b).1).ptu.links = s.ptu.links := by
  unfold State.displayAt
  dsimp only
  repeat' split
  all_goals simp

end Sys2Proof.Machine
end

