-- ==== Sys2Proof/Laws/FramesPath.lean ====
section
/-! SUPPORT. The frames of the Path Unit's operations, of packets, and of the ends of own operations, and how host
commands wait for the line. Each lemma says once which blocks an operation leaves as they were. -/

namespace Sys2Proof.Machine

@[simp] theorem State.guardWrite_frame (r : Request) (s : State) :
    (s.guardWrite r).pending = s.pending ∧ (s.guardWrite r).scu = s.scu ∧ (s.guardWrite r).lsq = s.lsq ∧
      (s.guardWrite r).ovc = s.ovc ∧ (s.guardWrite r).gxt = s.gxt ∧ (s.guardWrite r).vin = s.vin ∧
      (s.guardWrite r).pje = s.pje ∧ (s.guardWrite r).scr = s.scr ∧ (s.guardWrite r).rqu = s.rqu := by
  simp [State.guardWrite]

@[simp] theorem State.arrive_frame (r : Request) (s : State) :
    (s.arrive r).pending = s.pending ∧ (s.arrive r).scu = s.scu ∧ (s.arrive r).lsq = s.lsq ∧
      (s.arrive r).ovc = s.ovc ∧ (s.arrive r).gxt = s.gxt ∧ (s.arrive r).vin = s.vin ∧
      (s.arrive r).pje = s.pje ∧ (s.arrive r).scr = s.scr ∧ (s.arrive r).rqu = s.rqu := by
  unfold State.arrive
  dsimp only
  repeat' split
  all_goals simp

@[simp] theorem State.systemRequest_frame (r : Request) (s : State) :
    (s.systemRequest r).pending = s.pending ∧ (s.systemRequest r).scu = s.scu ∧
      (s.systemRequest r).lsq = s.lsq ∧ (s.systemRequest r).ovc = s.ovc ∧ (s.systemRequest r).gxt = s.gxt ∧
      (s.systemRequest r).vin = s.vin ∧ (s.systemRequest r).pje = s.pje ∧ (s.systemRequest r).scr = s.scr ∧
      (s.systemRequest r).rqu = s.rqu := by
  unfold State.systemRequest
  split <;> simp

/-- Held requests taken leave every block but the links, the flags and the rewrites' bookkeeping. -/
theorem State.takeHeld_frame (l : List Request) :
    ∀ s : State, (State.takeHeld l s).pending = s.pending ∧ (State.takeHeld l s).scu = s.scu ∧
      (State.takeHeld l s).lsq = s.lsq ∧ (State.takeHeld l s).ovc = s.ovc ∧ (State.takeHeld l s).gxt = s.gxt ∧
      (State.takeHeld l s).vin = s.vin ∧ (State.takeHeld l s).pje = s.pje ∧ (State.takeHeld l s).scr = s.scr := by
  induction l with
  | nil => intro s; simp [State.takeHeld]
  | cons r rest ih =>
    intro s
    unfold State.takeHeld
    split
    · simp
    · simp [ih]

@[simp] theorem State.releaseHeld_frame (s : State) :
    (s.releaseHeld).pending = s.pending ∧ (s.releaseHeld).scu = s.scu ∧ (s.releaseHeld).lsq = s.lsq ∧
      (s.releaseHeld).ovc = s.ovc ∧ (s.releaseHeld).gxt = s.gxt ∧ (s.releaseHeld).vin = s.vin ∧
      (s.releaseHeld).pje = s.pje ∧ (s.releaseHeld).scr = s.scr :=
  State.takeHeld_frame _ _

/-- With no request held, or no room for one, releasing the held requests changes nothing. -/
theorem State.releaseHeld_none {s : State} (h : s.ptu.sysHeld = [] ∨ s.ptu.lineFull = true) : s.releaseHeld = s := by
  unfold State.releaseHeld
  rcases e : s.ptu.sysHeld with _ | ⟨r, rest⟩
  · simp only [State.takeHeld, ← e]
  · rcases h with h | h
    · simp [h] at e
    · have : ({ s.ptu with sysHeld := [] } : Ptu).lineFull = true := h
      simp only [State.takeHeld, this, if_true, ← e]

/-- What every request taken with its rewrites and every change of the held list keep, releasing them keeps. -/
theorem State.takeHeld_keeps {P : State → Prop} (ha : ∀ s r, P s → P (s.arrive r).flush)
    (hw : ∀ (s : State) l, P s → P { s with ptu := { s.ptu with sysHeld := l } }) (l : List Request) :
    ∀ s, P s → P (State.takeHeld l s) := by
  induction l with
  | nil => exact fun s h => h
  | cons r rest ih =>
    intro s h
    unfold State.takeHeld
    split
    · exact hw s _ h
    · exact ih _ (ha s r h)

/-- A decision leaves the queue of commands alone. -/
@[simp] theorem State.arbiterDecision_pending (s : State) : (s.arbiterDecision).pending = s.pending := by
  unfold State.arbiterDecision
  dsimp only
  split <;> simp

/-- A decision that gives no full line room touches the links, the flags and the rewrites' bookkeeping only. -/
theorem State.arbiterDecision_frame {s : State} (h : s.ptu.lineFull = false) :
    (s.arbiterDecision).scu = s.scu ∧ (s.arbiterDecision).lsq = s.lsq ∧ (s.arbiterDecision).ovc = s.ovc ∧
      (s.arbiterDecision).gxt = s.gxt ∧ (s.arbiterDecision).vin = s.vin ∧ (s.arbiterDecision).pje = s.pje ∧
      (s.arbiterDecision).scr = s.scr := by
  simp [State.arbiterDecision, h]

/-- What a decision keeps: what its grant with the owed rewrites and the held requests keeps, and what the work it lets
go on keeps. -/
theorem State.arbiterDecision_keeps {P : State → Prop}
    (hg : ∀ s : State, P s → P (State.releaseHeld (State.flush { s with ptu := s.ptu.arbitrate })))
    (hl : ∀ s : State, P s → P s.resumeLatch) (hp : ∀ s : State, P s → P s.pump)
    (hf : ∀ s : State, P s → P s.flush) (s : State) (h : P s) : P s.arbiterDecision := by
  unfold State.arbiterDecision
  dsimp only
  split
  · exact hf _ (hp _ (hl _ (hg s h)))
  · exact hg s h

/-! ## The playback taps of the lane (R164) -/

/-- Playback taps taken leave the compositor, the translator and, the lane apart, the links; the lane loses taps at its
head only. -/
theorem State.takePlaybacks_frame (l : List Tap) :
    ∀ s : State, s.ptu.taps = l → (State.takePlaybacks l s).pending = s.pending ∧
      (State.takePlaybacks l s).ovc = s.ovc ∧ (State.takePlaybacks l s).gxt = s.gxt ∧
      (State.takePlaybacks l s).ptu.taps <:+ s.ptu.taps ∧
      (State.takePlaybacks l s).ptu.links = { s.ptu with taps := (State.takePlaybacks l s).ptu.taps }.links := by
  induction l with
  | nil => intro s h; simp [State.takePlaybacks]
  | cons t rest ih =>
    intro s h
    unfold State.takePlaybacks
    dsimp only
    split
    · have hp := State.playbackTap_frame { s with ptu := { s.ptu with taps := rest } }
      have hf : (State.playbackTap { s with ptu := { s.ptu with taps := rest } }).flush.pending = s.pending ∧
          (State.playbackTap { s with ptu := { s.ptu with taps := rest } }).flush.ovc = s.ovc ∧
          (State.playbackTap { s with ptu := { s.ptu with taps := rest } }).flush.gxt = s.gxt ∧
          (State.playbackTap { s with ptu := { s.ptu with taps := rest } }).flush.ptu.links =
            { s.ptu with taps := rest }.links := by simp [hp]
      have hr := (Ptu.links_fields hf.2.2.2).2.2.2.2.2.2.2.2.2.2.2.2.2.2.2.2.2.2.1
      split
      · simp
      · have hi := ih _ hr
        refine ⟨hi.1.trans hf.1, hi.2.1.trans hf.2.1, hi.2.2.1.trans hf.2.2.1, ?_, ?_⟩
        · exact hi.2.2.2.1.trans (hr ▸ h ▸ List.suffix_cons t rest)
        · rw [hi.2.2.2.2]
          have := congrArg (fun p : Ptu => { p with
            taps := (State.takePlaybacks rest
              (State.playbackTap { s with ptu := { s.ptu with taps := rest } }).flush).ptu.taps })
            hf.2.2.2
          exact this
    · simp

@[simp] theorem State.playTaps_frame (s : State) :
    (s.playTaps).pending = s.pending ∧ (s.playTaps).ovc = s.ovc ∧ (s.playTaps).gxt = s.gxt ∧
      (s.playTaps).ptu.taps <:+ s.ptu.taps ∧
      (s.playTaps).ptu.links = { s.ptu with taps := (s.playTaps).ptu.taps }.links :=
  State.takePlaybacks_frame _ s rfl

/-- A lane that no playback tap heads is left as it is. -/
theorem State.playTaps_other {s : State} (h : ∀ t, s.ptu.taps.head? = some t → t.cls ≠ .playback) : s.playTaps = s := by
  unfold State.playTaps
  rcases e : s.ptu.taps with _ | ⟨t, rest⟩
  · rfl
  · have : t.isPlayback = false := by simpa [Tap.isPlayback] using h t (by simp [e])
    simp [State.takePlaybacks, this]

/-- With room in the line the playback tap at the head of the lane is taken, closed by the rewrites it leaves owed, and
then those behind it. -/
theorem State.playTaps_cons {s : State} {t : Tap} {rest : List Tap} (e : s.ptu.taps = t :: rest)
    (h : t.cls = .playback) (hl : s.ptu.lineFull = false) :
    s.playTaps = (State.playbackTap { s with ptu := { s.ptu with taps := rest } }).flush.playTaps := by
  have ht : t.isPlayback = true := by simp [Tap.isPlayback, h]
  have hf : (State.playbackTap { s with ptu := { s.ptu with taps := rest } }).flush.ptu.links =
      { s.ptu with taps := rest }.links := by simp [State.playbackTap_frame]
  have hr := (Ptu.links_fields hf).2.2.2.2.2.2.2.2.2.2.2.2.2.2.2.2.2.2.1
  unfold State.playTaps
  rw [e, hr]
  simp [State.takePlaybacks, ht, hl]

@[simp] theorem State.playbackBeat_frame (b : ReadBeat) (s : State) :
    (s.playbackBeat b).pending = s.pending ∧ (s.playbackBeat b).ovc = s.ovc ∧
      (s.playbackBeat b).gxt = s.gxt := by
  unfold State.playbackBeat
  repeat' split
  all_goals simp

@[simp] theorem State.displayBeat_frame (b : ReadBeat) (s : State) :
    (s.displayBeat b).pending = s.pending := by
  unfold State.displayBeat
  dsimp only
  repeat' split
  all_goals simp

@[simp] theorem State.passThroughResponse_frame (r : Response) (s : State) :
    (s.passThroughResponse r).pending = s.pending ∧ (s.passThroughResponse r).scu = s.scu ∧
      (s.passThroughResponse r).lsq = s.lsq ∧ (s.passThroughResponse r).ovc = s.ovc ∧
      (s.passThroughResponse r).gxt = s.gxt ∧ (s.passThroughResponse r).vin = s.vin ∧
      (s.passThroughResponse r).pje = s.pje ∧ (s.passThroughResponse r).scr = s.scr ∧
      (s.passThroughResponse r).rqu = s.rqu ∧ (s.passThroughResponse r).ctl = s.ctl := by
  unfold State.passThroughResponse
  repeat' split
  all_goals simp

@[simp] theorem State.discardedResponse_frame (s : State) :
    (s.discardedResponse).pending = s.pending ∧ (s.discardedResponse).scu = s.scu ∧
      (s.discardedResponse).lsq = s.lsq ∧ (s.discardedResponse).ovc = s.ovc ∧
      (s.discardedResponse).gxt = s.gxt ∧ (s.discardedResponse).vin = s.vin ∧
      (s.discardedResponse).pje = s.pje ∧ (s.discardedResponse).scr = s.scr ∧
      (s.discardedResponse).rqu = s.rqu ∧ (s.discardedResponse).ctl = s.ctl := by
  simp [State.discardedResponse]

@[simp] theorem State.memoryError_frame (r : OwnRequest) (s : State) :
    (s.memoryError r).pending = s.pending ∧ (s.memoryError r).scu = s.scu ∧ (s.memoryError r).lsq = s.lsq ∧
      (s.memoryError r).ovc = s.ovc ∧ (s.memoryError r).gxt = s.gxt ∧ (s.memoryError r).vin = s.vin ∧
      (s.memoryError r).pje = s.pje ∧ (s.memoryError r).scr = s.scr ∧ (s.memoryError r).rqu = s.rqu := by
  simp [State.memoryError]

@[simp] theorem State.ownReadResponse_frame (bs : List ReadBeat) (s : State) :
    (s.ownReadResponse bs).pending = s.pending ∧ (s.ownReadResponse bs).scu = s.scu ∧
      (s.ownReadResponse bs).lsq = s.lsq ∧ (s.ownReadResponse bs).ovc = s.ovc ∧
      (s.ownReadResponse bs).gxt = s.gxt ∧ (s.ownReadResponse bs).vin = s.vin ∧
      (s.ownReadResponse bs).pje = s.pje ∧ (s.ownReadResponse bs).scr = s.scr ∧
      (s.ownReadResponse bs).rqu = s.rqu := by
  unfold State.ownReadResponse
  dsimp only
  repeat' split
  all_goals simp

@[simp] theorem State.ownWriteCompletion_frame (st : Status) (s : State) :
    (s.ownWriteCompletion st).pending = s.pending ∧ (s.ownWriteCompletion st).scu = s.scu ∧
      (s.ownWriteCompletion st).lsq = s.lsq ∧ (s.ownWriteCompletion st).ovc = s.ovc ∧
      (s.ownWriteCompletion st).gxt = s.gxt ∧ (s.ownWriteCompletion st).vin = s.vin ∧
      (s.ownWriteCompletion st).pje = s.pje ∧ (s.ownWriteCompletion st).scr = s.scr ∧
      (s.ownWriteCompletion st).rqu = s.rqu := by
  unfold State.ownWriteCompletion
  dsimp only
  repeat' split
  all_goals simp

@[simp] theorem State.setupReplies_frame (s : State) :
    (s.setupReplies).pending = s.pending ∧ (s.setupReplies).scu = s.scu ∧ (s.setupReplies).lsq = s.lsq ∧
      (s.setupReplies).ovc = s.ovc ∧ (s.setupReplies).gxt = s.gxt ∧ (s.setupReplies).vin = s.vin ∧
      (s.setupReplies).pje = s.pje ∧ (s.setupReplies).scr = s.scr ∧ (s.setupReplies).ctl = s.ctl ∧
      (s.setupReplies).ptu.links = s.ptu.links := by
  simp [State.setupReplies]

@[simp] theorem State.applySetup_frame (p : Setup) (s : State) :
    (s.applySetup p).pending = s.pending ∧ (s.applySetup p).lsq = s.lsq ∧ (s.applySetup p).pje = s.pje := by
  simp [State.applySetup]

/-- The next packet taken from the lane touches the lane only. -/
theorem State.nextBeat_frame {b : WriteBeat} {s t : State} (h : s.nextBeat = some (b, t)) :
    t.pending = s.pending ∧ t.scu = s.scu ∧ t.lsq = s.lsq ∧ t.ovc = s.ovc ∧ t.gxt = s.gxt ∧ t.vin = s.vin ∧
      t.pje = s.pje ∧ t.scr = s.scr ∧ t.rqu = s.rqu ∧ t.ctl = s.ctl := by
  unfold State.nextBeat at h
  repeat' split at h
  all_goals first
    | (cases h; done)
    | (cases h; simp)

@[simp] theorem State.badPacket_frame (s : State) :
    (s.badPacket).pending = s.pending ∧ (s.badPacket).scu = s.scu ∧ (s.badPacket).lsq = s.lsq ∧
      (s.badPacket).ovc = s.ovc ∧ (s.badPacket).gxt = s.gxt ∧ (s.badPacket).vin = s.vin ∧
      (s.badPacket).pje = s.pje ∧ (s.badPacket).scr = s.scr ∧ (s.badPacket).ctl = s.ctl := by
  unfold State.badPacket State.withPacket
  split
  · simp
  · next h =>
    have := State.nextBeat_frame h
    split <;> simp [this]

@[simp] theorem State.handsetResend_frame (s : State) :
    (s.handsetResend).pending = s.pending ∧ (s.handsetResend).scu = s.scu ∧ (s.handsetResend).lsq = s.lsq ∧
      (s.handsetResend).ovc = s.ovc ∧ (s.handsetResend).gxt = s.gxt ∧ (s.handsetResend).vin = s.vin ∧
      (s.handsetResend).pje = s.pje ∧ (s.handsetResend).scr = s.scr ∧ (s.handsetResend).ctl = s.ctl := by
  unfold State.handsetResend State.withPacket
  split
  · simp
  · next h =>
    have := State.nextBeat_frame h
    split
    · dsimp only
      split <;> simp [this]
    · simp

@[simp] theorem State.handsetRequest_frame (s : State) :
    (s.handsetRequest).pending = s.pending ∧ (s.handsetRequest).scu = s.scu ∧ (s.handsetRequest).lsq = s.lsq ∧
      (s.handsetRequest).ovc = s.ovc ∧ (s.handsetRequest).gxt = s.gxt ∧ (s.handsetRequest).vin = s.vin ∧
      (s.handsetRequest).pje = s.pje ∧ (s.handsetRequest).scr = s.scr := by
  unfold State.handsetRequest State.withPacket
  split
  · simp
  · next h =>
    have := State.nextBeat_frame h
    split <;> simp [this]

@[simp] theorem State.handsetCancel_frame (s : State) :
    (s.handsetCancel).pending = s.pending ∧ (s.handsetCancel).scu = s.scu ∧ (s.handsetCancel).lsq = s.lsq ∧
      (s.handsetCancel).ovc = s.ovc ∧ (s.handsetCancel).gxt = s.gxt ∧ (s.handsetCancel).vin = s.vin ∧
      (s.handsetCancel).pje = s.pje ∧ (s.handsetCancel).scr = s.scr := by
  unfold State.handsetCancel State.withPacket
  split
  · simp
  · next h =>
    have := State.nextBeat_frame h
    split <;> simp [this]

@[simp] theorem State.handsetStatus_frame (s : State) :
    (s.handsetStatus).pending = s.pending ∧ (s.handsetStatus).scu = s.scu ∧ (s.handsetStatus).lsq = s.lsq ∧
      (s.handsetStatus).ovc = s.ovc ∧ (s.handsetStatus).gxt = s.gxt ∧ (s.handsetStatus).vin = s.vin ∧
      (s.handsetStatus).pje = s.pje ∧ (s.handsetStatus).scr = s.scr ∧ (s.handsetStatus).ctl = s.ctl := by
  unfold State.handsetStatus State.withPacket
  split
  · simp
  · next h =>
    have := State.nextBeat_frame h
    split <;> simp [this]

@[simp] theorem State.badActionPacket_frame (s : State) :
    (s.badActionPacket).pending = s.pending ∧ (s.badActionPacket).scu = s.scu ∧
      (s.badActionPacket).lsq = s.lsq ∧ (s.badActionPacket).ovc = s.ovc ∧ (s.badActionPacket).gxt = s.gxt ∧
      (s.badActionPacket).vin = s.vin ∧ (s.badActionPacket).pje = s.pje ∧ (s.badActionPacket).scr = s.scr ∧
      (s.badActionPacket).ctl = s.ctl := by
  unfold State.badActionPacket State.withPacket
  split
  · simp
  · next h =>
    have := State.nextBeat_frame h
    split <;> simp [this]

@[simp] theorem State.replyRead_frame (s : State) :
    (s.replyRead).pending = s.pending ∧ (s.replyRead).scu = s.scu ∧ (s.replyRead).lsq = s.lsq ∧
      (s.replyRead).ovc = s.ovc ∧ (s.replyRead).gxt = s.gxt ∧ (s.replyRead).vin = s.vin ∧
      (s.replyRead).pje = s.pje ∧ (s.replyRead).scr = s.scr ∧ (s.replyRead).ctl = s.ctl := by
  unfold State.replyRead
  split <;> simp

@[simp] theorem State.resultSlotWritten_frame (s : State) :
    (s.resultSlotWritten).pending = s.pending ∧ (s.resultSlotWritten).scu = s.scu ∧
      (s.resultSlotWritten).lsq = s.lsq ∧ (s.resultSlotWritten).ovc = s.ovc ∧
      (s.resultSlotWritten).gxt = s.gxt ∧ (s.resultSlotWritten).vin = s.vin ∧
      (s.resultSlotWritten).pje = s.pje ∧ (s.resultSlotWritten).scr = s.scr ∧
      (s.resultSlotWritten).rqu = s.rqu ∧ (s.resultSlotWritten).ptu.links = s.ptu.links := by
  unfold State.resultSlotWritten
  split
  · simp
  · dsimp only
    split <;> simp

@[simp] theorem State.statusRewriteEnd_frame (s : State) :
    (s.statusRewriteEnd).pending = s.pending ∧ (s.statusRewriteEnd).scu = s.scu ∧
      (s.statusRewriteEnd).lsq = s.lsq ∧ (s.statusRewriteEnd).ovc = s.ovc ∧ (s.statusRewriteEnd).gxt = s.gxt ∧
      (s.statusRewriteEnd).vin = s.vin ∧ (s.statusRewriteEnd).pje = s.pje ∧ (s.statusRewriteEnd).scr = s.scr ∧
      (s.statusRewriteEnd).rqu = s.rqu ∧ (s.statusRewriteEnd).ptu.links = s.ptu.links := by
  unfold State.statusRewriteEnd
  split <;> simp

@[simp] theorem State.imageRewriteEnd_frame (s : State) :
    (s.imageRewriteEnd).pending = s.pending ∧ (s.imageRewriteEnd).scu = s.scu ∧
      (s.imageRewriteEnd).lsq = s.lsq ∧ (s.imageRewriteEnd).ovc = s.ovc ∧ (s.imageRewriteEnd).gxt = s.gxt ∧
      (s.imageRewriteEnd).vin = s.vin ∧ (s.imageRewriteEnd).pje = s.pje ∧ (s.imageRewriteEnd).scr = s.scr ∧
      (s.imageRewriteEnd).ctl = s.ctl ∧ (s.imageRewriteEnd).ptu.links = s.ptu.links := by
  unfold State.imageRewriteEnd
  split <;> simp

@[simp] theorem State.replyPlacementEnd_frame (s : State) :
    (s.replyPlacementEnd).pending = s.pending ∧ (s.replyPlacementEnd).scu = s.scu ∧
      (s.replyPlacementEnd).lsq = s.lsq ∧ (s.replyPlacementEnd).ovc = s.ovc ∧
      (s.replyPlacementEnd).gxt = s.gxt ∧ (s.replyPlacementEnd).vin = s.vin ∧
      (s.replyPlacementEnd).pje = s.pje ∧ (s.replyPlacementEnd).rqu = s.rqu ∧
      (s.replyPlacementEnd).ctl = s.ctl ∧ (s.replyPlacementEnd).ptu.links = s.ptu.links := by
  unfold State.replyPlacementEnd
  split
  · simp
  · dsimp only
    split <;> simp

/-! ## Host commands that wait for the line (R169) -/

/-- A host command's work has its effect when the line has room and none waits before it. -/
theorem State.hostWork_roomy (c : Instr) (work : State → State) {s : State} (h : s.roomy) : s.hostWork c work = work s := by
  simp [State.hostWork, h.1, h.2]

/-- Otherwise the command joins those that wait, and nothing else changes. -/
theorem State.hostWork_waits (c : Instr) (work : State → State) {s : State} (h : ¬ s.roomy) :
    s.hostWork c work = { s with ctl := { s.ctl with waiting := s.ctl.waiting ++ [c] } } := by
  refine if_pos ?_
  by_cases hf : s.ptu.lineFull = true
  · exact .inl hf
  · exact .inr fun hw => h ⟨by simpa using hf, hw⟩

/-- What every submitted command with its rewrites and every change of the waiting list keep, taking waiting commands up
keeps. -/
theorem State.resumeHost_keeps {P : State → Prop} (hs : ∀ s c, P s → P (s.submitInstr c).flush)
    (hw : ∀ (s : State) w, P s → P { s with ctl := { s.ctl with waiting := w } }) (l : List Instr) :
    ∀ s, P s → P (State.resumeHost l s) := by
  induction l with
  | nil => exact fun s h => h
  | cons c rest ih =>
    intro s h
    unfold State.resumeHost
    split
    · exact hw s _ h
    · exact ih _ (hs s c h)

/-- The same of all that wait at an arbiter decision. -/
theorem State.resumeWork_keeps {P : State → Prop} (hs : ∀ s c, P s → P (s.submitInstr c).flush)
    (hw : ∀ (s : State) w, P s → P { s with ctl := { s.ctl with waiting := w } }) (s : State) (h : P s) :
    P s.resumeWork :=
  State.resumeHost_keeps hs hw _ _ (hw s _ h)

/-- What every playback tap with its rewrites and every change of the lane keep, taking the playback taps at its head
keeps. -/
theorem State.takePlaybacks_keeps {P : State → Prop} (hp : ∀ s : State, P s → P s.playbackTap.flush)
    (ht : ∀ (s : State) l, P s → P { s with ptu := { s.ptu with taps := l } }) (l : List Tap) :
    ∀ s, P s → P (State.takePlaybacks l s) := by
  induction l with
  | nil => exact fun s h => h
  | cons t rest ih =>
    intro s h
    unfold State.takePlaybacks
    dsimp only
    split
    · split
      · exact h
      · exact ih _ (hp _ (ht s rest h))
    · exact h

end Sys2Proof.Machine
end

