-- ==== Sys2Proof/Tests/Slice0.lean ====
section
/-! SUPPORT. Tests: what WellFormed refuses, the spec's own worked examples, and for each statement with
hypotheses a witness, a state and operands that meet them. -/

namespace Sys2Proof.Tests

open Sys2Proof Sys2Proof.Machine

/-! ## WellFormed -/

/-- A read of `n` beats at `a` with tag `t`. -/
def readReq (a : Word) (t : BitVec 4) (n : Nat) : Request := ⟨a, t, .read n⟩

/-- A beat with every byte enabled. -/
def whole (d : Beat) : WriteBeat := ⟨d, 0xFFFF⟩

/-- A write of whole beats at `a` with tag `t`. -/
def writeReq (a : Word) (t : BitVec 4) (ds : List Beat) : Request := ⟨a, t, .write (ds.map whole)⟩

/-- A returned beat of zeros. -/
def zeroBeat : ReadBeat := ⟨0, .okay⟩

theorem test_wellFormed_takes_burst : (Instr.systemRequest (readReq 0 0 16)).wellFormed = true := by decide
theorem test_wellFormed_refuses_no_beat : (Instr.systemRequest (readReq 0 0 0)).wellFormed = false := by decide
theorem test_wellFormed_refuses_17_beats : (Instr.systemRequest (readReq 0 0 17)).wellFormed = false := by decide
theorem test_wellFormed_refuses_empty_write : (Instr.systemRequest (writeReq 0 0 [])).wellFormed = false := by decide
theorem test_wellFormed_refuses_empty_response :
    (Instr.passThroughResponse (.read [])).wellFormed = false := by decide
theorem test_wellFormed_refuses_long_response :
    (Instr.passThroughResponse (.read (List.replicate 17 zeroBeat))).wellFormed = false := by decide
theorem test_wellFormed_refuses_empty_own_response : (Instr.ownReadResponse []).wellFormed = false := by decide
theorem test_wellFormed_refuses_long_own_response :
    (Instr.ownReadResponse (List.replicate 17 zeroBeat)).wellFormed = false := by decide
theorem test_wellFormed_refuses_short_setup :
    (Instr.setup 0 0 0 (List.replicate 13 0)).wellFormed = false := by decide
theorem test_17_beats_refused :
    exec (.systemRequest (readReq 0 0 17)) State.reset = .refused .notABurst := rfl

/-! ## The spec's worked examples -/

/-- The CONTROL window of strap 3 (R161: 0FFFF000h + s × 10000000h). -/
theorem test_strap_three : strapBase 3 = 0x3FFFF000 := by decide

/-- The case of section 6.7: 873 scaled by KEY +2 is 778, and the two cases of Table 6-6 for -12 and +12. -/
theorem test_key_scaling : scaledPeriod 873 2 = 778 ∧ scaledPeriod 873 (-12) = 1746 ∧ scaledPeriod 873 12 = 437 := by
  decide

/-- The refinement of section 6.7 and the flat bottom and plateau of Table 6-6. -/
theorem test_refinement : refine 41000 23000 35000 = 2 ∧ refine 30000 20000 20000 = 8 ∧ refine 20000 20000 20000 = 0 := by
  decide

/-- The candidates of section 6.7: deviation 42 with no fold, and an octave low 10 with a fold. -/
theorem test_taken_deviation :
    takenDeviation true 786 778 = (42, false) ∧ takenDeviation true 1560 778 = (10, true) ∧
      takenDeviation false 1560 778 = (4117, false) ∧ takenDeviation true 800 600 = (1365, false) := by decide

/-- The score of section 6.7: 1,008 of 1,368 is 73.68. -/
theorem test_score : ({ earned := 1008, possible := 1368 } : Totals).score = 7368 := by decide

/-- The glyph address and the page of R64 and R65. -/
theorem test_glyph_address : glyphVa 682 32 = 682 * 1536 + 1024 ∧ physOf 5 (glyphVa 2 32) = 5 * 4096 + 0 := by decide

/-- A record like that of the worked pixel: a band of PART A, WIPE_A R 255 G 64 B 0, SHADE 160. -/
def pixelLatch : LatchRecord :=
  { prm := { bandX := 0, bandY := 0, bandW := 64, bandRows := 2, shade := 160 }
    songMs := 0, state := .playing, phase := none, bannerShown := false, entries := [], text := [] }

/-- The worked pixel of section 3.6: R 200 G 120 B 40 under alpha 170 comes out as R 212 G 68 B 8, and at
coverage 0 as R 125 G 75 B 25. -/
theorem test_worked_pixel :
    pixelOf (blendBeat pixelLatch 0 0 [⟨0, 0xFF4000, 170, 0⟩] (BitVec.ofNat 128 0x00C87828)) 0 = 0x00D44408 ∧
      pixelOf (blendBeat pixelLatch 0 0 [] (BitVec.ofNat 128 0x00C87828)) 0 = 0x007D4B19 := by decide

/-- The strip of the worked latch of section 3.4: 57 20117, 58 3004, 73.68 and --.--, 31 characters. -/
theorem test_strip_text :
    (stripText
      [⟨57, .staff, 20117, 0, 1, .staged, 0, 1⟩, ⟨58, .staff, 3004, 0, 1, .normal, 1, 2⟩]
      [(0, { active := true, totals := { earned := 1008, possible := 1368 } }), (2, { active := true })]).map
        StripChar.offset =
      [5, 7, 11, 2, 0, 1, 1, 7] ++ [11, 11] ++ [5, 8, 11, 3, 0, 0, 4] ++ [11, 11] ++ [7, 3, 10, 6, 8] ++ [11, 11] ++
        [12, 12, 10, 12, 12] := by decide

/-! ## A bench: a part set up, with a song in PLAYING -/

/-- A setup record that meets every check. -/
def goodSetup : Setup :=
  { wPlayback := ⟨0x100000, 0x1000⟩, wFrame := ⟨0x200000, 0x100000⟩, wMic := ⟨0x110000, 0x1000⟩
    wHandset := ⟨0x120000, 0x1000⟩, wReply := ⟨0x130000, 0x1000⟩, wAsset := ⟨0x400000, 0x100000⟩
    wPagetable := ⟨0x140000, 0x1000⟩, wImage := ⟨0x150000, 0x1000⟩
    controlTag := 1, playbackTag := 2, displayTag := 3, captureTag := 4, radioTag := 5
    channels := 2, aperture := 2 ^ 20, width := 64, height := 200, stride := 256
    bandX := 0, bandY := 0, bandW := 64, bandRows := 2
    stripEnable := true, stripX := 0, stripY := 100, stripW := 64, catalogSize := 1000 }

/-- The Path Unit under it. -/
def benchPtu : Ptu := { windows := goodSetup.windows, tags := some ⟨1, 2, 3, 4, 5⟩ }

/-- A part set up, in IDLE, with nothing in progress. -/
def bench : State := { ptu := benchPtu, ctl := { setup := some goodSetup, pendingSetup := goodSetup } }

/-- A ticket of handset 5. -/
def ticket (n : Nat) (c : TicketClass) : Ticket := ⟨n, .handset 5, 100 + n, 0, 1, c, if c = .normal then 1 else 0, 1⟩

/-- The bench with a song of 60 seconds in PLAYING, ticket 7 of handset 5, and singer 0 at microphone 0. -/
def playing : State :=
  { bench with
    scu := { state := .playing, current := some (ticket 7 .staged), length := 60000 }
    lsq := { cueBase := 0x400100, cueCount := 3, lineBase := 0x400200, lineCount := 2 }
    scr := { singers := vset (Vector.replicate 4 {}) 0 { active := true, mic := some 0, part := some .a, link := some 7 } } }

/-- The bench with a queue. -/
def queued (q : List Ticket) : State := { bench with rqu := { queue := q, lastNumber := 40 } }

/-- A queue of 32 staff tickets. -/
def fullQueue : List Ticket :=
  (List.range 32).map (fun i => ⟨i + 1, .staff, 9, 0, 1, .priority, 0, BitVec.ofNat 32 (i + 1)⟩)

/-- A state with one ended own operation. -/
def withEnded (s : State) (k : OpKind) (d : List PartState) : State :=
  { s with ptu := { s.ptu with ended := [⟨9, k, d⟩] } }

/-- A state with one tap in the lane. -/
def withTap (s : State) (c : PassClass) (r : Request) : State := { s with ptu := { s.ptu with taps := [⟨c, r⟩] } }

/-- A state with one request placed on the memory side. -/
def withPlaced (s : State) (x : Placed) : State := { s with ptu := { s.ptu with placed := [x], sysOrder := [.forwarded] } }

/-- The packet of handset `h` with a sequence, an action, a song and a ticket number. -/
def packet (h q a song t : Nat) : Beat := BitVec.ofNat 128 (h + 2 ^ 8 * q + 2 ^ 16 * a + 2 ^ 32 * song + 2 ^ 64 * t)

/-- A state with one packet in the lane. -/
def withPacket (s : State) (h q a song t : Nat) : State :=
  withTap s .handset (writeReq 0x120000 5 [packet h q a song t])

theorem bench_setup_ok : goodSetup.ok bench.ptu.controlBase = true := by decide
theorem bench_ready : bench.ready := ⟨rfl, rfl, rfl, rfl⟩
theorem playing_ready : playing.ready := ⟨rfl, rfl, rfl, rfl⟩

/-- A line of 64 requests. -/
def fullLine : List OwnRequest := List.replicate 64 ⟨.cueFetch, 0, 0, 0, .read 1⟩

/-- A state whose intake line holds 64. -/
def lineFilled (s : State) : State := { s with ptu := { s.ptu with intake := fullLine } }

/-! ## Witnesses of the statements, in their order -/

theorem witness_StepTakesTheFrontCommand : State.reset.pending = [] := rfl

theorem witness_WorkWaitsForTheLine :
    hostCode (.stop 3) = some (6, 3) ∧ bench.roomy ∧ (lineFilled bench).ptu.lineFull = true ∧
      ({ bench.ctl with waiting := [.stop 3] } : Ctl).waiting = [.stop 3] ∧ bench.ptu.lineFull = false :=
  ⟨rfl, ⟨rfl, rfl⟩, by decide, rfl, rfl⟩

theorem witness_WorkWaitsForTheLine_rest :
    (lineFilled bench).ptu.lineFull = true ∧ (∃ u, exec .headerReadComplete (lineFilled bench) = .next u) ∧
      (Instr.headerReadComplete ≠ .arbiterDecision) :=
  ⟨by decide, ⟨_, rfl⟩, by decide⟩

/-- PLAYING with a LINE_IN of 5,000 ms that has no slot, behind a MARK, and slot 4 the one FREE slot. -/
def claimWaiting : State :=
  { playing with lsq := { playing.lsq with
      queue := [⟨⟨4000, .mark 3⟩, none⟩, ⟨⟨5000, .lineIn 1⟩, none⟩]
      slots := vset (Vector.replicate 8 { state := .shown }) 4 {} } }

theorem witness_WorkWaitsForTheLine_claim :
    claimWaiting.ptu.lineFull = false ∧ (claimWaiting.lsq.slots.get 4).state = .free ∧
      (∀ j, j ≠ 4 → (claimWaiting.lsq.slots.get j).state ≠ .free) ∧
      claimWaiting.lsq.queue = [⟨⟨4000, .mark 3⟩, none⟩] ++ ⟨⟨5000, .lineIn 1⟩, none⟩ :: [] ∧
      (∀ x ∈ claimWaiting.lsq.queue, claimWaiting.songMs < x.cue.time) ∧ claimWaiting.scu.state ≠ .seeking ∧
      (∀ c ∈ bench.lsq.queue, c.slot ≠ none) ∧ bench.scu.state = .idle ∧ playing.scu.state ≠ .idle := by decide

theorem witness_OwnWritesBeginAndEnd :
    State.reset.ptu.controlBase % 256 = 0 ∧
      (withEnded bench (.result 4) [.data []]).ptu.firstEnded
        OpKind.isResult = some ⟨9, .result 4, [.data []]⟩ ∧
      (withEnded bench .status [.data []]).ptu.firstEnded (fun k => k == .status) = some ⟨9, .status, [.data []]⟩ ∧
      (withEnded bench .image [.data []]).ptu.firstEnded (fun k => k == .image) = some ⟨9, .image, [.data []]⟩ ∧
      (withEnded bench (.reply true) [.data []]).ptu.firstEnded
        OpKind.isReply = some ⟨9, .reply true, [.data []]⟩ := by decide

/-- A line record on a 256-byte boundary is read by two reads of 16 beats and off it by three (R32), a cue on both sides
of a boundary by two of one beat (R25). -/
theorem witness_OwnWritesBeginAndEnd_reads :
    (readsOver 0x400200 512)[1]? = some (0x400300, .read 16) ∧ (readsOver 0x400200 512).length = 2 ∧
      readsOver 0x400210 512 = [(0x400210, .read 15), (0x400300, .read 16), (0x400400, .read 1)] ∧
      readsOver 0x4000FC 8 = [(0x4000F0, .read 1), (0x400100, .read 1)] ∧
      readsOver 0x40010C 8 = [(0x400100, .read 2)] := by decide

/-- Reply slot 7 lies at offset 240 and is written on both sides of the boundary, the last byte with enables of its own. -/
theorem witness_OwnWritesBeginAndEnd_writes :
    (writesOver 0x1300F0 (leBytes 17 (5 * 256 ^ 16 + 3)))[1]? = some (0x130100, .write [⟨5, 0x0001⟩]) ∧
      (writesOver 0x1300F0 (leBytes 17 (5 * 256 ^ 16 + 3)))[0]? = some (0x1300F0, .write [⟨3, 0xFFFF⟩]) ∧
      writesOver 0x0FFFF084 [9, 8] = [(0x0FFFF080, .write [⟨BitVec.ofNat 128 (2 ^ 32 * 0x0809), 0x0030⟩])] := by decide

theorem witness_OwedRewritesBegin :
    let s : State := { bench with rqu := { imageOwed := true }, ctl := { bench.ctl with statusOwed := true } }
    (s.rqu.imageOwed = true ∧ s.rqu.imageOp = none ∧ s.ptu.intake.length < 64) ∧
      (s.ctl.statusOwed = true ∧ s.ctl.statusOp = none) ∧ 64 ≤ fullLine.length :=
  ⟨⟨rfl, rfl, by decide⟩, ⟨rfl, rfl⟩, by decide⟩

/-- A part that shows every field of the two bodies: a queue, a history, a pending slot, a current and a staged ticket,
an ACTIVE singer, a memory error, a guard record and a mark. -/
def shown : State :=
  { playing with
    rqu := { bench.rqu with
      queue := [ticket 8 .staged], history := [⟨9, 6, .staff⟩]
      handsets := vset (Vector.replicate 16 {}) 9 { slot := some ⟨9, 0, 1, 3⟩ } }
    ctl := { playing.ctl with staged := some ⟨8, .handset 5, 108, -2, 1, 1⟩, lastMark := some 5 }
    ptu := { benchPtu with memError := some ⟨0x400100, .cueFetch⟩, lastGuard := some ⟨0x130010, 9⟩ } }

theorem witness_RewriteBodiesMeetTheirTables :
    shown.rqu.queue[0]? = some (ticket 8 .staged) ∧ shown.rqu.queue.length ≤ 1 ∧
      shown.rqu.history[0]? = some ⟨9, 6, .staff⟩ ∧ shown.rqu.history.length ≤ 7 ∧
      shown.scu.current = some (ticket 7 .staged) ∧ shown.ctl.staged = some ⟨8, .handset 5, 108, -2, 1, 1⟩ ∧
      (shown.scr.singers.get 0).active = true ∧ (shown.scr.singers.get 1).active = false ∧
      shown.ptu.memError = some ⟨0x400100, .cueFetch⟩ ∧ shown.ptu.lastGuard = some ⟨0x130010, 9⟩ ∧
      bench.scu.current = none ∧ bench.ctl.staged = none ∧ bench.ptu.memError = none ∧ bench.ptu.lastGuard = none := by
  decide

theorem witness_LineResetAndOwedResponses :
    0 < ({ bench with ptu := { benchPtu with discard := 1 } } : State).ptu.discard := by decide

theorem witness_DecisionOrderOfHostCommands :
    hostCode (.stop 3) = some (6, 3) ∧
      ({ bench with ctl := { bench.ctl with inProgress := some ⟨5, 1⟩ } } : State).ctl.inProgress.isSome = true ∧
      (State.reset.ctl.inProgress = none ∧ State.reset.ctl.setup = none) ∧
      hostCode (.setup 3 0 0 []) = some (1, 3) ∧ hostCode (.clearRoom 3) = some (16, 3) ∧
      playing.ctl.inProgress = none ∧ playing.ctl.setup.isSome = true ∧ playing.scu.state ≠ .idle := by decide

theorem witness_DecisionOrderOfHostCommands_roomy : State.reset.roomy ∧ playing.roomy := ⟨⟨rfl, rfl⟩, ⟨rfl, rfl⟩⟩

theorem witness_TempoScoringAndEventsAreSet :
    bench.ready ∧ 32767 < (32768 : Word).toNat ∧ ¬ (32767 < (32767 : Word).toNat ∨ 256 < (256 : Word).toNat ∨
      (1023 : Word).toNat < (1023 : Word).toNat ∨ 1023 < (1023 : Word).toNat) :=
  ⟨bench_ready, by decide, by decide⟩

theorem witness_StopAndRefusedSongCommands :
    playing.ready ∧ playing.scu.state = .playing ∧ playing.vin.queue = [] ∧ playing.pje.block = none ∧
      playing.scu.current.isSome = true :=
  ⟨playing_ready, rfl, rfl, rfl, rfl⟩

/-- An entry of channel 0, half 0 of the current song. -/
def entry : BlockEntry := ⟨0, 0, 30000, 0, 7⟩

/-- PLAYING with a block being measured. -/
def measuring : State := { playing with pje := { block := some ⟨entry, {}, .measuring⟩ } }

theorem witness_StopAndRefusedSongCommands_drain :
    measuring.ready ∧ measuring.scu.state = .playing ∧
      (∃ b, measuring.pje.block = some b ∧ b.phase = .measuring) ∧
      ({ playing with vin := { queue := [entry] } } : State).vin.queue ≠ [] :=
  ⟨⟨rfl, rfl, rfl, rfl⟩, rfl, ⟨_, rfl, rfl⟩, by decide⟩

theorem witness_StopAndRefusedSongCommands_refusals :
    bench.ready ∧ bench.scu.state ≠ .playing ∧ playing.scu.state = .playing ∧ 1 < (2 : Word).toNat ∧
      (1 : Word).toNat ≤ 1 ∧
      (∀ t ∈ (queued [ticket 8 .staged]).rqu.queue, t.cls = .staged → t.number ≠ (9 : Word).toNat) :=
  ⟨bench_ready, by decide, rfl, by decide, by decide, by decide⟩

theorem witness_SeekAndStartBegin :
    playing.ready ∧ playing.scu.state = .playing ∧ 0 < playing.lsq.cueCount := ⟨playing_ready, rfl, by decide⟩

/-- PLAYING a song of no cues under HOLD: channel 0 with its block in hand in half 0 and a QUEUED one in half 1, channel 1
with an ANALYSING half that is not the block's. -/
def singing : State :=
  let c0 : Channel :=
    { hold := true, count := 2, sum := 9
      halves := vset (vset (Vector.replicate 2 {}) 0 { state := .analysing }) 1 { state := .queued } }
  let c1 : Channel := { halves := vset (Vector.replicate 2 {}) 1 { state := .analysing } }
  { measuring with
    lsq := {}
    vin := { queue := [{ entry with half := 1 }], channels := vset (vset (Vector.replicate 4 {}) 0 c0) 1 c1 } }

/-- The block in hand's half and the QUEUED one are FREE after a SEEK, HOLD is cleared and the decimator kept (R88, R96);
with no notes either, the song is in PLAYING again. -/
theorem witness_SeekAndStartBegin_voices :
    singing.ready ∧ singing.scu.state = .playing ∧ singing.lsq.cueCount = 0 ∧ singing.pje.noteCount = 0 ∧
      ((singing.vin.channels.get 1).halves.get 1).state = .analysing ∧
      (let u := singing.beginSeek 3 0
       u.scu.state = .playing ∧ (u.vin.channels.get 0).halves = Vector.replicate 2 {} ∧
         (u.vin.channels.get 0).hold = false ∧ (u.vin.channels.get 0).count = 2 ∧
         ((u.vin.channels.get 1).halves.get 1).state = .analysing) :=
  ⟨⟨rfl, rfl, rfl, rfl⟩, rfl, rfl, rfl, by decide, by decide +kernel⟩

theorem witness_SeekAndStartBegin_start :
    let s := queued [ticket 8 .staged]
    s.ready ∧ s.rqu.stagedTicket = some (ticket 8 .staged) ∧ (ticket 8 .staged).number = (8 : Word).toNat ∧
      s.ptu.windows.asset = some ⟨0x400000, 0x100000⟩ ∧ 0x400000 % 256 = 0 ∧ 0x100000 % 512 = 0 ∧
      (1 : Word).toNat < 2 ∧ s.scu.state = .idle :=
  ⟨⟨rfl, rfl, rfl, rfl⟩, rfl, rfl, rfl, by decide, by decide, by decide, rfl⟩

theorem witness_SeekAndStartBegin_banner :
    let s : State := { queued [ticket 8 .staged] with
      scu := { playing.scu with state := .finishing, phase := some .banner, bannerCount := 5 } }
    s.ready ∧ s.rqu.stagedTicket = some (ticket 8 .staged) ∧ s.scu.state = .finishing ∧ s.scu.phase = some .banner :=
  ⟨⟨rfl, rfl, rfl, rfl⟩, rfl, rfl, rfl⟩

/-- The words of a section 5 that keeps the bench's values. -/
def timesWords : List Word := [400, 1500, 300, 30000, 1000, 3, 0, 0, 0, 0, 0, 0, 0, 0]

theorem witness_SetupIsCheckedAndTaken :
    bench.ctl.inProgress = none ∧ bench.scu.state = .idle ∧ 5 < (6 : Byte).toNat ∧ (5 : Byte).toNat ≤ 5 ∧
      (bench.ctl.pendingSetup.copySection (5 : Byte).toNat (fun i => timesWords.getD i 0)).ok
        bench.ptu.controlBase = true ∧
      (bench.ctl.pendingSetup.copySection (5 : Byte).toNat (fun _ => 0)).ok bench.ptu.controlBase = false := by
  decide

theorem witness_SetupIsCheckedAndTaken_roomy : bench.roomy := ⟨rfl, rfl⟩

/-- The last page of the aperture, and the last entry of a page table that just has room. -/
theorem witness_CheckedSetupsMeetTheTables :
    goodSetup.ok 0x0FFFF000 = true ∧ 255 < goodSetup.aperture / 4096 ∧
      ({ goodSetup with shade := 257 } : Setup).ok 0x0FFFF000 = false ∧
      ({ goodSetup with bandX := 1 } : Setup).ok 0x0FFFF000 = false ∧
      ({ goodSetup with stripY := 95 } : Setup).ok 0x0FFFF000 = false := by decide

/-- IDLE with singer 0 ACTIVE at microphone 1. -/
def seated : State :=
  { bench with scr := { singers := vset (Vector.replicate 4 {}) 0
                          { active := true, mic := some 1, part := some .a
                            totals := { earned := 8, possible := 8, lastBand := some .good } } } }

theorem witness_AssignIsCheckedAndTaken_refusals :
    playing.ready ∧ 3 < (4 : Word).toNat ∧ (playing.scr.singers.get 0).active = true ∧
      playing.scu.state = .playing ∧ playing.scu.state ≠ .finishing ∧
      (playing.scr.singers.get 1).active = false ∧ 2 < (3 : Word).toNat ∧
      playing.prm.channels ≤ (2 : Word).toNat ∧ (playing.scr.singers.get 0).mic = some (0 : Word).toNat :=
  ⟨playing_ready, by decide, rfl, rfl, by decide, rfl, by decide, by decide, rfl⟩

theorem witness_AssignIsCheckedAndTaken :
    playing.scu.state ≠ .finishing ∧ (1 : Word).toNat = (1 : Fin 4).val ∧
      (playing.scr.singers.get 1).active = false ∧ (1 : Word).toNat < playing.prm.channels ∧
      (∀ j : Fin 4, j ≠ 1 → (playing.scr.singers.get j).active = true →
        (playing.scr.singers.get j).mic ≠ some (1 : Word).toNat) := by decide

theorem witness_AssignIsCheckedAndTaken_off :
    seated.ready ∧ seated.scu.state ≠ .finishing ∧ (seated.scu.state = .playing → False) ∧
      (0 : Word).toNat = (0 : Fin 4).val ∧ (seated.scr.singers.get 0).active = true ∧
      (seated.scr.singers.get 0).mic = some 1 ∧ (seated.scr.singers.get 1).active = false :=
  ⟨⟨rfl, rfl, rfl, rfl⟩, by decide, by decide, by decide, rfl, rfl, rfl⟩

theorem witness_RepliesArePlacedAndRead :
    bench.rqu.slots.get bench.rqu.replyIndex = false ∧
      ({ slots := Vector.replicate 16 true } : Rqu).slots.get 15 = true := by decide

theorem witness_RepliesArePlacedAndRead_read :
    (withTap bench .replyRead (readReq 0x130000 5 16)).ptu.taps = [⟨.replyRead, readReq 0x130000 5 16⟩] ∧
      (∃ j < 16, beatAddr (readReq 0x130000 5 16).addr j = baseOf bench.ptu.windows.reply + 32 + 32 * (6 : Fin 16).val) ∧
      (∀ j < 16, beatAddr (readReq 0x130000 5 16).addr j ≠ baseOf bench.ptu.windows.reply + 32 + 32 * (7 : Fin 16).val) := by
  decide

theorem witness_InsertAdmitsAStaffTicket_number :
    bench.rqu.queue.length ≤ 32 ∧ bench.rqu.lastNumber ≤ 65535 ∧ ({ lastNumber := 65535 } : Rqu).lastNumber ≤ 65535 ∧
      fullQueue.length ≤ 32 := by decide

/-- A queue of `n` tickets of staff, the head STAGED, with QUEUE_CHANGED and QUEUE_HIGH enabled. -/
def atLevel (n : Nat) : State :=
  let q := (List.range n).map (fun i => (⟨i + 1, .staff, 9, 0, 1, if i = 0 then .staged else .priority, 0, BitVec.ofNat 32 i⟩ : Ticket))
  { queued q with ctl := { bench.ctl with enables := 0x60 } }

/-- QUEUE_HIGH is raised by the admission from 27 tickets to 28, and by that from 26 or from 28 it is not (R146). -/
theorem witness_InsertAdmitsAStaffTicket_high :
    (atLevel 27).ready ∧ (atLevel 27).rqu.queue.length = 27 ∧ (atLevel 27).stagingHolds = false ∧
      ((atLevel 27).takeInsert 5 0 1 false).state.ctl.flags = 0x60 ∧
      ((atLevel 26).takeInsert 5 0 1 false).state.ctl.flags = 0x20 ∧
      ((atLevel 28).takeInsert 5 0 1 true).state.ctl.flags = 0x20 :=
  ⟨⟨rfl, rfl, rfl, rfl⟩, by decide, by decide, by decide, by decide, by decide⟩

theorem witness_InsertAdmitsAStaffTicket :
    (queued [ticket 8 .staged]).ready ∧
      ((0 : Word).toNat = 0 ∧ (1000 : Word).toNat ≤ (queued []).prm.catalogSize ∧
        (queued [ticket 8 .staged]).rqu.queue.length < 32 ∧ (queued [ticket 8 .staged]).rqu.lastNumber ≤ 65535 ∧
        (queued [ticket 8 .staged]).stagingHolds = false ∧ (queued [ticket 8 .staged]).rqu.queue ≠ []) ∧
      (queued fullQueue).ready ∧ 32 ≤ (queued fullQueue).rqu.queue.length :=
  ⟨⟨rfl, rfl, rfl, rfl⟩, by decide, ⟨rfl, rfl, rfl, rfl⟩, by decide⟩

/-- A bad argument at a full queue (log 30). -/
theorem witness_InsertAdmitsAStaffTicket_bad :
    (queued fullQueue).ready ∧ (0 : Word).toNat = 0 ∧ 32 ≤ (queued fullQueue).rqu.queue.length ∧
      ((queued fullQueue).takeInsert 0 0 1 false).rc = .badArg :=
  ⟨⟨rfl, rfl, rfl, rfl⟩, rfl, by decide, by decide⟩

theorem witness_RemoveTakesATicketAway :
    playing.ready ∧ playing.rqu.ticket (7 : Word).toNat = none ∧
      playing.scu.current.map Ticket.number = some (7 : Word).toNat ∧
      playing.rqu.ticket (9 : Word).toNat = none ∧ playing.scu.current.map Ticket.number ≠ some (9 : Word).toNat :=
  ⟨playing_ready, rfl, rfl, rfl, by decide⟩

/-- A staged ticket of handset 5 before a NORMAL one. -/
def twoQueued : State := queued [ticket 8 .staged, ticket 9 .normal]

theorem twoQueued_ready : twoQueued.ready := ⟨rfl, rfl, rfl, rfl⟩

theorem witness_RemoveTakesATicketAway_queued :
    twoQueued.ready ∧ twoQueued.rqu.ticket (9 : Word).toNat = some (ticket 9 .normal) ∧
      twoQueued.rqu.queue.length < 32 ∧ (∃ x ∈ twoQueued.rqu.queue, x.cls = .staged ∧ x.number ≠ (9 : Word).toNat) ∧
      twoQueued.rqu.ticket (8 : Word).toNat = some (ticket 8 .staged) ∧
      (queued fullQueue).rqu.ticket (32 : Word).toNat = some ⟨32, .staff, 9, 0, 1, .priority, 0, 32⟩ :=
  ⟨twoQueued_ready, rfl, by decide, by decide, rfl, by decide⟩

theorem witness_PromoteMovesANormalTicket :
    twoQueued.ready ∧ twoQueued.rqu.ticket (9 : Word).toNat = some (ticket 9 .normal) ∧
      (ticket 9 .normal).cls = .normal ∧
      (∃ x ∈ twoQueued.rqu.queue, x.cls = .staged ∧ x.number ≠ (9 : Word).toNat) ∧
      twoQueued.rqu.ticket (8 : Word).toNat = some (ticket 8 .staged) ∧ (ticket 8 .staged).cls ≠ .normal :=
  ⟨twoQueued_ready, rfl, rfl, by decide, rfl, by decide⟩

/-- A STAGED, two PRIORITY and two NORMAL tickets. -/
def grouped : State :=
  queued [ticket 8 .staged, ticket 11 .priority, ticket 12 .priority, ticket 9 .normal, ticket 10 .normal]

theorem witness_PromoteMovesANormalTicket_order :
    grouped.rqu.ticket (10 : Word).toNat = some (ticket 10 .normal) ∧
      (∀ x ∈ grouped.rqu.queue, x.cls = .priority →
        x.round = 0 ∧ (grouped.rqu.arrival + 1 - x.arrival).msb = false) ∧
      (grouped.rqu.queue.map Ticket.number).Nodup ∧
      playing.scu.state = .playing ∧ playing.songMs + playing.prm.stageLeadMs < playing.scu.length := by decide

theorem witness_StagingTakesTheHead :
    let s := queued [ticket 9 .normal, ticket 10 .normal]
    s.rqu.queue = [ticket 9 .normal, ticket 10 .normal] ∧ (∀ x ∈ s.rqu.queue, x.cls ≠ .staged) ∧
      s.scu.state = .idle ∧ (ticket 9 .normal).source = .handset 5 ∧
      (let p : State := { s with scu := { playing.scu with length := 30000 } }
       p.scu.state = .playing ∧ p.scu.length ≤ p.songMs + p.prm.stageLeadMs) ∧
      ({ state := .starting } : Scu).state ≠ .idle := by decide

theorem witness_DeparturesDrainTheSlots :
    ticket 8 .staged ∈ twoQueued.rqu.queue ∧ (queued fullQueue).rqu.queue.length = 32 ∧
      (ticket 9 .normal).cls = .normal := by decide

/-- The room with song 50 held in the pending slot of handset 5. -/
def holding (q : List Ticket) : State :=
  { queued q with rqu := { (queued q).rqu with
      handsets := vset (Vector.replicate 16 {}) 5 { lastSeq := some 1, slot := some ⟨1, 50, 0, 1⟩ } } }

theorem witness_DeparturesDrainTheSlots_visit :
    ((holding fullQueue.tail).rqu.handsets.get 5).slot = some ⟨1, 50, 0, 1⟩ ∧
      (holding fullQueue.tail).rqu.queue.length < 32 ∧ (holding fullQueue.tail).checkRequest 5 50 = .accept ∧
      (holding fullQueue.tail).checkRequest 5 1001 = .refuse .unknownSong ∧
      ((holding fullQueue).rqu.handsets.get 6).slot = none ∧ 32 ≤ (holding fullQueue).rqu.queue.length := by decide

theorem witness_RoomAndGlyphCommands :
    bench.ready ∧ bench.scu.state = .idle ∧ bench.rqu.queue = [] ∧ twoQueued.ready ∧ twoQueued.scu.state = .idle ∧
      twoQueued.rqu.queue ≠ [] ∧ ((holding []).rqu.handsets.get 5).slot.isSome = true :=
  ⟨bench_ready, rfl, rfl, twoQueued_ready, rfl, by decide, rfl⟩

/-- A REQUEST of song 50 by handset 5, its first packet. -/
def requesting (s : State) : State := withPacket s 5 1 1 50 0

theorem witness_RequestPacketsAreChecked :
    let s := requesting twoQueued
    (∃ b s', s.nextBeat = some (b, s') ∧ s.packetKind b = .fresh .request ∧ (readPacket b.data).song = 50 ∧
      s.checkRequest (readPacket b.data).from (readPacket b.data).song = .accept) ∧
    s.rqu.lastNumber ≤ 65535 ∧ s.rqu.stagedTicket.isSome = true ∧ s.ptu.lineFull = false :=
  ⟨⟨_, _, rfl, by decide, by decide, by decide⟩, by decide, rfl, rfl⟩

theorem witness_RequestPacketsAreChecked_full :
    let s := requesting (queued fullQueue)
    (∃ b s', s.nextBeat = some (b, s') ∧ s.packetKind b = .fresh .request ∧ (readPacket b.data).song ≤ s.prm.catalogSize ∧
      s.rqu.queue.countP (fun t => decide (t.source = .handset (readPacket b.data).from)) < s.prm.limit ∧
      (s.rqu.handsets.get (readPacket b.data).from).slot = none) ∧
    s.rqu.closed = false ∧ s.prm.recentBlock = false ∧ s.prm.dupBlock = false ∧ 32 ≤ s.rqu.queue.length :=
  ⟨⟨_, _, rfl, by decide, by decide, by decide, by decide⟩, rfl, rfl, rfl, by decide⟩

/-- The same from a handset. -/
theorem witness_RequestPacketsAreChecked_high :
    (atLevel 27).rqu.queue.length < 32 ∧ (atLevel 27).rqu.lastNumber ≤ 65535 ∧
      ((atLevel 27).acceptRequest 3 5 0 1).ctl.flags = 0x60 ∧ ((atLevel 26).acceptRequest 3 5 0 1).ctl.flags = 0x20 := by
  decide

/-- With no STAGED ticket: in PLAYING before the lead the ticket stays NORMAL, in IDLE it is staged. -/
theorem witness_RequestPacketsAreChecked_staging :
    (∃ b s', (requesting playing).nextBeat = some (b, s') ∧ (requesting playing).packetKind b = .fresh .request ∧
      (requesting playing).checkRequest (readPacket b.data).from (readPacket b.data).song = .accept) ∧
    playing.rqu.stagedTicket = none ∧ (playing.acceptRequest 5 50 0 1).stagingHolds = false ∧
    (playing.acceptRequest 5 50 0 1).rqu.queue.map Ticket.cls = [.normal] ∧
    (bench.acceptRequest 5 50 0 1).rqu.queue.map Ticket.cls = [.staged] :=
  ⟨⟨_, _, rfl, by decide, by decide⟩, rfl, by decide, by decide, by decide⟩

theorem witness_RequestPacketsAreChecked_refusals :
    (∃ b s', (withPacket bench 5 1 1 1001 0).nextBeat = some (b, s') ∧
      (withPacket bench 5 1 1 1001 0).packetKind b = .fresh .request ∧
      bench.prm.catalogSize < (readPacket b.data).song) ∧
    ({ bench with rqu := { closed := true } } : State).rqu.closed = true :=
  ⟨⟨_, _, rfl, by decide, by decide⟩, rfl⟩

theorem witness_CancelPacketAnswers :
    let s := withPacket twoQueued 5 1 2 0 9
    (∃ b s', s.nextBeat = some (b, s') ∧ s.packetKind b = .fresh .cancel ∧ (readPacket b.data).ticket = 9 ∧
      (ticket 9 .normal).source = .handset (readPacket b.data).from) ∧
    s.rqu.ticket 9 = some (ticket 9 .normal) ∧ (∃ x ∈ s.rqu.queue, x.cls = .staged ∧ x.number ≠ 9) ∧
    s.ptu.lineFull = false :=
  ⟨⟨_, _, rfl, by decide, by decide, by decide⟩, rfl, by decide, rfl⟩

theorem witness_CancelPacketAnswers_refusals :
    (∃ b s', (withPacket playing 6 1 2 0 7).nextBeat = some (b, s') ∧
      (withPacket playing 6 1 2 0 7).packetKind b = .fresh .cancel ∧ (readPacket b.data).ticket = 7 ∧
      (ticket 7 .staged).source ≠ .handset (readPacket b.data).from) ∧
    playing.rqu.ticket 7 = none ∧ playing.scu.current = some (ticket 7 .staged) ∧
    (∃ b s', (withPacket bench 6 1 2 0 0).nextBeat = some (b, s') ∧
      (withPacket bench 6 1 2 0 0).packetKind b = .fresh .cancel ∧ (readPacket b.data).ticket = 0) ∧
    (bench.rqu.handsets.get 6).slot = none :=
  ⟨⟨_, _, rfl, by decide, by decide, by decide⟩, rfl, rfl, ⟨_, _, rfl, by decide, by decide⟩, rfl⟩

theorem witness_PacketsAreTakenOneByOne :
    (withPacket bench 15 1 3 0 0).ptu.taps = [⟨.handset, writeReq 0x120000 5 [packet 15 1 3 0 0]⟩] ∧
      byteAt [packet 15 1 3 0 0] 0 = (15 : Fin 16).val ∧ byteAt [packet 15 1 3 0 0] 2 = 3 ∧
      15 < byteAt [packet 16 1 3 0 0] 0 := by decide

theorem witness_PacketsAreTakenOneByOne_kinds :
    (∃ b s', (withPacket bench 5 1 3 0 0).nextBeat = some (b, s') ∧
      (withPacket bench 5 1 3 0 0).packetKind b = .fresh .status) ∧
    (∃ b s', (withPacket bench 5 1 9 0 0).nextBeat = some (b, s') ∧
      (withPacket bench 5 1 9 0 0).packetKind b = .fresh .other) ∧
    (∃ b s', (withPacket bench 16 1 3 0 0).nextBeat = some (b, s') ∧ 15 < byteAt [b.data] 0) ∧
    (withPacket bench 5 1 3 0 0).ptu.lineFull = false :=
  ⟨⟨_, _, rfl, by decide⟩, ⟨_, _, rfl, by decide⟩, ⟨_, _, rfl, by decide⟩, rfl⟩

/-- A bench where handset 5 has sent sequence 1 and was told CLOSED. -/
def answered : State :=
  let told : HandsetRecord := { lastSeq := some 1, lastReply := some ⟨5, 1, .refused .closed⟩ }
  { bench with rqu := { handsets := vset (Vector.replicate 16 {}) 5 told } }

theorem witness_PacketsAreTakenOneByOne_resend :
    ∃ b s', (withPacket answered 5 1 1 50 0).nextBeat = some (b, s') ∧
      (withPacket answered 5 1 1 50 0).packetKind b = .resend ∧
      ((withPacket answered 5 1 1 50 0).rqu.handsets.get (readPacket b.data).from).lastReply =
        some ⟨5, 1, .refused .closed⟩ := ⟨_, _, rfl, by decide, by decide⟩

/-- A packet of the highest HANDSET with a KEY of 127 and SINGERS 2. -/
theorem witness_RecordsAreReadByteByByte :
    let p := readPacket (BitVec.ofNat 128 (15 + 2 ^ 8 * 9 + 2 ^ 16 * 1 + 2 ^ 24 * 127 + 2 ^ 32 * 0x030201 + 2 ^ 56 * 2))
    p.handset ≤ 15 ∧ p.from = 15 ∧ p.seq = 9 ∧ p.action = .request ∧ p.key = 12 ∧ p.song = 0x030201 ∧ p.singers = 2 := by
  decide

/-- A line of one glyph of index 0102h and advance 0, and two syllables, the second past the glyphs. -/
theorem witness_RecordsAreReadByteByByte_line :
    let r := readLine ([1 + 2 ^ 8 * 2 + 2 ^ 16 * 2 + 2 ^ 24 * 1, 0x0102] ++ List.replicate 11 0 ++
      [2 ^ 8 * 3 + 2 ^ 32 * 0x1234 + 2 ^ 64 * 9 + 2 ^ 72 * 9]) 0
    r.glyphs = [⟨0x0102, 1⟩] ∧ r.syllables = [⟨0, 1, 0x1234, 1⟩, ⟨1, 0, 0, 1⟩] ∧ r.part = .b ∧ r.align = .centre := by
  decide

/-- A score of three entries and a list of eight fill their records within 32 bytes. -/
theorem witness_RepliesAndStripAreSpelled :
    [(⟨0, 7368⟩ : ScoreEntry), ⟨1, 10000⟩, ⟨3, 0⟩].length ≤ 4 ∧
      ((⟨5, 9, .score 57 20117 [⟨0, 7368⟩]⟩ : Reply).bytes.take 16).map BitVec.toNat =
        [5, 9, 7, 1, 57, 0, 0, 0, 0x95, 0x4E, 0, 0, 0, 0xC8, 0x1C, 0] ∧
      (List.replicate 8 (⟨58, 2, .normal⟩ : PositionEntry)).length ≤ 8 ∧
      (∀ t ∈ twoQueued.rqu.queue, t.number ≤ 65535 ∧ t.song ≤ 16777215) ∧
      (∀ p ∈ seated.scr.activeSingers, p.2.totals.earned ≤ p.2.totals.possible) := by decide

theorem witness_SystemRequestsAreTaken_guarded :
    (writeReq 0x0FFFF040 1 [0]).body = .write [whole 0] ∧ bench.ptu.intake.length < 64 ∧ bench.ptu.sysHeld = [] ∧
      bench.ptu.controlBase + 0x40 ≤ beatAddr (writeReq 0x0FFFF040 1 [0]).addr 0 ∧
      beatAddr (writeReq 0x0FFFF040 1 [0]).addr 0 < bench.ptu.controlBase + 4096 ∧
      (∃ w : Window, bench.ptu.windows.reply = some w ∧ w.base ≤ beatAddr (writeReq 0x130FF0 5 [0]).addr 0 ∧
        beatAddr (writeReq 0x130FF0 5 [0]).addr 0 < w.base + w.size) ∧
      bench.ptu.sysOrder = [] := ⟨rfl, by decide, rfl, by decide, by decide, ⟨_, rfl, by decide, by decide⟩, rfl⟩

theorem witness_SystemRequestsAreTaken_other :
    (readReq 0x4000F0 9 2).body.isBurst = true ∧ bench.ptu.guardsOff (readReq 0x4000F0 9 2) = false ∧
      (∃ i < 2, (0x4000F0 + 16 * i) / 256 ≠ 0x4000F0 / 256) ∧
      64 ≤ fullLine.length ∧ bench.ptu.intake.length < 64 ∧ bench.ptu.sysHeld = [] ∧
      bench.ptu.guardsOff (writeReq 0x400000 9 [0]) = false := by decide

theorem witness_SystemRequestsAreTaken_asset :
    playing.ptu.windows.asset = some ⟨0x400000, 0x100000⟩ ∧ playing.scu.bankInUse = some 0 ∧
      (writeReq 0x47FFF0 9 [0]).body = .write [whole 0] ∧ (whole 0).en ≠ 0 ∧
      0x400000 + (0 : Fin 2).val * (0x100000 / 2) ≤ beatAddr (writeReq 0x47FFF0 9 [0]).addr 0 ∧
      beatAddr (writeReq 0x47FFF0 9 [0]).addr 0 < 0x400000 + (0 : Fin 2).val * (0x100000 / 2) + 0x100000 / 2 :=
  ⟨rfl, rfl, rfl, by decide, by decide, by decide⟩

/-- Windows that share no byte hold an address at most once. -/
theorem holds_once (a : Nat) : ∀ ws : List Window,
    ws.Pairwise (fun u v => u.base + u.size ≤ v.base ∨ v.base + v.size ≤ u.base) →
      (ws.filter (fun w => w.holds a)).length ≤ 1
  | [], _ => by simp
  | w :: ws, h => by
    have ih := holds_once a ws h.of_cons
    by_cases hw : w.holds a = true
    · have : ws.filter (fun v => v.holds a) = [] := by
        refine List.filter_eq_nil_iff.2 fun v hv hva => ?_
        have := List.rel_of_pairwise_cons h hv
        simp only [Window.holds, Bool.and_eq_true, decide_eq_true_eq] at hw hva
        omega
      simp [hw, this]
    · simpa [hw] using ih

theorem witness_ClassesOfTheWindowTable (a : Nat) :
    (benchPtu.windowList.filter (fun w => w.holds a)).length ≤ 1 := holds_once a _ (by decide)

theorem witness_ClassesOfTheWindowTable_places :
    benchPtu.controlBase ≤ beatAddr 0x0FFFF000 0 ∧ beatAddr 0x0FFFF000 0 < benchPtu.controlBase + 4096 ∧
      (∃ x, benchPtu.windows.mic = some x ∧ x.base ≤ beatAddr 0x110FF0 0 ∧ beatAddr 0x110FF0 0 < x.base + x.size) ∧
      (∃ g, benchPtu.tags = some g ∧ g.capture = (4 : BitVec 4).toNat) ∧
      (∀ w ∈ benchPtu.windowList, w.holds (beatAddr 0x500000 0) = false) :=
  ⟨by decide, by decide, ⟨_, rfl, by decide, by decide⟩, ⟨_, rfl, by decide⟩, by decide⟩

/-- An own request of the queue. -/
def ownRead1 : OwnRequest := ⟨.cueFetch, 3, 0, 0x400100, .read 1⟩

/-- A bench with one own read and one pass-through read waiting. -/
def contended : State :=
  { bench with ptu := { benchPtu with
      queue := [⟨ownRead1, 0⟩], nextArrival := 1, passQueue := [⟨readReq 0x500000 9 1, .plain⟩], rotation := 4 } }

theorem witness_ArbiterRotates :
    contended.ptu.chosen = some (.fresh ⟨ownRead1, 0⟩) ∧
      contended.ptu.rotateN ≤ contended.ptu.rotation ∧ contended.ptu.passQueue = [⟨readReq 0x500000 9 1, .plain⟩] ∧
      bench.ptu.passQueue = [] ∧ bench.ptu.chosen = none ∧
      ({ contended.ptu with rotation := 3 } : Ptu).rotation < contended.ptu.rotateN := by decide

/-- A placed own read of one beat with `n` attempts made. -/
def readPlaced (n : Nat) : State :=
  { playing with ptu := { benchPtu with
      placed := [.ownRead 0 1], reads := [⟨ownRead1, 0, n, 2, false⟩], ops := [⟨3, .cue, [.waiting]⟩] } }

theorem witness_ArbiterRotates_retry :
    let s : State := { bench with ptu := { benchPtu with reads := [⟨ownRead1, 0, 1, 2, true⟩] } }
    s.ptu.chosen = some (.retry ⟨ownRead1, 0, 1, 2, true⟩) ∧ s.ptu.passQueue = [] := by decide

theorem witness_MemoryResponsesAreReturned_pass :
    let q : PassReq := ⟨readReq 0x500000 9 2, .plain⟩
    let s := withPlaced bench (.pass q 0)
    s.ptu.discard = 0 ∧ s.ptu.placed = [.pass q 0] ∧ s.ptu.sysOrder = [.forwarded] ∧ 0 + 1 < bodyCount q.req.body ∧
      bodyCount q.req.body ≤ 1 + 1 ∧ q.cls ≠ .playback ∧ q.cls ≠ .display ∧ q.req.body = .read [zeroBeat, zeroBeat].length := by
  decide

theorem witness_MemoryResponsesAreReturned_read :
    (readPlaced 1).ptu.discard = 0 ∧ (readPlaced 1).ptu.placed = [.ownRead 0 1] ∧
      (readPlaced 1).ptu.reads.find? (fun x => x.arrival == 0) = some ⟨ownRead1, 0, 1, 2, false⟩ ∧
      [zeroBeat].length = bodyCount ownRead1.body ∧ (∀ b ∈ [zeroBeat], b.status = .okay) ∧
      (∃ b ∈ [(⟨0, .error⟩ : ReadBeat)], b.status = .error) ∧
      (readPlaced 3).ptu.reads.find? (fun x => x.arrival == 0) = some ⟨ownRead1, 0, 3, 2, false⟩ := by decide

theorem witness_MemoryResponsesAreReturned_write :
    let s : State := { bench with ptu := { benchPtu with placed := [.ownWrite ⟨.reply, 4, 0, 0x130000, .write [whole 0]⟩ 1] } }
    s.ptu.discard = 0 ∧ s.ptu.placed = [.ownWrite ⟨.reply, 4, 0, 0x130000, .write [whole 0]⟩ 1] := ⟨rfl, rfl⟩

theorem witness_DisplayBeatsAreBlendedOrPass_pixels :
    pixelLatch.prm.shade ≤ 256 ∧ (∀ p ∈ [(⟨0, 0xFF4000, 255, 0⟩ : Pixel)], p.alpha ≤ 255) ∧
      pixelLatch.covers 0 63 = true ∧ pixelLatch.covers 0 64 = false := by decide

/-- The record of a strip in IDLE: columns 0 to 63 of scanlines 100 to 147. -/
def stripLatch : LatchRecord :=
  { prm := goodSetup, songMs := 0, state := .idle, phase := none, bannerShown := false, entries := [], text := [] }

/-- A display read of one beat at scanline `y`, column `x`, placed. -/
def displayAt (s : State) (y x : Nat) : State :=
  { withPlaced s (.pass ⟨readReq (BitVec.ofNat 32 (0x200000 + 256 * y + 4 * x)) 3 1, .display⟩ 0) with
    ovc := { s.ovc with latch := some stripLatch } }

theorem witness_DisplayBeatsAreBlendedOrPass :
    let s := displayAt bench 100 60
    (∃ q rest, s.ptu.discard = 0 ∧ s.ptu.placed = .pass q 0 :: rest ∧ q.cls = .display ∧
      (((beatAddr q.req.addr 0 : Int) - 0x200000) % (s.prm.stride * s.prm.height : Nat)).toNat = 100 * 256 + 4 * 60) ∧
    s.ptu.windows.frame = some ⟨0x200000, 0x100000⟩ ∧ 0 < s.prm.stride * s.prm.height ∧
    (∃ j < 4, stripLatch.covers 100 (60 + j) = true) ∧ (∀ d, s.ovc.decision = some d → d.y ≠ 100) ∧
    s.ovc.holding 100 (fun st => st == .ready) = none ∧ (∀ j < 4, stripLatch.covers 99 (60 + j) = false) :=
  ⟨⟨_, _, rfl, rfl, rfl, by decide⟩, rfl, by decide, by decide, by simp [displayAt, withPlaced, bench],
    by decide, by decide⟩

/-- A buffer READY for scanline 100, and the decision to blend from it. -/
def decided : State :=
  { displayAt bench 100 60 with ovc := { (displayAt bench 100 60).ovc with
      buffers := vset (Vector.replicate 3 {}) 2 { state := .ready, y := some 100, comp := 4 }
      decision := some ⟨100, .blend 2 4⟩ } }

theorem witness_DisplayBeatsAreBlendedOrPass_blend :
    decided.ovc.decision = some ⟨100, .blend 2 4⟩ ∧ (decided.ovc.buffers.get 2).comp = 4 ∧
      (decided.ovc.buffers.get 2).state = .ready ∧ decided.ovc.holding 100 (fun st => st == .ready) = some 2 ∧
      60 ≤ stripLatch.lastColumn 100 ∧ stripLatch.lastColumn 100 < 60 + 4 ∧
      (({} : StagingBuffer).comp ≠ 4 ∨ ({} : StagingBuffer).state ≠ .ready) := by decide

/-- The first beat of scanline 100 composes scanline 102; with no text its buffer is READY at once. -/
theorem witness_DisplayBeatsAreBlendedOrPass_first :
    let s := (displayAt bench 100 0).compose (100 + 2)
    (∃ q rest, (displayAt bench 100 0).ptu.placed = .pass q 0 :: rest ∧
      (((beatAddr q.req.addr 0 : Int) - 0x200000) % (256 * 200 : Nat)).toNat = 100 * 256) ∧
    s.ovc.holding 102 (fun st => st == .ready) = some 0 ∧ s.ovc.holding 100 (fun st => st == .ready) = none :=
  ⟨⟨_, _, rfl, by decide⟩, by decide, by decide⟩

/-- A display beat off the frame's start while the latch record is empty. -/
theorem witness_DisplayBeatsAreBlendedOrPass_empty :
    let q : PassReq := ⟨readReq 0x200010 3 1, .display⟩
    let s := withPlaced bench (.pass q 0)
    s.ptu.discard = 0 ∧ s.ptu.placed = [.pass q 0] ∧ s.ovc.latch = none ∧
      s.ptu.windows.frame = some ⟨0x200000, 0x100000⟩ ∧ 0 < s.prm.stride * s.prm.height ∧
      ((beatAddr q.req.addr 0 : Int) - 0x200000) % (s.prm.stride * s.prm.height : Nat) ≠ 0 := by decide

/-- Two characters of text. -/
def textLatch : LatchRecord := { stripLatch with text := [⟨7, .ticket⟩, ⟨3, .ticket⟩, ⟨7, .score⟩] }

theorem witness_ScanlinesAreComposed :
    let s := displayAt bench 99 0
    s.ovc.latch = some stripLatch ∧ stripLatch.stripAt 100 = true ∧ stripLatch.stripAt 147 = true ∧
      stripLatch.bandAt 50 = false ∧ stripLatch.stripAt 50 = false ∧ 200 < 201 ∧ 101 < stripLatch.prm.height ∧
      (∀ j : Fin 3, (s.ovc.buffers.get j).state ≠ .free → (s.ovc.buffers.get j).discard = false →
        (s.ovc.buffers.get j).y ≠ some 101) ∧
      (s.ovc.buffers.get 0).state = .free ∧ (∀ j : Fin 3, j < 0 → (s.ovc.buffers.get j).state ≠ .free) ∧
      (decided.ovc.buffers.get 2).y = some 100 ∧ (decided.ovc.buffers.get 2).state ≠ .free := by decide

/-- Two characters start inside a strip of 64 columns at a step of 32; the third does not. -/
theorem witness_ScanlinesAreComposed_rows :
    distinctRows (textLatch.compositionSet 105) = [(7, 5), (3, 5)] ∧
      (textLatch.compositionSet 105).map Appearance.left = [0, 32] := by decide

/-- A band of one entry of two glyphs, its second beyond the band. -/
theorem witness_ScanlinesAreComposed_band :
    let e : BandEntry := ⟨48, false, .a, [⟨9, 10⟩, ⟨8, 10⟩], [60, 70, 80], 0⟩
    let l : LatchRecord := { stripLatch with state := .playing, entries := [e] }
    l.entries = [] ++ e :: [] ∧ (e.top ≤ ((95 : Nat) : Int) ∧ ((95 : Nat) : Int) ≤ e.top + 47) ∧ l.bandAt 95 = true ∧
      e.drawnEmpty = false ∧ (l.compositionSet 95).map Appearance.glyph = [9] := by decide

/-- Three glyphs in line order, then the strip's rows of another layer; a glyph that comes twice is one row, at its first
place (R53). -/
theorem witness_ScanlinesAreComposed_order :
    let e : BandEntry := ⟨48, false, .a, [⟨9, 10⟩, ⟨8, 10⟩, ⟨9, 10⟩], [0, 10, 20, 30], 0⟩
    let l : LatchRecord := { stripLatch with state := .playing, entries := [e] }
    (l.compositionSet 95).map Appearance.glyph = [9, 8, 9] ∧
      distinctRows (l.compositionSet 95) = [(9, 47), (8, 47)] := by decide

/-- The bench with one FRESH walk of page 3 on record 7. -/
def walking : State :=
  { bench with gxt := { walks := vset (Vector.replicate 8 none) 7 (some ⟨3, true, 9, [⟨3 * 4096, 4, 8, 0⟩]⟩) } }

theorem witness_TranslationsAreTakenInOrder :
    let page := fun q : GlyphReq => q.va / 4096
    let q : GlyphReq := ⟨3 * 4096 + 32, 4, 8, 1⟩
    q.va < walking.prm.aperture ∧ ¬ 2 ^ 20 < walking.prm.aperture ∧ (∀ e ∈ walking.gxt.cache, e.page ≠ page q) ∧
      walking.gxt.walks.get 7 = some ⟨3, true, 9, [⟨3 * 4096, 4, 8, 0⟩]⟩ ∧
      bench.gxt.walks.get 0 = none ∧ (({ cache := [⟨3, 77⟩] } : Gxt).cache.map CacheEntry.page).Nodup ∧
      walking.takeGlyph q ≠ none := by decide

/-- Every walk record in use for another page. -/
def allWalking : State :=
  { bench with gxt := { walks := Vector.ofFn (fun k : Fin 8 => some ⟨100 + k.val, true, k.val, []⟩)
                        intake := some ⟨0, 4, 8, 1⟩ } }

theorem witness_TranslationsAreTakenInOrder_pump :
    State.takeGlyph ⟨0, 4, 8, 1⟩ { allWalking with gxt := { allWalking.gxt with intake := none } } = none ∧
      (∀ j : Fin 8, allWalking.gxt.walks.get j ≠ none) ∧ bench.gxt.intake = none ∧ bench.ovc.waiting = [] ∧
      (State.takeGlyph ⟨0, 4, 8, 1⟩ bench).isSome = true ∧ bench.ptu.lineFull = false := by decide

theorem witness_FrameLatchTakesTheRecord :
    let s := displayAt bench 0 0
    (∃ q rest, s.ptu.discard = 0 ∧ s.ptu.placed = .pass q 0 :: rest ∧ q.cls = .display ∧
      ((beatAddr q.req.addr 0 : Int) - 0x200000) % (s.prm.stride * s.prm.height : Nat) = 0) ∧
    s.ptu.windows.frame = some ⟨0x200000, 0x100000⟩ ∧ 0 < s.prm.stride * s.prm.height :=
  ⟨⟨_, _, rfl, rfl, rfl, by decide⟩, rfl, by decide⟩

/-- A slot of two glyphs with one syllable over the second, from 500 ms for 100 ms. -/
def sungSlot : LineSlot :=
  { state := .shown, syllables := [⟨1, 1, 500, 100⟩], glyphs := [⟨9, 10⟩, ⟨8, 20⟩], positions := [5, 15, 35], filled := true }

theorem witness_FrameLatchTakesTheRecord_wipe :
    (∀ k ∈ sungSlot.syllables, 499 < k.start) ∧ sungSlot.syllables = [] ++ ⟨1, 1, 500, 100⟩ :: [] ∧
      sungSlot.boundary 499 = 5 ∧ sungSlot.boundary 500 = 15 ∧ sungSlot.boundary 599 = 34 ∧
      sungSlot.boundary 600 = 35 := by decide

theorem witness_FrameLatchTakesTheRecord_banner :
    let s : State := { displayAt bench 0 0 with
      scu := { playing.scu with state := .finishing, phase := some .banner, bannerCount := 1 } }
    s.scu.state = .finishing ∧ s.scu.phase = some .banner ∧ s.scu.bannerCount ≤ 1 ∧ 1 < 2 := by decide

/-- The latch at 1,000 ms of a band of three in two rows whose scroll began at 0 ms: at offset 48 the scroll ends and the
departing slot 0 is freed with its load orphaned; slot 5, LEAVING outside the band, is freed; slot 1 is wiped. -/
theorem witness_FrameLatchTakesTheRecord_scroll :
    let s : State := { playing with
      scu := { playing.scu with acc := 1000 * 48 * 65536 }
      lsq := { playing.lsq with
        scroll := some 0, band := [0, 1, 2]
        slots := vset (vset (vset (Vector.replicate 8 { state := .shown }) 0 { state := .leaving, load := some 9 }) 1
          { sungSlot with wiped := 5 }) 5 { state := .leaving } } }
    let v := s.latchLsq
    scrollOffset s.prm.scrollMs s.lsq.scroll s.songMs = 48 ∧ s.lsq.band.length = s.prm.bandRows + 1 ∧
      scrollOffset s.prm.scrollMs s.lsq.scroll 399 = 47 ∧
      v.lsq.band = [1, 2] ∧ v.lsq.scroll = none ∧ (v.lsq.slots.get 0).state = .free ∧ (v.lsq.slots.get 0).load = none ∧
      (v.lsq.slots.get 5).state = .free ∧ (v.lsq.slots.get 1).wiped = 35 := by decide

/-- A due LINE_IN at the head whose slot waits, its slot freed or not. -/
theorem witness_FrameLatchTakesTheRecord_claims :
    let s : State := { claimWaiting with lsq := { claimWaiting.lsq with queue := [⟨⟨0, .lineIn 1⟩, none⟩] } }
    s.lsq.endTaken = false ∧ s.lsq.queue = ⟨⟨0, .lineIn 1⟩, none⟩ :: [] ∧ 0 ≤ s.songMs ∧ s.scu.state ≠ .seeking ∧
      s.ptu.lineFull = false ∧ s.bindFree.lsq.queue = [⟨⟨0, .lineIn 1⟩, some 4⟩] ∧ s.latchClaims.lsq.band = [4] := by decide

/-- A composition waiting for one row, and the row's end. -/
def oneRow : State :=
  { withEnded bench (.row 4 9 0) [.data [0, 0]] with ovc := { latch := some stripLatch
                                                              buffers := vset (Vector.replicate 3 {}) 0
                                                                { state := .composing, y := some 100, comp := 4
                                                                  outstanding := 1 } } }

/-- Two appearances of row 0 of glyph 9 in columns 10 to 14 and 12 to 16, clipped at 16. -/
def overlapping : StagingBuffer :=
  { set := [⟨9, 0, 10, 5, 10, 16, .band .a 12⟩, ⟨9, 0, 12, 5, 10, 16, .strip 77⟩], pixels := [⟨13, 1, 2, 5⟩] }

/-- Column 14 is covered by both, column 11 by the first, column 16 by none, and at 13 a later pixel stands. -/
theorem witness_GlyphRowsEndAComposition_pixels :
    overlapping.set[1]? = some ⟨9, 0, 12, 5, 10, 16, .strip 77⟩ ∧ (12 ≤ 14 ∧ 14 < 12 + 5 ∧ 10 ≤ 14 ∧ 14 < 16) ∧
      (∀ p ∈ overlapping.pixels, p.x = 14 → p.order ≤ 1) ∧
      overlapping.set[0]? = some ⟨9, 0, 10, 5, 10, 16, .band .a 12⟩ ∧ ¬ (12 ≤ 11) ∧
      (∀ p ∈ overlapping.pixels, p.x = 11 → p.order ≤ 0) ∧ (∃ p ∈ overlapping.pixels, p.x = 13 ∧ 1 < p.order) ∧
      (∀ a ∈ overlapping.set, ¬ 16 < a.clipTo) := by decide

theorem witness_GlyphRowsEndAComposition :
    oneRow.ptu.firstEnded OpKind.isRow =
        some ⟨9, .row 4 9 0, [.data [0, 0]]⟩ ∧
      oneRow.ovc.composing 4 = some 0 ∧ oneRow.ovc.latch = some stripLatch ∧ (oneRow.ovc.buffers.get 0).outstanding ≤ 1 ∧
      (∀ k : Fin 3, (oneRow.ovc.buffers.get k).state = .composing → (oneRow.ovc.buffers.get k).comp ≠ 5) := by decide

/-- A walk of page 3 with a live waiter and one of an orphaned composition, ended with entry `e`. -/
def walked (e : Nat) : State :=
  { withEnded oneRow .walk [.data [BitVec.ofNat 128 (e * 2 ^ 96)]] with
    gxt := { walks := vset (Vector.replicate 8 none) 7
               (some ⟨3, true, 9, [⟨3 * 4096, 4, 8, 0⟩, ⟨3 * 4096 + 32, 5, 8, 1⟩]⟩) } }

theorem witness_WalksEndAndTableWritesInvalidate :
    let s := walked (2 ^ 31 + 77)
    s.ptu.firstEnded (fun x => x == .walk) = some ⟨9, .walk, [.data [BitVec.ofNat 128 ((2 ^ 31 + 77) * 2 ^ 96)]]⟩ ∧
      s.gxt.walkOf 9 = some 7 ∧
      s.gxt.walks.get 7 = some ⟨3, true, 9, [⟨3 * 4096, 4, 8, 0⟩, ⟨3 * 4096 + 32, 5, 8, 1⟩]⟩ ∧ s.gxt.intake = none ∧
      s.ovc.waiting = [] ∧ s.ptu.lineFull = false ∧
      readEntry [BitVec.ofNat 128 ((2 ^ 31 + 77) * 2 ^ 96)] (4 * 3 % 16) = some 77 ∧
      (s.ovc.composing 4).isSome = true ∧ s.ovc.composing 5 = none ∧
      readEntry [BitVec.ofNat 128 (77 * 2 ^ 96)] (4 * 3 % 16) = none := by decide

/-- A walk's end takes the request that stood at the intake: its page is cached now (R69, R70). -/
theorem witness_WalksEndAndTableWritesInvalidate_intake :
    let s : State := { walked (2 ^ 31 + 77) with
      gxt := { (walked (2 ^ 31 + 77)).gxt with intake := some ⟨3 * 4096 + 64, 4, 8, 2⟩ } }
    s.ptu.firstEnded (fun x => x == .walk) = some ⟨9, .walk, [.data [BitVec.ofNat 128 ((2 ^ 31 + 77) * 2 ^ 96)]]⟩ ∧
      s.gxt.walkOf 9 = some 7 ∧ s.ptu.lineFull = false ∧ s.pageWalkComplete.gxt.intake = none ∧
      s.pageWalkComplete.ptu.handed.map OwnRequest.addr = [77 * 4096, 77 * 4096 + 64] := by decide

theorem witness_WalksEndAndTableWritesInvalidate_table :
    let r := writeReq 0x140000 9 [0]
    (withTap bench .pagetable r).ptu.taps = [⟨.pagetable, r⟩] ∧ r.body = .write [whole 0] ∧
      (∀ i < [whole 0].length, baseOf bench.ptu.windows.pagetable ≤ beatAddr r.addr i) ∧
      3 < bench.prm.aperture / 4096 ∧ (whole 0).en.getLsbD (4 * 3 + 0) = true := by decide

/-- A playback read of one beat placed. -/
def beatDue (s : State) : State := withPlaced s (.pass ⟨readReq 0x100000 2 1, .playback⟩ 0)

theorem witness_PlaybackBeatsAdvanceSongTime :
    (∃ q rest, (beatDue playing).ptu.discard = 0 ∧ (beatDue playing).ptu.placed = .pass q 0 :: rest ∧
      q.cls = .playback) ∧ (beatDue playing).scu.state = .playing ∧ (beatDue playing).ptu.taps = [] ∧
    (beatDue playing).ptu.lineFull = false ∧
    (beatDue playing).scu.acc + 4 * (beatDue playing).scu.tempo < 805306368 * 65536 ∧
    ((beatDue playing).scu.acc + 4 * (beatDue playing).scu.tempo) / 65536 / 48 = (beatDue playing).songMs ∧
    (beatDue bench).scu.state ≠ .playing ∧ (beatDue bench).scu.state ≠ .seeking ∧
    805306368 * 65536 ≤ ({ playing.scu with acc := 805306367 * 65536 } : Scu).acc + 4 * playing.scu.tempo :=
  ⟨⟨_, _, rfl, rfl, rfl⟩, rfl, rfl, rfl, by decide, by decide, by decide, by decide, by decide⟩

/-- The entry into FINISHING with no block left makes both drain reports at once, and the write-out begins (R17, R18). -/
theorem witness_DueCuesAreTaken_finishing :
    playing.vin.queue = [] ∧ playing.pje.block = none ∧ (playing.enterFinishing 500).scu.phase = some .writeOut ∧
      (playing.enterFinishing 500).scu.endTime = some 500 ∧ (measuring.enterFinishing 500).scu.phase = some .drain ∧
      (measuring.enterFinishing 500).vin.drainReported = true ∧
      (measuring.enterFinishing 500).pje.drainReported = false := by decide

/-- The same behind a waiting capture tap. -/
def beatBehind : State :=
  let s := beatDue playing
  { s with ptu := { s.ptu with taps := [⟨.capture, writeReq 0x110000 4 [0]⟩] } }

theorem witness_PlaybackBeatsAdvanceSongTime_lane :
    beatBehind.ptu.taps = [⟨.capture, writeReq 0x110000 4 [0]⟩] ∧
      (withTap playing .playback (readReq 0x100000 2 1)).ptu.taps = [⟨.playback, readReq 0x100000 2 1⟩] ∧
      (withTap playing .playback (readReq 0x100000 2 1)).ptu.lineFull = false := by decide

/-- PLAYING at 0 ms with one cue queued. -/
def cueQueued (c : QueuedCue) : State := { playing with lsq := { playing.lsq with queue := [c] } }

theorem witness_DueCuesAreTaken :
    (cueQueued ⟨⟨0, .mark 5⟩, none⟩).lsq.queue = [⟨⟨0, .mark 5⟩, none⟩] ∧
      (cueQueued ⟨⟨0, .mark 5⟩, none⟩).lsq.endTaken = false ∧ 0 ≤ playing.songMs ∧ playing.songMs < 1 ∧
      playing.scu.state ≠ .seeking ∧ playing.scu.state = .playing ∧
      ({ playing.lsq with held := some ⟨1500, .bandClear⟩ } : Lsq).held = some ⟨1500, .bandClear⟩ ∧
      1500 ≤ playing.songMs + playing.prm.lookaheadMs ∧ playing.songMs + playing.prm.lookaheadMs < 1501 := by decide

/-- A held LINE_IN within the look-ahead claims slot 4, the one FREE slot; with no slot FREE it stands unbound (R31). -/
theorem witness_DueCuesAreTaken_held :
    let s : State := { claimWaiting with lsq := { claimWaiting.lsq with queue := [], held := some ⟨1500, .lineIn 1⟩ } }
    let t : State := { s with lsq := { s.lsq with slots := vset s.lsq.slots 4 { state := .leaving } } }
    (s.lsq.slots.get 4).state = .free ∧ (∀ j, j < 4 → (s.lsq.slots.get j).state ≠ .free) ∧ s.lsq.queue.length < 8 ∧
      (∀ k, (t.lsq.slots.get k).state ≠ .free) ∧ bench.lsq.held = none ∧
      s.retryHeldCue.lsq.queue = [⟨⟨1500, .lineIn 1⟩, some 4⟩] ∧
      t.retryHeldCue.lsq.queue = [⟨⟨1500, .lineIn 1⟩, none⟩] := by decide

/-- PLAYING with slots 0 and 1 in a band of two rows and a LINE_IN with slot 2. -/
def lineDue : State :=
  { playing with lsq := { playing.lsq with
      band := [0, 1], queue := [⟨⟨0, .lineIn 1⟩, some 2⟩]
      slots := vset (vset (vset (Vector.replicate 8 {}) 0 { state := .shown }) 1 { state := .shown }) 2
        { state := .loaded, line := 1, filled := true } } }

theorem witness_DueCuesAreTaken_lineIn :
    (2 : Fin 8) ∉ lineDue.lsq.band ∧ (lineDue.lsq.slots.get 2).state ≠ .free ∧ 1 ≤ lineDue.prm.bandRows ∧
      lineDue.lsq.band.length = lineDue.prm.bandRows ∧ (lineDue.lsq.slots.get 2).filled = true := by decide

/-- The header of song 108, 60,000 ms, with `cues` cues at 100h, one line at 200h and one note at 400h. -/
def header (song cues : Nat) : List Beat :=
  [BitVec.ofNat 128 (song + 2 ^ 32 * 60000 + 2 ^ 64 * cues + 2 ^ 96 * 0x100),
   BitVec.ofNat 128 (1 + 2 ^ 32 * 0x200 + 2 ^ 64 * 1 + 2 ^ 96 * 0x400)]

/-- STARTING ticket 8 of bank 0, its header read ended. -/
def starting (h : List Beat) : State :=
  { withEnded (queued [ticket 8 .staged]) .header [.data h] with
    scu := { state := .starting, startTicket := some 8, startBank := some 0 }
    ctl := { bench.ctl with inProgress := some ⟨5, 1⟩ } }

theorem witness_HeaderReadEndsTheStart :
    let s := starting (header 108 1024)
    let h := readHeader (header 108 1024)
    s.ptu.firstEnded (fun k => k == .header) = some ⟨9, .header, [.data (header 108 1024)]⟩ ∧
      (⟨9, .header, [.data (header 108 1024)]⟩ : ClientOp).data = some (header 108 1024) ∧
      s.scu.startTicket = some 8 ∧ s.scu.startBank = some 0 ∧ s.ptu.windows.asset = some ⟨0x400000, 0x100000⟩ ∧
      s.rqu.stagedTicket = some (ticket 8 .staged) ∧ s.ctl.inProgress = some ⟨5, 1⟩ ∧ s.pje.block = none ∧
      s.ptu.lineFull = false ∧
      h.song = (ticket 8 .staged).song ∧ h.length ≤ 16777215 ∧ h.cueCount = 1024 ∧ h.lineCount ≤ 512 ∧
      h.noteCount ≤ 4096 ∧ h.cueOffset + 8 * h.cueCount ≤ 0x80000 ∧ h.lineOffset + 512 * h.lineCount ≤ 0x80000 ∧
      h.noteOffset + 8 * h.noteCount ≤ 0x80000 := by decide

theorem witness_HeaderReadEndsTheStart_bad :
    (readHeader (header 108 1025)).cueCount = 1025 ∧
      (⟨9, .header, [.data (header 108 1025)]⟩ : ClientOp).data = some (header 108 1025) ∧
      (∀ t, (starting (header 108 1)).rqu.stagedTicket = some t → t.number ≠ 9) := by
  refine ⟨by decide, by decide, ?_⟩
  intro t h
  cases h
  decide

/-- PLAYING with the first cue's fetch ended: a LINE_IN of line `n` at `t` ms. -/
def cueEnded (t n : Nat) : State := withEnded playing .cue [.data [BitVec.ofNat 128 (t + 2 ^ 24 * 1 + 2 ^ 32 * n)]]

theorem witness_FetchedCuesAreQueuedOrHeld :
    let s := cueEnded 1500 1
    (∃ o bs, s.ptu.firstEnded (fun k => k == .cue) = some o ∧ o.data = some bs ∧
      readCue bs ((s.lsq.cueBase + 8 * s.lsq.cursor) % 16) s.lsq.lineCount = some ⟨1500, .lineIn 1⟩) ∧
    s.scu.state = .playing ∧ s.lsq.rebuild = none ∧ s.pje.rebuild = false ∧ s.ptu.lineFull = false ∧
    1500 ≤ s.songMs + s.prm.lookaheadMs ∧ s.lsq.queue.length < 8 ∧ s.songMs + s.prm.lookaheadMs < 1501 :=
  ⟨⟨_, _, rfl, rfl, by decide⟩, rfl, rfl, rfl, rfl, by decide, by decide, by decide⟩

/-- The LINE_IN finds slot 0 FREE, or no slot FREE; and the next fetch's conditions. -/
theorem witness_FetchedCuesAreQueuedOrHeld_claims :
    let s := cueEnded 1500 1
    let t : State := { s with lsq := { s.lsq with slots := Vector.replicate 8 { state := .shown } } }
    (s.lsq.slots.get 0).state = .free ∧ (∀ k, (t.lsq.slots.get k).state ≠ .free) ∧ s.lsq.queue = [] ∧
      s.cueFetchComplete.lsq.queue = [⟨⟨1500, .lineIn 1⟩, some 0⟩] ∧
      t.cueFetchComplete.lsq.queue = [⟨⟨1500, .lineIn 1⟩, none⟩] ∧
      (playing.lsq.fetch = none ∧ playing.lsq.held = none ∧ playing.lsq.cursor < playing.lsq.cueCount ∧
        playing.lsq.endTaken = false ∧ playing.scu.state = .playing) := by decide

theorem witness_FetchedCuesAreQueuedOrHeld_rejected :
    let s := cueEnded 1500 2
    (∃ o bs, s.ptu.firstEnded (fun k => k == .cue) = some o ∧ o.data = some bs ∧
      readCue bs ((s.lsq.cueBase + 8 * s.lsq.cursor) % 16) s.lsq.lineCount = none) ∧
    (∃ o, (withEnded playing .cue [.failed]).ptu.firstEnded (fun k => k == .cue) = some o ∧ o.data = none) :=
  ⟨⟨_, _, rfl, rfl, by decide⟩, ⟨_, rfl, rfl⟩⟩

/-- PLAYING with slot 7 LOADING line 1, and its load ended. -/
def lineEnded (d : List PartState) : State :=
  { withEnded playing .line d with
    lsq := { playing.lsq with slots := vset (Vector.replicate 8 {}) 7 { state := .loading, line := 1, load := some 9 } } }

theorem witness_LineLoadsFillTheirSlot :
    (lineEnded [.failed]).ptu.firstEnded (fun x => x == .line) = some ⟨9, .line, [.failed]⟩ ∧
      (lineEnded [.failed]).lsq.slotLoading 9 = some 7 ∧ (lineEnded [.failed]).scu.state ≠ .seeking ∧
      (lineEnded [.failed]).lsq.rebuild = none ∧ (lineEnded [.failed]).pje.rebuild = false ∧
      (lineEnded [.failed]).ptu.lineFull = false ∧
      (⟨9, .line, [.failed]⟩ : ClientOp).data = none ∧
      (⟨9, .line, [.data [0, 0], .data [0]]⟩ : ClientOp).data = some [0, 0, 0] ∧
      ((lineEnded [.failed]).lsq.slots.get 7).state = .loading := by decide

/-- PLAYING with the first note's fetch ended: PART A from `t` ms. -/
def noteEnded (t : Nat) : State :=
  { withEnded playing .note [.data [BitVec.ofNat 128 (t + 2 ^ 24 * 480 + 2 ^ 40 * 873 + 2 ^ 56 * 0x21)]] with
    pje := { noteBase := 0x400400, noteCount := 1 } }

theorem witness_FetchedNotesEnterTheWindows :
    let s := noteEnded 1500
    (∃ o bs, s.ptu.firstEnded (fun k => k == .note) = some o ∧ o.data = some bs ∧
      readNote bs ((s.pje.noteBase + 8 * s.pje.cursor) % 16) = ⟨1500, 480, 873, .a, 2⟩) ∧
    s.scu.state = .playing ∧ s.lsq.rebuild = none ∧ s.pje.rebuild = false ∧ s.pje.block = none ∧
    s.ptu.lineFull = false ∧ 1500 ≤ s.songMs + s.prm.lookaheadMs ∧ s.pje.winA.length < 4 :=
  ⟨⟨_, _, rfl, rfl, by decide⟩, rfl, rfl, rfl, rfl, rfl, by decide, by decide⟩

/-- The same while a block is being measured, while one waits for its judgement, and in DRAIN. -/
theorem witness_FetchedNotesEnterTheWindows_states :
    let s : State := { noteEnded 1500 with pje := { (noteEnded 1500).pje with block := some ⟨entry, {}, .measuring⟩ } }
    let w : State := { s with pje := { s.pje with block := some ⟨entry, {}, .judging none⟩ } }
    let d : State := { s with scu := { playing.scu with state := .finishing, phase := some .drain } }
    (∀ b, s.pje.block = some b → b.phase = .measuring) ∧ w.pje.block = some ⟨entry, {}, .judging none⟩ ∧
      (d.scu.state = .finishing ∧ d.scu.phase = some .drain) ∧ s.ptu.lineFull = false := by
  refine ⟨?_, rfl, ⟨rfl, rfl⟩, rfl⟩
  intro b h
  cases h
  rfl

/-- A block of reference time 29,940 waits for the notes; the fetch of the last note, which covers it, lets it be judged. -/
theorem test_fetch_lets_the_judgement_be_made :
    let s : State := { noteEnded 29900 with
      scu := { playing.scu with acc := 30000 * 48 * 65536 }
      pje := { (noteEnded 29900).pje with block := some ⟨entry, {}, .judging (some 873)⟩ } }
    s.noteFetchComplete.pje.block = none ∧ (s.noteFetchComplete.scr.singers.get 0).totals.possible = 8 ∧
      s.retryJudgement.pje.noteLate = 1 := by decide

/-- SEEKING to `t` ms, both rebuilds running, START 9 in progress. -/
def seekingTo (t : Nat) : State :=
  { playing with
    scu := { playing.scu with state := .seeking, acc := t * 48 * 65536, seeked := true }
    lsq := { playing.lsq with rebuild := some ⟨t, [], true⟩ }
    pje := { noteBase := 0x400400, noteCount := 1, rebuild := true }
    ctl := { playing.ctl with inProgress := some ⟨7, 1⟩ } }

/-- The note of `noteEnded` at 1500 ms ends at 1980 and stays up to 3039 ms. -/
theorem witness_FetchedNotesEnterTheWindows_rebuild :
    (seekingTo 3039).scu.state = .seeking ∧ (seekingTo 3039).pje.rebuild = true ∧ (seekingTo 3039).pje.block = none ∧
      (seekingTo 3039).songMs < 1500 + 480 + (seekingTo 3039).pje.prm.latencyMs + 1000 ∧
      ¬ (seekingTo 3040).songMs < 1500 + 480 + (seekingTo 3040).pje.prm.latencyMs + 1000 := by decide

/-- SEEKING with the rescan's first cue ended: a LINE_IN of line 1 at `c` ms. -/
def rescanning (t c : Nat) : State := { seekingTo t with ptu := (cueEnded c 1).ptu }

theorem witness_SeekRebuildsAndEnds_cue :
    (∃ o bs, (rescanning 1500 1500).ptu.firstEnded (fun k => k == .cue) = some o ∧ o.data = some bs ∧
      fieldAt bs (0x400100 % 16) 3 ≤ 1500 ∧
      readCue bs (0x400100 % 16) 2 = some ⟨1500, .lineIn 1⟩) ∧
    (∃ o bs, (rescanning 1500 1501).ptu.firstEnded (fun k => k == .cue) = some o ∧ o.data = some bs ∧
      1500 < fieldAt bs (0x400100 % 16) 3) ∧
    (rescanning 1500 1500).lsq.rebuild = some ⟨1500, [], true⟩ ∧ (rescanning 1500 1500).ptu.lineFull = false ∧
    ([] : List Nat).length ≠ (rescanning 1500 1500).prm.bandRows ∧ [0, 1].length = (rescanning 1500 1500).prm.bandRows :=
  ⟨⟨_, _, rfl, rfl, by decide, by decide⟩, ⟨_, _, rfl, rfl, by decide⟩, rfl, rfl, by decide, by decide⟩

theorem witness_SeekRebuildsAndEnds_stop :
    (seekingTo 1500).lsq.slots = Vector.replicate 8 {} ∧ (seekingTo 1500).lsq.band = [] ∧ [1, 0, 1].length ≤ 8 := by
  decide

/-- SEEKING with both rebuilds ended. -/
def sought (pending : Bool) : State :=
  { seekingTo 1500 with
    scu := { (seekingTo 1500).scu with endPending := pending }
    lsq := { playing.lsq with cursor := 3 }
    pje := { noteBase := 0x400400, noteCount := 1, cursor := 1 } }

theorem witness_SeekRebuildsAndEnds :
    (sought false).scu.state = .seeking ∧ (sought false).lsq.rebuild = none ∧ (sought false).pje.rebuild = false ∧
      (sought false).ctl.inProgress = some ⟨7, 1⟩ ∧ (sought false).scu.endPending = false ∧
      (sought true).scu.endPending = true ∧
      (let s : State := { sought false with lsq := { (sought false).lsq with rebuild := some ⟨1500, [], false⟩ } }
       s.lsq.fetch = none ∧ s.lsq.cueCount ≤ s.lsq.cursor ∧ s.lsq.band = []) ∧
      (seekingTo 1500).pje.fetch = none := by decide

/-- A block in hand over a note of part A, at 30 s. -/
def overNote (winA : List Note) (songMs : Nat) : State :=
  { measuring with
    scu := { playing.scu with acc := songMs * 48 * 65536 }
    pje := { measuring.pje with winA := winA, noteCount := 1, cursor := 1 } }

theorem witness_MeasuredBlocksAreJudged :
    let s := overNote [⟨29900, 480, 873, .a, 2⟩] 30000
    s.pje.block = some ⟨entry, {}, .measuring⟩ ∧ s.scu.state = .playing ∧ s.vin.queue = [] ∧ s.ptu.lineFull = false ∧
      s.scu.current.map Ticket.number = some entry.ticket ∧ ({} : Scoring).latencyMs ≤ entry.songMs ∧
      s.scr.holder entry.channel.val = some 0 ∧
      s.pje.lookup s.songMs (entry.songMs - ({} : Scoring).latencyMs) (s.scr.singers.get 0).part =
        .note ⟨29900, 480, 873, .a, 2⟩ ∧
      (s.scr.singers.get 0).link = some entry.ticket ∧ s.scu.phase = none ∧
      (s.scr.singers.get 0).totals.possible + 4 * 2 ≤ 4294967295 ∧
      s.scr.cadenceCount + 1 < s.scr.cadence ∧ ({ cadenceCount := 7 } : Scr).cadence ≤ 7 + 1 := by decide

theorem witness_MeasuredBlocksAreJudged_unjudged :
    (overNote [] 30000).pje.lookup (overNote [] 30000).songMs 29940 (some .a) = .rest ∧
      measuring.scr.holder 1 = none ∧
      ({ noteCount := 1, fetch := some 3 } : Pje).lookup 30000 29940 (some .a) = .wait ∧
      ({ noteCount := 1 } : Pje).lookup 60000 29940 (some .a) = .late := by decide

/-- In FINISHING a reference time of 29,940 is judged under END 29,941 and not under END 29,940. -/
theorem witness_MeasuredBlocksAreJudged_finishing :
    let s : State := { measuring with
      scu := { playing.scu with state := .finishing, phase := some .drain }
      pje := { measuring.pje with endTime := some 29940 } }
    s.scu.state = .finishing ∧ (∃ x, s.pje.endTime = some x ∧ x ≤ entry.songMs - ({} : Scoring).latencyMs) ∧
      ¬ 29941 ≤ entry.songMs - ({} : Scoring).latencyMs ∧ s.scu.phase = some .drain ∧
      [entry] ≠ [] ∧ playing.scu.state ≠ .finishing :=
  ⟨rfl, ⟨_, rfl, by decide⟩, by decide, rfl, by decide, by decide⟩

/-- In DRAIN an analysis ends with the queue empty and the engine's report open, and with the last block of the queue to
take and the Voice Intake's report open. -/
theorem witness_MeasuredBlocksAreJudged_drain :
    let s : State := { playing with scu := { playing.scu with state := .finishing, phase := some .drain } }
    let q : State := { s with vin := { s.vin with queue := [entry] } }
    (s.scu.state = .finishing ∧ s.scu.phase = some .drain) ∧ s.vin.queue = [] ∧ s.pje.drainReported = false ∧
      q.vin.queue = entry :: [] ∧ q.vin.drainReported = false ∧ s.pje.block = none := by decide

/-- The bands of a measured period of 882 over a note of 873: 9 × 4,096 / 873 is 42, so 42 as P_MAX, as G_MAX and as
F_MAX take it, and 41 does not. -/
theorem witness_MeasuredBlocksAreJudged_bands :
    let s := overNote [⟨29900, 480, 873, .a, 2⟩] 30000
    let judged := fun (p g f : Nat) =>
      ((s.judge ⟨entry, { pMax := p, gMax := g, fMax := f }, .measuring⟩ (some 882)).scr.singers.get 0).totals
    judged 42 42 42 = { earned := 8, possible := 8, perfect := 1, streak := 1, maxStreak := 1, lastBand := some .perfect } ∧
      judged 41 42 42 = { earned := 6, possible := 8, good := 1, streak := 1, maxStreak := 1, lastBand := some .good } ∧
      judged 40 41 42 = { earned := 2, possible := 8, fair := 1, lastBand := some .fair } ∧
      judged 40 41 41 = { possible := 8, miss := 1, lastBand := some .miss } := by decide +kernel

/-- POSSIBLE may be carried to its limit and not past it (R118), and an unlinked singer takes no judgement (R117). -/
theorem witness_MeasuredBlocksAreJudged_discards :
    let s := overNote [⟨29900, 480, 873, .a, 2⟩] 30000
    let after := fun (g : Singer) => ((State.judge { s with scr := { s.scr with singers := vset s.scr.singers 0 g } }
      ⟨entry, {}, .measuring⟩ (some 873)).scr.singers.get 0).totals.possible
    let g := s.scr.singers.get 0
    after { g with totals := { possible := 4294967287 } } = 4294967295 ∧
      after { g with totals := { possible := 4294967288 } } = 4294967288 ∧ after { g with link := none } = 0 ∧
      (∃ n : Note, n.weight = 2 ∧ 4294967295 < 4294967288 + 4 * n.weight) ∧ s.scu.phase ≠ some .writeOut :=
  ⟨by decide, by decide, by decide, ⟨⟨29900, 480, 873, .a, 2⟩, rfl, by decide⟩, by decide⟩

/-- The half of an ended analysis fills at once under HOLD, which ends, and is FREE without it (R86, R87). -/
theorem witness_MeasuredBlocksAreJudged_release :
    let c : Channel :=
      { hold := true, halves := vset (Vector.replicate 2 { state := .queued }) 1 { state := .analysing, samples := [5] } }
    let held : Vin := { channels := vset (Vector.replicate 4 {}) 2 c }
    (held.channels.get 2).hold = true ∧ ((held.release 2 1).channels.get 2).hold = false ∧
      (((held.release 2 1).channels.get 2).halves.get 1) = { state := .filling } ∧
      (({} : Vin).channels.get 2).hold = false ∧ ((({} : Vin).release 2 1).channels.get 2).hold = false := by decide

/-- A judgement that waits. -/
theorem witness_MeasuredBlocksAreJudged_waits :
    let s : State := { playing with pje := { block := some ⟨entry, {}, .judging (some 873)⟩ } }
    s.pje.block = some ⟨entry, {}, .judging (some 873)⟩ ∧ measuring.pje.block = some ⟨entry, {}, .measuring⟩ := ⟨rfl, rfl⟩

/-- Two notes cover 29,940; the one with the later start is found, and of two with one start the later. -/
theorem witness_OffersAndLookupsFindTheNotes :
    ({ winA := [⟨29000, 2000, 800, .a, 1⟩, ⟨29900, 480, 873, .a, 2⟩, ⟨28000, 3000, 700, .a, 3⟩] } : Pje).lookup
        30000 29940 (some .a) = .note ⟨29900, 480, 873, .a, 2⟩ ∧
      ({ winB := [⟨29000, 2000, 800, .b, 1⟩, ⟨29000, 2000, 700, .b, 2⟩] } : Pje).lookup
        30000 29940 (some .b) = .note ⟨29000, 2000, 700, .b, 2⟩ ∧
      ({} : Pje).lookup 31000 29940 (some .a) = .rest ∧ ({} : Pje).lookup 31001 29940 (some .a) = .late := by decide

/-- At 10,000 ms a note that ends at 8,940 has left and one that ends at 8,941 stays; the held note at 11,500 joins window
A at once and is within the look-ahead, one at 11,501 is not; and the next fetch is issued behind it. -/
theorem witness_OffersAndLookupsFindTheNotes_offer :
    let s := fun (start : Nat) => ({ playing with
      scu := { playing.scu with acc := 10000 * 48 * 65536 }
      pje := { winA := [⟨8000, 940, 873, .a, 1⟩, ⟨8000, 941, 873, .a, 1⟩], held := some ⟨start, 480, 873, .a, 1⟩
               noteBase := 0x400400, noteCount := 3, cursor := 2 } } : State)
    (s 11500).pje.held = some ⟨11500, 480, 873, .a, 1⟩ ∧ 11500 ≤ (s 11500).songMs + (s 11500).prm.lookaheadMs ∧
      (s 11500).offerPje.pje.winA = [⟨8000, 941, 873, .a, 1⟩, ⟨11500, 480, 873, .a, 1⟩] ∧
      (s 11500).offerPje.pje.fetch = some (s 11500).ptu.nextOp ∧
      (s 11501).offerPje.pje.winA = [⟨8000, 941, 873, .a, 1⟩] ∧ (s 11501).offerPje.pje.fetch = none ∧
      (s 11501).offerPje.pje.held = (s 11501).pje.held := by decide

/-- An offer tries a judgement again: a block that waited past the lookup's bound is late. -/
theorem test_offer_retries_the_judgement :
    let s : State := { playing with
      scu := { playing.scu with acc := 31001 * 48 * 65536 }
      pje := { block := some ⟨entry, {}, .judging none⟩, noteBase := 0x400400, noteCount := 1, fetch := some 3 } }
    s.offerPje.pje.block = none ∧ s.offerPje.pje.noteLate = 1 := by decide

/-- FINISHING in WRITE_OUT with the write-out's writes ended. -/
def written (stopped : Bool) : State :=
  { withEnded playing .writeOut [.data []] with
    scu := { playing.scu with state := .finishing, phase := some .writeOut, stopped := stopped } }

theorem witness_WriteOutBeginsAndEnds :
    (written false).ptu.firstEnded (fun k => k == .writeOut) = some ⟨9, .writeOut, [.data []]⟩ ∧
      (written false).scu.state = .finishing ∧ (written false).scu.phase = some .writeOut ∧
      (written false).scr.scoreWaiting = false ∧ (written false).scu.stopped = false ∧
      (written false).ptu.lineFull = false ∧
      0 < (written false).scu.bannerFrames ∧ (written true).scu.stopped = true ∧
      ({ scoreWaiting := true } : Scr).scoreWaiting = true := by decide

/-- DRAIN with both reports, the current ticket a handset's. -/
def drained : State :=
  { playing with
    scu := { playing.scu with state := .finishing, phase := some .drain }
    vin := { drainReported := true }, pje := { drainReported := true } }

theorem witness_WriteOutBeginsAndEnds_begin :
    drained.scu.state = .finishing ∧ drained.scu.phase = some .drain ∧ drained.vin.drainReported = true ∧
      drained.pje.drainReported = true ∧ drained.scu.current = some (ticket 7 .staged) ∧
      (ticket 7 .staged).source = .handset 5 ∧ drained.rqu.slots.get drained.rqu.replyIndex = false ∧
      ∃ g, drained.scr.activeSingers[0]? = some (0, g) :=
  ⟨rfl, rfl, rfl, rfl, rfl, rfl, by decide, ⟨_, rfl⟩⟩

/-- A record of CODE `code` written whole to the command slot. -/
def slotWrite (code : Nat) : State :=
  withTap bench .commandSlot (writeReq 0x0FFFF000 1 [BitVec.ofNat 128 code, 0, 0, 0])

/-- A SET_TEMPO record written whole is decided as SET_TEMPO; an unknown CODE is no command. -/
theorem witness_CommandSlotWritesSubmitRecords :
    (slotWrite 8).ptu.taps = [⟨.commandSlot, writeReq 0x0FFFF000 1 [8, 0, 0, 0]⟩] ∧
      (∃ j x, [whole 8, whole 0, whole 0, whole 0][j]? = some x ∧ firstSlotBeat 0x0FFFF000 + j = 3 ∧ x.en ≠ 0) ∧
      commandOf (readCommand #v[8, 0, 0, 0]) = some (.setTempo 0 0) ∧
      commandOf (readCommand #v[0x12, 0, 0, 0]) = none ∧ bench.ctl.inProgress = none ∧ (slotWrite 8).roomy :=
  ⟨rfl, ⟨3, _, rfl, by decide, by decide⟩, by decide, by decide, rfl, rfl, rfl⟩

theorem witness_CaptureWritesKeepThePhase :
    let r := writeReq 0x110FF0 4 [0]
    let s := { withTap bench .capture r with vin := { expected := some 0x110FF0, phase := 1 } }
    s.ptu.taps = [⟨.capture, r⟩] ∧ r.body = .write [whole 0] ∧ s.ptu.windows.mic = some ⟨0x110000, 0x1000⟩ ∧
      (∀ b ∈ [whole 0], b.en = BitVec.allOnes 16) ∧ s.scu.state = .idle ∧ 1 ≤ s.prm.channels ∧
      s.vin.expected = some (beatAddr r.addr 0) ∧ s.vin.phase < s.prm.channels ∧
      (∃ b ∈ [(⟨0, 0x7FFF⟩ : WriteBeat)], b.en ≠ BitVec.allOnes 16) ∧ bench.vin.expected = none ∧
      (0x110000 : Nat) ≠ beatAddr r.addr 0 := by decide

/-- Channel 0 with `n` samples summed to `x`, half 0 FILLING. -/
def sampling (x : Int) (n : Nat) : State :=
  let c : Channel := { sum := x, count := n, halves := vset (Vector.replicate 2 {}) 0 { state := .filling } }
  { playing with vin := { channels := vset (Vector.replicate 4 {}) 0 c } }

/-- The samples of R82: 1000, 1003, -7 and 2 give 499; -3, -2, 0 and 0 give -2. -/
theorem witness_SamplesFillBlocks :
    (sampling 1996 3).vin.phase = (0 : Fin 4).val ∧ (0 : Fin 4).val < (sampling 1996 3).prm.channels ∧
      (((((sampling 1996 3).takeSample 2).vin.channels.get 0).halves.get 0).samples = [499] ∧
        ((((sampling (-5) 3).takeSample 0).vin.channels.get 0).halves.get 0).samples = [-2]) ∧
      (((sampling 1996 3).vin.channels.get 0).halves.get 0).state = .filling := by decide

theorem witness_SamplesFillBlocks_halves :
    (∀ j : Fin 2, j < 0 → ((({} : Channel).halves).get j).state ≠ .filling) ∧
      (∀ j : Fin 2, ((({} : Channel).halves).get j).state ≠ .filling) ∧ ((({} : Channel).halves).get 0).state = .free ∧
      (List.replicate 255 (0 : Int)).length = 255 ∧ (List.replicate 254 (0 : Int)).length < 255 :=
  ⟨by decide, by decide, rfl, List.length_replicate, by rw [List.length_replicate]; omega⟩

theorem witness_SamplesFillBlocks_blocks :
    (0 : Fin 2) ≠ 1 ∧ measuring.pje.block.isSome = true ∧ measuring.scu.state = .playing ∧
      measuring.scu.current = some (ticket 7 .staged) ∧ ((measuring.vin.channels.get 0).halves.get 1).state = .free ∧
      playing.pje.block = none ∧ playing.vin.queue = [] := by
  decide

theorem witness_NoticeLawIsKept : State.reset.ctl.noticeLaw := ⟨rfl, rfl⟩

theorem witness_ScoreLawIsKept : playing.scr.scoreLaw := by
  intro i
  fin_cases i <;> exact ⟨by decide, by decide⟩

theorem witness_CacheLawIsKept : (walked 0).gxt.cacheLaw := by
  refine ⟨by decide, by decide, ?_, ?_⟩
  · intro k p _ e he
    exact absurd he List.not_mem_nil
  · have h : ∀ j : Fin 8, (freshPage ((walked 0).gxt.walks.get j)).isSome = true → j = 7 := by decide
    intro j k p hj hk
    rw [h j (by rw [hj]; rfl), h k (by rw [hk]; rfl)]

theorem witness_ThrottleLawIsKept : (readPlaced 1).ptu.throttleLaw := by
  refine ⟨by decide, fun _ => by decide, by decide, by decide, by decide⟩

theorem witness_SongLawIsKept : playing.songLaw := by
  refine ⟨by decide, by decide, by decide, ?_⟩
  intro i
  fin_cases i <;> decide

theorem witness_QueueLawIsKept : twoQueued.queueLaw := by
  refine ⟨by decide, by decide, by decide, by decide, by decide, by decide⟩

/-- A STAGED ticket before NORMAL ones of two rounds, their stamps across the wrap of the arrival counter. -/
def wrapped : State :=
  { bench with rqu := { bench.rqu with
      arrival := 1, lastNumber := 12
      queue := [⟨11, .staff, 9, 0, 1, .staged, 0, 0⟩, ⟨8, .handset 5, 9, 0, 1, .normal, 1, 0xFFFFFFFE⟩,
        ⟨12, .handset 6, 9, 0, 1, .normal, 1, 1⟩, ⟨9, .handset 5, 9, 0, 1, .normal, 2, 0xFFFFFFFF⟩] } }

theorem witness_QueueOrderIsKept : wrapped.queueLaw ∧ wrapped.stampLaw ∧
    wrapped.rqu.stampsWithin (16 * (wrapped.ctl.waiting.length + 1)) :=
  ⟨⟨by decide, by decide, by decide, by decide, by decide, by decide⟩, ⟨by decide, by decide⟩, by
    simp only [Rqu.stampsWithin]
    decide⟩

/-! ## Small tests of points the spec settles -/

/-- An OFF singer's kept score is not seen in the status block (R116). -/
theorem test_off_singer_is_not_shown :
    ({ totals := { earned := 8, possible := 8, lastBand := some .good } } : Singer).statusBytes = List.replicate 8 0 ∧
      (seated.scr.singers.get 0).statusBytes = [1, 2, 0x10, 0x27, 8, 0, 0, 0] := by decide

/-- A frame latch takes no due MARK (R28, R38): the cue waits for an offer. -/
theorem test_latch_takes_no_mark :
    (cueQueued ⟨⟨0, .mark 5⟩, none⟩).latchClaims.ctl.lastMark = none ∧
      (cueQueued ⟨⟨0, .mark 5⟩, none⟩).offerLsq.ctl.lastMark = some 5 := by decide

/-- A playback tap behind a capture tap waits for it (R164). -/
theorem test_playback_tap_waits :
    (beatBehind.playbackBeat zeroBeat).scu.acc = 0 ∧
      (beatBehind.playbackBeat zeroBeat).ptu.taps.map Tap.cls = [.capture, .playback] ∧
      ((beatDue playing).playbackBeat zeroBeat).scu.acc = 4 * 65536 := by decide

/-- Section 8.3, rounds through five changes: the numbers, rounds and stamps of the queue after each. The CANCEL of step 4
is given as a REMOVE, whose departure is the same. -/
theorem test_rounds_through_five_changes :
    let at_ := fun (n : Nat) (h : Fin 16) (r : Nat) (a : Word) => (⟨n, .handset h, 9, 0, 1, .normal, r, a⟩ : Ticket)
    let s0 : State := { playing with rqu := { bench.rqu with
      lastNumber := 74, arrival := 104
      queue := [at_ 70 3 1 100, at_ 71 7 1 101, at_ 72 3 2 102, at_ 74 7 2 104, at_ 73 3 3 103] } }
    let shows := fun (s : State) => s.rqu.queue.map (fun t => (t.number, t.round, t.arrival.toNat))
    let s1 := s0.acceptRequest 9 5 0 1
    let s2 := (s1.takeRemove 70).state
    let s3 := (s2.takePromote 74).state
    let s4 := (s3.takeRemove 72).state
    let s5 := (s4.takeInsert 5 0 1 false).state
    shows s1 = [(70, 1, 100), (71, 1, 101), (75, 1, 105), (72, 2, 102), (74, 2, 104), (73, 3, 103)] ∧
      shows s2 = [(71, 1, 101), (72, 1, 102), (75, 1, 105), (73, 2, 103), (74, 2, 104)] ∧
      shows s3 = [(74, 0, 106), (71, 1, 101), (72, 1, 102), (75, 1, 105), (73, 2, 103)] ∧
      shows s4 = [(74, 0, 106), (71, 1, 101), (73, 1, 103), (75, 1, 105)] ∧
      shows s5 = [(74, 0, 106), (71, 1, 101), (73, 1, 103), (75, 1, 105), (76, 1, 107)] := by decide +kernel

/-- Section 2.6, the wipe across line 14. -/
theorem test_wipe_across_a_line :
    let c : LineSlot :=
      { syllables := [⟨0, 2, 20400, 300⟩, ⟨2, 2, 20700, 200⟩, ⟨4, 2, 21000, 400⟩]
        positions := [160, 200, 240, 272, 312, 352, 376], filled := true }
    [20350, 20550, 20820, 20950, 21100, 21400].map c.boundary = [160, 200, 283, 312, 328, 376] := by decide

/-- Each arrival closes with its rewrites (R157): a REQUEST in PLAYING owes an image, which begins, and the playback tap
behind it, whose offer stages the ticket, owes a second one behind the first. -/
theorem test_each_arrival_owes_its_image :
    let before : State := { requesting playing with
      scu := { playing.scu with acc := 30000 * 48 * 65536 - 4 * 65536 }
      ptu := { (requesting playing).ptu with taps := (requesting playing).ptu.taps ++ [⟨.playback, readReq 0x100000 2 1⟩] } }
    let first := before.handsetRequest.flush
    let u := first.playTaps
    first.rqu.imageOp.isSome = true ∧ first.rqu.imageGen = 2 ∧ first.rqu.imageOwed = false ∧
      first.rqu.queue.map Ticket.cls = [.normal] ∧ u.rqu.queue.map Ticket.cls = [.staged] ∧ u.rqu.imageGen = 2 ∧
      u.rqu.imageOwed = true := by decide +kernel

/-- The offer held in SEEKING reaches the engine though END is pending (R106). -/
theorem test_end_pending_offers_the_engine :
    (sought true).leaveSeeking.scu.state = .finishing ∧
      ({ sought true with pje := { (sought true).pje with winA := [⟨0, 100, 873, .a, 2⟩] } } : State).leaveSeeking.pje.winA
        = [] := by decide

/-- A STOP submitted to a full line waits, and begins at the decision that gives the line room (R169). -/
theorem test_stop_waits_for_the_line :
    let s := (lineFilled playing).hostWork (.stop 3) (fun s => s.submitStop 3)
    s.ctl.waiting = [.stop 3] ∧ s.scu.state = .playing ∧ s.resumeWork.scu.state = .playing ∧
      ({ s with ptu := playing.ptu } : State).resumeWork.scu.state = .finishing := by decide

/-- A claim that a full line put off comes about at the decision that gives the line room, and the staging of a return
to IDLE with it (R31, R169). -/
theorem test_latch_work_waits_for_the_line :
    let s := (lineFilled claimWaiting).latchClaims
    let b := State.bannerLatch { lineFilled (queued [ticket 9 .normal]) with
      scu := { state := .finishing, phase := some .banner, bannerCount := 1 } }
    firstUnbound s.lsq.queue = some 1 ∧ firstUnbound ({ s with ptu := playing.ptu } : State).resumeLatch.lsq.queue = none ∧
      b.scu.state = .idle ∧ b.rqu.queue.map Ticket.cls = [.normal] ∧ b.ptu.kept = [] ∧
      ({ b with ptu := playing.ptu } : State).resumeLatch.rqu.queue.map Ticket.cls = [.staged] := by decide

/-- A block of 256 samples of a square wave of period 100. -/
def square : List Int := (List.range 256).map (fun n => if n % 100 < 50 then 8000 else -8000)

theorem witness_LagsAreSummedAndChosen : square.length = 256 ∧ ∀ v ∈ square, -32768 ≤ v ∧ v ≤ 32767 := by
  decide +kernel

theorem witness_PeriodIsRefinedByTheParabola : (measure {} square).isSome = true := by decide +kernel

/-- The ends of the range of R109: the shortest note raised by 12 semitones and the longest lowered by 12. -/
theorem witness_ReferencePeriodIsScaledByTheKey : scaledPeriod 192 12 = 96 ∧ scaledPeriod 2816 (-12) = 5632 := by
  decide

end Sys2Proof.Tests
end

