-- ==== Sys2Proof/Proofs/SongFacts.lean ====
section
/-! SUPPORT. What the operations of a song do to the song context, the singers' links and the Control Unit's lasting
fields, said once for each operation, beside the frames of `Laws/`. -/

namespace Sys2Proof.Machine

/-! ## Host commands decided at once -/

/-- With room in the line a host command is decided and closed by the rewrites it leaves owed (R157, R179). -/
theorem exec_hostCommand {c : Instr} {code tag : BitVec 16} {s : State} (hc : hostCode c = some (code, tag))
    (hs : s.roomy) : exec c s = .next (s.submitInstr c).flush := by
  have decided : ∀ d work, s.hostWork d work = work s := fun d work => State.hostWork_roomy d work hs
  cases c
  all_goals first
    | exact congrArg (fun t : State => Host.Outcome.next t.flush) (decided _ _)
    | simp [hostCode] at hc

/-- A command that its owner answers ends with that answer's result (R179). -/
theorem State.submit_answered {s : State} {code tag : BitVec 16} {f : State → CommandEnd} {a : Answer} (hs : s.ready)
    (hc : code ≠ 0x01 ∧ code ≠ 0x10) (hf : f s = .answered a) :
    s.submit code tag (some f) = a.state.result code tag a.rc a.values := by
  obtain ⟨hp, hset, -⟩ := hs
  have hset' : s.ctl.setup.isNone = false := by simpa using hset
  have hidle : ¬ (code = 0x01 ∨ code = 0x10) := fun h => h.elim hc.1 hc.2
  unfold State.submit
  simp only [hp, hset', hf, Option.isSome_none, Bool.false_eq_true, false_and, if_false]
  exact if_neg fun h => hidle h.1

/-- A command that its owner takes for later leaves the owner's state (R179). -/
theorem State.submit_later {s t : State} {code tag : BitVec 16} {f : State → CommandEnd} (hs : s.ready)
    (hc : code ≠ 0x01 ∧ code ≠ 0x10) (hf : f s = .later t) : s.submit code tag (some f) = t := by
  obtain ⟨hp, hset, -⟩ := hs
  have hset' : s.ctl.setup.isNone = false := by simpa using hset
  have hidle : ¬ (code = 0x01 ∨ code = 0x10) := fun h => h.elim hc.1 hc.2
  unfold State.submit
  simp only [hp, hset', hf, Option.isSome_none, Bool.false_eq_true, false_and, if_false]
  exact if_neg fun h => hidle h.1

/-! ## The Control Unit's lasting fields -/

/-- The Control Unit apart from event flags, the staged copy and the last mark. -/
def Ctl.core (c : Ctl) : Ctl :=
  { c with flags := 0, noticeLow := false, statusOwed := false, staged := none, lastMark := none }

@[simp] theorem Ctl.raise_core (e : Event) (c : Ctl) : (c.raise e).core = c.core := by
  unfold Ctl.raise
  split
  · rfl
  · split <;> rfl

/-- Two states of the Control Unit that agree on the core agree on each of its fields. -/
theorem Ctl.core_fields {c d : Ctl} (h : c.core = d.core) :
    c.setup = d.setup ∧ c.inProgress = d.inProgress ∧ c.resultCount = d.resultCount ∧ c.enables = d.enables ∧
      c.waiting = d.waiting := by
  simp only [Ctl.core, Ctl.mk.injEq] at h
  simp [h]

@[simp] theorem Ctl.core_staged (c : Ctl) (x : Option StagedCopy) : ({ c with staged := x } : Ctl).core = c.core := rfl
@[simp] theorem Ctl.core_lastMark (c : Ctl) (x : Option Nat) : ({ c with lastMark := x } : Ctl).core = c.core := rfl
@[simp] theorem Ctl.core_statusOwed (c : Ctl) (x : Bool) : ({ c with statusOwed := x } : Ctl).core = c.core := rfl

@[simp] theorem State.queueChanged_core (old : Nat) (s : State) : (s.queueChanged old).ctl.core = s.ctl.core := by
  unfold State.queueChanged
  dsimp only
  split <;> simp

@[simp] theorem State.stageTest_core (s : State) : (s.stageTest).ctl.core = s.ctl.core := by
  unfold State.stageTest
  split
  · rfl
  · split
    · simp only [State.replyToSource_frame]
      exact (Ctl.core_staged _ _).trans (by simp)
    · rfl

@[simp] theorem State.acceptRequest_core (h : Fin 16) (song : Nat) (key : Int) (singers : Nat) (s : State) :
    (s.acceptRequest h song key singers).ctl.core = s.ctl.core := by
  simp [State.acceptRequest]

@[simp] theorem State.drainVisit_core (h : Fin 16) (s : State) : (s.drainVisit h).ctl.core = s.ctl.core := by
  unfold State.drainVisit
  split
  · rfl
  · split
    · dsimp only
      split <;> simp
    · rfl

@[simp] theorem State.drainSlots_core (s : State) : (s.drainSlots).ctl.core = s.ctl.core := by
  unfold State.drainSlots
  generalize drainOrder s.rqu.lastDrained = l
  induction l generalizing s with
  | nil => rfl
  | cons h rest ih => simp [ih]

@[simp] theorem State.depart_core (t : Ticket) (w : Bool) (s : State) : (s.depart t w).ctl.core = s.ctl.core := by
  have named : ∀ t : State, ({ t with ctl := { t.ctl with staged := none } } : State).ctl.core = t.ctl.core := fun _ => rfl
  unfold State.depart
  dsimp only
  rw [State.stageTest_core]
  split <;> split <;> (try split) <;> simp [named]

/-! ## What the voices' work does to the song -/

/-- STATE and link of every singer: what the song law reads of the Score Unit. -/
def Scr.links (c : Scr) : Fin 4 → Bool × Option Nat := fun i => ((c.singers.get i).active, (c.singers.get i).link)

@[simp] theorem Scr.setTotals_links (i : Fin 4) (t : Totals) (c : Scr) : (c.setTotals i t).links = c.links := by
  funext j
  simp only [Scr.links, Scr.setTotals_get]
  split <;> rfl

@[simp] theorem Scr.countDrop_links (ch : Fin 4) (c : Scr) : (c.countDrop ch).links = c.links := by
  unfold Scr.countDrop
  split <;> simp

/-- Two states of the Score Unit with the same singers have the same links. -/
theorem Scr.links_of_singers {c d : Scr} (h : c.singers = d.singers) : c.links = d.links := by
  funext i
  simp only [Scr.links, h]

/-- The song context as it was, or gone from DRAIN to WRITE_OUT (R18). -/
def Scu.drainsTo (c d : Scu) : Prop :=
  d = c ∨ (c.state = .finishing ∧ c.phase = some .drain ∧ d = { c with phase := some .writeOut })

theorem Scu.drainsTo_trans {a b c : Scu} (h : a.drainsTo b) (g : b.drainsTo c) : a.drainsTo c := by
  rcases h with rfl | ⟨hs, hp, rfl⟩
  · exact g
  · rcases g with rfl | ⟨-, gp, -⟩
    · exact .inr ⟨hs, hp, rfl⟩
    · cases gp

/-- What drain reports, block takes and judgements leave: the song context but for the drain's end, the singers' links,
the END time and the Control Unit's core. -/
structure State.VoicesOnly (s t : State) : Prop where
  scu : s.scu.drainsTo t.scu
  links : t.scr.links = s.scr.links
  endTime : t.pje.endTime = s.pje.endTime
  core : t.ctl.core = s.ctl.core

theorem State.VoicesOnly.refl (s : State) : s.VoicesOnly s := ⟨.inl rfl, rfl, rfl, rfl⟩

theorem State.VoicesOnly.trans {s t u : State} (h : s.VoicesOnly t) (g : t.VoicesOnly u) : s.VoicesOnly u :=
  ⟨Scu.drainsTo_trans h.scu g.scu, g.links.trans h.links, g.endTime.trans h.endTime, g.core.trans h.core⟩

/-- What leaves the song context, the links, the END time and the core is the voices' work. -/
theorem State.VoicesOnly.of_eq {s t : State} (hc : t.scu = s.scu) (hl : t.scr.links = s.scr.links)
    (he : t.pje.endTime = s.pje.endTime) (hk : t.ctl.core = s.ctl.core) : s.VoicesOnly t := ⟨.inl hc, hl, he, hk⟩

/-- The voices' work begun from a state that differs from `s` in none of the four. -/
theorem State.VoicesOnly.begun {r s t : State} (h : s.VoicesOnly t) (hc : s.scu = r.scu := by rfl)
    (hl : s.scr.links = r.scr.links := by rfl) (he : s.pje.endTime = r.pje.endTime := by rfl)
    (hk : s.ctl.core = r.ctl.core := by rfl) : r.VoicesOnly t :=
  (State.VoicesOnly.of_eq hc hl he hk).trans h

theorem State.stageTest_voices (s : State) : s.VoicesOnly s.stageTest := .of_eq (by simp) (by simp) (by simp) (by simp)

/-- Placing a reply leaves the singers; a SCORE reply that is lost is no longer waited for. -/
@[simp] theorem State.placeReply_singers (r : Reply) (score : Bool) (s : State) :
    (s.placeReply r score).scr.singers = s.scr.singers ∧ (s.placeReply r score).scr.lastResult = s.scr.lastResult ∧
      (s.placeReply r score).scr.writeIndex = s.scr.writeIndex ∧ (s.placeReply r score).scr.cadence = s.scr.cadence ∧
      (s.placeReply r score).scr.cadenceCount = s.scr.cadenceCount := by
  unfold State.placeReply
  dsimp only
  split
  · simp
  · cases score <;> simp

@[simp] theorem State.issueReply_singers (h : Fin 16) (b : ReplyBody) (score : Bool) (s : State) :
    (s.issueReply h b score).scr.singers = s.scr.singers ∧ (s.issueReply h b score).scr.lastResult = s.scr.lastResult ∧
      (s.issueReply h b score).scr.writeIndex = s.scr.writeIndex ∧
      (s.issueReply h b score).scr.cadence = s.scr.cadence ∧
      (s.issueReply h b score).scr.cadenceCount = s.scr.cadenceCount := by
  simp [State.issueReply]

/-- A write-out leaves the singers as they are (R122). -/
@[simp] theorem State.beginWriteOut_singers (s : State) : (s.beginWriteOut).scr.singers = s.scr.singers := by
  unfold State.beginWriteOut
  split
  · rfl
  · dsimp only
    split <;> simp

/-- With a current ticket the write-out numbers its result and moves its index on (R122). -/
theorem State.beginWriteOut_numbers {s : State} (h : s.scu.current.isSome = true) :
    (s.beginWriteOut).scr.lastResult = s.scr.lastResult + 1 ∧
      (s.beginWriteOut).scr.writeIndex = (s.scr.writeIndex + 1) % 8 := by
  unfold State.beginWriteOut
  split
  · next e => simp [e] at h
  · dsimp only
    split <;> simp

theorem State.drainCheck_voices (s : State) : s.VoicesOnly s.drainCheck := by
  unfold State.drainCheck
  split
  · next h =>
    obtain ⟨hs, hp, -, -⟩ := h
    exact ⟨.inr ⟨hs, hp, by simp⟩, by simpa using Scr.links_of_singers (by simp), by simp, by simp⟩
  · exact .refl s

theorem State.vinDrain_voices (s : State) : s.VoicesOnly s.vinDrain := by
  unfold State.vinDrain
  split
  · exact (State.drainCheck_voices _).begun
  · exact .refl s

theorem State.pjeDrain_voices (s : State) : s.VoicesOnly s.pjeDrain := by
  unfold State.pjeDrain
  split
  · exact (State.drainCheck_voices _).begun
  · exact .refl s

theorem State.takeBlock_voices (s : State) : s.VoicesOnly s.takeBlock := by
  unfold State.takeBlock
  split
  · exact (State.vinDrain_voices _).begun
  · exact .refl s

theorem State.endAnalysis_voices (e : BlockEntry) (s : State) : s.VoicesOnly (s.endAnalysis e) :=
  ((State.pjeDrain_voices _).trans (State.takeBlock_voices _)).begun

theorem State.tick_voices (s : State) : s.VoicesOnly s.tick := by
  unfold State.tick
  split <;> exact .of_eq (by simp) (Scr.links_of_singers (by simp)) (by simp) (by simp)

theorem State.applyJudgement_voices (j : Judgement) (s : State) : s.VoicesOnly (s.applyJudgement j) := by
  unfold State.applyJudgement
  split
  · split
    · exact .refl s
    · dsimp only
      split
      · exact .refl s
      · exact (State.tick_voices _).begun (hl := by simp)
  · exact .refl s

theorem State.judge_voices (b : BlockInHand) (period : Option Nat) (s : State) : s.VoicesOnly (s.judge b period) := by
  have ends : ∀ t : State, s.VoicesOnly t → s.VoicesOnly (t.endAnalysis b.entry) :=
    fun t h => h.trans (State.endAnalysis_voices _ t)
  unfold State.judge
  split
  · exact ends s (.refl s)
  · split
    · exact ends s (.refl s)
    · dsimp only
      split
      · exact ends s (.refl s)
      · split
        · exact ends s (.refl s)
        · split
          · exact ends _ (.of_eq (by simp) (by simp) (by simp) (by simp))
          · exact .of_eq rfl rfl rfl rfl
          · exact ends s (.refl s)
          · exact ends _ (State.applyJudgement_voices _ s)

theorem State.retryJudgement_voices (s : State) : s.VoicesOnly s.retryJudgement := by
  unfold State.retryJudgement
  split
  · split
    · exact State.judge_voices _ _ s
    · exact .refl s
  · exact .refl s

@[simp] theorem Pje.addNote_endTime (n : Note) (p : Pje) : (p.addNote n).endTime = p.endTime := by
  unfold Pje.addNote
  split <;> rfl

@[simp] theorem Pje.retryHeld_endTime (reach : Nat) (p : Pje) : (p.retryHeld reach).endTime = p.endTime := by
  unfold Pje.retryHeld Pje.takeNote
  split
  · rfl
  · split <;> simp

@[simp] theorem State.tryNoteFetch_endTime (s : State) : (s.tryNoteFetch).pje.endTime = s.pje.endTime := by
  unfold State.tryNoteFetch
  split <;> rfl

theorem State.offerPje_voices (s : State) : s.VoicesOnly s.offerPje :=
  (State.retryJudgement_voices _).begun (by simp) (by simp) (by simp [Pje.leave]) (by simp)

/-! ## The entry into FINISHING -/

/-- The song context that an entry into FINISHING starts from (R17). -/
def Scu.finishingAt (endMs : Nat) (c : Scu) : Scu :=
  { c with state := .finishing, phase := some .drain, endTime := some endMs }

/-- An entry into FINISHING gives the song context its END time and leaves it in DRAIN or, with no block left, in
WRITE_OUT (R17, R18); the links and the Control Unit's core stand. -/
theorem State.enterFinishing_song (n : Nat) (s : State) :
    (s.scu.finishingAt n).drainsTo (s.enterFinishing n).scu ∧ (s.enterFinishing n).scr.links = s.scr.links ∧
      (s.enterFinishing n).pje.endTime = some n ∧ (s.enterFinishing n).ctl.core = s.ctl.core := by
  have h := (State.stageTest_voices { s with
    scu := s.scu.finishingAt n, vin := { s.vin with drainReported := false }
    pje := { s.pje with drainReported := false, endTime := some n } }).trans (State.vinDrain_voices _)
  have h := (h.trans (State.pjeDrain_voices _)).trans (State.retryJudgement_voices _)
  exact ⟨h.scu, h.links, h.endTime, h.core⟩

end Sys2Proof.Machine
end

