-- ==== Sys2Proof/Proofs/SongLaw.lean ====
section
/-! The law of the song context (R2): every operation that touches the song context or a singer's link keeps it, and so
every step does. -/

namespace Sys2Proof.Machine

/-! ## What the law reads -/

/-- The fields of the song context that the law reads. -/
def Scu.place (c : Scu) : SongState × Option FinishPhase × Option Ticket × Option Nat :=
  (c.state, c.phase, c.current, c.startTicket)

/-- The song law follows the place of the song and the singers' links alone. -/
theorem State.songLaw.of_place {s t : State} (h : s.songLaw) (hp : t.scu.place = s.scu.place)
    (hl : t.scr.links = s.scr.links) : t.songLaw := by
  simp only [Scu.place, Prod.mk.injEq] at hp
  obtain ⟨hs, hf, hc, ht⟩ := hp
  have link : ∀ i, ((t.scr.singers.get i).active, (t.scr.singers.get i).link) =
      ((s.scr.singers.get i).active, (s.scr.singers.get i).link) := fun i => congrFun hl i
  simp only [Prod.mk.injEq] at link
  simpa only [State.songLaw, hs, hf, hc, ht, (link _).1, (link _).2] using h

/-- What leaves the song context and the Score Unit keeps the law. -/
theorem State.songLaw.of_same {s t : State} (h : s.songLaw) (hc : t.scu = s.scu := by simp)
    (hr : t.scr = s.scr := by simp) : t.songLaw :=
  h.of_place (by rw [hc]) (by rw [hr])

/-- The drain's end keeps the law. -/
theorem State.songLaw.of_drainsTo {s t : State} (h : s.songLaw) (hd : s.scu.drainsTo t.scu)
    (hl : t.scr.links = s.scr.links) : t.songLaw := by
  rcases hd with hd | ⟨hs, hp, hd⟩
  · exact h.of_place (by rw [hd]) hl
  · obtain ⟨h1, h2, h3, h4⟩ := h
    have moved : ({ s with scu := { s.scu with phase := some .writeOut } } : State).songLaw := by
      refine ⟨h1, h2, ?_, h4⟩
      simp [hs]
    exact moved.of_place (by rw [hd]) hl

/-- The voices' work keeps the law. -/
theorem State.songLaw.of_voices {s t : State} (h : s.songLaw) (hv : s.VoicesOnly t) : t.songLaw :=
  h.of_drainsTo hv.scu hv.links

/-- A song that plays or seeks has no starting ticket and has a current one. -/
theorem State.songLaw.inSong {s : State} (h : s.songLaw) (hs : s.scu.state = .playing ∨ s.scu.state = .seeking) :
    s.scu.current.isSome = true ∧ s.scu.startTicket = none ∧ s.scu.phase = none := by
  obtain ⟨hc, ht, hp, -⟩ := h
  have away : s.scu.state ≠ .idle ∧ s.scu.state ≠ .starting ∧ s.scu.state ≠ .finishing := by
    rcases hs with hs | hs <;> simp [hs]
  refine ⟨?_, ?_, ?_⟩
  · exact Option.isSome_iff_ne_none.mpr fun e => (hc.mpr e).elim away.1 away.2.1
  · exact Option.not_isSome_iff_eq_none.mp fun e => away.2.1 (ht.mpr e)
  · exact Option.not_isSome_iff_eq_none.mp fun e => away.2.2 (hp.mpr e)

/-! ## Entering and leaving a song's states -/

theorem State.enterFinishing_songLaw {s : State} (n : Nat) (h : s.songLaw)
    (hs : s.scu.state = .playing ∨ s.scu.state = .seeking) : (s.enterFinishing n).songLaw := by
  obtain ⟨hc, ht, -⟩ := h.inSong hs
  have entered : ({ s with scu := s.scu.finishingAt n } : State).songLaw := by
    refine ⟨?_, ?_, ?_, h.2.2.2⟩
    · simp [Scu.finishingAt, Option.isSome_iff_ne_none.mp hc]
    · simp [Scu.finishingAt, ht]
    · simp [Scu.finishingAt]
  obtain ⟨hd, hl, -, -⟩ := State.enterFinishing_song n s
  exact entered.of_drainsTo hd hl

theorem State.leaveSong_songLaw {s : State} (h : s.songLaw) (hs : s.scu.state = .finishing) : s.leaveSong.songLaw := by
  obtain ⟨-, ht, -, -⟩ := h
  refine ⟨?_, ?_, ?_, ?_⟩
  · simp [State.leaveSong]
  · simpa [State.leaveSong, hs] using ht
  · simp [State.leaveSong]
  · simp [State.leaveSong, Scr.unlink]

theorem State.whenRoom_songLaw {s : State} {work : State → State} (h : s.songLaw) (hw : (work s).songLaw) :
    (s.whenRoom work).songLaw := by
  rcases State.whenRoom_cases work s with e | ⟨e, -⟩ <;> rw [e]
  · exact hw
  · exact h

theorem State.bannerLatch_songLaw {s : State} (h : s.songLaw) : s.bannerLatch.songLaw := by
  unfold State.bannerLatch
  split
  · next hb =>
    split
    · have left := State.leaveSong_songLaw h hb.1
      exact State.whenRoom_songLaw left left.of_same
    · exact h.of_place rfl rfl
  · exact h

theorem State.resumeStaging_songLaw {s : State} (h : s.songLaw) : s.resumeStaging.songLaw := by
  unfold State.resumeStaging
  split
  · exact State.whenRoom_songLaw h h.of_same
  · exact h

theorem State.loadBanner_songLaw {s : State} (n : Nat) (h : s.songLaw) (hs : s.scu.state = .finishing) :
    (s.loadBanner n).songLaw := by
  unfold State.loadBanner
  split
  · exact (State.leaveSong_songLaw h hs).of_same (by simp [State.returnToIdle]) (by simp [State.returnToIdle])
  · exact h.of_place rfl rfl

theorem State.endWriteOut_songLaw {s : State} (h : s.songLaw) (hs : s.scu.state = .finishing) :
    s.endWriteOut.songLaw := by
  have banner : ({ s with scu := { s.scu with phase := some .banner } } : State).songLaw := by
    obtain ⟨h1, h2, -, h4⟩ := h
    exact ⟨h1, h2, by simp [hs], h4⟩
  exact State.loadBanner_songLaw _ (banner.of_same (by simp) (by simp)) (by simpa using hs)

theorem State.writeOutEnd_songLaw {s : State} (h : s.songLaw) : s.writeOutEnd.songLaw := by
  unfold State.writeOutEnd
  split
  · exact h
  · split
    · next hw => exact State.endWriteOut_songLaw (h.of_place rfl rfl) (h.2.2.1.mpr (by simp [hw.2]))
    · exact h

/-! ## Cues and offers -/

theorem State.takeSongEnd_songLaw {s : State} (n : Nat) (h : s.songLaw) : (s.takeSongEnd n).songLaw := by
  unfold State.takeSongEnd
  dsimp only
  split
  · next hp => exact State.enterFinishing_songLaw n (h.of_place rfl rfl) (.inl hp)
  · exact h.of_place rfl rfl

theorem State.takeCue_songLaw {s : State} (c : QueuedCue) (n : Nat) (h : s.songLaw) : (s.takeCue c n).songLaw := by
  unfold State.takeCue
  split
  · exact h.of_same
  · exact h
  · exact h.of_same
  · exact h.of_same
  · exact State.takeSongEnd_songLaw n h

theorem State.takeDue_songLaw (fuel n : Nat) : ∀ {s : State}, s.songLaw → (s.takeDue fuel n).songLaw := by
  induction fuel with
  | zero => exact fun h => h
  | succ fuel ih =>
    intro s h
    unfold State.takeDue
    split
    · exact h
    · split
      · next c rest _ _ =>
        have taken := State.takeCue_songLaw (s := { s with lsq := { s.lsq with queue := rest } }) c n
          (h.of_place rfl rfl)
        exact ih taken.of_same
      · exact h

theorem State.takeCues_songLaw {s : State} (h : s.songLaw) : s.takeCues.songLaw := State.takeDue_songLaw _ _ h

theorem State.offerLsq_songLaw {s : State} (h : s.songLaw) : s.offerLsq.songLaw := by
  have taken : (s.retryHeldCue.takeCues).songLaw := State.takeCues_songLaw h.of_same
  exact taken.of_same (by simp [State.offerLsq]) (by simp [State.offerLsq])

theorem State.offer_songLaw {s : State} (h : s.songLaw) : s.offer.songLaw := by
  unfold State.offer
  split
  · exact h.of_same
  · exact ((State.offerLsq_songLaw h).of_voices (State.offerPje_voices _)).of_same

theorem State.playbackTap_songLaw {s : State} (h : s.songLaw) : s.playbackTap.songLaw := by
  unfold State.playbackTap
  split
  · next hs =>
    dsimp only
    split
    · split
      · next hp => exact State.enterFinishing_songLaw _ (h.of_place rfl rfl) (.inl hp)
      · exact h.of_place rfl rfl
    · split
      · exact h.of_place rfl rfl
      · exact State.offer_songLaw (h.of_place rfl rfl)
  · exact h

/-! ## SEEKING -/

theorem State.leaveSeeking_songLaw {s : State} (h : s.songLaw) : s.leaveSeeking.songLaw := by
  unfold State.leaveSeeking
  split
  · next hs =>
    dsimp only
    have ended : (s.finishCommand .ok).songLaw := h.of_same
    split
    · have entered := State.enterFinishing_songLaw songMsMax
        (s := { s.finishCommand .ok with scu := { (s.finishCommand .ok).scu with endPending := false } })
        (ended.of_place rfl rfl) (.inr (by simpa using hs.1))
      exact entered.of_voices (State.offerPje_voices _)
    · have playing : ({ s.finishCommand .ok with scu := { (s.finishCommand .ok).scu with state := .playing } } :
          State).songLaw := by
        obtain ⟨h1, h2, h3, h4⟩ := ended
        have hseek : (s.finishCommand .ok).scu.state = .seeking := by simpa using hs.1
        rw [hseek] at h1 h2 h3
        exact ⟨by simpa using h1, by simpa using h2, by simpa using h3, h4⟩
      exact ((State.offerLsq_songLaw playing).of_voices (State.offerPje_voices _)).of_same
  · exact h

theorem State.rebuildEnds_songLaw {s : State} (h : s.songLaw) : s.rebuildEnds.songLaw :=
  State.leaveSeeking_songLaw (s := s.lsqRebuildEnd.pjeRebuildEnd) h.of_same

theorem State.beginSeek_songLaw {s : State} (tag : BitVec 16) (n : Nat) (h : s.songLaw)
    (hs : s.scu.state = .playing) : (s.beginSeek tag n).songLaw := by
  have seeking : ({ s with scu := { s.scu with acc := n * 48 * 65536, seeked := true, state := .seeking } } :
      State).songLaw := by
    obtain ⟨h1, h2, h3, h4⟩ := h
    rw [hs] at h1 h2 h3
    exact ⟨by simpa using h1, by simpa using h2, by simpa using h3, h4⟩
  exact State.rebuildEnds_songLaw (seeking.of_same (by simp) (by simp))

theorem State.endCueFetch_songLaw {s : State} (d : Option (List Beat)) (h : s.songLaw) : (s.endCueFetch d).songLaw := by
  unfold State.endCueFetch
  refine State.rebuildEnds_songLaw (h.of_same ?_ ?_) <;> dsimp only <;> split <;> (try split) <;> simp

theorem State.endLineLoad_songLaw {s : State} (op : Nat) (d : Option (List Beat)) (h : s.songLaw) :
    (s.endLineLoad op d).songLaw := by
  unfold State.endLineLoad
  split
  · exact h
  · refine State.rebuildEnds_songLaw (h.of_same ?_ ?_) <;> split <;> simp

theorem State.endNoteFetch_songLaw {s : State} (d : Option (List Beat)) (h : s.songLaw) :
    (s.endNoteFetch d).songLaw := by
  unfold State.endNoteFetch
  refine State.rebuildEnds_songLaw (State.songLaw.of_voices ?_ (State.retryJudgement_voices _))
  refine h.of_same ?_ ?_ <;> dsimp only <;> split <;> simp

/-! ## A frame latch and the display -/

theorem State.latchClaims_songLaw {s : State} (h : s.songLaw) : s.latchClaims.songLaw := by
  refine State.whenRoom_songLaw h ?_
  dsimp only
  split
  · exact State.rebuildEnds_songLaw h.of_same
  · split
    · exact (State.takeCues_songLaw (s := s.bindFree) h.of_same).of_same
    · exact h.of_same

theorem State.resumeLatch_songLaw {s : State} (h : s.songLaw) : s.resumeLatch.songLaw := by
  unfold State.resumeLatch
  refine State.resumeStaging_songLaw ?_
  split
  · exact (State.latchClaims_songLaw h).of_same
  · exact h

theorem State.frameLatch_songLaw {s : State} (h : s.songLaw) : s.frameLatch.songLaw := by
  have latched : (State.latchClaims { s.latchLsq with ovc := { s.latchLsq.ovc with latch := some s.latchLsq.buildLatch } }
      ).songLaw := State.latchClaims_songLaw (h.of_same (by simp) (by simp))
  exact latched.of_same (by simp [State.frameLatch]) (by simp [State.frameLatch])

theorem State.afterLatch_songLaw {s : State} (h : s.songLaw) : s.afterLatch.songLaw :=
  (State.bannerLatch_songLaw h).of_place rfl rfl

theorem State.layerBeat_songLaw {s : State} (l : LatchRecord) (y x : Nat) (b : ReadBeat) (h : s.songLaw) :
    (s.layerBeat l y x b).1.songLaw := h.of_same

theorem State.displayAt_songLaw {s : State} (a : Nat) (b : ReadBeat) (h : s.songLaw) : (s.displayAt a b).1.songLaw := by
  unfold State.displayAt
  dsimp only
  split
  · exact h
  · generalize hoff : (((a : Int) - _) % _).toNat = off
    have latched : (if off = 0 then s.frameLatch else s).songLaw := by
      split
      · exact State.frameLatch_songLaw h
      · exact h
    generalize (if off = 0 then s.frameLatch else s) = u at latched ⊢
    have composed : ∀ (P : Prop) [Decidable P] (y : Nat), (if P then u.compose y else u).songLaw := by
      intro P _ y
      split
      · exact latched.of_same
      · exact latched
    split
    · refine State.afterLatch_songLaw ?_
      split
      · exact composed _ _
      · split
        · exact State.layerBeat_songLaw _ _ _ _ (composed _ _)
        · exact composed _ _
    · split
      · exact composed _ _
      · split
        · exact State.layerBeat_songLaw _ _ _ _ (composed _ _)
        · exact composed _ _

/-! ## START -/

theorem State.beginStart_songLaw {s : State} (tag : BitVec 16) (n : Nat) (b : Fin 2) (h : s.songLaw)
    (hs : s.scu.refusesStart = false) : (s.beginStart tag n b).songLaw := by
  have resting : ∀ t : State, t.songLaw → t.scu.state = .idle → ∀ u : State,
      u.scu = { t.scu with state := .starting, startTicket := some n, startBank := some b } → u.scr = t.scr →
      u.songLaw := by
    intro t ⟨h1, h2, h3, h4⟩ ht u huc hur
    rw [ht] at h1 h2 h3
    simp only [State.songLaw, huc, hur]
    exact ⟨by simpa using h1, by simp, by simpa using h3, h4⟩
  unfold State.beginStart
  dsimp only
  split
  · next hf => exact resting _ (State.leaveSong_songLaw h hf) rfl _ (by simp) (by simp)
  · next hf =>
    have hi : s.scu.state = .idle := by
      unfold Scu.refusesStart at hs
      split at hs <;> simp_all
    exact resting s h hi _ (by simp) (by simp)

theorem State.failStart_songLaw {s : State} (rc : ResultCode) (h : s.songLaw) (hs : s.scu.state = .starting) :
    (s.failStart rc).songLaw := by
  have idle : ({ s with scu := { s.scu with state := .idle, startTicket := none, startBank := none } } :
      State).songLaw := by
    obtain ⟨h1, -, h3, h4⟩ := h
    rw [hs] at h1 h3
    exact ⟨by simpa using h1, by simp, by simpa using h3, h4⟩
  exact idle.of_same (by simp [State.failStart]) (by simp [State.failStart])

/-- START's completion links every ACTIVE singer to its ticket (R121). -/
theorem Scr.startSong_link (n : Nat) (c : Scr) (i : Fin 4) (ha : ((c.startSong n).singers.get i).active = true) :
    ((c.startSong n).singers.get i).link = some n := by
  simp only [Scr.startSong, map_get] at ha ⊢
  split at ha
  · next hg => rw [if_pos hg]
  · next hn => exact absurd ha hn

/-- A song primed with its current ticket stands in PLAYING and meets the law (R12). -/
theorem State.primeSong_songLaw {s : State} {t : Ticket} (b : Fin 2) (base : Nat) (hd : Header)
    (hc : s.scu.current = some t) (hp : s.scu.phase = none) : (s.primeSong t b base hd).songLaw := by
  refine ⟨?_, ?_, ?_, fun i ha => .inr ?_⟩
  · simp [State.primeSong, hc]
  · simp [State.primeSong]
  · simp [State.primeSong, hp]
  · simpa [State.primeSong, hc] using Scr.startSong_link t.number s.scr i ha

theorem State.completeStart_songLaw {s : State} (t : Ticket) (b : Fin 2) (base : Nat) (hd : Header) (h : s.songLaw)
    (hs : s.scu.state = .starting) : (s.completeStart t b base hd).songLaw := by
  have hp : s.scu.phase = none := Option.not_isSome_iff_eq_none.mp fun e => by simpa [hs] using h.2.2.1.mpr e
  have primed := State.primeSong_songLaw (t := t)
    (s := (State.depart t false { s with scu := { s.scu with current := some t } }).pushHistory t) b base hd
    (by simp) (by simpa using hp)
  exact (State.offer_songLaw primed).of_same (by simp [State.completeStart]) (by simp [State.completeStart])

theorem State.headerEnded_songLaw {s : State} (d : Option (List Beat)) (h : s.songLaw) : (s.headerEnded d).songLaw := by
  unfold State.headerEnded
  split
  · next ht _ _ =>
    have hs : s.scu.state = .starting := h.2.1.mpr (by simp [ht])
    split
    · exact State.failStart_songLaw _ h hs
    · split
      · split
        · exact State.failStart_songLaw _ h hs
        · dsimp only
          split
          · exact State.completeStart_songLaw _ _ _ _ h hs
          · exact State.failStart_songLaw _ h hs
      · exact State.failStart_songLaw _ h hs
  · exact h

/-! ## Completions of own reads -/

theorem State.headerReadComplete_songLaw {s : State} (h : s.songLaw) : s.headerReadComplete.songLaw := by
  unfold State.headerReadComplete
  split
  · exact h
  · exact State.headerEnded_songLaw _ (h.of_place rfl rfl)

theorem State.cueFetchComplete_songLaw {s : State} (h : s.songLaw) : s.cueFetchComplete.songLaw := by
  unfold State.cueFetchComplete
  split
  · exact h
  · exact State.endCueFetch_songLaw _ (h.of_place rfl rfl)

theorem State.lineLoadComplete_songLaw {s : State} (h : s.songLaw) : s.lineLoadComplete.songLaw := by
  unfold State.lineLoadComplete
  split
  · exact h
  · exact State.endLineLoad_songLaw _ _ (h.of_place rfl rfl)

theorem State.noteFetchComplete_songLaw {s : State} (h : s.songLaw) : s.noteFetchComplete.songLaw := by
  unfold State.noteFetchComplete
  split
  · exact h
  · exact State.endNoteFetch_songLaw _ (h.of_place rfl rfl)

theorem State.measurementEnd_songLaw {s : State} (h : s.songLaw) : s.measurementEnd.songLaw := by
  unfold State.measurementEnd
  split
  · exact h
  · split
    · exact h.of_voices (State.judge_voices _ _ s)
    · exact h

theorem State.replyPlacementEnd_songLaw {s : State} (h : s.songLaw) : s.replyPlacementEnd.songLaw := by
  unfold State.replyPlacementEnd
  split
  · exact h
  · dsimp only
    split <;> exact h.of_place rfl rfl

/-! ## Captured samples -/

theorem State.completeBlock_songLaw {s : State} (ch : Fin 4) (k : Fin 2) (h : s.songLaw) :
    (s.completeBlock ch k).songLaw := by
  unfold State.completeBlock
  dsimp only
  split
  · split
    · exact h.of_voices (State.takeBlock_voices _).begun
    · have dropped : (s.dropBlock ch (otherHalf k)).songLaw := h.of_place rfl (by simp [State.dropBlock])
      exact dropped.of_voices (State.takeBlock_voices _).begun
    · exact h.of_voices (State.takeBlock_voices _).begun
    · exact h.of_voices (State.takeBlock_voices _).begun
  · exact h.of_place rfl rfl

theorem State.takeSample_songLaw {s : State} (x : Int) (h : s.songLaw) : (s.takeSample x).songLaw := by
  unfold State.takeSample State.storeSample
  dsimp only
  repeat' split
  all_goals first
    | exact h.of_place rfl rfl
    | exact State.completeBlock_songLaw _ _ (h.of_place rfl rfl)

/-- What each element of a list keeps, folding over the list keeps. -/
theorem foldl_keeps {α β : Type} {P : β → Prop} {f : β → α → β} (hf : ∀ b a, P b → P (f b a)) (l : List α) :
    ∀ b, P b → P (l.foldl f b) := by
  induction l with
  | nil => exact fun b h => h
  | cons a rest ih => exact fun b h => ih _ (hf b a h)

theorem State.captureWrite_songLaw {s : State} (h : s.songLaw) : s.captureWrite.songLaw := by
  have samples : ∀ (l : List WriteBeat) (t : State), t.songLaw →
      (l.foldl (fun s b => (beatSamples b.data).foldl State.takeSample s) t).songLaw :=
    foldl_keeps fun t b => foldl_keeps (fun u x hu => State.takeSample_songLaw x hu) _ t
  unfold State.captureWrite State.takeCapture
  split
  · exact h
  · split
    · exact h.of_place rfl rfl
    · next r _ _ w _ =>
      dsimp only
      split
      · have taken := samples (bodyBeats r.body)
          { s.dropTap with vin := s.dropTap.vin.seat s.dropTap.prm.channels w (beatAddr r.addr 0) } (h.of_place rfl rfl)
        exact taken.of_place rfl rfl
      · exact h.of_place rfl rfl

/-! ## Host commands -/

/-- The state that a command's owner leaves, whether it answers at once or later. -/
def CommandEnd.state : CommandEnd → State
  | .answered a => a.state
  | .later s => s

theorem State.submit_songLaw {s : State} (code tag : BitVec 16) {f : State → CommandEnd} (h : s.songLaw)
    (hf : (f s).state.songLaw) : (s.submit code tag (some f)).songLaw := by
  unfold State.submit
  split
  · exact h.of_same
  · dsimp only
    split
    · exact h.of_same
    · split
      · exact h.of_same
      · cases e : f s with
        | answered a =>
          rw [e] at hf
          exact State.songLaw.of_same (s := a.state) hf
        | later t =>
          rw [e] at hf
          exact hf

theorem State.takeSetup_songLaw {s : State} (sec commit : Byte) (words : List Word) (h : s.songLaw) :
    (s.takeSetup sec commit words).state.songLaw := by
  have applied : ∀ (t : State) (p : Setup), t.songLaw → (t.applySetup p).songLaw := fun t p ht =>
    ht.of_place (by simp [State.applySetup, Scu.place]) (by funext i; simp [State.applySetup, Scr.links])
  unfold State.takeSetup State.refuse
  dsimp only
  split
  · exact h
  · split
    · exact h.of_place rfl rfl
    · split
      · exact applied _ _ (h.of_place rfl rfl)
      · exact h.of_place rfl rfl

theorem State.takeScoring_songLaw {s : State} (g c l : Nat) (fold : Bool) (pm gm fm cad : Nat) (h : s.songLaw) :
    (s.takeScoring g c l fold pm gm fm cad).state.songLaw := by
  unfold State.takeScoring State.refuse
  split <;> exact h.of_place rfl rfl

/-- An assignment leaves an ACTIVE singer linked as before or as a newly assigned singer is (R116). -/
theorem Singer.assign_link (g : Singer) (mic : Nat) (p : AssignPart) (link : Option Nat)
    (ha : (g.assign mic p link).1.active = true) :
    (g.active = true ∧ (g.assign mic p link).1.link = g.link) ∨ (g.assign mic p link).1.link = link := by
  unfold Singer.assign at ha ⊢
  split at ha <;> split at ha <;> simp_all

theorem State.takeAssign_songLaw {s : State} (singer mic part : Nat) (h : s.songLaw) :
    (s.takeAssign singer mic part).state.songLaw := by
  unfold State.takeAssign State.refuse
  split
  · next hi =>
    have taken : ∀ p : AssignPart, ∀ t : State, t.scu = s.scu → t.scr.singers = vset s.scr.singers ⟨singer, hi⟩
        ((s.scr.singers.get ⟨singer, hi⟩).assign mic p
          (if s.scu.state = .playing then s.scu.current.map Ticket.number else none)).1 → t.songLaw := by
      intro p t htc htr
      obtain ⟨h1, h2, h3, h4⟩ := h
      refine ⟨by rw [htc]; exact h1, by rw [htc]; exact h2, by rw [htc]; exact h3, fun i ha => ?_⟩
      rw [htr, vset_get] at ha ⊢
      rw [htc]
      by_cases e : (⟨singer, hi⟩ : Fin 4) = i
      · rw [if_pos e] at ha ⊢
        rcases Singer.assign_link _ _ _ _ ha with ⟨ga, gl⟩ | gl
        · rw [gl]; exact h4 _ ga
        · rw [gl]
          split
          · exact .inr rfl
          · exact .inl rfl
      · rw [if_neg e] at ha ⊢
        exact h4 i ha
    dsimp only
    split
    · exact h
    · split
      · exact h
      · exact taken .off _ rfl rfl
      · next q _ =>
        split
        · exact h
        · split
          · exact h
          · exact taken (.part q) _ rfl rfl
  · exact h

theorem State.takeClearRoom_songLaw {s : State} (h : s.songLaw) : s.takeClearRoom.state.songLaw := by
  obtain ⟨h1, h2, h3, -⟩ := h
  refine State.songLaw.of_same (s := { s with scr := s.scr.clear }) ?_ (by simp [State.takeClearRoom, CommandEnd.state])
    (by simp [State.takeClearRoom, CommandEnd.state])
  exact ⟨h1, h2, h3, fun i ha => by simp [Scr.clear] at ha⟩

theorem State.takeStart_songLaw {s : State} (tag : BitVec 16) (n b : Nat) (h : s.songLaw) :
    (s.takeStart tag n b).state.songLaw := by
  unfold State.takeStart State.refuse
  split
  · exact h
  · next hr =>
    split
    · split
      · exact State.beginStart_songLaw _ _ _ h (by simpa using hr)
      · exact h
    · exact h

theorem State.takeStop_songLaw {s : State} (h : s.songLaw) : s.takeStop.state.songLaw := by
  unfold State.takeStop State.refuse
  split
  · next hs => exact State.enterFinishing_songLaw _ (h.of_place rfl rfl) (.inl hs)
  · exact h

theorem State.takeSeek_songLaw {s : State} (tag : BitVec 16) (ms : Nat) (h : s.songLaw) :
    (s.takeSeek tag ms).state.songLaw := by
  unfold State.takeSeek State.refuse
  split
  · next hs => exact State.beginSeek_songLaw _ _ h hs
  · exact h

/-- A command that the Request Queue Unit answers leaves the song. -/
theorem State.submit_answering_songLaw {s : State} (code tag : BitVec 16) {f : State → Answer} (h : s.songLaw)
    (hc : (f s).state.scu = s.scu := by simp) (hr : (f s).state.scr = s.scr := by simp) :
    (s.submit code tag (answering f)).songLaw :=
  State.submit_songLaw code tag h (h.of_same hc hr)

theorem State.submitInstr_songLaw {s : State} (c : Instr) (h : s.songLaw) : (s.submitInstr c).songLaw := by
  unfold State.submitInstr
  split
  · exact State.submit_songLaw _ _ h (State.takeSetup_songLaw _ _ _ h)
  · exact State.submit_songLaw _ _ h (State.takeScoring_songLaw _ _ _ _ _ _ _ _ h)
  · exact State.submit_songLaw _ _ h (h.of_place rfl rfl)
  · exact State.submit_songLaw _ _ h (h.of_place rfl rfl)
  · exact State.submit_songLaw _ _ h (State.takeStart_songLaw _ _ _ h)
  · exact State.submit_songLaw _ _ h (State.takeStop_songLaw h)
  · exact State.submit_songLaw _ _ h (State.takeSeek_songLaw _ _ h)
  · exact State.submit_songLaw _ _ h (h.of_place rfl rfl)
  · exact State.submit_songLaw _ _ h (h.of_place rfl rfl)
  · exact State.submit_songLaw _ _ h (State.takeAssign_songLaw _ _ _ h)
  · exact State.submit_answering_songLaw _ _ h
  · exact State.submit_answering_songLaw _ _ h
  · exact State.submit_answering_songLaw _ _ h
  · exact State.submit_answering_songLaw _ _ h
  · exact State.submit_answering_songLaw _ _ h
  · exact State.submit_songLaw _ _ h (State.takeClearRoom_songLaw h)
  · exact State.submit_songLaw _ _ h (h.of_place rfl rfl)
  all_goals exact h

theorem State.submitRecord_songLaw {s : State} (r : CommandRecord) (h : s.songLaw) : (s.submitRecord r).songLaw := by
  unfold State.submitRecord
  split
  · exact State.submitInstr_songLaw (.setup _ _ _ _) h
  · exact State.submitInstr_songLaw (.setScoring _ _ _ _ _ _ _ _ _) h
  · exact State.submitInstr_songLaw (.enableEvents _ _) h
  · exact State.submitInstr_songLaw (.ack _ _) h
  · exact State.submitInstr_songLaw (.start _ _ _) h
  · exact State.submitInstr_songLaw (.stop _) h
  · exact State.submitInstr_songLaw (.seek _ _) h
  · exact State.submitInstr_songLaw (.setTempo _ _) h
  · exact State.submitInstr_songLaw (.setKey _ _) h
  · exact State.submitInstr_songLaw (.assign _ _ _ _) h
  · exact State.submitInstr_songLaw (.insert _ _ _ _ _) h
  · exact State.submitInstr_songLaw (.remove _ _) h
  · exact State.submitInstr_songLaw (.promote _ _) h
  · exact State.submitInstr_songLaw (.openRoom _) h
  · exact State.submitInstr_songLaw (.closeRoom _) h
  · exact State.submitInstr_songLaw (.clearRoom _) h
  · exact State.submitInstr_songLaw (.flushGlyphs _) h
  · unfold State.submit
    dsimp only
    split <;> exact h.of_same

theorem State.commandSlotWrite_songLaw {s : State} (h : s.songLaw) : s.commandSlotWrite.songLaw := by
  unfold State.commandSlotWrite
  split
  · exact h
  · dsimp only
    split
    · exact State.submitRecord_songLaw _ (h.of_place rfl rfl)
    · exact h.of_place rfl rfl

/-! ## The links and the reset pin -/

/-- The playback taps at the head of the lane, each closed by its rewrites, keep the law. -/
theorem State.playTaps_songLaw {s : State} (h : s.songLaw) : s.playTaps.songLaw :=
  State.takePlaybacks_keeps (P := State.songLaw) (fun _ g => (State.playbackTap_songLaw g).of_same)
    (fun _ _ g => g.of_place rfl rfl) _ s h

theorem State.arbiterDecision_songLaw {s : State} (h : s.songLaw) : s.arbiterDecision.songLaw :=
  State.arbiterDecision_keeps (P := State.songLaw) (fun _ g => g.of_same) (fun _ g => State.resumeLatch_songLaw g)
    (fun _ g => g.of_same) (fun _ g => g.of_same) s h

theorem State.resumeWork_songLaw {s : State} (h : s.songLaw) : s.resumeWork.songLaw :=
  State.resumeWork_keeps (P := State.songLaw) (fun _ c g => (State.submitInstr_songLaw c g).of_same)
    (fun _ _ g => g.of_place rfl rfl) s h

theorem State.playbackBeat_songLaw {s : State} (b : ReadBeat) (h : s.songLaw) : (s.playbackBeat b).songLaw := by
  unfold State.playbackBeat
  split
  · split
    · exact State.playTaps_songLaw (h.of_place rfl rfl)
    · exact h
  · exact h

theorem State.displayBeat_songLaw {s : State} (b : ReadBeat) (h : s.songLaw) : (s.displayBeat b).songLaw := by
  unfold State.displayBeat
  split
  · dsimp only
    split
    · exact (State.displayAt_songLaw _ b h).of_place rfl rfl
    · exact h
  · exact h

/-- The state after reset stands in IDLE with no ticket, no phase and no singer. -/
theorem State.reset_songLaw : State.reset.songLaw := by
  refine ⟨?_, ?_, ?_, ?_⟩ <;> simp [State.reset]

/-! ## Every command -/

theorem exec_songLaw {i : Instr} {s t : State} (h : s.songLaw) (e : exec i s = .next t) : t.songLaw := by
  have closed : ∀ u : State, u.songLaw → u.flush.songLaw := fun _ g => g.of_same
  have host : ∀ (c : Instr), (s.hostWork c fun s => s.submitInstr c).songLaw := by
    intro c
    unfold State.hostWork
    split
    · exact h.of_place rfl rfl
    · exact State.submitInstr_songLaw c h
  have ended : ∀ work : State → State, (work s).songLaw → (s.whenRoom work).flush.songLaw := fun work g =>
    closed _ (State.whenRoom_songLaw h g)
  have tap : ∀ work : State → State, (work s).songLaw → (s.whenRoom work).flush.playTaps.songLaw := fun work g =>
    State.playTaps_songLaw (ended work g)
  unfold exec at e
  split at e
  case h_2 =>
    unfold execSystemRequest at e
    split at e
    · cases e; exact h.of_same
    · cases e
  all_goals cases e
  · exact closed _ (State.reset_songLaw.of_place rfl rfl)
  · exact State.playTaps_songLaw (State.resumeWork_songLaw (State.arbiterDecision_songLaw h))
  · exact closed _ (State.playbackBeat_songLaw _ h)
  · exact closed _ (State.displayBeat_songLaw _ h)
  · exact closed _ h.of_same
  · exact closed _ h.of_same
  · exact closed _ h.of_same
  · exact closed _ h.of_same
  · exact ended _ (State.headerReadComplete_songLaw h)
  · exact ended _ (State.cueFetchComplete_songLaw h)
  · exact ended _ (State.lineLoadComplete_songLaw h)
  · exact ended _ (State.noteFetchComplete_songLaw h)
  · exact ended _ h.of_same
  · exact ended _ h.of_same
  · exact tap _ (State.commandSlotWrite_songLaw h)
  iterate 17 exact closed _ (host _)
  · exact tap _ (State.captureWrite_songLaw h)
  · exact ended _ (State.measurementEnd_songLaw h)
  · exact ended _ (State.writeOutEnd_songLaw h)
  iterate 8 exact tap _ h.of_same
  iterate 3 exact ended _ h.of_same
  · exact ended _ (State.replyPlacementEnd_songLaw h)

/-- Settles O54: every operation that touches the song context or the singers' links keeps the song law. -/
theorem songLawIsKept : Obligations.SongLawIsKept := by
  intro s t h e
  unfold step at e
  split at e
  · cases e; exact h
  · next c rest _ =>
    have same : ({ s with pending := rest } : State).songLaw := h.of_place rfl rfl
    exact exec_songLaw same e

end Sys2Proof.Machine
end

