-- ==== Sys2Proof/Proofs/ResetAndParameters.lean ====
section
/-! The state after reset and a line reset; the commands that set parameters and event flags. -/

namespace Sys2Proof.Machine

/-- Settles O57: the state after reset meets each law. -/
theorem resetMeetsTheLaws : Obligations.ResetMeetsTheLaws := by
  refine ⟨?_, ?_, ?_, ?_, State.reset_songLaw, ?_, ?_⟩
  · simp [Ctl.noticeLaw, State.reset]
  · simp [Scr.scoreLaw, Totals.law, State.reset]
  · simp [Gxt.cacheLaw, freshPage, State.reset]
  · simp [Ptu.throttleLaw, State.reset]
  · simp [State.queueLaw, State.reset]
  · simp [State.stampLaw, State.reset]

/-! ## LINE_RESET -/

/-- With nothing owed no rewrite begins. -/
theorem State.flush_nothingOwed {s : State} (hi : s.rqu.imageOwed = false) (hs : s.ctl.statusOwed = false) :
    s.flush = s := by
  have image : s.beginImage = s := by simp [State.beginImage, hi]
  simp [State.flush, image, State.beginStatus, hs]

/-- While responses are owed to a reset no pass-through request stands at the head (R175). -/
theorem Ptu.headPass_owed {p : Ptu} (h : 0 < p.discard) : p.headPass = none := by
  simp [Ptu.headPass, Nat.ne_of_gt h]

/-- Settles O7. -/
theorem lineResetAndOwedResponses : Obligations.LineResetAndOwedResponses := by
  constructor
  · intro strap s
    refine ⟨s.lineReset strap, ?_, rfl, rfl, rfl, rfl, rfl, rfl, rfl, rfl, rfl, rfl, rfl, rfl, rfl, rfl, rfl⟩
    exact congrArg Host.Outcome.next (State.flush_nothingOwed rfl rfl)
  · intro s h
    have owed : s.ptu.discard ≠ 0 := Nat.ne_of_gt h
    have head := Ptu.headPass_owed h
    have unchanged : ∀ t : State, t = s → (Host.Outcome.next t.flush : Host.Outcome State Fault Refusal) = .next s.flush :=
      fun t e => by rw [e]
    refine ⟨rfl, fun bs => unchanged _ ?_, fun st => unchanged _ ?_, fun b => unchanged _ ?_, fun b => unchanged _ ?_,
      fun r => unchanged _ ?_⟩
    · simp [State.ownReadResponse, owed]
    · simp [State.ownWriteCompletion, owed]
    · simp [State.playbackBeat, head]
    · simp [State.displayBeat, head]
    · simp [State.passThroughResponse, head]

/-! ## Event flags -/

/-- An event's mask has its own bit set and no other (R185). -/
theorem Event.mask_bit (e : Event) : ∀ i < 14, e.mask.getLsbD i = (i == e.bit) := by
  cases e <;> decide

theorem Event.bit_lt (e : Event) : e.bit < 14 := by
  cases e <;> decide

theorem Event.and_mask (e : Event) (x : BitVec 14) : x &&& e.mask = 0 ↔ x.getLsbD e.bit = false := by
  constructor
  · intro h
    have := congrArg (fun y : BitVec 14 => y.getLsbD e.bit) h
    simpa [Event.mask_bit e e.bit e.bit_lt] using this
  · intro h
    refine BitVec.eq_of_getLsbD_eq fun i hi => ?_
    rw [BitVec.getLsbD_and, e.mask_bit i hi]
    by_cases g : i = e.bit
    · rw [g, h]
      simp
    · simp [g]

/-- An event raised sets its flag while it is enabled, and touches no other (R184). -/
theorem Ctl.raise_flag (e : Event) (c : Ctl) (i : Nat) (hi : i < 14) :
    (c.raise e).flags.getLsbD i = (c.flags.getLsbD i || (i == e.bit && c.enables.getLsbD e.bit)) := by
  unfold Ctl.raise
  simp only [Event.and_mask]
  split
  · next h => simp only [h, Bool.and_false, Bool.or_false]
  · next h =>
    have he : c.enables.getLsbD e.bit = true := by simpa using h
    split
    · rw [he]
      simp [e.mask_bit i hi]
    · next hf =>
      have hf : c.flags.getLsbD e.bit = true := by simpa using hf
      by_cases g : i = e.bit
      · rw [g, hf]
        simp
      · simp [g]

/-- Whatever an event raised leaves, NOTICE_N is low as its enables and flags say, if it was before (R184). -/
theorem Ctl.raise_noticeLow {c : Ctl} (e : Event) (h : c.noticeLow = ((c.enables &&& c.flags) != 0)) :
    (c.raise e).noticeLow = (((c.raise e).enables &&& (c.raise e).flags) != 0) := by
  unfold Ctl.raise
  split
  · exact h
  · split
    · rfl
    · exact h

/-- ENABLE_EVENTS leaves the enables, the flags and NOTICE_N of R185, and nothing else but an owed status rewrite. -/
theorem Ctl.enable_fields (m : BitVec 14) (high : Bool) (c : Ctl) :
    (c.enable m high).enables = m ∧
      (∀ i < 14, (c.enable m high).flags.getLsbD i =
        (m.getLsbD i && (c.flags.getLsbD i || (i == 6 && !c.enables.getLsbD 6 && high)))) ∧
      (c.enable m high).noticeLow = (((c.enable m high).enables &&& (c.enable m high).flags) != 0) ∧
      { c.enable m high with enables := 0, flags := 0, noticeLow := false, statusOwed := false } =
        { c with enables := 0, flags := 0, noticeLow := false, statusOwed := false } := by
  have rest : ∀ d : Ctl, { d.raise .queueHigh with enables := 0, flags := 0, noticeLow := false, statusOwed := false } =
      { d with enables := 0, flags := 0, noticeLow := false, statusOwed := false } := by
    intro d
    unfold Ctl.raise
    split
    · rfl
    · split <;> rfl
  unfold Ctl.enable
  have six : Event.queueHigh.bit = 6 := rfl
  simp only [Bool.and_eq_true, decide_eq_true_eq, Event.and_mask, ne_eq, six]
  split
  · next h =>
    obtain ⟨⟨hh, he⟩, hm⟩ := h
    refine ⟨by simp, fun i hi => ?_, Ctl.raise_noticeLow _ rfl, rest _⟩
    have hm : m.getLsbD 6 = true := by simpa using hm
    rw [Ctl.raise_flag _ _ i hi, six]
    rw [(Ctl.setFlags_fields _ _ _).1, (Ctl.setFlags_fields _ _ _).2.1, BitVec.getLsbD_and]
    by_cases e : i = 6
    · rw [e, hh, he, hm]
      simp
    · have e : (i == 6) = false := by simpa using e
      simp [e, Bool.and_comm]
  · next h =>
    refine ⟨rfl, fun i hi => ?_, rfl, rfl⟩
    by_cases e : i = 6
    · rw [(Ctl.setFlags_fields _ _ _).2.1, BitVec.getLsbD_and, e]
      revert h
      cases high <;> cases c.enables.getLsbD 6 <;> cases m.getLsbD 6 <;> simp
    · have e : (i == 6) = false := by simpa using e
      simp [e, Bool.and_comm]

theorem eventMask_bit (w : Word) (i : Nat) (hi : i < 14) : (eventMask w).getLsbD i = w.getLsbD i := by
  simp [eventMask, hi]

theorem eventMask_word (w : Word) : (eventMask w).setWidth 32 = w &&& 0x3FFF := by
  refine BitVec.eq_of_getLsbD_eq fun i hi => ?_
  have low : ∀ i < 32, (0x3FFF : Word).getLsbD i = decide (i < 14) := by decide
  rw [BitVec.getLsbD_and, low i hi]
  by_cases h : i < 14 <;> simp [eventMask, h, hi]

/-! ## The commands -/

/-- A command that its owner answers, given while the part is ready, ends with that answer's result (R179). -/
theorem exec_answered {c : Instr} {code tag : BitVec 16} {f : State → CommandEnd} {a : Answer} {s : State}
    (hs : s.ready) (hc : hostCode c = some (code, tag)) (hi : s.submitInstr c = s.submit code tag (some f))
    (hf : f s = .answered a) (hcode : code ≠ 0x01 ∧ code ≠ 0x10 := by decide) :
    exec c s = .next (a.state.result code tag a.rc a.values).flush := by
  rw [exec_hostCommand hc hs.2.2, hi, State.submit_answered hs hcode hf]

/-- Settles O9. -/
theorem tempoScoringAndEventsAreSet : Obligations.TempoScoringAndEventsAreSet := by
  refine ⟨?_, ?_, ?_⟩
  · intro tag v s hs
    exact ⟨(exec_answered (c := .setTempo tag v) (f := State.takeTempo v.toNat) hs rfl rfl rfl :),
      (exec_answered (c := .setKey tag v) (f := State.takeKey v.toInt) hs rfl rfl rfl :)⟩
  · intro tag gate clarity latency fold pMax gMax fMax cadence s hs
    have latencyClamped : clampNat 0 500 latency.toNat = min 500 latency.toNat := by
      unfold clampNat
      split <;> (try split) <;> omega
    have cadenceClamped : clampNat 1 16 cadence.toNat = max 1 (min 16 cadence.toNat) := by
      unfold clampNat
      split <;> (try split) <;> omega
    refine ⟨fun hb => exec_answered
      (c := .setScoring tag gate clarity latency fold pMax gMax fMax cadence) (code := 0x02) hs rfl rfl (if_pos hb), fun hb => ?_⟩
    have taken := exec_answered hs (c := .setScoring tag gate clarity latency fold pMax gMax fMax cadence) rfl
      rfl (if_neg hb)
    rw [taken]
    simp only [latencyClamped, cadenceClamped]
    rfl
  · intro tag mask s hs
    constructor
    · obtain ⟨he, hf, hn, hr⟩ := Ctl.enable_fields (eventMask mask) s.rqu.high s.ctl
      refine ⟨{ s with ctl := s.ctl.enable (eventMask mask) s.rqu.high }, ?_, rfl, ?_, ?_, ?_, hr⟩
      · rw [← eventMask_word]
        exact (exec_answered (c := .enableEvents tag mask) (f := State.takeEnable mask) hs rfl rfl rfl :)
      · intro i hi
        rw [← eventMask_bit mask i hi]
        exact congrArg (fun x : BitVec 14 => x.getLsbD i) he
      · intro i hi
        rw [← eventMask_bit mask i hi]
        exact hf i hi
      · have sub : (s.ctl.enable (eventMask mask) s.rqu.high).enables &&&
            (s.ctl.enable (eventMask mask) s.rqu.high).flags = (s.ctl.enable (eventMask mask) s.rqu.high).flags := by
          refine BitVec.eq_of_getLsbD_eq fun i hi => ?_
          rw [BitVec.getLsbD_and, he, hf i hi]
          cases (eventMask mask).getLsbD i <;> simp
        exact hn.trans (by rw [sub])
    · refine ⟨{ s with ctl := s.ctl.acknowledge (eventMask mask) },
        (exec_answered (c := .ack tag mask) (f := State.takeAck mask) hs rfl rfl rfl :), rfl, ?_, rfl, rfl⟩
      intro i hi
      rw [← eventMask_bit mask i hi]
      simp [hi]

end Sys2Proof.Machine
end

