-- ==== Sys2Proof/Proofs/StopAndRefusals.lean ====
section
/-! STOP's entry into FINISHING, and the song commands that are refused. -/

namespace Sys2Proof.Machine

/-! ## How far an entry into FINISHING gets (R17, R18) -/

/-- Without the engine's report the drain goes on. -/
theorem State.drainCheck_unreported {s : State} (h : s.pje.drainReported = false) : s.drainCheck = s := by
  simp [State.drainCheck, h]

/-- Without the engine's report the Voice Intake's report changes nothing else. -/
theorem State.vinDrain_unreported {s : State} (h : s.pje.drainReported = false) :
    (s.vinDrain).scu = s.scu ∧ (s.vinDrain).scr = s.scr ∧ (s.vinDrain).pje = s.pje := by
  unfold State.vinDrain
  split
  · simp [State.drainCheck_unreported, h]
  · exact ⟨rfl, rfl, rfl⟩

/-- The engine makes no report while a block is queued or in hand (R112). -/
theorem State.pjeDrain_busy {s : State} (h : s.vin.queue ≠ [] ∨ s.pje.block ≠ none) : s.pjeDrain = s := by
  refine if_neg fun c => ?_
  obtain ⟨-, -, hq, hb, -⟩ := c
  exact h.elim (· hq) (· hb)

theorem State.takeBlock_unreported {s : State} (h : s.pje.drainReported = false) :
    (s.takeBlock).scu = s.scu ∧ (s.takeBlock).scr = s.scr := by
  unfold State.takeBlock
  split
  · obtain ⟨hc, hr, -⟩ := State.vinDrain_unreported (s := { s with
      vin := _, pje := { s.pje with block := some ⟨_, s.pje.prm, .measuring⟩ } }) h
    exact ⟨hc, hr⟩
  · exact ⟨rfl, rfl⟩

/-- The end of an analysis while another block is queued leaves the song context and the Score Unit. -/
theorem State.endAnalysis_queued {s : State} (e : BlockEntry) (hq : s.vin.queue ≠ []) (h : s.pje.drainReported = false) :
    (s.endAnalysis e).scu = s.scu ∧ (s.endAnalysis e).scr = s.scr := by
  unfold State.endAnalysis
  dsimp only
  rw [State.pjeDrain_busy (.inl (by simpa using hq))]
  exact State.takeBlock_unreported h

@[simp] theorem State.applyJudgement_lastResult (j : Judgement) (s : State) :
    (s.applyJudgement j).scr.lastResult = s.scr.lastResult := by
  unfold State.applyJudgement State.tick
  dsimp only
  repeat' split
  all_goals simp

/-- A judgement while another block is queued ends no drain. -/
theorem State.judge_queued {s : State} (b : BlockInHand) (p : Option Nat) (hq : s.vin.queue ≠ [])
    (h : s.pje.drainReported = false) :
    (s.judge b p).scu = s.scu ∧ (s.judge b p).scr.lastResult = s.scr.lastResult := by
  have ended : ∀ t : State, t.vin = s.vin → t.pje.drainReported = s.pje.drainReported → t.scu = s.scu →
      t.scr.lastResult = s.scr.lastResult →
      (t.endAnalysis b.entry).scu = s.scu ∧ (t.endAnalysis b.entry).scr.lastResult = s.scr.lastResult := by
    intro t hv hp hc hr
    obtain ⟨ec, er⟩ := State.endAnalysis_queued (s := t) b.entry (hv ▸ hq) (hp.trans h)
    exact ⟨ec.trans hc, by rw [er, hr]⟩
  unfold State.judge
  split
  · exact ended s rfl rfl rfl rfl
  · split
    · exact ended s rfl rfl rfl rfl
    · dsimp only
      split
      · exact ended s rfl rfl rfl rfl
      · split
        · exact ended s rfl rfl rfl rfl
        · split
          · exact ended _ rfl rfl rfl rfl
          · exact ⟨rfl, rfl⟩
          · exact ended s rfl rfl rfl rfl
          · exact ended _ (by simp) (by simp) (by simp) (by simp)

/-- A judgement tried again while a block is queued or being measured ends no drain. -/
theorem State.retryJudgement_busy {s : State}
    (hb : s.vin.queue ≠ [] ∨ ∃ b, s.pje.block = some b ∧ b.phase = .measuring) (h : s.pje.drainReported = false) :
    (s.retryJudgement).scu = s.scu ∧ (s.retryJudgement).scr.lastResult = s.scr.lastResult := by
  unfold State.retryJudgement
  split
  · next b hs =>
    split
    · next p hp =>
      rcases hb with hq | ⟨b', hs', hm⟩
      · exact State.judge_queued b p hq h
      · simp only [hs, Option.some.injEq] at hs'
        subst hs'
        simp [hm] at hp
    · exact ⟨rfl, rfl⟩
  · exact ⟨rfl, rfl⟩

/-- The state in which an entry into FINISHING makes its reports. -/
def State.finishingEntered (endMs : Nat) (s : State) : State :=
  State.stageTest { s with
    scu := s.scu.finishingAt endMs, vin := { s.vin with drainReported := false }
    pje := { s.pje with drainReported := false, endTime := some endMs } }

theorem State.enterFinishing_eq (n : Nat) (s : State) :
    s.enterFinishing n = (s.finishingEntered n).vinDrain.pjeDrain.retryJudgement := rfl

theorem State.finishingEntered_fields (n : Nat) (s : State) :
    (s.finishingEntered n).scu = s.scu.finishingAt n ∧
      (s.finishingEntered n).vin = { s.vin with drainReported := false } ∧
      (s.finishingEntered n).pje = { s.pje with drainReported := false, endTime := some n } ∧
      (s.finishingEntered n).scr = s.scr := by
  simp [State.finishingEntered]

/-- With a block queued or being measured, FINISHING is entered in DRAIN and no write-out begins (R18). -/
theorem State.enterFinishing_busy {s : State} (n : Nat)
    (hb : s.vin.queue ≠ [] ∨ ∃ b, s.pje.block = some b ∧ b.phase = .measuring) :
    (s.enterFinishing n).scu = s.scu.finishingAt n ∧ (s.enterFinishing n).scr.lastResult = s.scr.lastResult := by
  obtain ⟨hc, hv, hp, hr⟩ := State.finishingEntered_fields n s
  have hu : (s.finishingEntered n).pje.drainReported = false := by rw [hp]
  obtain ⟨dc, dr, dp⟩ := State.vinDrain_unreported hu
  have dv : (s.finishingEntered n).vinDrain.vin.queue = s.vin.queue := by
    unfold State.vinDrain
    split
    · simp [hv]
    · rw [hv]
  have busy : (s.finishingEntered n).vinDrain.pjeDrain = (s.finishingEntered n).vinDrain := by
    refine State.pjeDrain_busy ?_
    rw [dv, dp, hp]
    exact hb.imp_right fun ⟨b, e, _⟩ => by simp [e]
  obtain ⟨rc, rr⟩ := State.retryJudgement_busy (s := (s.finishingEntered n).vinDrain) (by rw [dv, dp, hp]; exact hb)
    (by rw [dp]; exact hu)
  rw [State.enterFinishing_eq, busy, rc, rr, dc, dr, hc, hr]
  exact ⟨rfl, rfl⟩

/-- With no block of the song left, the entry into FINISHING begins the write-out at once (R18, R122). -/
theorem State.enterFinishing_drained {s : State} (n : Nat) (hq : s.vin.queue = []) (hb : s.pje.block = none) :
    ∃ w : State, s.enterFinishing n = w.beginWriteOut.stageTest ∧
      w.scu = { s.scu.finishingAt n with phase := some .writeOut } ∧ w.scr = s.scr := by
  obtain ⟨hc, hv, hp, hr⟩ := State.finishingEntered_fields n s
  generalize hf : s.finishingEntered n = f at hc hv hp hr
  have reported : f.vinDrain = { f with vin := { f.vin with drainReported := true } } := by
    unfold State.vinDrain
    rw [if_pos (by simp [hc, hv, hq, Scu.finishingAt]), State.drainCheck_unreported (by simp [hp])]
  have begun : f.vinDrain.pjeDrain = State.stageTest (State.beginWriteOut { f with
      scu := { f.scu with phase := some .writeOut }, vin := { f.vin with drainReported := true }
      pje := { f.pje with drainReported := true } }) := by
    rw [reported]
    unfold State.pjeDrain State.drainCheck
    rw [if_pos (by simp [hc, hv, hq, hp, hb, Scu.finishingAt]), if_pos (by simp [hc, Scu.finishingAt])]
  refine ⟨{ f with
      scu := { f.scu with phase := some .writeOut }, vin := { f.vin with drainReported := true }
      pje := { f.pje with drainReported := true } }, ?_, by rw [hc], hr⟩
  rw [State.enterFinishing_eq, hf, begun]
  unfold State.retryJudgement
  simp [hp, hb]

/-! ## START's first checks -/

/-- START is refused at once outside IDLE and BANNER (R9). -/
theorem Scu.refusesStart_iff (c : Scu) :
    c.refusesStart = true ↔ c.state = .playing ∨ c.state = .starting ∨ c.state = .seeking ∨
      (c.state = .finishing ∧ c.phase ≠ some .banner) := by
  unfold Scu.refusesStart
  split <;> next h => simp [h]

theorem Rqu.stagedTicket_some {r : Rqu} {t : Ticket} (h : r.stagedTicket = some t) : t ∈ r.queue ∧ t.cls = .staged :=
  ⟨List.mem_of_find?_eq_some h, by simpa using List.find?_some h⟩

/-- Settles O10. -/
theorem stopAndRefusedSongCommands : Obligations.StopAndRefusedSongCommands := by
  constructor
  · intro tag s hs hp
    generalize hu : State.enterFinishing s.songMs { s with scu := { s.scu with stopped := true } } = u
    have stopped : exec (.stop tag) s = .next (u.result 0x06 tag .ok []).flush :=
      (exec_answered (c := .stop tag) (f := State.takeStop) hs rfl rfl (if_pos hp) :).trans (by rw [hu])
    obtain ⟨hd, -, he, hk⟩ := State.enterFinishing_song s.songMs { s with scu := { s.scu with stopped := true } }
    have hframe := State.enterFinishing_frame s.songMs { s with scu := { s.scu with stopped := true } }
    rw [hu] at hd he hk hframe
    obtain ⟨fp, fl, fo, fg, fk⟩ := hframe
    refine ⟨u, stopped, rfl, ?_, ?_, ?_, he, fl, fo, fg, fp, fk, ?_⟩
    · rcases hd with hd | ⟨-, -, hd⟩ <;> rw [hd] <;> rfl
    · intro hq hb
      obtain ⟨w, hw, wc, wr⟩ := State.enterFinishing_drained (s := { s with scu := { s.scu with stopped := true } })
        s.songMs hq hb
      rw [hu] at hw
      subst hw
      refine ⟨by simp [wc], fun hcur => ?_⟩
      obtain ⟨hn, hi⟩ := State.beginWriteOut_numbers (s := w) (by rw [wc]; exact hcur)
      simp [hn, hi, wr]
    · intro hb
      obtain ⟨hc, hr⟩ := State.enterFinishing_busy (s := { s with scu := { s.scu with stopped := true } }) s.songMs hb
      rw [hu] at hc hr
      exact ⟨by rw [hc]; rfl, hr⟩
    · exact (Ctl.core_fields hk).2.1.trans hs.1
  · intro tag s hs
    refine ⟨fun hp => ?_, fun hp ms => ?_, fun ticket bank => ?_⟩
    · exact (exec_answered (c := .stop tag) (f := State.takeStop) hs rfl rfl (if_neg hp) :)
    · exact (exec_answered (c := .seek tag ms) (f := State.takeSeek tag ms.toNat) hs rfl rfl (if_neg hp) :)
    · intro busy
      have refused : ∀ rc, s.takeStart tag ticket.toNat bank.toNat = s.refuse rc →
          exec (.start tag ticket bank) s = .next (s.result 0x05 tag rc []).flush := fun rc e =>
        (exec_answered (c := .start tag ticket bank) (f := State.takeStart tag ticket.toNat bank.toNat) hs rfl rfl e :)
      have free : ¬ busy → ¬ s.scu.refusesStart = true := fun hb hr => hb ((Scu.refusesStart_iff _).mp hr)
      refine ⟨fun hb => refused _ ?_, fun hb h1 => refused _ ?_, fun hb h1 ht => refused _ ?_⟩
      · exact if_pos ((Scu.refusesStart_iff _).mpr hb)
      · exact (if_neg (free hb)).trans (dif_neg (by omega))
      · refine (if_neg (free hb)).trans ((dif_pos (by omega)).trans (if_neg fun e => ?_))
        obtain ⟨t, hst, hn⟩ := Option.map_eq_some_iff.mp e
        obtain ⟨hm, hcls⟩ := Rqu.stagedTicket_some hst
        exact ht t hm hcls hn

end Sys2Proof.Machine
end

