-- ==== Sys2Proof/Proofs/SeekAndStart.lean ====
section
/-! What SEEK and START begin. -/

namespace Sys2Proof.Machine

/-- A command that its owner takes for later, given while the part is ready, leaves the owner's state (R179). -/
theorem exec_later {c : Instr} {code tag : BitVec 16} {f : State → CommandEnd} {s t : State}
    (hs : s.ready) (hc : hostCode c = some (code, tag)) (hi : s.submitInstr c = s.submit code tag (some f))
    (hf : f s = .later t) (hcode : code ≠ 0x01 ∧ code ≠ 0x10 := by decide) : exec c s = .next t.flush := by
  rw [exec_hostCommand hc hs.2.2, hi, State.submit_later hs hcode hf]

/-! ## The rebuilds begun (R40, R106) -/

/-- An emptied sequencer keeps its lists. -/
@[simp] theorem Lsq.emptied_counts (q : Lsq) :
    q.emptied.cueCount = q.cueCount ∧ q.emptied.cueBase = q.cueBase ∧ q.emptied.lineCount = q.lineCount ∧
      q.emptied.lineBase = q.lineBase := ⟨rfl, rfl, rfl, rfl⟩

/-- The rescan begins on an emptied sequencer; with no records in the list it has stopped already (R40). -/
theorem State.startRescan_lsq (n : Nat) (s : State) :
    (s.startRescan n).lsq = { s.lsq.emptied with rebuild := some ⟨n, [], decide (0 < s.lsq.cueCount)⟩ } := by
  unfold State.startRescan
  dsimp only
  split
  · next h =>
    have h : s.lsq.cueCount = 0 := h
    simp [State.stopRescan, h]
  · next h =>
    have h : 0 < s.lsq.cueCount := Nat.pos_of_ne_zero h
    simp [h]

/-- A sequencer at the start of its list fetches the first cue when there is one (R25). -/
theorem State.tryCueFetch_fresh {s : State} (hf : s.lsq.fetch = none) (hh : s.lsq.held = none) (hc : s.lsq.cursor = 0)
    (hq : s.lsq.queue = []) (he : s.lsq.endTaken = false) (hs : s.scu.state.fetchesCues = true) :
    (s.tryCueFetch).lsq = { s.lsq with fetch := if 0 < s.lsq.cueCount then some s.ptu.nextOp else none } := by
  unfold State.tryCueFetch
  by_cases h : 0 < s.lsq.cueCount
  · rw [if_pos (by simp [hf, hh, hc, hq, he, hs, h, Lsq.unbound, firstUnbound]), if_pos h]
  · rw [if_neg (by simp [hc]; omega), if_neg h, ← hf]

/-- An engine at the start of its list fetches the first note when there is one (R103). -/
theorem State.tryNoteFetch_fresh {s : State} (hf : s.pje.fetch = none) (hh : s.pje.held = none) (hc : s.pje.cursor = 0)
    (hr : s.notesRun = true) :
    (s.tryNoteFetch).pje = { s.pje with fetch := if 0 < s.pje.noteCount then some s.ptu.nextOp else none } := by
  unfold State.tryNoteFetch
  by_cases h : 0 < s.pje.noteCount
  · rw [if_pos (by simp [hf, hh, hc, hr, h]), if_pos h]
  · rw [if_neg (by simp [hc]; omega), if_neg h, ← hf]

/-- The sequencer's rebuild of an emptied sequencer ends at once when the list has no records (R41). -/
theorem State.lsqRebuildEnd_emptied {s : State} {q : Lsq} {n : Nat} {f : Option Nat}
    (hq : s.lsq = { q.emptied with rebuild := some ⟨n, [], decide (0 < q.cueCount)⟩, fetch := f })
    (hf : q.cueCount = 0 → f = none) :
    (s.lsqRebuildEnd).lsq =
      { q.emptied with rebuild := if 0 < q.cueCount then some ⟨n, [], true⟩ else none, fetch := f } := by
  unfold State.lsqRebuildEnd
  rw [hq]
  dsimp only
  by_cases h : 0 < q.cueCount
  · simp [h, hq]
  · have h0 : q.cueCount = 0 := by omega
    simp [h0, hf h0, Lsq.stands, Lsq.emptied]

/-- The engine's fetch of an emptied note list, and the end of its rebuild when the list has no records (R106). -/
theorem State.noteRebuild_emptied {s : State} {p : Pje} (hp : s.pje = { p.emptied with rebuild := true })
    (hs : s.scu.state = .seeking) :
    (s.tryNoteFetch.lsqRebuildEnd.pjeRebuildEnd).pje = { p.emptied with
      rebuild := decide (0 < p.noteCount), fetch := if 0 < p.noteCount then some s.ptu.nextOp else none } := by
  have fetched : (s.tryNoteFetch).pje =
      { p.emptied with rebuild := true, fetch := if 0 < p.noteCount then some s.ptu.nextOp else none } := by
    rw [State.tryNoteFetch_fresh (by rw [hp]; rfl) (by rw [hp]; rfl) (by rw [hp]; rfl)
      (by simp [State.notesRun, hs, hp]), hp]
    rfl
  unfold State.pjeRebuildEnd
  simp only [State.lsqRebuildEnd_frame, fetched]
  by_cases h : 0 < p.noteCount
  · simp [h, fetched]
  · have h0 : p.noteCount = 0 := by omega
    simp [h0, Pje.emptied]

/-! ## The voices at SEEKING (R88, R96) -/

/-- The block in hand dropped leaves the engine without one, and nothing else of it changed (R96). -/
theorem State.abortAnalysis_pje (s : State) : (s.abortAnalysis).pje = { s.pje with block := none } := by
  unfold State.abortAnalysis
  split
  · next h => rw [← h]
  · rfl

/-- A half released on a channel without HOLD is FREE (R86). -/
theorem Vin.release_free {v : Vin} {ch : Fin 4} (k : Fin 2) (h : (v.channels.get ch).hold = false) :
    v.release ch k = v.setChannel ch ((v.channels.get ch).setHalf k Half.freed) := by
  simp [Vin.release, h]

/-- A channel as SEEKING leaves it before the block in hand is dropped (R88). -/
def Channel.flushed (c : Channel) : Channel :=
  { c with hold := false, halves := c.halves.map (fun h => if h.state = .analysing then h else Half.freed) }

theorem Vin.seekFlush_get (v : Vin) (ch : Fin 4) : (v.seekFlush).channels.get ch = (v.channels.get ch).flushed := by
  simp [Vin.seekFlush, Channel.flushed]

/-- What SEEKING leaves of a channel: HOLD ended, the decimator kept, every half FREE but one that stays ANALYSING and is
not the dropped block's (R88, R96). -/
theorem State.abortAnalysis_channels {s : State} {v : Vin} (hv : s.vin = v.seekFlush) (ch : Fin 4) :
    (s.abortAnalysis.vin.channels.get ch).hold = false ∧
      (s.abortAnalysis.vin.channels.get ch).sum = (v.channels.get ch).sum ∧
      (s.abortAnalysis.vin.channels.get ch).count = (v.channels.get ch).count ∧
      ∀ k : Fin 2, (s.abortAnalysis.vin.channels.get ch).halves.get k =
        if ((v.channels.get ch).halves.get k).state = .analysing ∧
          ∀ b, s.pje.block = some b → ¬ (b.entry.channel = ch ∧ b.entry.half = k)
        then (v.channels.get ch).halves.get k else {} := by
  unfold State.abortAnalysis
  split
  · next hb => simp [hv, Vin.seekFlush_get, Channel.flushed, hb, Half.freed]
  · next b hb =>
    have released : s.vin.release b.entry.channel b.entry.half = s.vin.setChannel b.entry.channel
        ((v.channels.get b.entry.channel).flushed.setHalf b.entry.half Half.freed) := by
      rw [Vin.release_free _ (by rw [hv, Vin.seekFlush_get]; rfl), hv, Vin.seekFlush_get]
    rw [released]
    simp only [Vin.setChannel_fields, vset_get, hv, hb, Option.some.injEq, forall_eq']
    by_cases hc : b.entry.channel = ch
    · subst hc
      simp only [if_true, true_and]
      refine ⟨rfl, rfl, rfl, fun k => ?_⟩
      simp only [Channel.setHalf_fields, vset_get]
      by_cases hk : b.entry.half = k
      · simp [hk, Half.freed]
      · simp [hk, Channel.flushed, Half.freed]
    · simp only [hc, if_false, false_and, not_false_iff, and_true, Vin.seekFlush_get]
      exact ⟨rfl, rfl, rfl, fun k => by simp [Channel.flushed, Half.freed]⟩

theorem State.abortAnalysis_vin {s : State} {v : Vin} (hv : s.vin = v.seekFlush) :
    s.abortAnalysis.vin = { v with queue := [], channels := s.abortAnalysis.vin.channels } := by
  unfold State.abortAnalysis
  split
  · rw [hv]; rfl
  · next b _ =>
    have released : s.vin.release b.entry.channel b.entry.half = s.vin.setChannel b.entry.channel
        ((v.channels.get b.entry.channel).flushed.setHalf b.entry.half Half.freed) := by
      rw [Vin.release_free _ (by rw [hv, Vin.seekFlush_get]; rfl), hv, Vin.seekFlush_get]
    rw [released, hv]
    rfl

/-! ## The state that SEEK leaves (R15) -/

/-- SEEKING as a SEEK enters it, before the block in hand is dropped and the rebuilds begin. -/
def State.seekEntered (tag : BitVec 16) (n : Nat) (s : State) : State :=
  { s with
    scu := { s.scu with acc := n * 48 * 65536, seeked := true, state := .seeking }
    vin := s.vin.seekFlush
    ctl := { s.ctl with inProgress := some ⟨0x07, tag⟩ } }

/-- The state in which a SEEK taken tests the end of SEEKING. -/
def State.seekBegun (tag : BitVec 16) (n : Nat) (s : State) : State :=
  let s := ((((s.seekEntered tag n).abortAnalysis.startRescan n).startNoteRebuild).stageTest).tryCueFetch
  s.tryNoteFetch.lsqRebuildEnd.pjeRebuildEnd

theorem State.beginSeek_eq (tag : BitVec 16) (n : Nat) (s : State) : s.beginSeek tag n = (s.seekBegun tag n).leaveSeeking := rfl

theorem State.seekBegun_frame (tag : BitVec 16) (n : Nat) (s : State) :
    (s.seekBegun tag n).scu = { s.scu with acc := n * 48 * 65536, seeked := true, state := .seeking } ∧
      (s.seekBegun tag n).scr = s.scr ∧ (s.seekBegun tag n).ovc = s.ovc ∧ (s.seekBegun tag n).gxt = s.gxt ∧
      (s.seekBegun tag n).pending = s.pending ∧ (s.seekBegun tag n).ptu.links = s.ptu.links ∧
      (s.seekBegun tag n).ctl.core = ({ s.ctl with inProgress := some ⟨0x07, tag⟩ } : Ctl).core := by
  simp [State.seekBegun, State.seekEntered]

/-- The sequencer as SEEK leaves it (R23, R40, R41). -/
theorem State.seekBegun_lsq (tag : BitVec 16) (n : Nat) (s : State) :
    ∃ op : Nat, (s.seekBegun tag n).lsq = { s.lsq.emptied with
      rebuild := if 0 < s.lsq.cueCount then some ⟨n, [], true⟩ else none
      fetch := if 0 < s.lsq.cueCount then some op else none } := by
  have scanned : (((s.seekEntered tag n).abortAnalysis.startRescan n).startNoteRebuild.stageTest).lsq =
      { s.lsq.emptied with rebuild := some ⟨n, [], decide (0 < s.lsq.cueCount)⟩ } := by
    simp [State.startRescan_lsq, State.seekEntered]
  have seeking : (((s.seekEntered tag n).abortAnalysis.startRescan n).startNoteRebuild.stageTest).scu.state.fetchesCues =
      true := by simp [State.seekEntered, SongState.fetchesCues]
  generalize hg : ((s.seekEntered tag n).abortAnalysis.startRescan n).startNoteRebuild.stageTest = g at scanned seeking
  have fetched := State.tryCueFetch_fresh (s := g) (by rw [scanned]; rfl) (by rw [scanned]; rfl) (by rw [scanned]; rfl)
    (by rw [scanned]; rfl) (by rw [scanned]; rfl) seeking
  rw [scanned] at fetched
  have ended := State.lsqRebuildEnd_emptied (s := g.tryCueFetch.tryNoteFetch) (by simpa using fetched)
    (fun h => by simp [h])
  exact ⟨g.ptu.nextOp, by simpa [State.seekBegun, hg] using ended⟩

/-- The engine as SEEK leaves it (R96, R106). -/
theorem State.seekBegun_pje (tag : BitVec 16) (n : Nat) (s : State) :
    ∃ op : Nat, (s.seekBegun tag n).pje = { s.pje.emptied with
      block := none, rebuild := decide (0 < s.pje.noteCount)
      fetch := if 0 < s.pje.noteCount then some op else none } := by
  have begun : (((s.seekEntered tag n).abortAnalysis.startRescan n).startNoteRebuild.stageTest.tryCueFetch).pje =
      { Pje.emptied { s.pje with block := none } with rebuild := true } := by
    simp only [State.tryCueFetch_frame, State.stageTest_frame]
    simp only [State.startNoteRebuild, State.startRescan_frame, State.abortAnalysis_pje]
    rfl
  exact ⟨_, State.noteRebuild_emptied begun (by simp [State.seekEntered])⟩

/-- The Voice Intake as SEEK leaves it (R88). -/
theorem State.seekBegun_vin (tag : BitVec 16) (n : Nat) (s : State) :
    (s.seekBegun tag n).vin = (s.seekEntered tag n).abortAnalysis.vin := by
  simp [State.seekBegun]

/-- While a rebuild runs SEEKING is not left (R16). -/
theorem State.leaveSeeking_waits {s : State} (h : s.lsq.rebuild ≠ none ∨ s.pje.rebuild = true) : s.leaveSeeking = s := by
  refine if_neg fun c => ?_
  obtain ⟨-, hl, hp⟩ := c
  rcases h with h | h
  · exact h hl
  · simp [h] at hp

/-! ## START's header read (R9) -/

/-- In STARTING the staging condition does not hold (R148). -/
theorem State.stageTest_starting {s : State} (h : s.scu.state = .starting) : s.stageTest = s := by
  unfold State.stageTest
  split
  · rfl
  · rw [if_neg (by simp [State.stagingHolds, h])]

/-- A START taken from IDLE changes the song context, hands the header's read and is in progress (R9). -/
theorem State.beginStart_idle {s : State} (tag : BitVec 16) (n : Nat) (b : Fin 2) {w : Window}
    (hw : s.ptu.windows.asset = some w) (hs : s.scu.state ≠ .finishing) :
    s.beginStart tag n b = { s with
      scu := { s.scu with state := .starting, startTicket := some n, startBank := some b }
      ptu := s.ptu.startOp .header .headerLoad (readsOver (bankWindow w b).base 32)
      ctl := { s.ctl with inProgress := some ⟨0x05, tag⟩ } } := by
  unfold State.beginStart
  rw [if_neg hs]
  dsimp only
  rw [hw]
  exact State.stageTest_starting rfl

/-- From the banner the song is left first (R21). -/
theorem State.beginStart_banner {s : State} (tag : BitVec 16) (n : Nat) (b : Fin 2)
    (hs : s.scu.state = .finishing) : s.beginStart tag n b = s.leaveSong.beginStart tag n b := by
  unfold State.beginStart
  rw [if_pos hs, if_neg (by simp [State.leaveSong])]

/-- The header's 32 bytes are one read of two beats when they begin a 256-byte block. -/
theorem readsOver_header {a : Nat} (h : a % 256 = 0) : readsOver a 32 = [(a, .read 2)] := by
  have h16 : a % 16 = 0 := by omega
  simp [readsOver, pieces, cutRange, h, beatsOver, h16]

/-- Settles O11. -/
theorem seekAndStartBegin : Obligations.SeekAndStartBegin := by
  constructor
  · intro tag ms s hs hp t
    obtain ⟨uc, ur, uo, ug, up, uk, ue⟩ := State.seekBegun_frame tag t s
    obtain ⟨_, ul⟩ := State.seekBegun_lsq tag t s
    obtain ⟨_, uj⟩ := State.seekBegun_pje tag t s
    have uv := State.seekBegun_vin tag t s
    have taken : exec (.seek tag ms) s = .next (s.seekBegun tag t).leaveSeeking.flush :=
      (exec_later (c := .seek tag ms) (f := State.takeSeek tag ms.toNat) hs rfl rfl (if_pos hp) :)
    obtain ⟨-, ei, en, -, -⟩ := Ctl.core_fields ue
    generalize s.seekBegun tag t = u at *
    refine ⟨u, taken, fun h => State.leaveSeeking_waits ?_, uc, ?_, ?_, ?_, ?_, ?_, ?_, ?_, ?_, ?_, ?_, ?_, ?_, ?_, ?_,
      fun ch => ?_, ei, en, ur, uo, ug, up, uk⟩
    · rcases h with h | h
      · exact .inl (by simp [ul, h])
      · exact .inr (by simp [uj, h])
    · simp only [State.songMs, uc, Scu.songMs]
      omega
    · rw [ul]
    · rw [ul]; rfl
    · rw [ul]
      by_cases h : 0 < s.lsq.cueCount <;> simp [h]
    · rw [ul]; rfl
    · rw [ul]; rfl
    · rw [ul]; rfl
    · rw [ul]; rfl
    · intro k
      rw [ul]
      exact replicate_get _ k
    · rw [uj]
    · rw [uj]; rfl
    · rw [uj]; rfl
    · rw [uj]
    · rw [uv]
      exact State.abortAnalysis_vin rfl
    · rw [uv]
      obtain ⟨hh, hm, hn, hk⟩ := State.abortAnalysis_channels (s := s.seekEntered tag t) (v := s.vin) rfl ch
      exact ⟨hh, hm, hn, fun k => ⟨fun st => (hk k).trans (if_pos st), fun st => (hk k).trans (if_neg st)⟩⟩
  · intro tag ticket bank t w s hs hst hn hw hb256 hs512 hb hstate
    have free : ¬ s.scu.refusesStart = true := by
      rw [Scu.refusesStart_iff]
      rcases hstate with h | ⟨h, hp⟩ <;> simp [*]
    have taken : exec (.start tag ticket bank) s =
        .next (s.beginStart tag ticket.toNat ⟨bank.toNat, hb⟩).flush :=
      (exec_later (c := .start tag ticket bank) (f := State.takeStart tag ticket.toNat bank.toNat) hs rfl rfl
        ((if_neg free).trans ((dif_pos hb).trans (if_pos (by simp [hst, hn])))) :)
    have base : (bankWindow w ⟨bank.toNat, hb⟩).base % 256 = 0 := by
      have : bank.toNat = 0 ∨ bank.toNat = 1 := by omega
      simp only [bankWindow]
      rcases this with e | e <;> rw [e] <;> omega
    have idle : ∀ r : State, r.ptu.windows.asset = some w → r.scu.state = .idle →
        (r.beginStart tag ticket.toNat ⟨bank.toNat, hb⟩).ptu.handed = r.ptu.handed ++
          [⟨.headerLoad, r.ptu.nextOp, 0, w.base + bank.toNat * (w.size / 2), .read 2⟩] := by
      intro r hr hi
      rw [State.beginStart_idle tag _ _ hr (by simp [hi])]
      simp only [Ptu.startOp_handed, readsOver_header base]
      rfl
    rcases hstate with hi | ⟨hf, -⟩
    · refine ⟨_, taken, ?_⟩
      have handed := idle s hw hi
      rw [State.beginStart_idle tag _ _ hw (by simp [hi])] at handed ⊢
      exact ⟨rfl, rfl, rfl, rfl, rfl, rfl, rfl, rfl, fun _ => ⟨rfl, rfl, rfl, rfl, rfl⟩, fun h => by simp [hi] at h,
        handed, by simp, rfl, rfl, rfl, rfl, rfl⟩
    · refine ⟨_, taken, ?_⟩
      have hwl : s.leaveSong.ptu.windows.asset = some w := by rw [← hw]; rfl
      have handed := idle s.leaveSong hwl rfl
      rw [State.beginStart_banner tag _ _ hf]
      rw [State.beginStart_idle tag _ _ hwl (by simp [State.leaveSong])] at handed ⊢
      refine ⟨rfl, rfl, rfl, rfl, rfl, rfl, rfl, rfl, fun h => by simp [hf] at h, fun _ => ⟨rfl, rfl, rfl, rfl, rfl, rfl,
        rfl, rfl, rfl, rfl, rfl, rfl, rfl, rfl, fun i => map_get _ _ i⟩, ?_, by simp, rfl, rfl, rfl, rfl, rfl⟩
      simpa [State.leaveSong] using handed

end Sys2Proof.Machine
end

