-- ==== Sys2Proof/Proofs/PlaybackBeats.lean ====
section
/-! Song time: what a playback beat does to the song accumulator (R3 to R5), and the fields of the song context that no
offer touches. -/

namespace Sys2Proof.Machine

/-! ## What no offer touches -/

/-- The song context apart from STATE, FINISH_PHASE, the END time and END pending. -/
def Scu.fixed (c : Scu) : Scu := { c with state := .idle, phase := none, endTime := none, endPending := false }

/-- Two states of the song context that agree on the fixed fields agree on each of them. -/
theorem Scu.fixed_fields {c d : Scu} (h : c.fixed = d.fixed) :
    c.acc = d.acc ∧ c.tempo = d.tempo ∧ c.key = d.key ∧ c.current = d.current ∧ c.length = d.length ∧
      c.stopped = d.stopped ∧ c.seeked = d.seeked ∧ c.bank = d.bank := by
  simp only [Scu.fixed, Scu.mk.injEq] at h
  simp [h]

theorem Scu.drainsTo.fixed {c d : Scu} (h : c.drainsTo d) : d.fixed = c.fixed := by
  rcases h with rfl | ⟨-, -, rfl⟩ <;> rfl

theorem State.enterFinishing_fixed (n : Nat) (s : State) : (s.enterFinishing n).scu.fixed = s.scu.fixed :=
  (State.enterFinishing_song n s).1.fixed

theorem State.takeCue_fixed (c : QueuedCue) (n : Nat) (s : State) : (s.takeCue c n).scu.fixed = s.scu.fixed := by
  unfold State.takeCue State.takeSongEnd
  split
  · simp
  · rfl
  · simp
  · simp
  · dsimp only
    split
    · exact State.enterFinishing_fixed _ _
    · rfl

theorem State.takeDue_fixed (fuel n : Nat) : ∀ s : State, (s.takeDue fuel n).scu.fixed = s.scu.fixed := by
  induction fuel with
  | zero => exact fun _ => rfl
  | succ fuel ih =>
    intro s
    unfold State.takeDue
    split
    · rfl
    · split
      · rw [ih]
        simp [State.takeCue_fixed]
      · rfl

theorem State.takeCues_fixed (s : State) : (s.takeCues).scu.fixed = s.scu.fixed := State.takeDue_fixed _ _ s

theorem State.offerLsq_fixed (s : State) : (s.offerLsq).scu.fixed = s.scu.fixed := by
  simp [State.offerLsq, State.takeCues_fixed]

theorem State.offerPje_fixed (s : State) : (s.offerPje).scu.fixed = s.scu.fixed := (State.offerPje_voices s).scu.fixed

/-- An offer leaves the accumulator, the tempo and key, the current ticket and the song's length. -/
theorem State.offer_fixed (s : State) : (s.offer).scu.fixed = s.scu.fixed := by
  unfold State.offer
  split
  · simp
  · simp [State.offerPje_fixed, State.offerLsq_fixed]

/-! ## The lane of a returning playback beat (R159, R164) -/

theorem Ptu.present_lane (x : SysOut) (last : Bool) (p : Ptu) :
    (p.present x last).taps = p.taps ∧ (p.present x last).intake = p.intake := by
  unfold Ptu.present
  split <;> exact ⟨rfl, rfl⟩

/-- A beat returned leaves the lane of taps and the intake line. -/
theorem Ptu.returnBeat_lane (q : PassReq) (n : Nat) (b : ReadBeat) (p : Ptu) :
    (p.returnBeat q n b).taps = p.taps ∧ (p.returnBeat q n b).intake = p.intake := by
  unfold Ptu.returnBeat
  split <;> exact Ptu.present_lane _ _ _

/-- A playback beat hands its tap behind those in the lane, and the playback taps at the lane's head are taken (R164). -/
theorem exec_playbackBeat {b : ReadBeat} {s : State} {q : PassReq} {n : Nat} {rest : List Placed}
    (hd : s.ptu.discard = 0) (hp : s.ptu.placed = .pass q n :: rest) (hq : q.cls = .playback) :
    exec (.playbackBeat b) s = .next (State.playTaps { s with ptu := { s.ptu.returnBeat q n b with
      taps := s.ptu.taps ++ [⟨.playback, q.req⟩] } }).flush := by
  have head : s.ptu.headPass = some (q, n) := by simp [Ptu.headPass, hd, hp]
  have beat : s.playbackBeat b = State.playTaps { s with
      ptu := (s.ptu.returnBeat q n b).handPlaybackTap q.req } := by
    simp [State.playbackBeat, head, hq]
  have lane := (Ptu.returnBeat_lane q n b s.ptu).1
  show Host.Outcome.next (s.playbackBeat b).flush = _
  rw [beat]
  simp only [Ptu.handPlaybackTap, lane]

/-- An empty lane holds nothing to take. -/
theorem State.playTaps_nil {s : State} (h : s.ptu.taps = []) : s.playTaps = s := by
  simp [State.playTaps, h, State.takePlaybacks]

/-- A lane of one playback tap that changes nothing. -/
theorem State.playTaps_idle {s : State} {t : Tap} (h : s.ptu.taps = [t]) (ht : t.cls = .playback)
    (hn : s.scu.state ≠ .playing) (hs : s.scu.state ≠ .seeking) :
    s.playTaps = ({ s with ptu := { s.ptu with taps := [] } } : State).flush := by
  simp [State.playTaps, h, State.takePlaybacks, Tap.isPlayback, ht, State.playbackTap, hn, hs]

/-! ## The accumulator (R3 to R5) -/

/-- A counted beat below the greatest SONG_MS raises the accumulator, and offers a SONG_MS that it changes (R4). -/
theorem State.playbackTap_raised {s : State} (hs : s.scu.state = .playing ∨ s.scu.state = .seeking)
    (hr : s.scu.acc + 4 * s.scu.tempo < 805306368 * 65536) :
    s.playbackTap = if (s.scu.acc + 4 * s.scu.tempo) / 65536 / 48 = s.songMs
      then { s with scu := { s.scu with acc := s.scu.acc + 4 * s.scu.tempo } }
      else State.offer { s with scu := { s.scu with acc := s.scu.acc + 4 * s.scu.tempo } } := by
  unfold State.playbackTap
  rw [if_pos hs]
  dsimp only
  rw [if_neg (by simp only [frameMax]; omega)]
  rfl

/-- A counted beat that saturates ends the song, or leaves END pending in SEEKING (R5). -/
theorem State.playbackTap_saturated {s : State} (hs : s.scu.state = .playing ∨ s.scu.state = .seeking)
    (hr : 805306368 * 65536 ≤ s.scu.acc + 4 * s.scu.tempo) :
    s.playbackTap = if s.scu.state = .playing
      then State.enterFinishing 16777215 { s with scu := { s.scu with acc := 805306367 * 65536 } }
      else { s with scu := { s.scu with acc := 805306367 * 65536, endPending := true } } := by
  unfold State.playbackTap
  rw [if_pos hs]
  dsimp only
  rw [if_pos (by simp only [frameMax]; omega)]
  rfl

/-- The fixed fields but the accumulator outlast every playback tap. -/
theorem State.playbackTap_fixed (s : State) :
    ({ (s.playbackTap).scu with acc := 0 } : Scu).fixed = ({ s.scu with acc := 0 } : Scu).fixed := by
  have noAcc : ∀ c d : Scu, c.fixed = d.fixed → ({ c with acc := 0 } : Scu).fixed = ({ d with acc := 0 } : Scu).fixed :=
    fun c d h => congrArg (fun x : Scu => { x with acc := 0 }) h
  unfold State.playbackTap
  split
  · dsimp only
    split
    · split
      · exact (noAcc _ _ (State.enterFinishing_fixed _ _)).trans rfl
      · rfl
    · split
      · rfl
      · exact (noAcc _ _ (State.offer_fixed _)).trans rfl
  · rfl

/-- Settles O37. -/
theorem playbackBeatsAdvanceSongTime : Obligations.PlaybackBeatsAdvanceSongTime := by
  constructor
  · intro b s q n rest hd hp hq raised
    have beat := exec_playbackBeat (b := b) hd hp hq
    obtain ⟨lane, line⟩ := Ptu.returnBeat_lane q n b s.ptu
    have empty : s.ptu.taps = [] → { s.ptu.returnBeat q n b with taps := [] } = s.ptu.returnBeat q n b := by
      intro e
      rw [e] at lane
      rw [← lane]
    refine ⟨fun t taps ht hc => ?_, fun ht hn hk => ?_, fun ht hl hs => ?_⟩
    · rw [beat, State.playTaps_other (by simp [ht, hc])]
    · rw [beat, State.playTaps_idle (t := ⟨.playback, q.req⟩) ?_ rfl ?_ ?_]
      · simp only [empty ht, State.flush_flush]
      · simp [ht]
      · exact hn
      · exact hk
    · generalize hu : State.playbackTap { s with ptu := s.ptu.returnBeat q n b } = u
      have frame := State.playbackTap_frame { s with ptu := s.ptu.returnBeat q n b }
      have fixed := State.playbackTap_fixed { s with ptu := s.ptu.returnBeat q n b }
      rw [hu] at frame fixed
      obtain ⟨up, uo, ug, uk⟩ := frame
      obtain ⟨-, ft, fk, fc, fl, fs, -, -⟩ := Scu.fixed_fields fixed
      have taken : exec (.playbackBeat b) s = .next u.flush := by
        rw [beat, State.playTaps_cons (t := ⟨.playback, q.req⟩) (rest := []) (by simp [ht]) rfl
          (by simpa [Ptu.lineFull, line] using hl)]
        simp only [empty ht, hu]
        rw [State.playTaps_nil, State.flush_flush]
        have flushed : u.flush.ptu.links = (s.ptu.returnBeat q n b).links := by simp [uk]
        obtain ⟨-, -, -, -, -, -, -, -, -, -, -, -, -, -, -, -, -, -, taps, -⟩ := Ptu.links_fields flushed
        rw [taps, lane, ht]
      refine ⟨u, taken, uk, uo, ug, up, ft, fk, fc, fl, fun hr => ?_, fun hr => ?_⟩
      · have value := State.playbackTap_raised (s := { s with ptu := s.ptu.returnBeat q n b }) hs hr
        rw [hu] at value
        have acc : u.scu.acc = raised := by
          rw [value]
          split
          · rfl
          · exact (Scu.fixed_fields (State.offer_fixed _)).1
        refine ⟨acc, fun hk => ?_, fun he => ?_, fun he => ?_⟩
        · rw [value]
          split
          · rfl
          · simp [State.offer, hk, raised]
        · exact value.trans (if_pos he)
        · exact value.trans (if_neg he)
      · have value := State.playbackTap_saturated (s := { s with ptu := s.ptu.returnBeat q n b }) hs hr
        rw [hu] at value
        have acc : u.scu.acc = 805306367 * 65536 := by
          rw [value]
          split
          · exact (Scu.fixed_fields (State.enterFinishing_fixed _ _)).1
          · rfl
        have seek : s.scu.state = .seeking → u = { s with
            scu := { s.scu with acc := 805306367 * 65536, endPending := true }, ptu := s.ptu.returnBeat q n b } :=
          fun hk => value.trans (if_neg (by simp [hk]))
        have entered : s.scu.state = .playing → u = State.enterFinishing 16777215 { s with
            scu := { s.scu with acc := 805306367 * 65536 }, ptu := s.ptu.returnBeat q n b } :=
          fun hk => value.trans (if_pos hk)
        refine ⟨acc, ?_, fun hk => ?_, fun hk => ?_, entered, fun hk => ?_⟩
        · simp [State.songMs, Scu.songMs, acc]
        · rw [seek hk]
        · rw [seek hk]
        · obtain ⟨hd, -, he, -⟩ := State.enterFinishing_song 16777215 { s with
            scu := { s.scu with acc := 805306367 * 65536 }, ptu := s.ptu.returnBeat q n b }
          rw [← entered hk] at hd he
          refine ⟨?_, ?_, he, fs⟩
          · rcases hd with hd | ⟨-, -, hd⟩ <;> rw [hd] <;> rfl
          · rcases hd with hd | ⟨-, -, hd⟩ <;> rw [hd] <;> rfl
  · intro s t rest ht
    refine ⟨fun hc => State.playTaps_other ?_, fun hc hl => State.playTaps_cons ht hc hl⟩
    intro u hu
    simp only [ht, List.head?_cons, Option.some.injEq] at hu
    exact hu ▸ hc

end Sys2Proof.Machine
end

