-- ==== Sys2Proof/Proofs/LineSlotFacts.lean ====
section
/-! SUPPORT. The Lyric Sequencer's slots and its queue of cues: which slot is claimed, which stay as they are, and what
claims, retirements and scrolls leave of the queue. -/

namespace Sys2Proof.Machine

/-! ## The lowest element that meets a condition -/

theorem vfind_first {α : Type} {n : Nat} {v : Vector α n} {p : α → Bool} {k : Fin n} (hk : p (v.get k) = true)
    (hlow : ∀ j, j < k → p (v.get j) = false) : vfind v p = some k := by
  unfold vfind
  rw [List.find?_eq_some_iff_getElem]
  refine ⟨hk, k.val, by simp, by simp, fun j hj => ?_⟩
  have := hlow ⟨j, hj.trans k.isLt⟩ hj
  simpa using this

theorem vfind_eq_none {α : Type} {n : Nat} {v : Vector α n} {p : α → Bool} (h : ∀ k, p (v.get k) = false) :
    vfind v p = none := by
  unfold vfind
  rw [List.find?_eq_none]
  exact fun k _ => by simp [h k]

theorem Lsq.freeSlot_free {q : Lsq} {k : Fin 8} (h : q.freeSlot = some k) : (q.slots.get k).state = .free := by
  simpa using vfind_some h

theorem Lsq.freeSlot_eq_none {q : Lsq} (h : ∀ k, (q.slots.get k).state ≠ .free) : q.freeSlot = none :=
  vfind_eq_none fun k => by simpa using h k

theorem Lsq.freeSlot_first {q : Lsq} {k : Fin 8} (hk : (q.slots.get k).state = .free)
    (hlow : ∀ j, j < k → (q.slots.get j).state ≠ .free) : q.freeSlot = some k :=
  vfind_first (by simpa using hk) fun j hj => by simpa using hlow j hj

/-! ## Unbound LINE_IN cues (R31) -/

/-- A queued cue that waits for a slot. -/
def QueuedCue.unbound (c : QueuedCue) : Prop := c.slot = none ∧ ∃ n, c.cue.kind = .lineIn n

/-- The first unbound LINE_IN and those behind it: none exactly when every LINE_IN of the queue has its slot. -/
theorem firstUnbound_none_iff (q : List QueuedCue) : firstUnbound q = none ↔ ∀ c ∈ q, ¬ c.unbound := by
  induction q with
  | nil => simp [firstUnbound]
  | cons c rest ih =>
    unfold firstUnbound
    split
    · next n hk hs =>
      constructor
      · intro h; cases h
      · intro h
        exact absurd ⟨hs, n, hk⟩ (h c (by simp))
    · next h =>
      have bound : ¬ c.unbound := fun ⟨hs, n, hk⟩ => h n hk hs
      simp [ih, bound]

theorem Lsq.unbound_iff (q : Lsq) : q.unbound = true ↔ ∃ c ∈ q.queue, c.unbound := by
  unfold Lsq.unbound
  rw [Option.isSome_iff_ne_none, ne_eq, firstUnbound_none_iff]
  simp

/-- Past bound cues the first unbound LINE_IN is the next one's. -/
theorem firstUnbound_append {q : List QueuedCue} (h : ∀ c ∈ q, ¬ c.unbound) (r : List QueuedCue) :
    firstUnbound (q ++ r) = firstUnbound r := by
  induction q with
  | nil => rfl
  | cons c rest ih =>
    have hc := h c (by simp)
    rw [List.cons_append, firstUnbound]
    split
    · next n hk hs => exact absurd ⟨hs, n, hk⟩ hc
    · exact ih fun d hd => h d (by simp [hd])

theorem bindFirst_append {q : List QueuedCue} (k : Fin 8) (h : ∀ c ∈ q, ¬ c.unbound) (r : List QueuedCue) :
    bindFirst k (q ++ r) = q ++ bindFirst k r := by
  induction q with
  | nil => rfl
  | cons c rest ih =>
    have hc := h c (by simp)
    rw [List.cons_append, bindFirst]
    split
    · next n hk hs => exact absurd ⟨hs, n, hk⟩ hc
    · rw [ih fun d hd => h d (by simp [hd]), List.cons_append]

/-- Binding the oldest unbound LINE_IN leaves the cues and their order. -/
theorem bindFirst_cues (k : Fin 8) (q : List QueuedCue) : (bindFirst k q).map QueuedCue.cue = q.map QueuedCue.cue := by
  induction q with
  | nil => rfl
  | cons c rest ih =>
    unfold bindFirst
    split <;> simp [ih]

/-! ## Claims and retirements -/

/-- What a claim leaves of the sequencer, its slot apart. -/
theorem State.claimSlot_lsq (k : Fin 8) (st : SlotState) (line : Nat) (s : State) :
    (s.claimSlot k st line).lsq = { s.lsq with slots := (s.claimSlot k st line).lsq.slots } := rfl

theorem State.claimSlot_get (k j : Fin 8) (st : SlotState) (line : Nat) (s : State) :
    (s.claimSlot k st line).lsq.slots.get j = if k = j then
      { s.lsq.slots.get k with state := st, line := line, late := false, wiped := s.prm.bandX
                               load := some s.ptu.nextOp, filled := false }
      else s.lsq.slots.get j := vset_get _ _ _ _

theorem State.retireSlot_lsq (k : Fin 8) (st : SlotState) (s : State) :
    (s.retireSlot k st).lsq = { s.lsq with slots := (s.retireSlot k st).lsq.slots } := rfl

theorem State.retireSlot_get (k j : Fin 8) (st : SlotState) (s : State) :
    (s.retireSlot k st).lsq.slots.get j =
      if k = j then { s.lsq.slots.get k with state := st, load := none } else s.lsq.slots.get j := vset_get _ _ _ _

/-- Retiring the slots of a list touches those slots alone. -/
theorem State.retireSlot_foldl_lsq (st : SlotState) (l : List (Fin 8)) (s : State) :
    (l.foldl (fun s k => State.retireSlot k st s) s).lsq =
      { s.lsq with slots := (l.foldl (fun s k => State.retireSlot k st s) s).lsq.slots } := by
  induction l generalizing s with
  | nil => rfl
  | cons k rest ih =>
    rw [List.foldl_cons, ih, State.retireSlot_lsq]

theorem State.retireSlot_foldl_get (st : SlotState) (j : Fin 8) (l : List (Fin 8)) (s : State) :
    (l.foldl (fun s k => State.retireSlot k st s) s).lsq.slots.get j =
      if j ∈ l then { s.lsq.slots.get j with state := st, load := none } else s.lsq.slots.get j := by
  induction l generalizing s with
  | nil => simp
  | cons k rest ih =>
    rw [List.foldl_cons, ih, State.retireSlot_get]
    by_cases hk : k = j
    · subst hk
      split <;> simp
    · have hj : j ≠ k := fun e => hk e.symm
      simp [hk, hj]

/-! ## FREE slots offered to the queue (R31) -/

/-- Without a FREE slot or without an unbound LINE_IN nothing is claimed. -/
theorem State.bindUnbound_stops {s : State} (h : s.lsq.freeSlot = none ∨ firstUnbound s.lsq.queue = none) (fuel : Nat) :
    s.bindUnbound fuel = s := by
  cases fuel with
  | zero => rfl
  | succ fuel =>
    unfold State.bindUnbound
    split
    · next k n hk hn => rcases h with h | h <;> simp [h] at hk hn
    · rfl

theorem State.bindUnbound_claims {s : State} {k : Fin 8} {n : Nat} (hk : s.lsq.freeSlot = some k)
    (hn : firstUnbound s.lsq.queue = some n) (fuel : Nat) :
    s.bindUnbound (fuel + 1) = State.bindUnbound fuel (State.claimSlot k .loading n
      { s with lsq := { s.lsq with queue := bindFirst k s.lsq.queue } }) := by
  rw [State.bindUnbound, hk, hn]

/-- Claims for the queue touch slots and bindings alone, and no slot that is not FREE. -/
theorem State.bindUnbound_lsq (fuel : Nat) : ∀ s : State,
    (s.bindUnbound fuel).lsq =
        { s.lsq with slots := (s.bindUnbound fuel).lsq.slots, queue := (s.bindUnbound fuel).lsq.queue } ∧
      (s.bindUnbound fuel).lsq.queue.map QueuedCue.cue = s.lsq.queue.map QueuedCue.cue ∧
      ∀ j, (s.lsq.slots.get j).state ≠ .free → (s.bindUnbound fuel).lsq.slots.get j = s.lsq.slots.get j := by
  induction fuel with
  | zero => exact fun s => ⟨rfl, rfl, fun _ _ => rfl⟩
  | succ fuel ih =>
    intro s
    unfold State.bindUnbound
    split
    · next k n hk _ =>
      obtain ⟨hl, hq, hs⟩ := ih (State.claimSlot k .loading n
        { s with lsq := { s.lsq with queue := bindFirst k s.lsq.queue } })
      refine ⟨?_, ?_, fun j hj => ?_⟩
      · rw [hl]
        rfl
      · rw [hq]
        exact bindFirst_cues k _
      · have hne : k ≠ j := fun e => hj (e ▸ Lsq.freeSlot_free hk)
        have same := State.claimSlot_get k j .loading n
          { s with lsq := { s.lsq with queue := bindFirst k s.lsq.queue } }
        rw [if_neg hne] at same
        rw [hs j (by rw [same]; exact hj), same]
    · exact ⟨rfl, rfl, fun _ _ => rfl⟩

theorem State.bindFree_lsq (s : State) :
    (s.bindFree).lsq = { s.lsq with slots := (s.bindFree).lsq.slots, queue := (s.bindFree).lsq.queue } ∧
      (s.bindFree).lsq.queue.map QueuedCue.cue = s.lsq.queue.map QueuedCue.cue ∧
      ∀ j, (s.lsq.slots.get j).state ≠ .free → (s.bindFree).lsq.slots.get j = s.lsq.slots.get j :=
  State.bindUnbound_lsq 8 s

/-! ## A scroll that completes at once (R33) -/

/-- A running scroll completed at once frees the departing top entry of a band one row too long. -/
theorem State.snapScroll_eq (s : State) :
    (s.lsq.scroll = none → s.snapScroll = s) ∧
      (s.lsq.scroll.isSome = true → s.lsq.band.length ≠ s.prm.bandRows + 1 →
        s.snapScroll = { s with lsq := { s.lsq with scroll := none } }) ∧
      (∀ k rest, s.lsq.scroll.isSome = true → s.lsq.band = k :: rest → s.lsq.band.length = s.prm.bandRows + 1 →
        s.snapScroll = (State.retireSlot k .free { s with lsq := { s.lsq with scroll := none, band := rest } }).bindFree) := by
  refine ⟨fun h => ?_, fun h hl => ?_, fun k rest h hb hl => ?_⟩
  · simp [State.snapScroll, h]
  · obtain ⟨t, ht⟩ := Option.isSome_iff_exists.mp h
    unfold State.snapScroll
    rw [ht]
    dsimp only
    split
    · exact if_neg hl
    · rfl
  · obtain ⟨t, ht⟩ := Option.isSome_iff_exists.mp h
    unfold State.snapScroll
    rw [ht]
    dsimp only
    rw [hb]
    dsimp only
    rw [if_pos (by rw [← hb]; exact hl)]

/-- A band one row too long under a running scroll, so that a LINE_IN taken frees its top entry. -/
def State.snaps (s : State) : Prop := s.lsq.scroll.isSome = true ∧ s.lsq.band.length = s.prm.bandRows + 1

/-- What completing a scroll leaves: the cues, the held cue and the fetch, every slot that is neither FREE nor the
departing one, and without a departure every slot. -/
theorem State.snapScroll_lsq (s : State) :
    (s.snapScroll).lsq = { s.lsq with
        scroll := none, band := (s.snapScroll).lsq.band, slots := (s.snapScroll).lsq.slots
        queue := (s.snapScroll).lsq.queue } ∧
      (s.snapScroll).lsq.queue.map QueuedCue.cue = s.lsq.queue.map QueuedCue.cue ∧
      (s.snaps → (s.snapScroll).lsq.band = s.lsq.band.tail) ∧
      (¬ s.snaps → (s.snapScroll).lsq.band = s.lsq.band ∧ (s.snapScroll).lsq.slots = s.lsq.slots) ∧
      (∀ j, j ∉ s.lsq.band → (s.lsq.slots.get j).state ≠ .free →
        (s.snapScroll).lsq.slots.get j = s.lsq.slots.get j) := by
  obtain ⟨hnone, hshort, hlong⟩ := s.snapScroll_eq
  by_cases hscroll : s.lsq.scroll.isSome = true
  · by_cases hl : s.lsq.band.length = s.prm.bandRows + 1
    · have hsnaps : s.snaps := ⟨hscroll, hl⟩
      obtain ⟨k, rest, hb⟩ : ∃ k rest, s.lsq.band = k :: rest := by
        cases h : s.lsq.band with
        | nil => simp [h] at hl
        | cons k rest => exact ⟨k, rest, rfl⟩
      have eq := hlong k rest hscroll hb hl
      obtain ⟨bl, bq, bs⟩ := State.bindFree_lsq
        (State.retireSlot k .free { s with lsq := { s.lsq with scroll := none, band := rest } })
      rw [← eq] at bl bq bs
      refine ⟨?_, ?_, fun _ => ?_, fun h => absurd hsnaps h, fun j hj hf => ?_⟩
      · rw [bl]
        rfl
      · exact bq
      · rw [bl, hb]
        rfl
      · have hne : k ≠ j := fun e => hj (by simp [hb, e])
        have same := State.retireSlot_get k j .free { s with lsq := { s.lsq with scroll := none, band := rest } }
        rw [if_neg hne] at same
        rw [bs j (by rw [same]; exact hf), same]
    · rw [hshort hscroll hl]
      exact ⟨rfl, rfl, fun h => absurd h.2 hl, fun _ => ⟨rfl, rfl⟩, fun _ _ _ => rfl⟩
  · have hn : s.lsq.scroll = none := by simpa using hscroll
    rw [hnone hn]
    refine ⟨?_, rfl, fun h => absurd h.1 hscroll, fun _ => ⟨rfl, rfl⟩, fun _ _ _ => rfl⟩
    rw [← hn]

/-! ## A LINE_IN taken (R33) -/

/-- The state in which a LINE_IN taken has joined the band under its new scroll. -/
def State.lineShown (k : Fin 8) (t : Nat) (s : State) : State :=
  let s := s.snapScroll
  let c := s.lsq.slots.get k
  let s := { s with lsq := { s.lsq.setSlot k { c with state := .shown, late := c.late || !c.filled } with
      band := s.lsq.band ++ [k] } }
  let s := if c.filled then s else s.lineLateRaised true
  { s with lsq := { s.lsq with scroll := some t } }

theorem State.lineShown_fields (k : Fin 8) (t : Nat) (s : State) :
    let c := s.snapScroll.lsq.slots.get k
    (s.lineShown k t).lsq = { s.snapScroll.lsq with
        slots := vset s.snapScroll.lsq.slots k { c with state := .shown, late := c.late || !c.filled }
        band := s.snapScroll.lsq.band ++ [k], scroll := some t
        lineLate := s.snapScroll.lsq.lineLate + if c.filled then 0 else 1 } ∧
      (s.lineShown k t).ctl = (if c.filled then s.ctl else s.ctl.raise .lineLate) ∧ (s.lineShown k t).prm = s.prm := by
  unfold State.lineShown State.lineLateRaised State.prm
  cases h : (s.snapScroll.lsq.slots.get k).filled <;> simp [h]

/-- A LINE_IN taken retires the top entry when the band has become one row too long. -/
theorem State.takeLineIn_eq {k : Fin 8} {t : Nat} {s : State} {top : Fin 8} {rest : List (Fin 8)}
    (h : s.snapScroll.lsq.band ++ [k] = top :: rest) :
    s.takeLineIn k t = if s.snapScroll.lsq.band.length = s.prm.bandRows then (s.lineShown k t).retireSlot top .leaving
      else s.lineShown k t := by
  obtain ⟨hl, -, hp⟩ := State.lineShown_fields k t s
  have hb : (s.lineShown k t).lsq.band = top :: rest := by rw [hl]; exact h
  have len : (s.lineShown k t).lsq.band.length = (s.lineShown k t).prm.bandRows + 1 ↔
      s.snapScroll.lsq.band.length = s.prm.bandRows := by
    rw [hp, hl]
    simp
  show (match (s.lineShown k t).lsq.band with
    | top :: _ => if (s.lineShown k t).lsq.band.length = (s.lineShown k t).prm.bandRows + 1
        then (s.lineShown k t).retireSlot top .leaving else s.lineShown k t
    | [] => s.lineShown k t) = _
  simp only [len]
  rw [hb]

/-! ## The queue and the held cue while cues are taken -/

/-- The cues of the queue and the held cue: what the order of taking reads besides slots. -/
def Lsq.cues (q : Lsq) : List Cue × Option Cue := (q.queue.map QueuedCue.cue, q.held)

/-- The number of cues waiting in the queue or held. -/
def Lsq.backlog (q : Lsq) : Nat := q.queue.length + q.held.toList.length

theorem Lsq.backlog_of_cues {p q : Lsq} (h : p.cues = q.cues) : p.backlog = q.backlog := by
  simp only [Lsq.cues, Prod.mk.injEq] at h
  have := congrArg List.length h.1
  simp only [List.length_map] at this
  rw [Lsq.backlog, Lsq.backlog, this, h.2]

theorem State.snapScroll_cues (s : State) : (s.snapScroll).lsq.cues = s.lsq.cues := by
  obtain ⟨hl, hq, -⟩ := s.snapScroll_lsq
  simp only [Lsq.cues, hq]
  rw [hl]

theorem State.takeLineIn_cues (k : Fin 8) (t : Nat) (s : State) : (s.takeLineIn k t).lsq.cues = s.lsq.cues := by
  obtain ⟨hl, -, -⟩ := State.lineShown_fields k t s
  have shown : (s.lineShown k t).lsq.cues = s.lsq.cues := by
    rw [hl]
    exact s.snapScroll_cues
  obtain ⟨top, rest, h⟩ := List.exists_cons_of_ne_nil (l := s.snapScroll.lsq.band ++ [k]) (by simp)
  rw [State.takeLineIn_eq h]
  split
  · exact shown
  · exact shown

theorem State.takeBandClear_cues (s : State) : (s.takeBandClear).lsq.cues = s.lsq.cues := by
  unfold State.takeBandClear
  dsimp only
  rw [State.retireSlot_foldl_lsq]
  rfl

theorem State.takeCue_cues (c : QueuedCue) (t : Nat) (s : State) : (s.takeCue c t).lsq.cues = s.lsq.cues := by
  unfold State.takeCue State.takeSongEnd
  split
  · exact State.takeLineIn_cues _ _ s
  · rfl
  · exact s.takeBandClear_cues
  · rfl
  · dsimp only
    split
    · rw [(State.enterFinishing_frame _ _).2.1]
      rfl
    · rfl

theorem State.tryCueFetch_cues (s : State) : (s.tryCueFetch).lsq.cues = s.lsq.cues := by
  unfold State.tryCueFetch
  split <;> rfl

theorem State.queueCue_backlog {s : State} (c : Cue) (h : s.lsq.held = none) :
    (s.queueCue c).lsq.backlog = s.lsq.queue.length + 1 := by
  unfold State.queueCue
  dsimp only
  generalize hj : ({ s with lsq := _ } : State) = j
  obtain ⟨bl, bq, -⟩ := State.bindFree_lsq j
  have same : (j.bindFree).lsq.cues = j.lsq.cues := by
    simp only [Lsq.cues, bq]
    rw [bl]
  rw [Lsq.backlog_of_cues same, ← hj]
  simp [Lsq.backlog, h]

theorem State.retryHeldCue_backlog (s : State) : (s.retryHeldCue).lsq.backlog = s.lsq.backlog := by
  unfold State.retryHeldCue
  split
  · rfl
  · next c hc =>
    unfold State.takeIn
    split
    · rw [State.queueCue_backlog c rfl]
      simp [Lsq.backlog, hc]
    · simp [Lsq.backlog, hc]

end Sys2Proof.Machine
end

