-- ==== Sys2Proof/Proofs/DueCues.lean ====
section
/-! How due cues are taken (R28), what each does (R29, R30, R33, R39), and how the held cue is admitted (R26). -/

namespace Sys2Proof.Machine

/-! ## Taking stops, and goes on (R28) -/

/-- A state that agrees with another in every block but the sequencer, the Path Unit and the Control Unit is that other
with those three replaced. -/
theorem State.eq_but_lsq_ptu_ctl {s u : State} (hp : u.pending = s.pending) (hc : u.scu = s.scu) (ho : u.ovc = s.ovc)
    (hg : u.gxt = s.gxt) (hv : u.vin = s.vin) (hj : u.pje = s.pje) (hr : u.scr = s.scr) (hq : u.rqu = s.rqu) :
    u = { s with lsq := u.lsq, ptu := u.ptu, ctl := u.ctl } := by
  cases u
  simp only at hp hc ho hg hv hj hr hq
  subst hp hc ho hg hv hj hr hq
  rfl

/-- A cue that is not due, or is a LINE_IN without a slot, is not taken. -/
theorem QueuedCue.ready_iff (c : QueuedCue) (t : Nat) : c.ready t = true ↔ c.cue.time ≤ t ∧ ¬ c.unbound := by
  unfold QueuedCue.ready QueuedCue.unbound
  simp only [Bool.and_eq_true, decide_eq_true_eq]
  refine and_congr_right fun _ => ?_
  split
  · next n hk hs => simp [hk, hs]
  · next h =>
    simp only [true_iff]
    exact fun ⟨hs, n, hk⟩ => h n hk hs

/-- Taking stops at an empty queue, behind END, and at a head that is not ready. -/
theorem State.takeDue_stops {s : State} {t : Nat}
    (h : ∀ c rest, s.lsq.queue = c :: rest → s.lsq.endTaken = false → ¬ c.ready t = true) (fuel : Nat) :
    s.takeDue fuel t = s := by
  cases fuel with
  | zero => rfl
  | succ fuel =>
    unfold State.takeDue
    split
    · rfl
    · next c rest hq => exact if_neg fun hr => h c rest hq hr.1 hr.2

/-- The state in which the head `c` of the queue has been taken and its room has been used (R26, R28). -/
def State.headTaken (c : QueuedCue) (rest : List QueuedCue) (t : Nat) (s : State) : State :=
  (State.takeCue c t { s with lsq := { s.lsq with queue := rest } }).retryHeldCue.tryCueFetch

theorem State.takeDue_takes {s : State} {c : QueuedCue} {rest : List QueuedCue} {t : Nat}
    (hq : s.lsq.queue = c :: rest) (he : s.lsq.endTaken = false) (hr : c.ready t = true) (fuel : Nat) :
    s.takeDue (fuel + 1) t = State.takeDue fuel t (s.headTaken c rest t) := by
  rw [State.takeDue, hq]
  exact if_pos ⟨he, hr⟩

theorem State.headTaken_backlog {s : State} {c : QueuedCue} {rest : List QueuedCue} (t : Nat)
    (hq : s.lsq.queue = c :: rest) : (s.headTaken c rest t).lsq.backlog + 1 = s.lsq.backlog := by
  unfold State.headTaken
  rw [Lsq.backlog_of_cues (State.tryCueFetch_cues _), State.retryHeldCue_backlog,
    Lsq.backlog_of_cues (State.takeCue_cues _ _ _)]
  simp [Lsq.backlog, hq]
  omega

theorem State.headTaken_songMs (c : QueuedCue) (rest : List QueuedCue) (t : Nat) (s : State) :
    (s.headTaken c rest t).songMs = s.songMs := by
  have fixed := (Scu.fixed_fields (State.takeCue_fixed c t { s with lsq := { s.lsq with queue := rest } })).1
  simp [State.songMs, Scu.songMs, State.headTaken, fixed]

/-- Fuel past the number of waiting cues makes no difference. -/
theorem State.takeDue_fuel (t : Nat) (fuel : Nat) :
    ∀ s : State, s.lsq.backlog ≤ fuel → s.takeDue (fuel + 1) t = s.takeDue fuel t := by
  induction fuel with
  | zero =>
    intro s h
    have hq : s.lsq.queue = [] := by
      refine List.length_eq_zero_iff.mp ?_
      unfold Lsq.backlog at h
      omega
    exact State.takeDue_stops (fun c rest e => by simp [hq] at e) 1
  | succ fuel ih =>
    intro s h
    by_cases hr : ∃ c rest, s.lsq.queue = c :: rest ∧ s.lsq.endTaken = false ∧ c.ready t = true
    · obtain ⟨c, rest, hq, he, hc⟩ := hr
      rw [State.takeDue_takes hq he hc, State.takeDue_takes hq he hc]
      have := State.headTaken_backlog t hq
      exact ih _ (by omega)
    · have stops : ∀ c rest, s.lsq.queue = c :: rest → s.lsq.endTaken = false → ¬ c.ready t = true :=
        fun c rest hq he hc => hr ⟨c, rest, hq, he, hc⟩
      rw [State.takeDue_stops stops, State.takeDue_stops stops]

/-- With at most eight cues queued a due head is taken, and taking goes on behind it. -/
theorem State.takeCues_head {s : State} {c : QueuedCue} {rest : List QueuedCue} (hq : s.lsq.queue = c :: rest)
    (he : s.lsq.endTaken = false) (hr : c.ready s.songMs = true) (hl : s.lsq.queue.length ≤ 8) :
    s.takeCues = (s.headTaken c rest s.songMs).takeCues := by
  unfold State.takeCues
  rw [State.takeDue_takes hq he hr, State.headTaken_songMs]
  refine (State.takeDue_fuel _ 9 _ ?_).symm
  have taken := State.headTaken_backlog s.songMs hq
  have held : s.lsq.held.toList.length ≤ 1 := by cases s.lsq.held <;> simp
  unfold Lsq.backlog at *
  omega

/-! ## The held cue (R25, R26) -/

/-- A held cue that may not be queued stays held. -/
theorem State.retryHeldCue_stays {s : State} {c : Cue} (hc : s.lsq.held = some c)
    (h : s.songMs + s.prm.lookaheadMs < c.time ∨ 8 ≤ s.lsq.queue.length) : s.retryHeldCue = s := by
  unfold State.retryHeldCue
  rw [hc]
  dsimp only
  unfold State.takeIn
  rw [if_neg]
  · simp only [← hc]
  · intro g
    obtain ⟨ht, hq⟩ := g
    have ht : c.time ≤ s.songMs + s.prm.lookaheadMs := ht
    have hq : s.lsq.queue.length < 8 := hq
    omega

/-- The held cue `c` at the queue's tail, bound to `slot`, before any slot is claimed (R26). -/
def State.heldJoined (c : Cue) (slot : Option (Fin 8)) (s : State) : State :=
  { s with lsq := { s.lsq with
    held := none, queue := s.lsq.queue ++ [⟨c, slot⟩], pred := some c.time
    badCue := match s.lsq.pred with
      | none => s.lsq.badCue
      | some p => if c.time < p then s.lsq.badCue + 1 else s.lsq.badCue } }

theorem State.retryHeldCue_joins {s : State} {c : Cue} (hc : s.lsq.held = some c)
    (ht : c.time ≤ s.songMs + s.prm.lookaheadMs) (hq : s.lsq.queue.length < 8) :
    s.retryHeldCue = (s.heldJoined c none).bindFree := by
  unfold State.retryHeldCue
  rw [hc]
  dsimp only
  unfold State.takeIn
  rw [if_pos ⟨ht, hq⟩]
  unfold State.queueCue State.heldJoined
  dsimp only
  cases s.lsq.pred <;> simp

/-- A cue without an unbound LINE_IN before it, joined behind the queue, is the first one unbound. -/
theorem bound_of_slots {q : List QueuedCue} (h : ∀ x ∈ q, ∀ m, x.cue.kind = .lineIn m → x.slot ≠ none) :
    ∀ x ∈ q, ¬ x.unbound := fun x hx ⟨hs, m, hk⟩ => h x hx m hk hs

/-- A LINE_IN joined behind bound cues claims the lowest FREE slot (R31). -/
theorem State.heldJoined_claims {s : State} {c : Cue} {k : Fin 8} {n : Nat}
    (hk : (s.lsq.slots.get k).state = .free) (hlow : ∀ j, j < k → (s.lsq.slots.get j).state ≠ .free)
    (hn : c.kind = .lineIn n) (hb : ∀ x ∈ s.lsq.queue, ¬ x.unbound) :
    (s.heldJoined c none).bindFree = State.claimSlot k .loading n (s.heldJoined c (some k)) := by
  have first : firstUnbound (s.heldJoined c none).lsq.queue = some n := by
    simp only [State.heldJoined, firstUnbound_append hb, firstUnbound, hn]
  have bound : bindFirst k (s.heldJoined c none).lsq.queue = s.lsq.queue ++ [⟨c, some k⟩] := by
    simp only [State.heldJoined, bindFirst_append k hb, bindFirst, hn]
  unfold State.bindFree
  have free : (s.heldJoined c none).lsq.freeSlot = some k := Lsq.freeSlot_first hk hlow
  rw [State.bindUnbound_claims free first, bound]
  refine State.bindUnbound_stops (.inr ?_) 7
  refine (firstUnbound_none_iff _).mpr fun x hx => ?_
  rcases List.mem_append.mp hx with hx | hx
  · exact hb x hx
  · rw [List.mem_singleton] at hx
    subst hx
    exact fun ⟨hs, _⟩ => by simp at hs

/-! ## What each cue does -/

theorem State.takeCue_mark {s : State} {c : QueuedCue} {n : Nat} (t : Nat) (h : c.cue.kind = .mark n) :
    s.takeCue c t = s.takeMark n := by
  simp [State.takeCue, h]

theorem State.takeCue_songEnd {s : State} {c : QueuedCue} (t : Nat) (h : c.cue.kind = .songEnd) :
    s.takeCue c t = s.takeSongEnd t := by
  simp [State.takeCue, h]

theorem State.takeCue_bandClear {s : State} {c : QueuedCue} (t : Nat) (h : c.cue.kind = .bandClear) :
    s.takeCue c t = s.takeBandClear := by
  simp [State.takeCue, h]

theorem State.takeCue_lineIn {s : State} {c : QueuedCue} {n : Nat} {k : Fin 8} (t : Nat) (h : c.cue.kind = .lineIn n)
    (hk : c.slot = some k) : s.takeCue c t = s.takeLineIn k t := by
  simp [State.takeCue, h, hk]

/-- BAND_CLEAR empties the band and makes its slots LEAVING (R39). -/
theorem State.takeBandClear_lsq (s : State) :
    (s.takeBandClear).lsq = { s.lsq with
        band := [], scroll := if s.lsq.band = [] then s.lsq.scroll else none, slots := (s.takeBandClear).lsq.slots } ∧
      ∀ j, (s.takeBandClear).lsq.slots.get j =
        if j ∈ s.lsq.band then { s.lsq.slots.get j with state := .leaving, load := none } else s.lsq.slots.get j := by
  constructor
  · unfold State.takeBandClear
    dsimp only
    rw [State.retireSlot_foldl_lsq]
  · exact fun j => State.retireSlot_foldl_get .leaving j s.lsq.band s

/-- A LINE_IN taken in a band of at least one row (R33): what it leaves of the sequencer and of the flags. -/
theorem State.takeLineIn_fields {s : State} {k : Fin 8} (t : Nat) (hk : k ∉ s.lsq.band)
    (hf : (s.lsq.slots.get k).state ≠ .free) (hr : 1 ≤ s.prm.bandRows) :
    let old := s.lsq.slots.get k
    let band := s.snapScroll.lsq.band
    let u := s.takeLineIn k t
    u.lsq.band = band ++ [k] ∧ u.lsq.scroll = some t ∧
      u.lsq.queue.map QueuedCue.cue = s.lsq.queue.map QueuedCue.cue ∧
      u.lsq.slots.get k = { old with state := .shown, late := old.late || !old.filled } ∧
      u.lsq.lineLate = s.lsq.lineLate + (if old.filled then 0 else 1) ∧
      u.ctl = (if old.filled then s.ctl else s.ctl.raise .lineLate) ∧
      (∀ top rest, band = top :: rest → band.length = s.prm.bandRows →
        (u.lsq.slots.get top).state = .leaving ∧ (u.lsq.slots.get top).load = none) ∧
      (∀ j, j ≠ k → band.length ≠ s.prm.bandRows → u.lsq.slots.get j = s.snapScroll.lsq.slots.get j) := by
  intro old band u
  obtain ⟨pl, pq, ptail, pstay, pslot⟩ := s.snapScroll_lsq
  have sub : ∀ j, j ∈ band → j ∈ s.lsq.band := by
    intro j hj
    by_cases h : s.snaps
    · exact List.mem_of_mem_tail (ptail h ▸ hj)
    · exact (pstay h).1 ▸ hj
  have hold : s.snapScroll.lsq.slots.get k = old := pslot k hk hf
  obtain ⟨sl, sc, -⟩ := State.lineShown_fields k t s
  rw [hold] at sl sc
  have late : s.snapScroll.lsq.lineLate = s.lsq.lineLate := by rw [pl]
  have shown : (s.lineShown k t).lsq.slots.get k = { old with state := .shown, late := old.late || !old.filled } := by
    rw [sl]
    exact vset_get_self _ _ _
  have others : ∀ j, j ≠ k → (s.lineShown k t).lsq.slots.get j = s.snapScroll.lsq.slots.get j := by
    intro j hj
    rw [sl]
    exact vset_get_ne _ _ fun e => hj e.symm
  obtain ⟨top, rest, h⟩ := List.exists_cons_of_ne_nil (l := band ++ [k]) (by simp)
  have hu : u = if band.length = s.prm.bandRows then (s.lineShown k t).retireSlot top .leaving else s.lineShown k t :=
    State.takeLineIn_eq h
  have htop : band.length = s.prm.bandRows → top ≠ k ∧ ∀ t' rest', band = t' :: rest' → t' = top := by
    intro hl
    cases hb : band with
    | nil => simp [hb] at hl; omega
    | cons x xs =>
      have hx : x = top := by
        rw [hb] at h
        exact (List.cons.inj h).1
      refine ⟨fun e => hk (sub k ?_), fun t' rest' e => (List.cons.inj e).1 ▸ hx⟩
      rw [hb, ← e, ← hx]
      exact List.mem_cons_self
  have ulsq : u.lsq = { (s.lineShown k t).lsq with slots := u.lsq.slots } := by
    rw [hu]
    split <;> rfl
  have uctl : u.ctl = (s.lineShown k t).ctl := by
    rw [hu]
    split <;> rfl
  refine ⟨?_, ?_, ?_, ?_, ?_, uctl.trans sc, fun top' rest' hb hl => ?_, fun j hj hl => ?_⟩
  · rw [ulsq, sl]
  · rw [ulsq, sl]
  · rw [ulsq, sl]
    exact pq
  · rw [hu]
    split
    · next hl => rw [State.retireSlot_get, if_neg (htop hl).1, shown]
    · exact shown
  · rw [ulsq, sl]
    exact congrArg (· + _) late
  · have e := (htop hl).2 top' rest' hb
    rw [hu, if_pos hl, State.retireSlot_get, if_pos e.symm]
    exact ⟨rfl, rfl⟩
  · rw [hu, if_neg hl, others j hj]

/-- Settles O38. -/
theorem dueCuesAreTaken : Obligations.DueCuesAreTaken := by
  refine ⟨fun s => ⟨fun h => if_pos h, fun h => if_neg h, rfl⟩, fun s c hc => ⟨fun h => State.retryHeldCue_stays hc h, fun ht hq => ?_,
    fun ht hq => ⟨State.retryHeldCue_joins hc ht hq, fun h => ?_, fun k n hk hlow hn hb => ?_⟩⟩, fun s h => ?_,
    fun t s => rfl, fun s => ⟨fun h => ?_, fun c rest hq => ⟨fun h => ?_, fun he hc hw hl => ?_⟩⟩, fun s c t => ⟨?_, ?_,
    ?_, ?_⟩⟩
  · rw [State.retryHeldCue_joins hc ht hq]
    obtain ⟨bl, bq, -⟩ := State.bindFree_lsq (s.heldJoined c none)
    refine ⟨by rw [bl]; rfl, ?_⟩
    rw [bq]
    simp [State.heldJoined]
  · rw [State.retryHeldCue_joins hc ht hq]
    refine State.bindUnbound_stops ?_ 8
    rcases h with h | ⟨hn, hb⟩
    · exact .inl (Lsq.freeSlot_eq_none h)
    · refine .inr ((firstUnbound_none_iff _).mpr fun x hx => ?_)
      rcases List.mem_append.mp hx with hx | hx
      · exact bound_of_slots hb x hx
      · rw [List.mem_singleton] at hx
        subst hx
        exact fun ⟨_, n, hk⟩ => hn n hk
  · rw [State.retryHeldCue_joins hc ht hq]
    exact State.heldJoined_claims hk hlow hn (bound_of_slots hb)
  · simp [State.retryHeldCue, h]
  · refine State.takeDue_stops (fun c rest hq he => ?_) 10
    rcases h with h | h
    · simp [h] at hq
    · simp [h] at he
  · refine State.takeDue_stops (fun c' rest' hq' _ => ?_) 10
    rw [hq] at hq'
    obtain ⟨rfl, rfl⟩ := List.cons.inj hq'
    rw [QueuedCue.ready_iff]
    rcases h with h | h
    · omega
    · exact fun g => g.2 h
  · exact State.takeCues_head hq he ((QueuedCue.ready_iff _ _).mpr ⟨hc, hw⟩) hl
  · intro n hn
    rw [State.takeCue_mark t hn]
    refine ⟨rfl, by simp [State.takeMark], fun he => ?_⟩
    have set := Ctl.raise_flag .markReached { s.ctl with lastMark := some n } 4 (by decide)
    have six : Event.markReached.bit = 4 := rfl
    rw [six, he] at set
    exact set.trans (by simp)
  · intro hn
    rw [State.takeCue_songEnd t hn]
    have entered : s.scu.state = .playing →
        s.takeSongEnd t = State.enterFinishing t { s with lsq := { s.lsq with endTaken := true } } := fun h => if_pos h
    have ignored : s.scu.state ≠ .playing → s.takeSongEnd t = { s with lsq := { s.lsq with endTaken := true } } := fun h => if_neg h
    by_cases hp : s.scu.state = .playing
    · obtain ⟨hd, -, he, -⟩ := State.enterFinishing_song t { s with lsq := { s.lsq with endTaken := true } }
      have fixed := State.enterFinishing_fixed t { s with lsq := { s.lsq with endTaken := true } }
      have frame := State.enterFinishing_frame t { s with lsq := { s.lsq with endTaken := true } }
      rw [← entered hp] at hd he fixed frame
      obtain ⟨-, fl, -⟩ := frame
      refine ⟨fl, fun h => absurd hp h, entered, fun _ => ⟨?_, ?_, he, ?_⟩⟩
      · rcases hd with hd | ⟨-, -, hd⟩ <;> rw [hd] <;> rfl
      · rcases hd with hd | ⟨-, -, hd⟩ <;> rw [hd] <;> rfl
      · obtain ⟨-, -, -, -, -, hstop, -⟩ := Scu.fixed_fields fixed
        exact hstop
    · rw [ignored hp]
      exact ⟨rfl, fun _ => rfl, fun h => absurd h hp, fun h => absurd h hp⟩
  · intro hn
    rw [State.takeCue_bandClear t hn]
    obtain ⟨hl, hs⟩ := s.takeBandClear_lsq
    obtain ⟨fp, fc, fo, fg, fv, fj, fr, fq, fx, -⟩ := s.takeBandClear_frame
    refine ⟨?_, ?_, ?_, ?_, fun k hk => (hs k).trans (if_pos hk), fun k hk => (hs k).trans (if_neg hk)⟩
    · have := State.eq_but_lsq_ptu_ctl fp fc fo fg fv fj fr fq
      rwa [fx] at this
    · rw [hl]
    · rw [hl]
    · rw [hl]
  · intro n k hn hk hband hfree hrows snaps band old
    obtain ⟨fp, fc, fo, fg, fv, fj, fr, fq, -⟩ := State.takeLineIn_frame k t s
    rw [State.takeCue_lineIn t hn hk]
    have hb : s.snapScroll.lsq.band = band := by
      obtain ⟨-, -, ptail, pstay, -⟩ := s.snapScroll_lsq
      by_cases h : s.snaps
      · exact (ptail h).trans (if_pos h).symm
      · exact (pstay h).1.trans (if_neg h).symm
    obtain ⟨ub, us, uq, uk, ul, uc, ut, uo⟩ := State.takeLineIn_fields t hband hfree hrows
    rw [hb] at ub ut uo
    refine ⟨State.eq_but_lsq_ptu_ctl fp fc fo fg fv fj fr fq, ub, us, uq, uk, ul, fun h => ?_, fun h => ?_, ut,
      fun top hsn htop hlen => ?_⟩
    · exact uc.trans (if_pos h)
    · exact uc.trans (if_neg (by rw [h]; simp))
    · obtain ⟨-, -, -, pstay, -⟩ := s.snapScroll_lsq
      have hbs : band = s.lsq.band := if_neg hsn
      have hne : top ≠ k := by
        intro e
        exact hband (e ▸ List.mem_of_mem_head? htop)
      rw [uo top hne (by rw [hbs]; exact hlen), (pstay hsn).2]

end Sys2Proof.Machine
end

