-- ==== Sys2Proof/Proofs/HeaderRead.lean ====
section
/-! The end of START's header read (R11 to R13), and what staging and departures leave of the queue's numbers, slots and
history. -/

namespace Sys2Proof.Machine

/-! ## The queue put in order (R132, R133) -/

theorem placeTicket_perm (t : Ticket) (q : List Ticket) : (placeTicket t q).Perm (t :: q) := by
  induction q with
  | nil => exact .refl _
  | cons u rest ih =>
    unfold placeTicket
    split
    · exact .refl _
    · exact (ih.cons u).trans (.swap t u rest)

theorem reorder_perm (q : List Ticket) : (reorder q).Perm q := by
  have general : ∀ acc : List Ticket, (q.foldl (fun acc t => placeTicket t acc) acc).Perm (q ++ acc) := by
    induction q with
    | nil => exact fun acc => .refl _
    | cons t rest ih =>
      intro acc
      rw [List.foldl_cons]
      refine (ih _).trans (((placeTicket_perm t acc).append_left rest).trans ?_)
      exact List.perm_middle
  simpa [reorder] using general []

/-- Rounds lowered leave the numbers. -/
theorem lowerRounds_numbers (t : Ticket) (q : List Ticket) :
    (lowerRounds t q).map Ticket.number = q.map Ticket.number := by
  unfold lowerRounds
  split
  · rw [List.map_map]
    refine List.map_congr_left fun u _ => ?_
    simp only [Function.comp]
    split <;> rfl
  · rfl

/-! ## Replies and staging in the Request Queue Unit -/

/-- What replies and staging keep of the Request Queue Unit: every pending slot, the last one drained, the last number
issued, the history, and an image that is owed. -/
structure State.KeepsRequests (s t : State) : Prop where
  slots : ∀ j, (t.rqu.handsets.get j).slot = (s.rqu.handsets.get j).slot
  lastDrained : t.rqu.lastDrained = s.rqu.lastDrained
  lastNumber : t.rqu.lastNumber = s.rqu.lastNumber
  history : t.rqu.history = s.rqu.history
  imageOwed : s.rqu.imageOwed = true → t.rqu.imageOwed = true

theorem State.KeepsRequests.refl (s : State) : s.KeepsRequests s := ⟨fun _ => rfl, rfl, rfl, rfl, id⟩

theorem State.KeepsRequests.of_rqu {s t : State} (h : t.rqu = s.rqu) : s.KeepsRequests t :=
  ⟨fun _ => by rw [h], by rw [h], by rw [h], by rw [h], fun g => by rw [h]; exact g⟩

theorem State.KeepsRequests.trans {s t u : State} (h : s.KeepsRequests t) (g : t.KeepsRequests u) : s.KeepsRequests u :=
  ⟨fun j => (g.slots j).trans (h.slots j), g.lastDrained.trans h.lastDrained, g.lastNumber.trans h.lastNumber,
    g.history.trans h.history, g.imageOwed ∘ h.imageOwed⟩

/-- A handset's record replaced by one with the same slot leaves every slot. -/
theorem vset_slot {v : Vector HandsetRecord 16} {h : Fin 16} {x : HandsetRecord} (hx : x.slot = (v.get h).slot)
    (j : Fin 16) : ((vset v h x).get j).slot = (v.get j).slot := by
  rw [vset_get]
  split
  · next e => rw [hx, e]
  · rfl

theorem State.placeReply_keeps (r : Reply) (score : Bool) (s : State) : s.KeepsRequests (s.placeReply r score) := by
  unfold State.placeReply
  dsimp only
  split <;> exact ⟨vset_slot rfl, rfl, rfl, rfl, id⟩

theorem State.replyToSource_keeps (src : Source) (b : ReplyBody) (s : State) :
    s.KeepsRequests (s.replyToSource src b) ∧ (s.replyToSource src b).rqu.queue = s.rqu.queue := by
  unfold State.replyToSource State.issueReply
  split
  · next h =>
    have stored : s.KeepsRequests { s with rqu := { s.rqu with
        handsets := vset s.rqu.handsets h { s.rqu.handsets.get h with
          lastReply := some ⟨h, (s.rqu.handsets.get h).lastSeq.getD Config.unheardSequence, b⟩ } } } :=
      ⟨vset_slot rfl, rfl, rfl, rfl, id⟩
    exact ⟨stored.trans (State.placeReply_keeps _ _ _), by simp⟩
  · exact ⟨.refl s, rfl⟩

/-- A change of the queue reported leaves the Request Queue Unit but for an owed image (R146, R156). -/
theorem State.queueChanged_rqu (old : Nat) (s : State) : (s.queueChanged old).rqu = { s.rqu with imageOwed := true } := by
  unfold State.queueChanged
  dsimp only
  split <;> rfl

theorem State.stageTest_unstaged {s : State} (hs : s.stagingHolds = false) : s.stageTest = s := by
  unfold State.stageTest
  split
  · rfl
  · rw [if_neg (by simp [hs])]

/-- The staging test that succeeds stages the head (R149). -/
theorem State.stageTest_stages {s : State} {t : Ticket} {rest : List Ticket} (hq : s.rqu.queue = t :: rest)
    (hs : s.stagingHolds = true) :
    s.KeepsRequests s.stageTest ∧
      (s.stageTest).rqu.queue = { t with cls := .staged, round := 0 } :: reorder (lowerRounds t rest) := by
  unfold State.stageTest
  rw [hq]
  dsimp only
  rw [if_pos hs]
  refine ⟨.trans ⟨fun _ => ?_, ?_, ?_, ?_, fun _ => ?_⟩ (State.replyToSource_keeps _ _ _).1,
    (State.replyToSource_keeps _ _ _).2.trans ?_⟩ <;> simp [State.queueChanged_rqu]

/-- A ticket to stage stands at the head of the queue. -/
theorem State.stagingHolds_head {s : State} (hs : s.stagingHolds = true) : ∃ t rest, s.rqu.queue = t :: rest := by
  cases hq : s.rqu.queue with
  | nil => simp [State.stagingHolds, hq] at hs
  | cons t rest => exact ⟨t, rest, rfl⟩

theorem State.stageTest_keeps (s : State) : s.KeepsRequests s.stageTest := by
  by_cases hs : s.stagingHolds = true
  · obtain ⟨t, rest, hq⟩ := State.stagingHolds_head hs
    exact (State.stageTest_stages hq hs).1
  · rw [State.stageTest_unstaged (by simpa using hs)]
    exact .refl s

/-- The staging test keeps the numbers queued. -/
theorem State.stageTest_numbers (s : State) :
    ((s.stageTest).rqu.queue.map Ticket.number).Perm (s.rqu.queue.map Ticket.number) := by
  by_cases hs : s.stagingHolds = true
  · obtain ⟨t, rest, hq⟩ := State.stagingHolds_head hs
    rw [(State.stageTest_stages hq hs).2, hq, List.map_cons, List.map_cons]
    refine .cons _ ?_
    rw [← lowerRounds_numbers t rest]
    exact (reorder_perm _).map _
  · rw [State.stageTest_unstaged (by simpa using hs)]

/-- While a ticket is STAGED no other is (R148). -/
theorem State.stageTest_stagedAlready {s : State} {t : Ticket} (h : s.rqu.stagedTicket = some t) : s.stageTest = s :=
  State.stageTest_unstaged (by simp [State.stagingHolds, h])

/-! ## A departure (R137, R138) -/

theorem State.acceptRequest_history (h : Fin 16) (song : Nat) (key : Int) (singers : Nat) (s : State) :
    (s.acceptRequest h song key singers).rqu.history = s.rqu.history := by
  unfold State.acceptRequest
  dsimp only
  rw [(State.stageTest_keeps _).history, State.queueChanged_rqu]
  simp [State.joinQueue]

theorem State.drainVisit_history (h : Fin 16) (s : State) : (s.drainVisit h).rqu.history = s.rqu.history := by
  unfold State.drainVisit
  split
  · rfl
  · split
    · dsimp only
      split
      · simp [State.setSlot]
      · rfl
      · exact State.acceptRequest_history _ _ _ _ _
    · rfl

theorem State.drainSlots_history (s : State) : (s.drainSlots).rqu.history = s.rqu.history := by
  unfold State.drainSlots
  generalize drainOrder s.rqu.lastDrained = l
  induction l generalizing s with
  | nil => rfl
  | cons h rest ih => rw [List.foldl_cons, ih, State.drainVisit_history]

/-- The queue a departure leaves, before the drain of the pending slots and the staging test. -/
def State.departed (t : Ticket) (withdrawn : Bool) (s : State) : State :=
  let old := s.rqu.queue.length
  let q := s.rqu.queue.filter (fun u => u.number != t.number)
  let s := { s with rqu := { s.rqu with queue := if t.cls = TicketClass.normal then reorder (lowerRounds t q) else q } }
  let s := s.queueChanged old
  if t.cls = .staged then
    let s := { s with ctl := { s.ctl with staged := none } }
    if withdrawn then s.raise .stageWithdrawn else s
  else s

theorem State.depart_eq (t : Ticket) (w : Bool) (s : State) :
    s.depart t w = (if s.rqu.queue.length = 32 then (s.departed t w).drainSlots else s.departed t w).stageTest := rfl

theorem State.departed_rqu (t : Ticket) (w : Bool) (s : State) :
    (s.departed t w).rqu = { s.rqu with
      queue := if t.cls = .normal then reorder (lowerRounds t (s.rqu.queue.filter (fun u => u.number != t.number)))
        else s.rqu.queue.filter (fun u => u.number != t.number)
      imageOwed := true } := by
  unfold State.departed
  dsimp only
  split <;> (try split) <;> simp [State.queueChanged_rqu]

theorem State.depart_history (t : Ticket) (w : Bool) (s : State) : (s.depart t w).rqu.history = s.rqu.history := by
  rw [State.depart_eq, (State.stageTest_keeps _).history]
  split
  · rw [State.drainSlots_history, State.departed_rqu]
  · rw [State.departed_rqu]

/-- A STAGED ticket that leaves a queue with room takes its number alone out of it. -/
theorem State.depart_numbers {s : State} {t : Ticket} (w : Bool) (hl : s.rqu.queue.length < 32)
    (ht : t.cls ≠ .normal) :
    ((s.depart t w).rqu.queue.map Ticket.number).Perm
      ((s.rqu.queue.map Ticket.number).filter (fun m => m != t.number)) := by
  rw [State.depart_eq, if_neg (by omega)]
  refine (State.stageTest_numbers _).trans ?_
  rw [State.departed_rqu, if_neg ht, List.filter_map]
  rfl

/-! ## The command in progress ends (R179, R180) -/

theorem State.finishCommand_result {s : State} {c : InProgress} (rc : ResultCode) (h : s.ctl.inProgress = some c) :
    s.finishCommand rc = State.result c.code c.tag rc [] { s with ctl := { s.ctl with inProgress := none } } := by
  simp [State.finishCommand, h]

/-! ## The header read (R11 to R13) -/

/-- The ended header read taken. -/
def State.headerTaken (o : ClientOp) (s : State) : State := { s with ptu := s.ptu.dropEnded o.id }

theorem exec_headerReadComplete {s : State} {o : ClientOp} (ho : s.ptu.firstEnded (fun k => k == .header) = some o)
    (hl : s.ptu.lineFull = false) :
    exec .headerReadComplete s = .next ((s.headerTaken o).headerEnded o.data).flush := by
  show Host.Outcome.next (s.whenRoom State.headerReadComplete).flush = _
  rw [State.whenRoom_room _ hl, State.headerReadComplete, ho]
  rfl

/-- When a header is good for a song (R11). -/
theorem Header.good_iff (h : Header) (song size : Nat) :
    h.good song size = true ↔ h.song = song ∧ h.length ≤ 16777215 ∧ h.cueCount ≤ 1024 ∧ h.lineCount ≤ 512 ∧
      h.noteCount ≤ 4096 ∧ h.cueOffset + 8 * h.cueCount ≤ size ∧ h.lineOffset + 512 * h.lineCount ≤ size ∧
      h.noteOffset + 8 * h.noteCount ≤ size := by
  simp only [Header.good, listFits, Bool.and_eq_true, beq_iff_eq, decide_eq_true_eq, and_assoc]
  rfl

/-- The state in which a song has been primed: its ticket departed into the song context, the history grown (R12). -/
def State.songPrimed (t : Ticket) (bank : Fin 2) (base : Nat) (h : Header) (s : State) : State :=
  ((State.depart t false { s with scu := { s.scu with current := some t } }).pushHistory t).primeSong t bank base h

/-- An offer to an engine with empty windows, no held note and no block in hand tests its next fetch only (R104). -/
theorem State.offerPje_fresh {s : State} (ha : s.pje.winA = []) (hw : s.pje.winB = []) (hh : s.pje.held = none)
    (hb : s.pje.block = none) : s.offerPje = s.tryNoteFetch := by
  have left : (s.pje.leave s.songMs).retryHeld (s.songMs + s.prm.lookaheadMs) = s.pje := by
    have same : s.pje.leave s.songMs = s.pje := by
      unfold Pje.leave
      rw [ha, hw, List.filter_nil]
      calc ({ s.pje with winA := [], winB := [] } : Pje)
        _ = { s.pje with winA := s.pje.winA, winB := s.pje.winB } := by rw [ha, hw]
    rw [same]
    simp [Pje.retryHeld, hh]
  have block : (s.tryNoteFetch).pje.block = none := by
    unfold State.tryNoteFetch
    split <;> exact hb
  unfold State.offerPje
  dsimp only
  rw [left]
  unfold State.retryJudgement
  rw [block]

/-- A primed song has no cue to take and no note to leave, so its first offer issues the first fetches and tests the
staging (R12, R25, R103). -/
theorem State.offer_primed (t : Ticket) (bank : Fin 2) (base : Nat) (h : Header) {q : State} (hb : q.pje.block = none) :
    (q.primeSong t bank base h).offer = (q.primeSong t bank base h).tryCueFetch.tryNoteFetch.stageTest := by
  generalize hp : q.primeSong t bank base h = p
  have playing : p.scu.state = .playing := by rw [← hp]; rfl
  have noHeld : p.retryHeldCue = p := by simp [← hp, State.retryHeldCue, State.primeSong, Lsq.emptied]
  have noCue : p.takeCues = p :=
    State.takeDue_stops (fun c rest e => by simp [← hp, State.primeSong, Lsq.emptied] at e) 10
  have sequencer : p.offerLsq = p.tryCueFetch := by rw [State.offerLsq, noHeld, noCue]
  have engine : (p.tryCueFetch).offerPje = p.tryCueFetch.tryNoteFetch := by
    refine State.offerPje_fresh ?_ ?_ ?_ ?_ <;> rw [(State.tryCueFetch_frame p).2.2.2.2.2.1, ← hp]
    · rfl
    · rfl
    · rfl
    · exact hb
  unfold State.offer
  rw [if_neg (by simp [playing]), sequencer, engine]

/-- The state in which a START with its song answers OK (R12). -/
def State.songStarted (t : Ticket) (bank : Fin 2) (base : Nat) (h : Header) (s : State) : State :=
  (s.songPrimed t bank base h).tryCueFetch.tryNoteFetch.stageTest.stageTest

theorem State.songStarted_core (t : Ticket) (bank : Fin 2) (base : Nat) (h : Header) (s : State) :
    (s.songStarted t bank base h).ctl.core = s.ctl.core := by
  simp [State.songStarted, State.songPrimed]

theorem State.completeStart_result {s : State} {c : InProgress} (t : Ticket) (bank : Fin 2) (base : Nat) (h : Header)
    (hb : s.pje.block = none) (hc : s.ctl.inProgress = some c) :
    s.completeStart t bank base h = State.result c.code c.tag .ok []
      { s.songStarted t bank base h with ctl := { (s.songStarted t bank base h).ctl with inProgress := none } } := by
  obtain ⟨-, hprog, -⟩ := Ctl.core_fields (State.songStarted_core t bank base h s)
  rw [← State.finishCommand_result .ok (hprog.trans hc)]
  unfold State.completeStart
  dsimp only
  rw [State.offer_primed t bank base h (by simpa using hb)]
  rfl

/-- The song context, the sequencer, the engine and the Score Unit of a song that has started (R12, R22, R105, R121). -/
theorem State.songStarted_song (t : Ticket) (bank : Fin 2) (base : Nat) (h : Header) (s : State) :
    (s.songStarted t bank base h).scu = { s.scu with
        state := .playing, current := some t, startTicket := none, startBank := none, bank := bank
        length := h.length, acc := 0, tempo := 65536, key := t.key, seeked := false, stopped := false
        endPending := false, endTime := none } ∧
      (∃ op, (s.songStarted t bank base h).lsq = { s.lsq.emptied with
        cueBase := base + h.cueOffset, cueCount := h.cueCount
        lineBase := base + h.lineOffset, lineCount := h.lineCount
        fetch := if 0 < h.cueCount then some op else none }) ∧
      (∃ op, (s.songStarted t bank base h).pje = { s.pje.emptied with
        noteBase := base + h.noteOffset, noteCount := h.noteCount
        fetch := if 0 < h.noteCount then some op else none }) ∧
      (s.songStarted t bank base h).scr = s.scr.startSong t.number := by
  generalize hp : s.songPrimed t bank base h = p
  have fields : p.scu = { s.scu with
        state := .playing, current := some t, startTicket := none, startBank := none, bank := bank
        length := h.length, acc := 0, tempo := 65536, key := t.key, seeked := false, stopped := false
        endPending := false, endTime := none } ∧
      p.lsq = { s.lsq.emptied with
        cueBase := base + h.cueOffset, cueCount := h.cueCount
        lineBase := base + h.lineOffset, lineCount := h.lineCount } ∧
      p.pje = { s.pje.emptied with noteBase := base + h.noteOffset, noteCount := h.noteCount } ∧
      p.scr = s.scr.startSong t.number := by
    rw [← hp]
    simp [State.songPrimed, State.primeSong]
  obtain ⟨pc, pl, pj, pr⟩ := fields
  have cue := State.tryCueFetch_fresh (s := p) (by rw [pl]; rfl) (by rw [pl]; rfl) (by rw [pl]; rfl) (by rw [pl]; rfl)
    (by rw [pl]; rfl) (by rw [pc]; rfl)
  have note := State.tryNoteFetch_fresh (s := p.tryCueFetch) (by simp [pj, Pje.emptied]) (by simp [pj, Pje.emptied])
    (by simp [pj, Pje.emptied]) (by simp [State.notesRun, pc])
  refine ⟨?_, ⟨p.ptu.nextOp, ?_⟩, ⟨p.tryCueFetch.ptu.nextOp, ?_⟩, ?_⟩
  · simp [State.songStarted, hp, pc]
  · simp [State.songStarted, hp, cue, pl]
  · simp [State.songStarted, hp, note, pj]
  · simp [State.songStarted, hp, pr]

/-- What a start leaves of the Request Queue Unit beside the ticket's departure and its place in the history. -/
theorem State.songStarted_rqu (t : Ticket) (bank : Fin 2) (base : Nat) (h : Header) (s : State) :
    let v := State.depart t false { s with scu := { s.scu with current := some t } }
    ((s.songStarted t bank base h).rqu.queue.map Ticket.number).Perm (v.rqu.queue.map Ticket.number) ∧
      (v.pushHistory t).KeepsRequests (s.songStarted t bank base h) := by
  intro v
  generalize hp : (s.songPrimed t bank base h).tryCueFetch.tryNoteFetch = p
  have same : p.rqu = (v.pushHistory t).rqu := by
    rw [← hp]
    simp [State.songPrimed, v]
  have first : (v.pushHistory t).KeepsRequests p := .of_rqu same
  unfold State.songStarted
  rw [hp]
  refine ⟨(State.stageTest_numbers _).trans ((State.stageTest_numbers _).trans ?_),
    first.trans ((State.stageTest_keeps _).trans (State.stageTest_keeps _))⟩
  rw [same]
  simp

/-- The state in which a START without a song stands in IDLE, its report made (R11, R13). -/
def State.startLeft (s : State) : State :=
  State.stageTest { s with scu := { s.scu with state := .idle, startTicket := none, startBank := none } }

theorem State.failStart_result {s : State} {c : InProgress} (rc : ResultCode) (h : s.ctl.inProgress = some c) :
    s.failStart rc = State.result c.code c.tag rc []
      { s.startLeft with ctl := { s.startLeft.ctl with inProgress := none } } := by
  have core : s.startLeft.ctl.core = s.ctl.core := by simp [State.startLeft]
  obtain ⟨-, hprog, -⟩ := Ctl.core_fields core
  exact State.finishCommand_result rc (hprog.trans h)

/-- The header read of a STARTING song, by what is STAGED and what was read (R11, R13). -/
theorem State.headerEnded_stale {s : State} {n : Nat} {bank : Fin 2} {w : Window} (d : Option (List Beat))
    (hst : s.scu.startTicket = some n) (hsb : s.scu.startBank = some bank) (hw : s.ptu.windows.asset = some w)
    (hg : ∀ t, s.rqu.stagedTicket = some t → t.number ≠ n) : s.headerEnded d = s.failStart .stale := by
  unfold State.headerEnded
  rw [hst, hsb, hw]
  dsimp only
  split
  · rfl
  · next t ht => exact if_neg (hg t ht)

theorem State.headerEnded_staged {s : State} {t : Ticket} {bank : Fin 2} {w : Window} (d : Option (List Beat))
    (hst : s.scu.startTicket = some t.number) (hsb : s.scu.startBank = some bank) (hw : s.ptu.windows.asset = some w)
    (ht : s.rqu.stagedTicket = some t) :
    (∀ bs, d = some bs → (readHeader bs).good t.song (w.size / 2) = true →
      s.headerEnded d = s.completeStart t bank (w.base + bank.val * (w.size / 2)) (readHeader bs)) ∧
    ((∀ bs, d = some bs → ¬ (readHeader bs).good t.song (w.size / 2) = true) →
      s.headerEnded d = s.failStart .badAsset) := by
  unfold State.headerEnded
  rw [hst, hsb, hw]
  dsimp only
  rw [ht]
  dsimp only
  rw [if_pos rfl]
  cases d with
  | none => exact ⟨fun bs e => (by cases e), fun _ => rfl⟩
  | some bs =>
    refine ⟨fun bs' e hgood => ?_, fun hbad => if_neg (hbad bs rfl)⟩
    cases e
    exact if_pos hgood

/-- Settles O39. -/
theorem headerReadEndsTheStart : Obligations.HeaderReadEndsTheStart := by
  constructor
  · intro s o t bank w bs c ho hd hl hst hsb hw hsg hc hb h base v h1 h2 h3 h4 h5 h6 h7 h8
    generalize hx : (s.headerTaken o).songStarted t bank base h = x
    have core := State.songStarted_core t bank base h (s.headerTaken o)
    obtain ⟨xc, ⟨_, xl⟩, ⟨_, xj⟩, xr⟩ := State.songStarted_song t bank base h (s.headerTaken o)
    obtain ⟨numbers, keeps⟩ := State.songStarted_rqu t bank base h (s.headerTaken o)
    have frame : x.pending = s.pending ∧ x.ovc = s.ovc ∧ x.gxt = s.gxt ∧ x.vin = s.vin ∧ x.ptu.links = s.ptu.links := by
      rw [← hx]
      simp [State.songStarted, State.songPrimed, State.headerTaken]
    obtain ⟨xp, xo, xg, xv, xk⟩ := frame
    rw [hx] at core xc xl xj xr numbers keeps
    obtain ⟨-, -, hcount, -⟩ := Ctl.core_fields core
    have read := exec_headerReadComplete ho hl
    rw [(State.headerEnded_staged (s := s.headerTaken o) o.data hst hsb hw hsg).1 bs hd
      ((Header.good_iff _ _ _).mpr ⟨h1, h2, h3, h4, h5, h6, h7, h8⟩),
      State.completeStart_result (s := s.headerTaken o) t bank base h hb hc, hx] at read
    have vhistory : v.rqu.history = s.rqu.history := State.depart_history _ _ _
    have staged := (Rqu.stagedTicket_some hsg).2
    refine ⟨_, read, xc, ?_, ?_, ?_, ?_, ?_, ?_, ?_, ?_, ?_, ?_, ?_, ?_, ?_, ?_, ?_, fun i => ?_, ?_, ?_, numbers,
      fun j => keeps.slots j, keeps.lastDrained, keeps.lastNumber, ?_, keeps.imageOwed rfl, fun hlen => ?_, rfl, hcount,
      xv, xo, xg, xp, xk⟩
    · simp [State.songMs, Scu.songMs, xc]
    · rw [xl]
    · rw [xl]
    · rw [xl]
    · rw [xl]
    · rw [xl]; rfl
    · rw [xl]; rfl
    · rw [xl]; rfl
    · rw [xl]
      by_cases hn : 0 < h.cueCount <;> simp [hn]
    · rw [xj]
    · rw [xj]
    · rw [xj]; rfl
    · rw [xj]; rfl
    · rw [xj]; rfl
    · rw [xj]
      by_cases hn : 0 < h.noteCount <;> simp [hn]
    · rw [xr]
      exact map_get _ _ i
    · rw [xr]; rfl
    · rw [xr]; rfl
    · rw [keeps.history, ← vhistory]
      rfl
    · exact numbers.trans (State.depart_numbers (s := { s.headerTaken o with scu := { s.scu with current := some t } })
        false hlen (by rw [staged]; decide))
  · intro s o n bank w c ho hst hsb hw hc hl gone bad ended
    have read := exec_headerReadComplete ho hl
    have left : ∀ rc, (s.headerTaken o).headerEnded o.data = (s.headerTaken o).failStart rc → ∃ u : State,
        exec .headerReadComplete s = .next (u.result c.code c.tag rc []).flush ∧ ended u ∧
          u.rqu = (s.headerTaken o).startLeft.rqu := by
      intro rc e
      rw [e, State.failStart_result (s := s.headerTaken o) rc hc] at read
      refine ⟨_, read, ?_, rfl⟩
      simp [ended, State.startLeft, State.headerTaken]
    constructor
    · intro hg
      obtain ⟨u, he, hen, hq⟩ := left .stale (State.headerEnded_stale (s := s.headerTaken o) _ hst hsb hw hg)
      refine ⟨u, he, hen, fun hnone hne => ?_⟩
      obtain ⟨t, rest, ht⟩ := List.exists_cons_of_ne_nil hne
      have stages := State.stageTest_stages (t := t) (rest := rest) (s := { s.headerTaken o with
        scu := { s.scu with state := .idle, startTicket := none, startBank := none } }) ht
        (by simp [State.stagingHolds, State.headerTaken, hnone, ht])
      refine ⟨{ t with cls := .staged, round := 0 }, ?_, rfl⟩
      rw [hq]
      exact (congrArg List.head? stages.2).trans rfl
    · intro hg hbad
      obtain ⟨t, ht, hn⟩ : ∃ t, s.rqu.stagedTicket = some t ∧ t.number = n := by
        by_contra hno
        exact hg fun t ht hn => hno ⟨t, ht, hn⟩
      have fails := (State.headerEnded_staged (s := s.headerTaken o) o.data (hn ▸ hst) hsb hw ht).2 fun bs hbs => by
        rw [Header.good_iff]
        have := hbad t ht bs hbs
        omega
      obtain ⟨u, he, hen, hq⟩ := left .badAsset fails
      refine ⟨u, he, hen, hq.trans ?_⟩
      have same := State.stageTest_stagedAlready (t := t) (s := { s.headerTaken o with
        scu := { s.scu with state := .idle, startTicket := none, startBank := none } }) ht
      exact (congrArg State.rqu same).trans rfl

end Sys2Proof.Machine
end

