-- ==== Sys2Proof/Proofs/SeekRebuilds.lean ====
section
/-! The rebuilds of a SEEK: one cue of the rescan, the candidates shown, and the ends of both rebuilds and of SEEKING. -/

namespace Sys2Proof.Machine

/-! ## A cue of the rescan (R40) -/

/-- The rescan goes on past a cue with the candidates it leaves, and stops behind the last cue of the list. -/
def State.rescanGoesOn (r : Rescan) (cs : List Nat) (s : State) : State :=
  let t : State := { s with lsq := { s.lsq with
    cursor := s.lsq.cursor + 1, rebuild := some { r with candidates := cs } } }
  if s.lsq.cueCount ≤ s.lsq.cursor + 1 then t.stopRescan { r with candidates := cs } else t

/-- The rescan after an unreadable fetch, after a cue beyond the target, and after each other cue. -/
theorem State.rescanCue_eq (r : Rescan) (off : Nat) (s : State) :
    s.rescanCue r none off = s.rescanGoesOn r r.candidates ∧
      ∀ bs, (r.target < cueTime bs off → s.rescanCue r (some bs) off = s.stopRescan r) ∧
        (cueTime bs off ≤ r.target → s.rescanCue r (some bs) off =
          match readCue bs off s.lsq.lineCount with
          | none => s.rescanGoesOn r r.candidates
          | some c =>
            match c.kind with
            | .lineIn n => s.rescanGoesOn r (pushCandidate s.prm.bandRows n r.candidates)
            | .bandClear => s.rescanGoesOn r []
            | .mark _ => s.rescanGoesOn r r.candidates
            | .songEnd => s.stopRescan r) :=
  ⟨rfl, fun _ => ⟨fun h => if_pos h, fun h => if_neg (Nat.not_lt.mpr h)⟩⟩

/-- One more LINE_IN: the oldest of BAND_ROWS + 1 candidates is dropped. -/
theorem pushCandidate_eq (rows line : Nat) (cs : List Nat) :
    (cs.length ≠ rows → pushCandidate rows line cs = cs ++ [line]) ∧
      (cs.length = rows → pushCandidate rows line cs = (cs ++ [line]).tail) :=
  ⟨fun h => if_neg (by simpa using h), fun h => if_pos (by simpa using h)⟩

/-- The end of a cue fetch while the rescan runs, by the state `t` to which the rescan comes. -/
theorem exec_cueFetchComplete_rescan {s t : State} {o : ClientOp} {r : Rescan}
    (ho : s.ptu.firstEnded (fun k => k == .cue) = some o) (hr : s.lsq.rebuild = some r) (hscan : r.scanning = true)
    (hl : s.ptu.lineFull = false)
    (ht : State.rescanCue r o.data ((s.lsq.cueBase + 8 * s.lsq.cursor) % 16)
      { s with ptu := s.ptu.dropEnded o.id, lsq := { s.lsq with fetch := none } } = t) :
    exec .cueFetchComplete s = .next t.tryCueFetch.rebuildEnds.flush := by
  show Host.Outcome.next (s.whenRoom State.cueFetchComplete).flush = _
  rw [State.whenRoom_room _ hl, State.cueFetchComplete, ho, ← ht]
  dsimp only
  unfold State.endCueFetch
  dsimp only
  rw [hr]
  dsimp only
  rw [if_pos hscan]

/-! ## The candidates shown (R41) -/

/-- The slot of a candidate line, FREE and empty where there is none. -/
def candidateSlot (x op : Nat) : Option Nat → LineSlot
  | none => {}
  | some n => { state := .shown, line := n, late := false, wiped := x, load := some op }

theorem State.showCandidate_eq {s : State} {k : Fin 8} (h : s.lsq.freeSlot = some k) (n : Nat) :
    s.showCandidate n = { s.claimSlot k .shown n with
      lsq := { (s.claimSlot k .shown n).lsq with band := s.lsq.band ++ [k] } } := by
  rw [State.showCandidate, h]
  rfl

/-- What the candidates `l` make of a sequencer whose slots are all FREE: the first slots shown in order, each with its
own load under the next operation number. -/
structure State.CandidatesShown (s : State) (l : List Nat) (u : State) : Prop where
  lsq : u.lsq = { s.lsq with slots := u.lsq.slots, band := u.lsq.band }
  band : u.lsq.band = (List.finRange 8).take l.length
  slots : ∀ k : Fin 8, u.lsq.slots.get k = candidateSlot s.prm.bandX (s.ptu.nextOp + k.val) l[k.val]?
  nextOp : u.ptu.nextOp = s.ptu.nextOp + l.length
  handed : u.ptu.handed = s.ptu.handed ++ (l.zipIdx.map (fun ni => requestsOf .lineLoad (s.ptu.nextOp + ni.2) 0
    (readsOver (s.lsq.lineBase + 512 * ni.1) 512))).flatten
  ctl : u.ctl = s.ctl

theorem State.CandidatesShown.snoc {s u : State} {l : List Nat} (h : s.CandidatesShown l u) (n : Nat)
    (hl : l.length < 8) : s.CandidatesShown (l ++ [n]) (u.showCandidate n) := by
  obtain ⟨hlsq, hband, hslots, hop, hhanded, hctl⟩ := h
  have hprm : u.prm = s.prm := by rw [State.prm, State.prm, hctl]
  have free : u.lsq.freeSlot = some ⟨l.length, hl⟩ := by
    refine Lsq.freeSlot_first ?_ fun j hj => ?_
    · simp [hslots, candidateSlot]
    · have hj : j.val < l.length := hj
      simp [hslots, hj, candidateSlot]
  rw [State.showCandidate_eq free]
  refine ⟨?_, ?_, fun k => ?_, ?_, ?_, hctl⟩
  · rw [State.claimSlot_lsq]
    dsimp only
    rw [hlsq]
  · dsimp only
    rw [hband, List.length_append, List.length_singleton, List.take_add_one]
    simp [hl]
  · dsimp only
    rw [State.claimSlot_get]
    split
    · next e =>
      subst e
      simp [hslots, candidateSlot, hprm, hop]
    · next e =>
      have hne : k.val ≠ l.length := fun h => e (Fin.ext h.symm)
      rw [hslots]
      by_cases hk : k.val < l.length
      · rw [List.getElem?_append_left hk]
      · rw [List.getElem?_eq_none (by omega), List.getElem?_eq_none (by simp; omega)]
  · simp [State.claimSlot, hop, Nat.add_assoc]
  · have hbase : u.lsq.lineBase = s.lsq.lineBase := by rw [hlsq]
    simp [State.claimSlot, hhanded, hop, hbase, List.zipIdx_append, List.append_assoc]

theorem State.showCandidates {s : State} (hslots : s.lsq.slots = Vector.replicate 8 {}) (hband : s.lsq.band = [])
    (l : List Nat) (hl : l.length ≤ 8) : s.CandidatesShown l (l.foldl State.showCandidate s) := by
  induction l using List.reverseRecOn with
  | nil =>
    refine ⟨rfl, hband, fun k => ?_, rfl, by simp, rfl⟩
    simp [hslots, candidateSlot, Vector.get]
  | append_singleton l n ih =>
    rw [List.foldl_append]
    rw [List.length_append, List.length_singleton] at hl
    exact (ih (by omega)).snoc n (by omega)

/-! ## The ends of the rebuilds (R41, R106) -/

theorem Lsq.stands_iff (q : Lsq) : q.stands = true ↔ q.fetch = none ∧
    (q.held ≠ none ∨ 8 ≤ q.queue.length ∨ (∃ c ∈ q.queue, c.unbound) ∨ q.cueCount ≤ q.cursor) := by
  unfold Lsq.stands
  simp [Lsq.unbound_iff, Option.isSome_iff_ne_none, or_assoc]

/-- When the sequencer's rebuild ends: the rescan has stopped, the cursor stands and no band load is in flight. -/
def Lsq.rebuilt (q : Lsq) : Prop :=
  ∃ r, q.rebuild = some r ∧ r.scanning = false ∧ q.fetch = none ∧
    (q.held ≠ none ∨ 8 ≤ q.queue.length ∨ (∃ c ∈ q.queue, c.unbound) ∨ q.cueCount ≤ q.cursor) ∧
    ∀ k ∈ q.band, (q.slots.get k).load = none

theorem State.lsqRebuildEnd_iff (s : State) :
    (s.lsq.rebuilt → s.lsqRebuildEnd = { s with lsq := { s.lsq with rebuild := none } }) ∧
      (¬ s.lsq.rebuilt → s.lsqRebuildEnd = s) := by
  unfold State.lsqRebuildEnd
  cases h : s.lsq.rebuild with
  | none =>
    refine ⟨fun g => ?_, fun _ => rfl⟩
    obtain ⟨r, hr, -⟩ := g
    rw [h] at hr
    cases hr
  | some r =>
    have cond : (r.scanning = false ∧ s.lsq.stands = true ∧
        (s.lsq.band.all (fun k => (s.lsq.slots.get k).load == none)) = true) ↔ s.lsq.rebuilt := by
      simp [Lsq.rebuilt, h, Lsq.stands_iff, and_assoc]
    exact ⟨fun g => if_pos (cond.mpr g), fun g => if_neg fun c => g (cond.mp c)⟩

theorem State.pjeRebuildEnd_iff (s : State) :
    let ended := s.pje.rebuild = true ∧ s.pje.fetch = none ∧ (s.pje.held ≠ none ∨ s.pje.noteCount ≤ s.pje.cursor)
    (ended → s.pjeRebuildEnd = { s with pje := { s.pje with rebuild := false } }) ∧ (¬ ended → s.pjeRebuildEnd = s) := by
  have cond : (s.pje.held.isSome || decide (s.pje.noteCount ≤ s.pje.cursor)) = true ↔
      (s.pje.held ≠ none ∨ s.pje.noteCount ≤ s.pje.cursor) := by simp [Option.isSome_iff_ne_none]
  unfold State.pjeRebuildEnd
  exact ⟨fun h => if_pos (by rwa [cond]), fun h => if_neg (by rwa [cond])⟩

/-! ## SEEKING left (R16) -/

theorem State.leaveSeeking_stays {s : State}
    (h : s.scu.state ≠ .seeking ∨ s.lsq.rebuild ≠ none ∨ s.pje.rebuild = true) : s.leaveSeeking = s := by
  rcases h with h | h
  · exact if_neg fun c => h c.1
  · exact State.leaveSeeking_waits h

theorem State.leaveSeeking_ends {s : State} {c : InProgress} (hs : s.scu.state = .seeking) (hl : s.lsq.rebuild = none)
    (hp : s.pje.rebuild = false) (hc : s.ctl.inProgress = some c) :
    let v := State.result c.code c.tag .ok [] { s with ctl := { s.ctl with inProgress := none } }
    s.leaveSeeking = if s.scu.endPending then
        (State.enterFinishing songMsMax { v with scu := { s.scu with endPending := false } }).offerPje
      else (State.offerPje (State.offerLsq { v with scu := { s.scu with state := .playing } })).stageTest := by
  intro v
  have hv : s.finishCommand .ok = v := by rw [State.finishCommand, hc]
  have hscu : v.scu = s.scu := (State.result_frame ..).2.1
  unfold State.leaveSeeking
  rw [if_pos ⟨hs, hl, hp⟩, hv]
  simp only [hscu]

/-- Settles O43. A cue of the rescan splits as its time and kind are read; the candidates' claims are an induction on
their list; the ends of the rebuilds are the conditions under which the cursor stands. -/
theorem seekRebuildsAndEnds : Obligations.SeekRebuildsAndEnds := by
  unfold Obligations.SeekRebuildsAndEnds
  refine ⟨?_, ?_, ?_, ?_⟩
  · intro s o r ho hr hscan hl off v stops goesOn
    have ends : ∀ {t : State}, State.rescanCue r o.data off v = t →
        exec .cueFetchComplete s = .next t.tryCueFetch.rebuildEnds.flush := exec_cueFetchComplete_rescan ho hr hscan hl
    obtain ⟨unread, read⟩ := State.rescanCue_eq r off v
    refine ⟨fun hd => ends (by rw [hd, unread]; rfl), fun bs hd => ?_⟩
    obtain ⟨beyond, within⟩ := read bs
    refine ⟨fun ht => ends (by rw [hd, beyond ht]), fun ht => ?_⟩
    have cue : ∀ {x : Option Cue}, readCue bs off s.lsq.lineCount = x → readCue bs off v.lsq.lineCount = x := id
    refine ⟨fun hc => ends ?_, fun c hc => ⟨fun hk => ends ?_, fun hk => ends ?_, fun m hk => ends ?_, fun n hk => ?_⟩⟩
    · rw [hd, within ht, cue hc]
      rfl
    · rw [hd, within ht, cue hc]
      simp only [hk]
    · rw [hd, within ht, cue hc]
      simp only [hk]
      rfl
    · rw [hd, within ht, cue hc]
      simp only [hk]
      rfl
    · have joins : State.rescanCue r o.data off v = v.rescanGoesOn r (pushCandidate s.prm.bandRows n r.candidates) := by
        rw [hd, within ht, cue hc]
        simp only [hk]
        rfl
      obtain ⟨short, full⟩ := pushCandidate_eq s.prm.bandRows n r.candidates
      exact ⟨fun hn => ends (by rw [joins, short hn]; rfl), fun hn => ends (by rw [joins, full hn]; rfl)⟩
  · intro s r hslots hband hl u
    obtain ⟨hlsq, hbands, hget, -, hhanded, -⟩ := State.showCandidates
      (s := { s with lsq := { s.lsq with rebuild := some { r with scanning := false } } }) hslots hband r.candidates hl
    obtain ⟨fp, fs, fo, fg, fv, fj, fr, fq, fc, -⟩ := State.stopRescan_frame r s
    refine ⟨?_, hbands, fun k n hn => ?_, fun k hk => ?_, hhanded, ?_, ?_, ?_, ?_⟩
    · exact (congrArg Lsq.rebuild hlsq :)
    · exact (hget k).trans (by rw [hn]; rfl)
    · exact (hget k).trans (by rw [List.getElem?_eq_none hk]; rfl)
    · exact (congrArg Lsq.queue hlsq :)
    · exact (congrArg Lsq.cursor hlsq :)
    · exact (congrArg Lsq.scroll hlsq :)
    · have same := State.eq_but_lsq_ptu_ctl fp fs fo fg fv fj fr fq
      rwa [fc] at same
  · intro s
    exact ⟨rfl, s.lsqRebuildEnd_iff, s.pjeRebuildEnd_iff⟩
  · intro s
    refine ⟨State.leaveSeeking_stays, fun c hs hl hp hc => ?_⟩
    refine ⟨fun he => ?_, fun he => ?_⟩
    · exact (State.leaveSeeking_ends hs hl hp hc).trans (if_neg (by simp [he]))
    · exact (State.leaveSeeking_ends hs hl hp hc).trans (if_pos he)

end Sys2Proof.Machine
end

