-- ==== Sys2Proof/Proofs/WriteOut.lean ====
section
/-! The drain reports, the write-out with its record's bytes, its end, and what the return to IDLE empties. -/

namespace Sys2Proof.Machine

/-! ## The bytes of a record -/

@[simp] theorem leBytes_length (k n : Nat) : (leBytes k n).length = k := by
  induction k generalizing n with
  | zero => rfl
  | succ k ih => rw [leBytes, List.length_cons, ih]

@[simp] theorem padTo_length (n : Nat) (bs : List Byte) : (padTo n bs).length = n := by
  simp [padTo]

/-- Padding leaves the bytes that stand within the record. -/
theorem padTo_slice {n a k : Nat} {bs : List Byte} (hn : a + k ≤ n) (hb : a + k ≤ bs.length) :
    ((padTo n bs).drop a).take k = (bs.drop a).take k := by
  unfold padTo
  rw [List.drop_take, List.take_take, Nat.min_eq_left (by omega), List.drop_append_of_le_length (by omega),
    List.take_append_of_le_length (by simp; omega)]

/-- Parts of one length stand one behind the other. -/
theorem flatten_slice {k : Nat} {parts : List (List Byte)} (hk : ∀ p ∈ parts, p.length = k) {j : Nat} {p : List Byte}
    (hj : parts[j]? = some p) : k * j + k ≤ parts.flatten.length ∧ (parts.flatten.drop (k * j)).take k = p := by
  induction parts generalizing j with
  | nil => cases hj
  | cons q rest ih =>
    have hq : q.length = k := hk q (by simp)
    cases j with
    | zero =>
      have e : q = p := by simpa using hj
      subst e
      simp [← hq]
    | succ j =>
      obtain ⟨hl, hs⟩ := ih (fun r hr => hk r (by simp [hr])) (by simpa using hj)
      have split : k * (j + 1) = q.length + k * j := by rw [hq, Nat.mul_succ, Nat.add_comm]
      rw [split, List.flatten_cons, List.drop_length_add_append, List.length_append, hq]
      exact ⟨by omega, hs⟩

theorem singerPartBytes_eq (i : Nat) (g : Singer) : singerPartBytes i g =
    leBytes 1 i ++ leBytes 1 (partCode g.part) ++ leBytes 2 g.totals.score ++ leBytes 4 g.totals.possible ++
      leBytes 4 g.totals.perfect ++ leBytes 4 g.totals.good ++ leBytes 4 g.totals.fair ++ leBytes 4 g.totals.miss ++
      leBytes 4 g.totals.unvoiced ++ leBytes 4 g.totals.maxStreak ++ leBytes 4 g.totals.dropped ++
      leBytes 4 g.totals.folds := by
  simp [singerPartBytes]

theorem singerPartBytes_length (i : Nat) (g : Singer) : (singerPartBytes i g).length = 40 := by
  simp [singerPartBytes_eq]

theorem Scr.activeSingers_length (c : Scr) : c.activeSingers.length ≤ 4 :=
  (List.length_filter_le _ _).trans (by simp)

/-- The head of a result record (Table 12-9). -/
def resultHead (n : Word) (t : Ticket) (c : Scu) (singers : List (Nat × Singer)) : List Byte :=
  leBytes 4 n.toNat ++ leBytes 2 t.number ++ leBytes 1 t.source.code ++ leBytes 1 singers.length ++
    leBytes 4 t.song ++ signedBytes t.key ++ signedBytes c.key ++ leBytes 1 (bit01 c.seeked + 2 * bit01 c.stopped) ++
    [0] ++ leBytes 4 c.tempo

theorem resultHead_length (n : Word) (t : Ticket) (c : Scu) (singers : List (Nat × Singer)) :
    (resultHead n t c singers).length = 20 := by
  simp [resultHead, signedBytes]

theorem resultRecordBytes_eq (n : Word) (t : Ticket) (c : Scu) (singers : List (Nat × Singer)) :
    resultRecordBytes n t c singers = padTo 192 ((resultHead n t c singers ++ padTo 12 []) ++
      (singers.map (fun p => singerPartBytes p.1 p.2)).flatten) := rfl

theorem resultRecordBytes_head (n : Word) (t : Ticket) (c : Scu) (singers : List (Nat × Singer)) :
    (resultRecordBytes n t c singers).take 20 = resultHead n t c singers := by
  have len := resultHead_length n t c singers
  have slice := padTo_slice (n := 192) (a := 0) (k := 20) (bs := resultHead n t c singers ++ (padTo 12 [] ++
    (singers.map (fun p => singerPartBytes p.1 p.2)).flatten)) (by omega) (by rw [List.length_append, len]; omega)
  rw [resultRecordBytes_eq, List.append_assoc]
  rw [List.drop_zero, List.drop_zero] at slice
  rw [slice, List.take_append_of_le_length (by omega), List.take_of_length_le (by omega)]

/-- The part of the `j`th ACTIVE singer stands at 32 + 40 j. -/
theorem resultRecordBytes_part (n : Word) (t : Ticket) (c : Scu) {singers : List (Nat × Singer)} {j i : Nat} {g : Singer}
    (h4 : singers.length ≤ 4) (hj : singers[j]? = some (i, g)) :
    ((resultRecordBytes n t c singers).drop (32 + 40 * j)).take 40 = singerPartBytes i g := by
  obtain ⟨hl, hs⟩ := flatten_slice (k := 40) (parts := singers.map (fun p => singerPartBytes p.1 p.2))
    (p := singerPartBytes i g) (j := j)
    (fun p hp => by
      obtain ⟨q, -, rfl⟩ := List.mem_map.mp hp
      exact singerPartBytes_length q.1 q.2)
    (by rw [List.getElem?_map, hj]; rfl)
  have hlt : j < singers.length := (List.getElem?_eq_some_iff.mp hj).1
  have head : (resultHead n t c singers ++ padTo 12 []).length = 32 := by
    rw [List.length_append, resultHead_length, padTo_length]
  rw [resultRecordBytes_eq, padTo_slice (by omega) (by rw [List.length_append, head]; omega), ← head, List.drop_length_add_append]
  exact hs

/-! ## The return to IDLE (R20, R23, R89, R105, R121) -/

theorem Scr.unlink_get (c : Scr) (i : Fin 4) : c.unlink.singers.get i = { c.singers.get i with link := none } := by
  show (c.singers.map _)[i.val] = _
  rw [Vector.getElem_map]
  rfl

theorem Ptu.orphan_lists (p : Ptu) :
    (p.orphan OpKind.isLyric).orphan OpKind.isNote = { p with
      ops := p.ops.filter (fun o => !(o.kind.isLyric || o.kind.isNote))
      ended := p.ended.filter (fun o => !(o.kind.isLyric || o.kind.isNote)) } := by
  simp [Ptu.orphan, Bool.and_comm]

/-! ## The drain (R18, R89, R112) -/

theorem State.drainCheck_iff (s : State) :
    let due := s.scu.state = .finishing ∧ s.scu.phase = some .drain ∧ s.vin.drainReported = true ∧
      s.pje.drainReported = true
    (¬ due → s.drainCheck = s) ∧
      (due → s.drainCheck = (State.beginWriteOut { s with scu := { s.scu with phase := some .writeOut } }).stageTest) :=
  ⟨fun h => if_neg h, fun h => if_pos h⟩

/-- Each drain report is made once in DRAIN, when the queue is empty, the engine's when it has no block in hand. -/
theorem State.drainReports (s : State) :
    let empty := s.scu.state = .finishing ∧ s.scu.phase = some .drain ∧ s.vin.queue = []
    (empty → s.vin.drainReported = false →
        s.vinDrain = State.drainCheck { s with vin := { s.vin with drainReported := true } }) ∧
      (¬ empty ∨ s.vin.drainReported = true → s.vinDrain = s) ∧
      (empty → s.pje.block = none → s.pje.drainReported = false →
        s.pjeDrain = State.drainCheck { s with pje := { s.pje with drainReported := true } }) ∧
      (¬ empty ∨ s.pje.block ≠ none ∨ s.pje.drainReported = true → s.pjeDrain = s) := by
  refine ⟨fun ⟨hs, hp, hq⟩ hr => if_pos ⟨hs, hp, hq, hr⟩, fun h => if_neg ?_,
    fun ⟨hs, hp, hq⟩ hb hr => if_pos ⟨hs, hp, hq, hb, hr⟩, fun h => if_neg ?_⟩
  · rintro ⟨hs, hp, hq, hr⟩
    rcases h with h | h
    · exact h ⟨hs, hp, hq⟩
    · simp [hr] at h
  · rintro ⟨hs, hp, hq, hb, hr⟩
    rcases h with h | h | h
    · exact h ⟨hs, hp, hq⟩
    · exact h hb
    · simp [hr] at h

/-! ## The write-out (R122, R124) -/

/-- The state in which the write-out's record and index are handed. -/
def State.recordHanded (t : Ticket) (waits : Bool) (s : State) : State :=
  let idx := s.scr.writeIndex
  let base := baseOf s.ptu.windows.image
  { s with
    scr := { s.scr with lastResult := s.scr.lastResult + 1, writeIndex := (idx + 1) % 8, scoreWaiting := waits }
    ptu := s.ptu.startOp .writeOut .resultRecord
      (writesOver (base + 0x400 + 0x100 * idx)
          (resultRecordBytes (s.scr.lastResult + 1) t s.scu s.scr.activeSingers) ++
        writesOver (base + 0x200) (leBytes 4 ((idx + 1) % 8))) }

theorem State.recordHanded_eq (t : Ticket) (waits : Bool) (s : State) :
    s.recordHanded t waits = { s with
      ptu := (s.recordHanded t waits).ptu
      scr := { s.scr with
        lastResult := s.scr.lastResult + 1, writeIndex := (s.scr.writeIndex + 1) % 8
        scoreWaiting := (s.recordHanded t waits).scr.scoreWaiting } } := by
  simp only [State.recordHanded]

theorem State.recordHanded_ptu (t : Ticket) (waits : Bool) (s : State) :
    (s.recordHanded t waits).ptu.handed = s.ptu.handed ++ requestsOf .resultRecord s.ptu.nextOp 0
        (writesOver (baseOf s.ptu.windows.image + 0x400 + 0x100 * s.scr.writeIndex)
            (resultRecordBytes (s.scr.lastResult + 1) t s.scu s.scr.activeSingers) ++
          writesOver (baseOf s.ptu.windows.image + 0x200) (leBytes 4 ((s.scr.writeIndex + 1) % 8))) ∧
      (s.recordHanded t waits).ptu.links = s.ptu.links ∧
      (s.recordHanded t waits).ptu.ops.map (fun x => (x.id, x.kind)) =
        s.ptu.ops.map (fun x => (x.id, x.kind)) ++ [(s.ptu.nextOp, .writeOut)] := by
  simp [State.recordHanded]

/-- A STAFF song's write-out is its record and index; a handset's is answered with the SCORE reply besides. -/
theorem State.beginWriteOut_eq {s : State} {t : Ticket} (ht : s.scu.current = some t) :
    (t.source = .staff → s.beginWriteOut = s.recordHanded t false) ∧
      (∀ h, t.source = .handset h → s.beginWriteOut = (s.recordHanded t true).issueReply h
        (.score t.number t.song (s.scr.activeSingers.map (fun p => ⟨p.1, p.2.totals.score⟩))) true) := by
  unfold State.beginWriteOut
  rw [ht]
  dsimp only
  refine ⟨fun hs => ?_, fun h hs => ?_⟩
  · rw [hs]
    rfl
  · rw [hs]
    rfl

/-- A SCORE reply is waited for unless it is lost (R122, R153). -/
theorem State.issueReply_scoreWaiting {s : State} (h : Fin 16) (b : ReplyBody) (hw : s.scr.scoreWaiting = true) :
    (s.issueReply h b true).scr.scoreWaiting = true ↔ s.rqu.slots.get s.rqu.replyIndex = false := by
  unfold State.issueReply State.placeReply
  dsimp only
  split
  · next e => simp [hw, e]
  · next e => simp [e]

/-! ## The end of the write-out (R19, R20) -/

/-- A staging test clears no flag. -/
theorem State.stageTest_flag {s : State} {i : Nat} (hi : i < 14) (h : s.ctl.flags.getLsbD i = true) :
    (s.stageTest).ctl.flags.getLsbD i = true := by
  have raised : ∀ (e : Event) (t : State), t.ctl.flags.getLsbD i = true → (t.raise e).ctl.flags.getLsbD i = true := by
    intro e t ht
    rw [State.raise, Ctl.raise_flag e t.ctl i hi, ht, Bool.true_or]
  have changed : ∀ (n : Nat) (t : State), t.ctl.flags.getLsbD i = true →
      (t.queueChanged n).ctl.flags.getLsbD i = true := by
    intro n t ht
    unfold State.queueChanged
    dsimp only
    split
    · exact raised _ _ (raised _ _ ht)
    · exact raised _ _ ht
  unfold State.stageTest
  split
  · exact h
  · split
    · dsimp only
      simp only [State.replyToSource_frame]
      exact raised _ _ (changed _ _ h)
    · exact h

/-- The write-out's end while the SCORE reply is waited for has not come: nothing changes (log 3). -/
theorem exec_writeOutEnd_waits {s : State} (h : s.scr.scoreWaiting = true) : exec .writeOutEnd s = .next s.flush := by
  have stays : s.writeOutEnd = s := by
    unfold State.writeOutEnd
    split
    · rfl
    · exact if_neg (by simp [h])
  show Host.Outcome.next (s.whenRoom State.writeOutEnd).flush = _
  rcases State.whenRoom_cases State.writeOutEnd s with e | ⟨e, -⟩
  · rw [e, stays]
  · rw [e]

theorem exec_writeOutEnd {s : State} {o : ClientOp} (ho : s.ptu.firstEnded (fun k => k == .writeOut) = some o)
    (hl : s.ptu.lineFull = false) (hw : s.scr.scoreWaiting = false) (hp : s.scu.phase = some .writeOut) :
    exec .writeOutEnd s = .next (State.endWriteOut { s with ptu := s.ptu.dropEnded o.id }).flush := by
  show Host.Outcome.next (s.whenRoom State.writeOutEnd).flush = _
  rw [State.whenRoom_room _ hl, State.writeOutEnd, ho]
  dsimp only
  rw [if_pos ⟨hw, hp⟩]

/-- Settles O46. -/
theorem writeOutBeginsAndEnds : Obligations.WriteOutBeginsAndEnds := by
  unfold Obligations.WriteOutBeginsAndEnds
  refine ⟨?_, ?_, ?_, ?_⟩
  · intro s goes
    refine ⟨s.leaveSong, rfl, rfl, rfl, rfl, rfl, rfl, fun i => s.scr.unlink_get i, rfl, ?_⟩
    rw [State.leaveSong]
    exact s.ptu.orphan_lists
  · intro s due
    obtain ⟨waits, begins⟩ := s.drainCheck_iff
    exact ⟨waits, begins, s.drainReports⟩
  · intro s t ht n idx base singers
    obtain ⟨staff, handset⟩ := State.beginWriteOut_eq ht
    obtain ⟨w, hw⟩ : ∃ w, w = decide (t.source ≠ .staff) := ⟨_, rfl⟩
    obtain ⟨handed, links, ops⟩ := s.recordHanded_ptu t w
    refine ⟨s.recordHanded t w, resultRecordBytes n t s.scu singers, padTo_length _ _, handed,
      s.recordHanded_eq t w, links, ops, ?_, fun j i g hj => ?_, fun hs => ?_, fun h hs => ?_⟩
    · rw [resultRecordBytes_head, resultHead]
      cases s.scu.seeked <;> cases s.scu.stopped <;> simp [signedBytes, bit01]
    · rw [resultRecordBytes_part n t s.scu s.scr.activeSingers_length hj, singerPartBytes_eq]
    · simp only [hs, ne_eq, not_true_eq_false, decide_false] at hw
      subst hw
      exact ⟨rfl, staff hs⟩
    · have hw : w = true := by simp [hw, hs]
      subst hw
      refine ⟨rfl, handset h hs, ?_⟩
      rw [handset h hs]
      exact State.issueReply_scoreWaiting (s := s.recordHanded t true) h _ rfl
  · intro s o ho hs hp
    refine ⟨exec_writeOutEnd_waits, fun hw hl => ?_⟩
    generalize hb : State.stageTest { s with
      ptu := s.ptu.dropEnded o.id, ctl := s.ctl.raise .songEnded, scu := { s.scu with phase := some .banner } } = b
    have ended : State.endWriteOut { s with ptu := s.ptu.dropEnded o.id } =
        b.loadBanner (if s.scu.stopped then 0 else s.scu.bannerFrames) := by rw [← hb]; rfl
    obtain ⟨bp, bc, bl, bo, bg, bv, bj, br, bk⟩ := State.stageTest_frame { s with
      ptu := s.ptu.dropEnded o.id, ctl := s.ctl.raise .songEnded, scu := { s.scu with phase := some .banner } }
    rw [hb] at bp bc bl bo bg bv bj br bk
    have flag : s.ctl.enables.getLsbD 3 = true → b.ctl.flags.getLsbD 3 = true := by
      intro he
      rw [← hb]
      refine State.stageTest_flag (by decide) ?_
      rw [Ctl.raise_flag .songEnded s.ctl 3 (by decide)]
      simp [Event.bit, he]
    have exec := exec_writeOutEnd ho hl hw hp
    rw [ended] at exec
    by_cases banner : s.scu.stopped = false ∧ 0 < s.scu.bannerFrames
    · obtain ⟨hst, hbf⟩ := banner
      have idle : ¬ (s.scu.stopped = true ∨ s.scu.bannerFrames = 0) := by simp [hst]; omega
      rw [State.loadBanner, if_neg (by simp [hst]; omega)] at exec
      refine ⟨_, exec, flag, bo, bg, bp, bk, ⟨fun _ _ => ?_, fun h => absurd h idle⟩, fun _ _ => ?_, fun h => absurd h idle⟩
      · simp [hst]
      · refine ⟨?_, bl, bj, bv, br⟩
        simp [bc, hst]
    · have idle : s.scu.stopped = true ∨ s.scu.bannerFrames = 0 := by
        cases h : s.scu.stopped
        · exact .inr (by simpa [h] using banner)
        · exact .inl rfl
      have zero : (if s.scu.stopped = true then 0 else s.scu.bannerFrames) = 0 := by
        split
        · rfl
        · next h => exact idle.resolve_left h
      rw [State.loadBanner, if_pos zero] at exec
      refine ⟨b.leaveSong.stageTest, exec, fun he => State.stageTest_flag (by decide) (flag he), ?_, ?_, ?_, ?_,
        ⟨fun h g => absurd ⟨h, g⟩ banner, fun _ => rfl⟩, fun h g => absurd ⟨h, g⟩ banner, fun _ => ?_⟩
      · simp [bo]
      · simp [bg]
      · simp [bp]
      · simp [bk]
      · simp only [State.stageTest_frame]
        refine ⟨?_, rfl, rfl, rfl, fun i => ?_⟩
        · rw [State.leaveSong, bc]
        · rw [← br]
          exact b.scr.unlink_get i

end Sys2Proof.Machine
end

