-- ==== Sys2Proof/Proofs/FrameLatch.lean ====
section
/-! A scroll that begins after the SONG_MS in force. The model's scroll offset (R36) is a natural number, 0 until the scroll
begins; the obligation's is an integer, below 0 until then, so that the two give the band different rows. -/

namespace Sys2Proof.Machine

/-- A display read that stands at the first pixel of the frame, over a band of one row at scanline 8 whose scroll of 400 ms
begins at 1 ms, while SONG_MS is 0. -/
def scrollAhead : State :=
  { scu := { state := .playing }
    lsq := { band := [0], scroll := some 1 }
    ptu := { windows := { frame := some ⟨0, 1024⟩ }, placed := [.pass ⟨⟨0, 0, .read 1⟩, .display⟩ 0] }
    ctl := { setup := some { height := 4, stride := 256, bandY := 8, bandRows := 1, scrollMs := 400 } } }

/-- The top rows of the record that stands after a command. -/
def latchedTops : Host.Outcome State Fault Refusal → Option (List Int)
  | .next t => t.ovc.latch.map fun l => l.entries.map BandEntry.top
  | _ => none

/-- The scroll has not begun: the row stands one whole row, 48 scanlines, below its place. -/
theorem latchedTops_scrollAhead : latchedTops (exec (.displayBeat ⟨0, .okay⟩) scrollAhead) = some [8 + 48] := by
  decide

/-- Refutes O34: the obligation takes its scroll offset, `48 * (SONG_MS - start) / SCROLL_MS`, in the integers, where it
is -1 at 1 ms before the start; its row then stands at scanline 57 and the record's at 56. -/
theorem not_frameLatchTakesTheRecord : ¬ Obligations.FrameLatchTakesTheRecord := by
  unfold Obligations.FrameLatchTakesTheRecord
  rintro ⟨latch, -⟩
  obtain ⟨u, v, l, next, -, record, -, -, -, -, -, -, entries, -⟩ := latch ⟨0, .okay⟩ scrollAhead
    ⟨⟨0, 0, .read 1⟩, .display⟩ 0 [] ⟨0, 1024⟩ rfl rfl rfl rfl (by decide) (by decide)
  have stated : l.entries.map BandEntry.top = [8 + 49] := by
    rw [entries]
    decide
  have latched : latchedTops (exec (.displayBeat ⟨0, .okay⟩) scrollAhead) = some (l.entries.map BandEntry.top) := by
    have kept : u.flush.ovc = u.ovc := by simp
    rw [next, latchedTops, kept, record]
    rfl
  rw [latchedTops_scrollAhead, stated] at latched
  exact absurd latched (by decide)

end Sys2Proof.Machine
end

