-- ==== Sys2Proof/Proofs/LineLoads.lean ====
section
/-! The end of a line load (R32, R34, R35): the slot it fills, and where its glyphs stand. -/

namespace Sys2Proof.Machine

/-! ## Where a line's glyphs stand (R35) -/

theorem lineWidth_eq_sum (gs : List Glyph) : lineWidth gs = (gs.map Glyph.advance).sum := by
  rw [lineWidth, List.sum_eq_foldl, List.foldl_map]

/-- A CENTRE line that fits stands in the band's middle, any other line at the band's left edge. -/
theorem leftEdge_eq (prm : Setup) (align : Align) (w : Nat) :
    leftEdge prm align w =
      if align = .centre ∧ w ≤ prm.bandW then prm.bandX + (prm.bandW - w) / 2 else prm.bandX := by
  cases align <;> simp [leftEdge]

@[simp] theorem positionsFrom_length (x : Nat) (gs : List Glyph) : (positionsFrom x gs).length = gs.length + 1 := by
  induction gs generalizing x with
  | nil => rfl
  | cons g rest ih => simp [positionsFrom, ih]

/-- P(i) is the left edge and the advances before glyph `i`. -/
theorem positionsFrom_getD (x d : Nat) (gs : List Glyph) {i : Nat} (hi : i ≤ gs.length) :
    (positionsFrom x gs).getD i d = x + ((gs.take i).map Glyph.advance).sum := by
  induction gs generalizing x i with
  | nil =>
    obtain rfl : i = 0 := by simpa using hi
    rfl
  | cons g rest ih =>
    cases i with
    | zero => rfl
    | succ i => simpa [positionsFrom, Nat.add_assoc] using ih (x + g.advance) (by simpa using hi)

/-! ## The slot filled (R32) -/

/-- The slot's state once its load has ended: LOADED where it was LOADING. -/
theorem LineSlot.fill_state (prm : Setup) (r : LineRecord) (c : LineSlot) :
    (c.state = .loading → (c.fill prm r).state = .loaded) ∧ (c.state ≠ .loading → (c.fill prm r).state = c.state) :=
  ⟨fun h => if_pos h, fun h => if_neg h⟩

/-- Every P(i) of a filled slot. -/
theorem LineSlot.fill_pos (prm : Setup) (r : LineRecord) (c : LineSlot) {i : Nat} (hi : i ≤ r.glyphs.length) :
    (c.fill prm r).pos i = (c.fill prm r).wiped + ((r.glyphs.take i).map Glyph.advance).sum :=
  positionsFrom_getD _ _ _ hi

/-! ## What an ended load leaves -/

/-- Outside SEEKING, with no rebuild under way, the tests for a rebuild's end change nothing (R16, R41, R106). -/
theorem State.rebuildEnds_none {s : State} (hs : s.scu.state ≠ .seeking) (hl : s.lsq.rebuild = none)
    (hp : s.pje.rebuild = false) : s.rebuildEnds = s := by
  have lsq : s.lsqRebuildEnd = s := by rw [State.lsqRebuildEnd, hl]
  have pje : s.pjeRebuildEnd = s := if_neg fun c => by simp [hp] at c
  rw [State.rebuildEnds, lsq, pje, State.leaveSeeking_stays (.inl hs)]

/-- The state in which the load of slot `k` has ended with its data or a failure, before the tests for the rebuilds'
ends. -/
def State.lineLoaded (k : Fin 8) (data : Option (List Beat)) (s : State) : State :=
  let c := s.lsq.slots.get k
  match data with
  | some bs =>
    { s with lsq := s.lsq.setSlot k (c.fill s.prm (readLine bs ((s.lsq.lineBase + 512 * c.line) % 16))) }
  | none => State.lineLateRaised (!c.late) { s with lsq := s.lsq.setSlot k (c.fail s.prm) }

/-- A failed load touches its slot, the count of late lines and the flags. -/
theorem State.lineLoaded_none (k : Fin 8) (s : State) :
    let c := s.lsq.slots.get k
    s.lineLoaded k none = { s with
      lsq := { s.lsq.setSlot k (c.fail s.prm) with lineLate := s.lsq.lineLate + (if c.late then 0 else 1) }
      ctl := s.ctl.raise .lineLate } := by
  intro c
  unfold State.lineLoaded State.lineLateRaised
  cases h : c.late
  · simp only [c, h]
    rfl
  · simp [c, h, State.raise, Lsq.setSlot]

theorem exec_lineLoadComplete {s : State} {o : ClientOp} {k : Fin 8}
    (ho : s.ptu.firstEnded (fun x => x == .line) = some o) (hk : s.lsq.slotLoading o.id = some k)
    (hl : s.ptu.lineFull = false) :
    exec .lineLoadComplete s =
      .next (State.lineLoaded k o.data { s with ptu := s.ptu.dropEnded o.id }).rebuildEnds.flush := by
  show Host.Outcome.next (s.whenRoom State.lineLoadComplete).flush = _
  rw [State.whenRoom_room _ hl, State.lineLoadComplete, ho]
  dsimp only
  rw [State.endLineLoad, hk]
  rfl

/-- Settles O41: the load's data, or its failure, says what the slot becomes; the rest is its frame. -/
theorem lineLoadsFillTheirSlot : Obligations.LineLoadsFillTheirSlot := by
  unfold Obligations.LineLoadsFillTheirSlot
  intro s o k ho hk hl c
  refine ⟨State.lineLoaded k o.data { s with ptu := s.ptu.dropEnded o.id }, exec_lineLoadComplete ho hk hl, ?_⟩
  cases hd : o.data with
  | some bs =>
    obtain ⟨loading, other⟩ := LineSlot.fill_state s.prm (readLine bs ((s.lsq.lineBase + 512 * c.line) % 16)) c
    have slot : (State.lineLoaded k (some bs) { s with ptu := s.ptu.dropEnded o.id }).lsq.slots.get k =
        c.fill s.prm (readLine bs ((s.lsq.lineBase + 512 * c.line) % 16)) := vset_get_self _ _ _
    rw [slot]
    refine ⟨fun hs hr hp => State.rebuildEnds_none hs hr hp, rfl, fun j hj => vset_get_ne _ _ fun e => hj e.symm, rfl,
      rfl, rfl, rfl, rfl, rfl, rfl, rfl, loading, other, fun _ e => ?_, nofun⟩
    cases e
    intro r width x v
    have edge : v.wiped = x := by
      show leftEdge s.prm r.align (lineWidth r.glyphs) = x
      rw [leftEdge_eq, lineWidth_eq_sum]
    refine ⟨rfl, rfl, rfl, rfl, edge, rfl, positionsFrom_length _ _, fun i hi => ?_, rfl, rfl⟩
    rw [← edge]
    exact LineSlot.fill_pos s.prm r c hi
  | none =>
    obtain ⟨loading, other⟩ := LineSlot.fill_state s.prm ⟨c.part, c.align, [], []⟩ c
    have slot : (State.lineLoaded k none { s with ptu := s.ptu.dropEnded o.id }).lsq.slots.get k = c.fail s.prm := by
      rw [State.lineLoaded_none]
      exact vset_get_self _ _ _
    rw [slot, State.lineLoaded_none]
    exact ⟨fun hs hr hp => State.rebuildEnds_none hs hr hp, rfl, fun j hj => vset_get_ne _ _ fun e => hj e.symm, rfl,
      rfl, rfl, rfl, rfl, rfl, rfl, rfl, loading, other, nofun, fun _ => ⟨rfl, rfl, rfl, rfl, rfl⟩⟩

end Sys2Proof.Machine
end

