-- ==== Sys2Proof/Proofs/FetchedCues.lean ====
section
/-! The end of a cue fetch outside a rescan (R24 to R27): the cue passed over, held, or queued with its slot claimed
(R31), and the next fetch. -/

namespace Sys2Proof.Machine

/-! ## The next fetch (R25) -/

/-- The conditions under which a cue fetch is issued. -/
def State.issuesFetch (s : State) : Prop :=
  s.lsq.fetch = none ∧ s.lsq.held = none ∧ s.lsq.cursor < s.lsq.cueCount ∧ s.lsq.queue.length < 8 ∧
    s.lsq.endTaken = false ∧ (∀ c ∈ s.lsq.queue, ∀ n, c.cue.kind = .lineIn n → c.slot ≠ none) ∧
    (s.scu.state = .playing ∨ s.scu.state = .seeking)

theorem Lsq.unbound_false_iff (q : Lsq) :
    q.unbound = false ↔ ∀ c ∈ q.queue, ∀ n, c.cue.kind = .lineIn n → c.slot ≠ none := by
  rw [← Bool.not_eq_true, Lsq.unbound_iff]
  constructor
  · exact fun h c hc n hn hs => h ⟨c, hc, hs, n, hn⟩
  · exact fun h ⟨c, hc, hs, n, hn⟩ => h c hc n hn hs

theorem SongState.fetchesCues_iff (x : SongState) : x.fetchesCues = true ↔ x = .playing ∨ x = .seeking := by
  cases x <;> simp [SongState.fetchesCues]

theorem State.tryCueFetch_iff (s : State) :
    (s.issuesFetch → s.tryCueFetch = { s with
      lsq := { s.lsq with fetch := some s.ptu.nextOp }
      ptu := s.ptu.startOp .cue .cueFetch (readsOver (s.lsq.cueBase + 8 * s.lsq.cursor) 8) }) ∧
      (¬ s.issuesFetch → s.tryCueFetch = s) := by
  have cond : (s.lsq.fetch = none ∧ s.lsq.held = none ∧ s.lsq.cursor < s.lsq.cueCount ∧ s.lsq.queue.length < 8 ∧
      s.lsq.unbound = false ∧ s.lsq.endTaken = false ∧ s.scu.state.fetchesCues = true) ↔ s.issuesFetch := by
    rw [Lsq.unbound_false_iff, SongState.fetchesCues_iff, State.issuesFetch]
    tauto
  exact ⟨fun h => if_pos (cond.mpr h), fun h => if_neg fun c => h (cond.mp c)⟩

/-- A fetch issued names itself and changes nothing else of the sequencer. -/
theorem State.tryCueFetch_lsq (s : State) :
    (s.tryCueFetch).lsq = { s.lsq with fetch := (s.tryCueFetch).lsq.fetch } := by
  unfold State.tryCueFetch
  split <;> rfl

/-- With no fetch in flight, one is in flight afterwards exactly when it was issued. -/
theorem State.tryCueFetch_isSome {s : State} (h : s.lsq.fetch = none) :
    (s.tryCueFetch).lsq.fetch.isSome = true ↔ s.issuesFetch := by
  obtain ⟨issued, stays⟩ := s.tryCueFetch_iff
  by_cases hi : s.issuesFetch
  · simp [issued hi, hi]
  · simp [stays hi, hi, h]

theorem State.tryCueFetch_handed (s : State) : s.ptu.handed <+: (s.tryCueFetch).ptu.handed := by
  unfold State.tryCueFetch
  split
  · simp
  · exact ⟨[], List.append_nil _⟩

/-! ## A cue that joins the queue (R26, R31) -/

/-- A claim hands the reads of its line (R32). -/
theorem State.claimSlot_handed (k : Fin 8) (st : SlotState) (line : Nat) (s : State) :
    (s.claimSlot k st line).ptu.handed = s.ptu.handed ++
      requestsOf .lineLoad s.ptu.nextOp 0 (readsOver (s.lsq.lineBase + 512 * line) 512) :=
  Ptu.startOp_handed ..

/-- A cue `c` at the queue's tail, bound to `slot`, before any slot is claimed. -/
def State.cueJoined (c : Cue) (slot : Option (Fin 8)) (s : State) : State :=
  { s with lsq := { s.lsq with
    queue := s.lsq.queue ++ [⟨c, slot⟩], pred := some c.time
    badCue := if s.lsq.pred.any (fun p => decide (c.time < p)) then s.lsq.badCue + 1 else s.lsq.badCue } }

theorem State.takeIn_eq (c : Cue) (s : State) :
    (c.time ≤ s.songMs + s.prm.lookaheadMs → s.lsq.queue.length < 8 → s.takeIn c = (s.cueJoined c none).bindFree) ∧
      (s.songMs + s.prm.lookaheadMs < c.time ∨ 8 ≤ s.lsq.queue.length →
        s.takeIn c = { s with lsq := { s.lsq with held := some c } }) := by
  unfold State.takeIn
  exact ⟨fun ht hq => if_pos ⟨ht, hq⟩, fun h => if_neg fun ⟨ht, hq⟩ => by omega⟩

/-- A cue out of order is counted. -/
theorem State.cueJoined_badCue (c : Cue) (slot : Option (Fin 8)) (s : State) :
    (∀ p, s.lsq.pred = some p → c.time < p → (s.cueJoined c slot).lsq.badCue = s.lsq.badCue + 1) ∧
      ((∀ p, s.lsq.pred = some p → p ≤ c.time) → (s.cueJoined c slot).lsq.badCue = s.lsq.badCue) := by
  refine ⟨fun p hp hlt => if_pos (by simp [hp, hlt]), fun h => if_neg ?_⟩
  rw [Option.any_eq_true]
  rintro ⟨p, hp, hlt⟩
  have := h p hp
  simp only [decide_eq_true_eq] at hlt
  omega

/-- The oldest unbound LINE_IN claims the lowest FREE slot; those behind it are offered the slots that are left. -/
theorem State.bindFree_first {s : State} {k : Fin 8} {n : Nat} {front back : List QueuedCue} {c : QueuedCue}
    (hk : (s.lsq.slots.get k).state = .free) (hlow : ∀ j, j < k → (s.lsq.slots.get j).state ≠ .free)
    (hq : s.lsq.queue = front ++ c :: back) (hf : ∀ x ∈ front, ¬ x.unbound) (hs : c.slot = none)
    (hn : c.cue.kind = .lineIn n) :
    s.bindFree = State.bindUnbound 7 (State.claimSlot k .loading n
      { s with lsq := { s.lsq with queue := front ++ { c with slot := some k } :: back } }) := by
  have first : firstUnbound s.lsq.queue = some n := by
    rw [hq, firstUnbound_append hf, firstUnbound, hn, hs]
  have bound : bindFirst k s.lsq.queue = front ++ { c with slot := some k } :: back := by
    rw [hq, bindFirst_append k hf, bindFirst, hn, hs]
  rw [← bound]
  exact State.bindUnbound_claims (Lsq.freeSlot_first hk hlow) first 7

/-- A LINE_IN joined behind bound cues claims the lowest FREE slot, and none is left to claim. -/
theorem State.cueJoined_claims {s : State} {c : Cue} {k : Fin 8} {n : Nat}
    (hk : (s.lsq.slots.get k).state = .free) (hlow : ∀ j, j < k → (s.lsq.slots.get j).state ≠ .free)
    (hn : c.kind = .lineIn n) (hb : ∀ x ∈ s.lsq.queue, ¬ x.unbound) :
    (s.cueJoined c none).bindFree = State.claimSlot k .loading n (s.cueJoined c (some k)) := by
  rw [State.bindFree_first (s := s.cueJoined c none) (c := ⟨c, none⟩) hk hlow rfl hb rfl hn]
  refine State.bindUnbound_stops (.inr ((firstUnbound_none_iff _).mpr fun x hx => ?_)) 7
  rcases List.mem_append.mp hx with hx | hx
  · exact hb x hx
  · obtain rfl := List.mem_singleton.mp hx
    exact fun ⟨hs, _⟩ => nomatch hs

/-- Nothing is claimed where no slot is FREE or no LINE_IN waits. -/
theorem State.cueJoined_unclaimed {s : State} {c : Cue}
    (h : (∀ k, (s.lsq.slots.get k).state ≠ .free) ∨
      ((∀ n, c.kind ≠ .lineIn n) ∧ ∀ x ∈ s.lsq.queue, ¬ x.unbound)) :
    (s.cueJoined c none).bindFree = s.cueJoined c none := by
  refine State.bindUnbound_stops ?_ 8
  rcases h with h | ⟨hn, hb⟩
  · exact .inl (Lsq.freeSlot_eq_none h)
  · refine .inr ((firstUnbound_none_iff _).mpr fun x hx => ?_)
    rcases List.mem_append.mp hx with hx | hx
    · exact hb x hx
    · obtain rfl := List.mem_singleton.mp hx
      exact fun ⟨_, n, hk⟩ => hn n hk

/-! ## The end of the fetch (R24 to R27) -/

/-- The cursor moved on past the cue whose fetch has ended. -/
def State.cuePassed (o : ClientOp) (s : State) : State :=
  { s with ptu := s.ptu.dropEnded o.id, lsq := { s.lsq with cursor := s.lsq.cursor + 1, fetch := none } }

/-- The state in which the fetched cue has been passed over, held or queued, before the next fetch. -/
def State.cueTaken (o : ClientOp) (s : State) : State :=
  match o.data with
  | none => s.cuePassed o
  | some bs =>
    match readCue bs ((s.lsq.cueBase + 8 * s.lsq.cursor) % 16) s.lsq.lineCount with
    | none => { s.cuePassed o with lsq := { (s.cuePassed o).lsq with badCue := s.lsq.badCue + 1 } }
    | some c => (s.cuePassed o).takeIn c

theorem exec_cueFetchComplete {s : State} {o : ClientOp} (ho : s.ptu.firstEnded (fun k => k == .cue) = some o)
    (hr : ∀ r, s.lsq.rebuild = some r → r.scanning = false) (hl : s.ptu.lineFull = false) :
    exec .cueFetchComplete s = .next (s.cueTaken o).tryCueFetch.rebuildEnds.flush := by
  show Host.Outcome.next (s.whenRoom State.cueFetchComplete).flush = _
  rw [State.whenRoom_room _ hl, State.cueFetchComplete, ho]
  dsimp only
  unfold State.endCueFetch
  dsimp only
  split
  · next r h => rw [if_neg (by simp [hr r h])]; rfl
  · rfl

theorem State.cueTaken_eq (o : ClientOp) (s : State) :
    (o.data = none → s.cueTaken o = s.cuePassed o) ∧
      ∀ bs, o.data = some bs →
        (readCue bs ((s.lsq.cueBase + 8 * s.lsq.cursor) % 16) s.lsq.lineCount = none → s.cueTaken o =
          { s.cuePassed o with lsq := { (s.cuePassed o).lsq with badCue := s.lsq.badCue + 1 } }) ∧
        ∀ c, readCue bs ((s.lsq.cueBase + 8 * s.lsq.cursor) % 16) s.lsq.lineCount = some c →
          s.cueTaken o = (s.cuePassed o).takeIn c := by
  unfold State.cueTaken
  exact ⟨fun hd => by rw [hd], fun bs hd => ⟨fun hc => by simp only [hd, hc], fun c hc => by simp only [hd, hc]⟩⟩

/-- What a fetched cue leaves of the sequencer: all but the queue, the held cue, the counter, the predecessor's time and
the slots. -/
theorem State.cueTaken_lsq (o : ClientOp) (s : State) :
    (s.cueTaken o).lsq = { s.lsq with
      cursor := s.lsq.cursor + 1, fetch := none, queue := (s.cueTaken o).lsq.queue, held := (s.cueTaken o).lsq.held
      badCue := (s.cueTaken o).lsq.badCue, pred := (s.cueTaken o).lsq.pred, slots := (s.cueTaken o).lsq.slots } := by
  unfold State.cueTaken
  split
  · rfl
  · split
    · rfl
    · next c _ =>
      obtain ⟨joins, holds⟩ := State.takeIn_eq c (s.cuePassed o)
      by_cases h : c.time ≤ (s.cuePassed o).songMs + (s.cuePassed o).prm.lookaheadMs ∧
          (s.cuePassed o).lsq.queue.length < 8
      · rw [joins h.1 h.2, (State.bindFree_lsq _).1]
        rfl
      · rw [holds (by omega)]
        rfl

theorem State.cueTaken_frame (o : ClientOp) (s : State) :
    (s.cueTaken o).pending = s.pending ∧ (s.cueTaken o).scu = s.scu ∧ (s.cueTaken o).ovc = s.ovc ∧
      (s.cueTaken o).gxt = s.gxt ∧ (s.cueTaken o).vin = s.vin ∧ (s.cueTaken o).pje = s.pje ∧
      (s.cueTaken o).scr = s.scr ∧ (s.cueTaken o).rqu = s.rqu ∧ (s.cueTaken o).ctl = s.ctl ∧
      (s.cueTaken o).ptu.links = s.ptu.links := by
  unfold State.cueTaken
  split
  · simp [State.cuePassed]
  · split <;> simp [State.cuePassed]

/-- The state in which the fetch has ended and the next has been issued, before the tests for the rebuilds' ends. -/
def State.cueEnded (o : ClientOp) (s : State) : State := (s.cueTaken o).tryCueFetch

theorem State.cueEnded_frame (o : ClientOp) (s : State) :
    (s.cueEnded o).pending = s.pending ∧ (s.cueEnded o).scu = s.scu ∧ (s.cueEnded o).ovc = s.ovc ∧
      (s.cueEnded o).gxt = s.gxt ∧ (s.cueEnded o).vin = s.vin ∧ (s.cueEnded o).pje = s.pje ∧
      (s.cueEnded o).scr = s.scr ∧ (s.cueEnded o).rqu = s.rqu ∧ (s.cueEnded o).ctl = s.ctl ∧
      (s.cueEnded o).ptu.links = s.ptu.links := by
  have := s.cueTaken_frame o
  simpa [State.cueEnded] using this

/-- What the cue itself says stands as it was taken; of the rest the cursor has moved on. -/
theorem State.cueEnded_lsq (o : ClientOp) (s : State) :
    ((s.cueEnded o).lsq.queue = (s.cueTaken o).lsq.queue ∧ (s.cueEnded o).lsq.held = (s.cueTaken o).lsq.held ∧
      (s.cueEnded o).lsq.badCue = (s.cueTaken o).lsq.badCue ∧ (s.cueEnded o).lsq.pred = (s.cueTaken o).lsq.pred ∧
      (s.cueEnded o).lsq.slots = (s.cueTaken o).lsq.slots) ∧
    (s.cueEnded o).lsq.cursor = s.lsq.cursor + 1 ∧ (s.cueEnded o).lsq.band = s.lsq.band ∧
      (s.cueEnded o).lsq.scroll = s.lsq.scroll ∧ (s.cueEnded o).lsq.rebuild = s.lsq.rebuild := by
  unfold State.cueEnded
  rw [State.tryCueFetch_lsq]
  refine ⟨⟨rfl, rfl, rfl, rfl, rfl⟩, ?_⟩
  rw [s.cueTaken_lsq o]
  exact ⟨rfl, rfl, rfl, rfl⟩

/-- The next fetch is in flight exactly when its conditions hold. -/
theorem State.cueEnded_fetches (o : ClientOp) (s : State) :
    let u := s.cueEnded o
    u.lsq.fetch.isSome = true ↔ u.lsq.cursor < u.lsq.cueCount ∧ u.lsq.held = none ∧ u.lsq.queue.length < 8 ∧
      u.lsq.endTaken = false ∧ (∀ c ∈ u.lsq.queue, ∀ n, c.cue.kind = .lineIn n → c.slot ≠ none) ∧
      (s.scu.state = .playing ∨ s.scu.state = .seeking) := by
  intro u
  have none : (s.cueTaken o).lsq.fetch = none := by rw [s.cueTaken_lsq o]
  have scu := (s.cueTaken_frame o).2.1
  have same : u.lsq = { (s.cueTaken o).lsq with fetch := u.lsq.fetch } := (s.cueTaken o).tryCueFetch_lsq
  have issued : u.lsq.fetch.isSome = true ↔ (s.cueTaken o).issuesFetch := State.tryCueFetch_isSome none
  rw [issued, same, State.issuesFetch, scu]
  simp only [none]
  tauto

/-- A cue queued (R26, R31): what it leaves of the queue and the slots, by whether it finds a slot to claim. -/
theorem State.cueEnded_joins {s : State} {o : ClientOp} {c : Cue}
    (h : s.cueTaken o = ((s.cuePassed o).cueJoined c none).bindFree) :
    let u := s.cueEnded o
    let v := s.cuePassed o
    let free := fun k : Fin 8 => (s.lsq.slots.get k).state = .free
    u.lsq.badCue = (v.cueJoined c none).lsq.badCue ∧ u.lsq.pred = some c.time ∧ u.lsq.held = s.lsq.held ∧
      u.lsq.queue.map QueuedCue.cue = s.lsq.queue.map QueuedCue.cue ++ [c] ∧
      u = (v.cueJoined c none).bindFree.tryCueFetch ∧
      ((∀ k, ¬ free k) ∨ ((∀ n, c.kind ≠ .lineIn n) ∧ ∀ x ∈ s.lsq.queue, ¬ x.unbound) →
        u = (v.cueJoined c none).tryCueFetch ∧ u.lsq.queue = s.lsq.queue ++ [⟨c, none⟩] ∧ u.lsq.slots = s.lsq.slots) ∧
      (∀ k n, free k → (∀ j, j < k → ¬ free j) → c.kind = .lineIn n → (∀ x ∈ s.lsq.queue, ¬ x.unbound) →
        u = (State.claimSlot k .loading n (v.cueJoined c (some k))).tryCueFetch ∧
        u.lsq.queue = s.lsq.queue ++ [⟨c, some k⟩] ∧
        u.lsq.slots.get k = { s.lsq.slots.get k with
          state := .loading, line := n, late := false, wiped := s.prm.bandX, load := some s.ptu.nextOp
          filled := false } ∧
        (∀ j, j ≠ k → u.lsq.slots.get j = s.lsq.slots.get j) ∧
        ∃ fetch, u.ptu.handed = s.ptu.handed ++ requestsOf .lineLoad s.ptu.nextOp 0
          (readsOver (s.lsq.lineBase + 512 * n) 512) ++ fetch) := by
  intro u v free
  obtain ⟨⟨queue, held, bad, pred, slots⟩, -⟩ := s.cueEnded_lsq o
  obtain ⟨bl, bq, -⟩ := State.bindFree_lsq (v.cueJoined c none)
  have hu : u = (v.cueJoined c none).bindFree.tryCueFetch := congrArg State.tryCueFetch h
  refine ⟨?_, ?_, ?_, ?_, hu, fun hn => ?_, fun k n hk hlow hn hb => ?_⟩
  · rw [bad, h, bl]
  · rw [pred, h, bl]
    rfl
  · rw [held, h, bl]
    rfl
  · rw [queue, h, bq]
    simp [v, State.cueJoined, State.cuePassed]
  · have same : (v.cueJoined c none).bindFree = v.cueJoined c none := State.cueJoined_unclaimed hn
    rw [same] at hu h
    exact ⟨hu, by rw [queue, h]; rfl, by rw [slots, h]; rfl⟩
  · have claims : (v.cueJoined c none).bindFree = State.claimSlot k .loading n (v.cueJoined c (some k)) :=
      State.cueJoined_claims hk hlow hn hb
    rw [claims] at hu h
    refine ⟨hu, by rw [queue, h]; rfl, ?_, fun j hj => ?_, ?_⟩
    · rw [slots, h, State.claimSlot_get, if_pos rfl]
      rfl
    · rw [slots, h, State.claimSlot_get, if_neg fun e => hj e.symm]
      rfl
    · obtain ⟨fetch, hf⟩ := (State.claimSlot k .loading n (v.cueJoined c (some k))).tryCueFetch_handed
      refine ⟨fetch, ?_⟩
      rw [hu, ← hf, State.claimSlot_handed]
      rfl

/-- Settles O40: the conditions of a fetch, and the three ways of a fetched cue, each with what it leaves of the queue,
the held cue, the counter and the slots. -/
theorem fetchedCuesAreQueuedOrHeld : Obligations.FetchedCuesAreQueuedOrHeld := by
  unfold Obligations.FetchedCuesAreQueuedOrHeld
  refine ⟨fun s => ?_, fun s o ho hr hl => ?_⟩
  · obtain ⟨issued, stays⟩ := s.tryCueFetch_iff
    refine ⟨stays, fun h => ?_⟩
    rw [issued h]
    exact ⟨rfl, by simp, by simp, by simp⟩
  · intro off
    obtain ⟨fp, fs, fo, fg, fv, fj, fr, fq, fc, fl⟩ := s.cueEnded_frame o
    obtain ⟨⟨queue, held, bad, -⟩, cursor, band, scroll, rebuild⟩ := s.cueEnded_lsq o
    obtain ⟨unread, read⟩ := State.cueTaken_eq o s
    have passed : ∀ bs c, o.data = some bs → readCue bs off s.lsq.lineCount = some c →
        s.songMs + s.prm.lookaheadMs < c.time ∨ 8 ≤ s.lsq.queue.length →
        s.cueTaken o = { s.cuePassed o with lsq := { (s.cuePassed o).lsq with held := some c } } :=
      fun bs c hd hc h => ((read bs hd).2 c hc).trans ((State.takeIn_eq c (s.cuePassed o)).2 h)
    have joins : ∀ bs c, o.data = some bs → readCue bs off s.lsq.lineCount = some c →
        c.time ≤ s.songMs + s.prm.lookaheadMs → s.lsq.queue.length < 8 →
        s.cueTaken o = ((s.cuePassed o).cueJoined c none).bindFree :=
      fun bs c hd hc ht hq => ((read bs hd).2 c hc).trans ((State.takeIn_eq c (s.cuePassed o)).1 ht hq)
    refine ⟨s.cueEnded o, exec_cueFetchComplete ho hr hl,
      fun hs hl hp => State.rebuildEnds_none (by rwa [fs]) (by rwa [rebuild]) (by rwa [fj]), cursor,
      fs, fo, fg, fv, fj, fr, fq, fc, fp, fl, band, scroll, rebuild, s.cueEnded_fetches o, fun hd => ?_,
      fun bs hd hc => ?_, fun bs c hd hc => ⟨fun ht hq => ?_, fun h => ?_⟩, fun hd => ?_, fun bs hd hc => ?_,
      fun bs c hd hc => ⟨fun h => ?_, fun ht hq => ?_⟩⟩
    · rw [queue, held, bad, unread hd]
      exact ⟨rfl, rfl, rfl⟩
    · rw [queue, held, bad, (read bs hd).1 hc]
      exact ⟨rfl, rfl, rfl⟩
    · obtain ⟨counted, at_, holds, cues, -⟩ := State.cueEnded_joins (joins bs c hd hc ht hq)
      obtain ⟨late, order⟩ := State.cueJoined_badCue c none (s.cuePassed o)
      exact ⟨cues, holds, at_, fun p hp hlt => counted.trans (late p hp hlt), fun h => counted.trans (order h)⟩
    · rw [queue, held, bad, passed bs c hd hc h]
      exact ⟨rfl, rfl, rfl⟩
    · exact congrArg State.tryCueFetch (unread hd)
    · exact congrArg State.tryCueFetch ((read bs hd).1 hc)
    · exact congrArg State.tryCueFetch (passed bs c hd hc h)
    · obtain ⟨counted, -, -, -, whole, unclaimed, claims⟩ := State.cueEnded_joins (joins bs c hd hc ht hq)
      intro joined
      have same : ∀ slot, joined slot = (s.cuePassed o).cueJoined c slot := fun slot => by
        simp only [joined, counted]
        rfl
      simp only [same]
      exact ⟨whole, unclaimed, claims⟩

end Sys2Proof.Machine
end

