-- ==== Sys2Proof/Proofs/RecordsRead.lean ====
section
/-! The records the part reads (chapter 12.3), field by field (R187, R188). -/

namespace Sys2Proof.Machine

/-! ## Bytes and fields (R187) -/

theorem byteAt_eq (bs : List Beat) (i : Nat) :
    byteAt bs i = (bs.getD (i / 16) 0).toNat / 2 ^ (8 * (i % 16)) % 256 := by
  rw [byteAt, Nat.shiftRight_eq_div_pow]

theorem byteAt_lt (bs : List Beat) (i : Nat) : byteAt bs i < 256 := Nat.mod_lt _ (by decide)

theorem fieldAt_two (bs : List Beat) (off : Nat) : fieldAt bs off 2 = byteAt bs off + 256 * byteAt bs (off + 1) := by
  simp [fieldAt]

theorem fieldAt_three (bs : List Beat) (off : Nat) :
    fieldAt bs off 3 = byteAt bs off + 256 * byteAt bs (off + 1) + 65536 * byteAt bs (off + 2) := by
  rw [fieldAt, fieldAt_two, Nat.add_assoc off 1 1]
  omega

theorem fieldAt_four (bs : List Beat) (off : Nat) :
    fieldAt bs off 4 = byteAt bs off + 256 * byteAt bs (off + 1) + 65536 * byteAt bs (off + 2) +
      16777216 * byteAt bs (off + 3) := by
  rw [fieldAt, fieldAt_three, Nat.add_assoc off 1 1, Nat.add_assoc off 1 2]
  omega

theorem fieldAt_lt (bs : List Beat) (off len : Nat) : fieldAt bs off len < 256 ^ len := by
  induction len generalizing off with
  | zero => simp [fieldAt]
  | succ len ih =>
    have low := byteAt_lt bs off
    have high := ih (off + 1)
    rw [fieldAt, Nat.pow_succ]
    omega

/-! ## Fields that are clamped or chosen -/

theorem clampNat_eq {lo hi : Nat} (h : lo ≤ hi) (x : Nat) : clampNat lo hi x = max lo (min hi x) := by
  unfold clampNat
  split
  · omega
  · split <;> omega

theorem clampInt_eq {lo hi : Int} (h : lo ≤ hi) (x : Int) : clampInt lo hi x = max lo (min hi x) := by
  unfold clampInt
  split
  · omega
  · split <;> omega

theorem readPart_eq : ∀ n : Nat, readPart n = if n = 1 then .a else if n = 2 then .b else .both
  | 0 => rfl
  | 1 => rfl
  | 2 => rfl
  | n + 3 => by simp [readPart]

theorem signedByte_eq {n : Nat} (h : n < 256) : signedByte n = if n < 128 then (n : Int) else n - 256 := by
  rw [signedByte, BitVec.toInt_eq_toNat_cond, BitVec.toNat_ofNat, Nat.mod_eq_of_lt (by simpa using h)]
  split <;> split <;> omega

/-! ## The records -/

/-- A cue's KIND says which cue it is, and LINE_IN names a line of the song (R24). -/
theorem readCue_eq (bs : List Beat) (off lines : Nat) :
    readCue bs off lines =
      if byteAt bs (off + 3) = 1 ∧ fieldAt bs (off + 4) 2 < lines then
        some ⟨fieldAt bs off 3, .lineIn (fieldAt bs (off + 4) 2)⟩
      else if byteAt bs (off + 3) = 2 then some ⟨fieldAt bs off 3, .bandClear⟩
      else if byteAt bs (off + 3) = 3 then some ⟨fieldAt bs off 3, .mark (fieldAt bs (off + 4) 2)⟩
      else if byteAt bs (off + 3) = 4 then some ⟨fieldAt bs off 3, .songEnd⟩ else none := by
  unfold readCue cueTime
  dsimp only
  generalize byteAt bs (off + 3) = kind
  match kind with
  | 0 => rfl
  | 1 => simp
  | 2 => rfl
  | 3 => rfl
  | 4 => rfl
  | kind + 5 => simp

/-- A page-table entry is VALID by its top bit (R65). -/
theorem readEntry_eq (bs : List Beat) (off : Nat) :
    readEntry bs off = if 2 ^ 31 ≤ fieldAt bs off 4 then some (fieldAt bs off 4 % 2 ^ 20) else none := by
  have bound := fieldAt_lt bs off 4
  have valid : fieldAt bs off 4 / 2 ^ 31 = 1 ↔ 2 ^ 31 ≤ fieldAt bs off 4 := by omega
  simp only [readEntry, valid]

theorem readPacket_action (d : Beat) :
    (readPacket d).action = if byteAt [d] 2 = 1 then .request else if byteAt [d] 2 = 2 then .cancel
      else if byteAt [d] 2 = 3 then .status else .other := by
  unfold readPacket
  dsimp only
  generalize byteAt [d] 2 = action
  match action with
  | 0 => rfl
  | 1 => rfl
  | 2 => rfl
  | 3 => rfl
  | action + 4 => simp

/-- The four captured beats in order. -/
theorem captured_toList (v : Vector Beat 4) : v.toList = [v.get 0, v.get 1, v.get 2, v.get 3] := by
  apply List.ext_getElem
  · simp
  · intro i hi _
    rw [Vector.length_toList] at hi
    interval_cases i <;> simp [Vector.get_eq_getElem]

theorem eq_of_map_range {α : Type} {n i : Nat} {f : Nat → α} {x : α} (h : ((List.range n).map f)[i]? = some x) :
    x = f i := by
  rw [List.getElem?_map, Option.map_eq_some_iff] at h
  obtain ⟨j, hj, rfl⟩ := h
  obtain ⟨_, rfl⟩ := List.getElem?_eq_some_iff.mp hj
  simp

/-- DURATION and WEIGHT of a note are at least 1 (R102). -/
theorem readNote_eq (bs : List Beat) (off : Nat) :
    readNote bs off =
      { start := fieldAt bs off 3
        duration := if fieldAt bs (off + 3) 2 = 0 then 1 else fieldAt bs (off + 3) 2
        period := if fieldAt bs (off + 5) 2 < 192 then 192 else if 2816 < fieldAt bs (off + 5) 2 then 2816
          else fieldAt bs (off + 5) 2
        part := readPart (byteAt bs (off + 7) % 16)
        weight := if byteAt bs (off + 7) / 16 = 0 then 1 else if 4 < byteAt bs (off + 7) / 16 then 4
          else byteAt bs (off + 7) / 16 } := by
  have least : ∀ n : Nat, max 1 n = if n = 0 then 1 else n := fun n => by split <;> omega
  simp only [readNote, clampNat, least, Nat.lt_one_iff]

/-- The glyphs and syllables of a line, entry by entry (R34). -/
theorem readLine_entries (bs : List Beat) (off : Nat) :
    (∀ i x, (readLine bs off).glyphs[i]? = some x → x.index = fieldAt bs (off + (0x10 + 4 * i)) 2 ∧
      x.advance = max 1 (min 64 (byteAt bs (off + (0x12 + 4 * i))))) ∧
    ∀ k x, (readLine bs off).syllables[k]? = some x →
      x.first = min (min 48 (byteAt bs off)) (byteAt bs (off + (0xD0 + 8 * k))) ∧
      x.count = min (byteAt bs (off + (0xD1 + 8 * k))) (min 48 (byteAt bs off) - x.first) ∧
      x.duration = max 1 (fieldAt bs (off + (0xD2 + 8 * k)) 2) ∧ x.start = fieldAt bs (off + (0xD4 + 8 * k)) 3 := by
  have place : ∀ a i, off + (a + i) = off + a + i := fun a i => (Nat.add_assoc ..).symm
  have behind : ∀ a i d, off + (a + d + i) = off + a + i + d := fun a i d => by omega
  refine ⟨fun i x hx => ?_, fun k x hx => ?_⟩
  · obtain rfl := eq_of_map_range hx
    rw [behind 0x10 _ 2, place, ← clampNat_eq (by decide)]
    exact ⟨rfl, rfl⟩
  · obtain rfl := eq_of_map_range hx
    rw [behind 0xD0 _ 1, behind 0xD0 _ 2, behind 0xD0 _ 4, place]
    exact ⟨rfl, rfl, rfl, rfl⟩

/-- CODE, HOST_TAG and the argument words (R188). -/
theorem readCommand_fields (captured : Vector Beat 4) :
    let r := readCommand captured
    r.code = fieldAt captured.toList 0 2 ∧ r.tag.toNat = fieldAt captured.toList 2 2 ∧ r.words.length = 15 ∧
      ∀ i < 15, (r.arg i).toNat = fieldAt captured.toList (4 + 4 * i) 4 := by
  refine ⟨rfl, Nat.mod_eq_of_lt (fieldAt_lt ..), by simp [readCommand], fun i hi => ?_⟩
  have arg : (readCommand captured).arg i = BitVec.ofNat 32 (fieldAt captured.toList (4 + 4 * i) 4) := by
    simp [CommandRecord.arg, readCommand, hi]
  rw [arg]
  exact Nat.mod_eq_of_lt (fieldAt_lt ..)

/-- Settles O25: every field is read from the bytes its rule names. -/
theorem recordsAreReadByteByByte : Obligations.RecordsAreReadByteByByte := by
  unfold Obligations.RecordsAreReadByteByByte
  refine ⟨byteAt_eq, fun bs off => ?_, fun d => ?_, fun captured => ?_⟩
  · intro b two three four part
    have two_eq : ∀ i, fieldAt bs (off + i) 2 = two i := fun i => fieldAt_two bs (off + i)
    have three_eq : ∀ i, fieldAt bs (off + i) 3 = three i := fun i => fieldAt_three bs (off + i)
    have four_eq : ∀ i, fieldAt bs (off + i) 4 = four i := fun i => fieldAt_four bs (off + i)
    refine ⟨fun h => ?_, fun lines => ?_, ?_, ?_, ?_⟩
    · subst h
      simp only [readHeader, ← four_eq, ← three_eq, Nat.zero_add]
    · rw [readCue_eq, ← two_eq, ← three_eq]
      rfl
    · rw [readNote_eq, readPart_eq, ← two_eq, ← two_eq, ← three_eq]
      rfl
    · obtain ⟨glyphs, syllables⟩ := readLine_entries bs off
      refine ⟨by simp [readLine, b], by simp [readLine, b], readPart_eq _, rfl, fun i x hx => ?_, fun k x hx => ?_⟩
      · rw [← two_eq]
        exact glyphs i x hx
      · rw [← two_eq, ← three_eq]
        exact syllables k x hx
    · rw [readEntry_eq, ← four_eq]
      rfl
  · intro b p
    have key : p.key = clampInt (-12) 12 (signedByte (b 3)) := rfl
    rw [clampInt_eq (by decide), signedByte_eq (byteAt_lt _ _)] at key
    refine ⟨rfl, ?_, readPacket_action d, key, fieldAt_three [d] 4, rfl, fieldAt_two [d] 8, fun h => ?_⟩
    · exact Nat.mod_eq_of_lt (byteAt_lt _ _)
    · exact Nat.mod_eq_of_lt (show p.handset < 16 by omega)
  · obtain ⟨code, tag, words, args⟩ := readCommand_fields captured
    rw [captured_toList] at code tag args
    refine ⟨code.trans (fieldAt_two _ _), tag.trans (fieldAt_two _ _), words, fun i hi => ?_⟩
    have next : ∀ d, 4 + 4 * i + d = 4 + d + 4 * i := fun d => by omega
    rw [args i hi, fieldAt_four, next 1, next 2, next 3]

end Sys2Proof.Machine
end

