-- ==== Sys2Proof/Proofs/Arbiter.lean ====
section
/-! The arbiter's decision (R169 to R172): which own request is chosen, what a grant moves, and what follows it. -/

namespace Sys2Proof.Machine

/-! ## The choice among the waiting requests (R169, Table 10-6) -/

theorem Waiting.before_iff (a b : Waiting) : a.before b = true ↔
    a.key.1 < b.key.1 ∨ (a.key.1 = b.key.1 ∧
      (a.key.2.1 < b.key.2.1 ∨ (a.key.2.1 = b.key.2.1 ∧ a.key.2.2 < b.key.2.2))) := by
  simp [Waiting.before]

/-- A request that no other is before comes first by class, retries before queue entries, then by arrival. -/
theorem Waiting.first_of_not_before {a b : Waiting} (h : ¬ a.before b = true) :
    b.key.1 < a.key.1 ∨ (b.key.1 = a.key.1 ∧
      (b.key.2.1 < a.key.2.1 ∨ (b.key.2.1 = a.key.2.1 ∧ b.key.2.2 ≤ a.key.2.2))) := by
  rw [Waiting.before_iff] at h
  omega

/-- The better of the best request so far and the next one. -/
def Waiting.better (best : Option Waiting) (w : Waiting) : Option Waiting :=
  match best with
  | none => some w
  | some b => if w.before b then some w else some b

theorem Ptu.chosen_eq (p : Ptu) : p.chosen = p.waitingOwn.foldl Waiting.better none := rfl

/-- The better one is one of the two, and neither is before it. -/
theorem Waiting.better_some (best : Option Waiting) (y : Waiting) :
    ∃ b, Waiting.better best y = some b ∧ (best = some b ∨ b = y) ∧ ¬ y.before b = true ∧
      ∀ a, best = some a → ¬ a.before b = true := by
  have irrefl : ∀ x : Waiting, ¬ x.before x = true := fun x => by rw [Waiting.before_iff]; omega
  cases best with
  | none => exact ⟨y, rfl, .inr rfl, irrefl y, nofun⟩
  | some a =>
    by_cases h : y.before a = true
    · refine ⟨y, if_pos h, .inr rfl, irrefl y, fun c e => ?_⟩
      cases e
      rw [Waiting.before_iff] at h ⊢
      omega
    · refine ⟨a, if_neg h, .inl rfl, h, fun c e => ?_⟩
      cases e
      exact irrefl a

theorem Waiting.foldl_better (l : List Waiting) : ∀ best : Option Waiting,
    (l.foldl Waiting.better best = none ↔ best = none ∧ l = []) ∧
      ∀ w, l.foldl Waiting.better best = some w → (best = some w ∨ w ∈ l) ∧
        (∀ b, best = some b → ¬ b.before w = true) ∧ ∀ x ∈ l, ¬ x.before w = true := by
  induction l with
  | nil =>
    refine fun best => ⟨by simp, fun w h => ⟨.inl h, fun b hb => ?_, nofun⟩⟩
    obtain rfl := Option.some.inj (hb.symm.trans h)
    rw [Waiting.before_iff]
    omega
  | cons y rest ih =>
    intro best
    obtain ⟨b, eq, from_, notY, notBest⟩ := Waiting.better_some best y
    obtain ⟨none_iff, least⟩ := ih (Waiting.better best y)
    rw [List.foldl_cons]
    refine ⟨by rw [none_iff, eq]; simp, fun w hw => ?_⟩
    obtain ⟨place, notB, notRest⟩ := least w hw
    have keepsB := notB b eq
    refine ⟨?_, fun a ha => ?_, fun x hx => ?_⟩
    · rcases place with h | h
      · obtain rfl := Option.some.inj (eq.symm.trans h)
        exact from_.imp id fun e => by simp [e]
      · exact .inr (List.mem_cons_of_mem y h)
    · have := notBest a ha
      rw [Waiting.before_iff] at this keepsB ⊢
      omega
    · rcases List.mem_cons.mp hx with rfl | hx
      · rw [Waiting.before_iff] at notY keepsB ⊢
        omega
      · exact notRest x hx

/-- A chosen request waits, and none that waits is before it. -/
theorem Ptu.chosen_least {p : Ptu} {w : Waiting} (h : p.chosen = some w) :
    w ∈ p.waitingOwn ∧ ∀ x ∈ p.waitingOwn, ¬ x.before w = true := by
  obtain ⟨place, -, least⟩ := (Waiting.foldl_better p.waitingOwn none).2 w (p.chosen_eq ▸ h)
  exact ⟨place.resolve_left nofun, least⟩

theorem Ptu.chosen_none_iff (p : Ptu) : p.chosen = none ↔ p.waitingOwn = [] := by
  rw [p.chosen_eq, (Waiting.foldl_better p.waitingOwn none).1]
  simp

theorem Ptu.retry_mem {p : Ptu} {r : OwnRead} :
    .retry r ∈ p.waitingOwn ↔ r ∈ p.reads.filter (fun r => r.awaiting) := by
  simp [Ptu.waitingOwn]

theorem Ptu.fresh_mem {p : Ptu} {e : QueueEntry} :
    .fresh e ∈ p.waitingOwn ↔ e ∈ p.queue.filter (fun e => bodyIsWrite e.req.body || !p.shut) := by
  simp [Ptu.waitingOwn]

/-! ## A grant (R169 to R172) -/

/-- The line moves up: requests handed stay in their order. -/
theorem Ptu.refill_handed (p : Ptu) : p.refill.handed = p.handed := by
  unfold Ptu.refill
  split
  · split
    · rfl
    · next r rest hi =>
      dsimp only
      split
      · next hk =>
        have hk : p.kept = [] := hk
        simp [Ptu.handed, Ptu.enqueue, hi, hk]
      · next k ks hk =>
        have hk : p.kept = k :: ks := hk
        simp [Ptu.handed, Ptu.enqueue, hi, hk]
  · rfl

/-- The line moves up: the links and the operations stay as they are. -/
theorem Ptu.refill_rest (p : Ptu) : p.refill.links = p.links ∧ p.refill.ops = p.ops := by
  unfold Ptu.refill
  split
  · split
    · exact ⟨rfl, rfl⟩
    · dsimp only
      split <;> exact ⟨rfl, rfl⟩
  · exact ⟨rfl, rfl⟩

/-- Which way a decision goes (R170). -/
theorem Ptu.arbitrate_eq (p : Ptu) :
    (p.passQueue = [] → p.chosen = none → p.arbitrate = p) ∧
      (∀ q rest, p.passQueue = q :: rest → p.chosen = none ∨ p.rotation < p.rotateN →
        p.arbitrate = p.placePass q rest) ∧
      ∀ w, p.chosen = some w → p.passQueue = [] ∨ p.rotateN ≤ p.rotation → p.arbitrate = p.grantOwn w := by
  refine ⟨fun hq hc => ?_, fun q rest hq h => ?_, fun w hc h => ?_⟩
  · rw [Ptu.arbitrate, hq, hc]
  · rw [Ptu.arbitrate, hq]
    cases hc : p.chosen with
    | none => rfl
    | some w => exact if_pos (h.resolve_left (by simp [hc]))
  · rw [Ptu.arbitrate, hc]
    cases hq : p.passQueue with
    | nil => rfl
    | cons q rest => exact if_neg (Nat.not_lt.mpr (h.resolve_left (by simp [hq])))

/-- A forwarded request hands its tap, a playback tap and those of no watcher apart (R164). -/
theorem PassClass.taps_iff (c : PassClass) : c.taps = true ↔ ¬ (c = .plain ∨ c = .playback ∨ c = .display) := by
  cases c <;> simp [PassClass.taps]

theorem Ptu.ownTag_eq (p : Ptu) : p.ownTag = match p.tags with
    | some g => g.control
    | none => 0 := by
  unfold Ptu.ownTag
  cases p.tags <;> rfl

/-! ## What follows a decision (R157, R159) -/

/-- An arrival and the rewrites it leaves owed touch no request that is held. -/
theorem State.arrive_sysHeld (r : Request) (s : State) : (s.arrive r).flush.ptu.sysHeld = s.ptu.sysHeld := by
  have flushed : ∀ t : State, t.flush.ptu.sysHeld = t.ptu.sysHeld := fun t => by
    obtain ⟨-, -, -, -, -, -, -, -, links⟩ := t.flush_frame
    obtain ⟨-, -, -, -, -, -, -, -, -, -, -, -, -, -, -, -, -, -, -, held, -⟩ := Ptu.links_fields links
    exact held
  rw [flushed]
  unfold State.arrive State.guardWrite
  dsimp only
  repeat' split
  all_goals rfl

theorem State.releaseHeld_cons {s : State} {r : Request} {rest : List Request} (h : s.ptu.sysHeld = r :: rest)
    (hl : s.ptu.lineFull = false) :
    let u := (State.arrive { s with ptu := { s.ptu with sysHeld := [] } } r).flush
    s.releaseHeld = State.releaseHeld { u with ptu := { u.ptu with sysHeld := rest } } := by
  intro u
  have none : u.ptu.sysHeld = [] := State.arrive_sysHeld r _
  have same : ({ u with ptu := { u.ptu with sysHeld := [] } } : State) = u := by rw [← none]
  have room : ({ s.ptu with sysHeld := [] } : Ptu).lineFull = false := hl
  show State.takeHeld s.ptu.sysHeld _ = State.takeHeld rest { u with ptu := { u.ptu with sysHeld := [] } }
  rw [h, same, State.takeHeld]
  exact if_neg (by simp [room])

/-- A grant that keeps the requests handed: what it leaves is what the request placed leaves, with the count at 0. -/
theorem Ptu.grantOwn_eq (p : Ptu) (w : Waiting) :
    (p.grantOwn w).handed = (p.placeOwn w).handed ∧ (p.grantOwn w).ops = (p.placeOwn w).ops ∧
      (p.grantOwn w).links = ({ p.placeOwn w with rotation := 0 } : Ptu).links :=
  ⟨Ptu.refill_handed _, (Ptu.refill_rest _).2, (Ptu.refill_rest _).1⟩

theorem Ptu.placeOwn_write {p : Ptu} {e : QueueEntry} {bs : List WriteBeat} (h : e.req.body = .write bs) :
    p.placeOwn (.fresh e) = { p with
      queue := p.queue.filter (fun x => x.arrival != e.arrival)
      placed := p.placed ++ [.ownWrite e.req p.ownTag] } := by
  simp only [Ptu.placeOwn, h]

/-- A read of the queue placed is outstanding, and the throttle shuts at OWN_LIMIT (R171). -/
theorem Ptu.placeOwn_read {p : Ptu} {e : QueueEntry} {n : Nat} (h : e.req.body = .read n) :
    p.placeOwn (.fresh e) = { p with
      queue := p.queue.filter (fun x => x.arrival != e.arrival), placed := p.placed ++ [.ownRead e.arrival p.ownTag]
      reads := p.reads ++ [⟨e.req, e.arrival, 1, p.retryMax, false⟩]
      shut := if p.ownLimit ≤ p.reads.length + 1 then true else p.shut } := by
  simp only [Ptu.placeOwn, h, Ptu.shutAt, List.length_append, List.length_singleton]
  split <;> rfl

/-- What a request placed leaves as it is, whichever it is. -/
theorem Ptu.placeOwn_frame (p : Ptu) (w : Waiting) :
    (p.placeOwn w).passQueue = p.passQueue ∧ (p.placeOwn w).taps = p.taps ∧ (p.placeOwn w).sysHeld = p.sysHeld ∧
      (p.placeOwn w).ops = p.ops ∧ (p.placeOwn w).sysOrder = p.sysOrder ∧ (p.placeOwn w).windows = p.windows := by
  cases w with
  | retry r => exact ⟨rfl, rfl, rfl, rfl, rfl, rfl⟩
  | fresh e =>
    cases h : e.req.body with
    | write bs => rw [Ptu.placeOwn_write h]; exact ⟨rfl, rfl, rfl, rfl, rfl, rfl⟩
    | read n => rw [Ptu.placeOwn_read h]; exact ⟨rfl, rfl, rfl, rfl, rfl, rfl⟩

/-- Settles O29: the choice is a least element of the waiting requests, a grant is the chosen request placed and the
line moved up, and each step that follows a decision is one equation. -/
theorem arbiterRotates : Obligations.ArbiterRotates := by
  unfold Obligations.ArbiterRotates
  refine ⟨fun s => ?_, fun p => ?_⟩
  · intro p t
    obtain ⟨idle, passes, grants⟩ := s.ptu.arbitrate_eq
    refine ⟨?_, State.releaseHeld_none, fun r rest h hl => State.releaseHeld_cons h hl, idle,
      fun q rest hq h => ?_, fun w hw h => ?_⟩
    · show Host.Outcome.next
        (State.resumeWork (if (s.ptu.lineFull && !t.ptu.lineFull) = true then _ else _)).playTaps = _
      simp only [Bool.and_eq_true, Bool.not_eq_true']
      rfl
    · rw [show p = s.ptu.placePass q rest from passes q rest hq h, Ptu.placePass]
      by_cases ht : q.cls.taps = true
      · simp only [ht, if_true, if_neg ((PassClass.taps_iff _).mp ht)]
      · simp only [ht, if_pos (not_not.mp fun h => ht ((PassClass.taps_iff _).mpr h))]
        rfl
    · intro tag
      have htag : s.ptu.ownTag = tag := Ptu.ownTag_eq _
      obtain ⟨handed, ops, links⟩ := s.ptu.grantOwn_eq w
      rw [show p = s.ptu.grantOwn w from grants w hw h]
      obtain ⟨fpass, ftaps, fheld, fops, forder, fwin⟩ := s.ptu.placeOwn_frame w
      obtain ⟨-, gwin, -, -, -, -, -, greads, gshut, grot, -, -, -, -, -, -, gpass, gplaced, gtaps, gheld, gorder, -⟩ :=
        Ptu.links_fields links
      refine ⟨grot, gpass.trans fpass, gtaps.trans ftaps, gheld.trans fheld, ops.trans fops, gorder.trans forder,
        gwin.trans fwin, fun r hr => ?_, fun e he => ?_⟩
      · subst hr
        rw [gplaced, handed, gshut, greads, ← htag]
        exact ⟨rfl, rfl, rfl, rfl⟩
      · subst he
        refine ⟨?_, fun bs hb => ?_, fun n hb => ?_⟩
        · rw [handed]
          cases hb : e.req.body with
          | write bs => rw [Ptu.placeOwn_write hb]; rfl
          | read n => rw [Ptu.placeOwn_read hb]; rfl
        · rw [gplaced, greads, gshut, ← htag]
          dsimp only
          rw [Ptu.placeOwn_write hb]
          exact ⟨rfl, rfl, rfl⟩
        · rw [gplaced, greads, gshut, ← htag]
          dsimp only
          rw [Ptu.placeOwn_read hb]
          exact ⟨rfl, rfl, fun h => if_pos h, fun h => if_neg (Nat.not_le.mpr h)⟩
  · intro retries entries
    refine ⟨?_, fun r h => ?_, fun e h => ?_⟩
    · rw [Ptu.chosen_none_iff]
      simp [Ptu.waitingOwn, retries, entries]
    · obtain ⟨waits, least⟩ := Ptu.chosen_least h
      refine ⟨Ptu.retry_mem.mp waits, fun x hx => ?_, fun x hx => ?_⟩
      · simpa [Waiting.key] using Waiting.first_of_not_before (least _ (Ptu.retry_mem.mpr hx))
      · simpa [Waiting.key, Nat.le_iff_lt_or_eq] using Waiting.first_of_not_before (least _ (Ptu.fresh_mem.mpr hx))
    · obtain ⟨waits, least⟩ := Ptu.chosen_least h
      refine ⟨Ptu.fresh_mem.mp waits, fun x hx => ?_, fun x hx => ?_⟩
      · simpa [Waiting.key] using Waiting.first_of_not_before (least _ (Ptu.retry_mem.mpr hx))
      · simpa [Waiting.key] using Waiting.first_of_not_before (least _ (Ptu.fresh_mem.mpr hx))

end Sys2Proof.Machine
end

