-- ==== Sys2Proof/Proofs/OwnWrites.lean ====
section
/-! How own ranges are cut and written (R25, R152, R189), the result record (R180), and the ends of the writes. -/

namespace Sys2Proof.Machine

/-! ## Ranges cut at 256-byte blocks -/

/-- Where the piece of a range from `addr` in its `i`-th block begins. -/
def pieceFrom (addr i : Nat) : Nat := if i = 0 then addr else 256 * (addr / 256 + i)

/-- The last byte of the piece of a range in its `i`-th block. -/
def pieceLast (addr len i : Nat) : Nat := min (addr + len - 1) (256 * (addr / 256 + i) + 255)

/-- The number of 256-byte blocks a range meets. -/
def blocksMet (addr len : Nat) : Nat := (addr + len - 1) / 256 - addr / 256 + 1

theorem cutRange_pieces (fuel : Nat) : ∀ (addr len : Nat), 0 < len → blocksMet addr len ≤ fuel →
    (cutRange fuel addr len).length = blocksMet addr len ∧
      ∀ (i : Nat) (p : Nat × Nat), (cutRange fuel addr len)[i]? = some p →
        p.1 = pieceFrom addr i ∧ 0 < p.2 ∧ p.1 + p.2 - 1 = pieceLast addr len i := by
  unfold blocksMet pieceFrom pieceLast
  induction fuel with
  | zero => intro addr len hl hf; omega
  | succ fuel ih =>
    intro addr len hl hf
    unfold cutRange
    rw [if_neg (by omega)]
    split
    · next short =>
      refine ⟨by simp; omega, fun i p hp => ?_⟩
      obtain ⟨rfl, rfl⟩ : i = 0 ∧ p = (addr, len) := by
        cases i with
        | zero => exact ⟨rfl, by simpa using hp.symm⟩
        | succ i => simp at hp
      exact ⟨rfl, hl, by simp; omega⟩
    · next long =>
      have next : (addr + (256 - addr % 256)) / 256 = addr / 256 + 1 := by omega
      have same : addr + (256 - addr % 256) + (len - (256 - addr % 256)) - 1 = addr + len - 1 := by omega
      obtain ⟨count, piece⟩ := ih (addr + (256 - addr % 256)) (len - (256 - addr % 256)) (by omega) (by omega)
      rw [next, same] at count
      simp only [next, same] at piece
      refine ⟨by rw [List.length_cons, count]; omega, fun i p hp => ?_⟩
      cases i with
      | zero =>
        obtain rfl : p = (addr, 256 - addr % 256) := by simpa using hp.symm
        exact ⟨rfl, by omega, by simp; omega⟩
      | succ i =>
        obtain ⟨first, pos, last⟩ := piece i p (by simpa using hp)
        refine ⟨?_, pos, by rw [last, Nat.add_assoc, Nat.add_comm 1 i]⟩
        rw [first, if_neg i.succ_ne_zero]
        split <;> omega

/-- A range is cut into one piece for each block it meets, in address order (R25). -/
theorem pieces_cut {addr len : Nat} (h : 0 < len) : (pieces addr len).length = blocksMet addr len ∧
    ∀ (i : Nat) (p : Nat × Nat), (pieces addr len)[i]? = some p →
      p.1 = pieceFrom addr i ∧ 0 < p.2 ∧ p.1 + p.2 - 1 = pieceLast addr len i :=
  cutRange_pieces _ addr len h (by unfold blocksMet; omega)

theorem pieces_empty (addr : Nat) : pieces addr 0 = [] := by simp [pieces, cutRange]

theorem beatsOver_eq {addr len : Nat} (h : 0 < len) : beatsOver addr len = (addr + len - 1) / 16 - addr / 16 + 1 := by
  unfold beatsOver
  omega

theorem firstBeat_eq (addr : Nat) : addr - addr % 16 = addr / 16 * 16 := by omega

/-- Own reads: one for each block, of the whole beats of its piece (R32). -/
theorem readsOver_cut {addr len : Nat} (h : 0 < len) : (readsOver addr len).length = blocksMet addr len ∧
    ∀ i r, (readsOver addr len)[i]? = some r → r = (pieceFrom addr i / 16 * 16,
      .read (pieceLast addr len i / 16 - pieceFrom addr i / 16 + 1)) := by
  obtain ⟨count, piece⟩ := pieces_cut (addr := addr) h
  refine ⟨by rw [readsOver, List.length_map, count], fun i r hr => ?_⟩
  obtain ⟨p, hp, rfl⟩ := List.getElem?_map .. ▸ hr |> Option.map_eq_some_iff.mp
  obtain ⟨first, pos, last⟩ := piece i p hp
  rw [beatsOver_eq pos, last, first, firstBeat_eq]

/-! ## Beats packed from bytes -/

/-- Digits in base 256, the lowest first, read back. -/
theorem packedBytes_digit (bytes : List Byte) (k : Nat) :
    bytes.foldr (fun b acc => b.toNat + 256 * acc) 0 / 256 ^ k % 256 = (bytes.getD k 0).toNat := by
  induction bytes generalizing k with
  | nil => simp
  | cons b rest ih =>
    have small := b.isLt
    cases k with
    | zero => simp; omega
    | succ k =>
      rw [List.foldr_cons, Nat.pow_succ, Nat.mul_comm (256 ^ k), ← Nat.div_div_eq_div_mul,
        show (b.toNat + 256 * rest.foldr (fun b acc => b.toNat + 256 * acc) 0) / 256 =
          rest.foldr (fun b acc => b.toNat + 256 * acc) 0 by omega, ih]
      rfl

theorem packedBytes_lt (bytes : List Byte) :
    bytes.foldr (fun b acc => b.toNat + 256 * acc) 0 < 256 ^ bytes.length := by
  induction bytes with
  | nil => simp
  | cons b rest ih =>
    have small := b.isLt
    rw [List.foldr_cons, List.length_cons, Nat.pow_succ]
    omega

/-- Byte `k` of a packed beat is the `k`-th byte packed. -/
theorem byteAt_packBeat {bytes : List Byte} (h : bytes.length = 16) {k : Nat} (hk : k < 16) :
    byteAt [packBeat bytes] k = (bytes.getD k 0).toNat := by
  have small := packedBytes_lt bytes
  rw [h] at small
  rw [byteAt_eq, Nat.div_eq_of_lt hk, Nat.mod_eq_of_lt hk, ← packedBytes_digit, List.getD_cons_zero, packBeat,
    BitVec.toNat_ofNat, Nat.pow_mul, Nat.mod_eq_of_lt (b := 2 ^ 128) small]

theorem packedBits_testBit (p : Nat → Bool) (l : List Nat) (j : Nat) :
    (l.foldr (fun k acc => (if p k then 1 else 0) + 2 * acc) 0).testBit j = (l[j]?.map p).getD false := by
  induction l generalizing j with
  | nil => simp
  | cons x rest ih =>
    cases j with
    | zero => cases hx : p x <;> simp [Nat.testBit_zero, hx]
    | succ j =>
      rw [List.foldr_cons, Nat.testBit_succ, show ((if p x then 1 else 0) +
        2 * rest.foldr (fun k acc => (if p k then 1 else 0) + 2 * acc) 0) / 2 =
          rest.foldr (fun k acc => (if p k then 1 else 0) + 2 * acc) 0 by split <;> omega, ih]
      rfl

/-- A byte of a packed beat is enabled just where the predicate says. -/
theorem packEnables_bit (p : Nat → Bool) {k : Nat} (hk : k < 16) : (packEnables p).getLsbD k = p k := by
  rw [packEnables, BitVec.getLsbD_ofNat, packedBits_testBit]
  simp [hk]

/-! ## The beats of a write -/

theorem writeBeats_length (addr : Nat) (bytes : List Byte) :
    (writeBeats addr bytes).length = beatsOver addr bytes.length := by
  simp [writeBeats]

/-- A byte of a written beat: enabled where the range holds it, and then with the range's own byte (R189). -/
theorem writeBeats_byte {addr : Nat} {bytes : List Byte} {j : Nat} {b : WriteBeat}
    (hb : (writeBeats addr bytes)[j]? = some b) {k : Nat} (hk : k < 16) :
    let a := addr / 16 * 16 + 16 * j + k
    (b.en.getLsbD k = true ↔ addr ≤ a ∧ a < addr + bytes.length) ∧
      byteAt [b.data] k = if addr ≤ a ∧ a < addr + bytes.length then (bytes.getD (a - addr) 0).toNat else 0 := by
  intro a
  obtain ⟨i, hi, rfl⟩ := List.getElem?_map .. ▸ hb |> Option.map_eq_some_iff.mp
  obtain ⟨-, rfl⟩ : j < beatsOver addr bytes.length ∧ j = i := by simpa using List.getElem?_eq_some_iff.mp hi
  dsimp only
  rw [packEnables_bit _ hk, byteAt_packBeat (by simp) hk]
  simp only [firstBeat_eq, List.getD_eq_getElem?_getD, List.getElem?_map, List.getElem?_range hk, Option.map_some,
    Option.getD_some, Bool.and_eq_true, decide_eq_true_eq]
  refine ⟨Iff.rfl, ?_⟩
  split <;> rfl

/-- Own writes: one for each block, of the whole beats of its piece, each byte of the range enabled with its own
data. -/
theorem writesOver_cut (addr : Nat) {bytes : List Byte} (h : 0 < bytes.length) :
    (writesOver addr bytes).length = blocksMet addr bytes.length ∧
      ∀ i w, (writesOver addr bytes)[i]? = some w →
        w.1 = pieceFrom addr i / 16 * 16 ∧ ∃ beats, w.2 = .write beats ∧
          beats.length = pieceLast addr bytes.length i / 16 - pieceFrom addr i / 16 + 1 ∧
          ∀ j b, beats[j]? = some b → ∀ k < 16,
            (b.en.getLsbD k = true ↔
              pieceFrom addr i ≤ w.1 + 16 * j + k ∧ w.1 + 16 * j + k ≤ pieceLast addr bytes.length i) ∧
            (pieceFrom addr i ≤ w.1 + 16 * j + k → w.1 + 16 * j + k ≤ pieceLast addr bytes.length i →
              bytes[w.1 + 16 * j + k - addr]? = some (BitVec.ofNat 8 (byteAt [b.data] k))) := by
  obtain ⟨count, piece⟩ := pieces_cut (addr := addr) h
  refine ⟨by rw [writesOver, List.length_map, count], fun i w hw => ?_⟩
  obtain ⟨p, hp, rfl⟩ := List.getElem?_map .. ▸ hw |> Option.map_eq_some_iff.mp
  obtain ⟨first, pos, last⟩ := piece i p hp
  have ahead : addr ≤ p.1 := by rw [first, pieceFrom]; split <;> omega
  have within : p.1 + p.2 ≤ addr + bytes.length := by unfold pieceLast at last; omega
  have own : ((bytes.drop (p.1 - addr)).take p.2).length = p.2 := by simp; omega
  refine ⟨by rw [← first, firstBeat_eq], _, rfl, ?_, fun j b hb k hk => ?_⟩
  · rw [writeBeats_length, own, beatsOver_eq pos, last, first]
  · obtain ⟨enabled, data⟩ := writeBeats_byte hb hk
    rw [own] at enabled data
    simp only [← first, ← last, firstBeat_eq] at *
    generalize p.1 / 16 * 16 + 16 * j + k = a at *
    refine ⟨enabled.trans (by omega), fun lo hi => ?_⟩
    rw [data, if_pos (by omega), List.getD_eq_getElem?_getD, List.getElem?_take, if_pos (by omega), List.getElem?_drop,
      show p.1 - addr + (a - p.1) = a - addr by omega, List.getElem?_eq_getElem (by omega)]
    simp

/-! ## The result record -/

/-- The beats of a write that begins on a beat hold its bytes, and 0 behind them. -/
theorem writeBeats_byteAt {addr : Nat} (ha : addr % 16 = 0) (bytes : List Byte) (i : Nat) :
    byteAt ((writeBeats addr bytes).map WriteBeat.data) i = (bytes.getD i 0).toNat := by
  have base : addr / 16 * 16 = addr := by omega
  rcases hb : (writeBeats addr bytes)[i / 16]? with _ | b
  · have beyond := List.getElem?_eq_none_iff.mp hb
    rw [writeBeats_length, beatsOver] at beyond
    rw [byteAt, List.getD_eq_getElem?_getD, List.getElem?_map, hb, List.getD_eq_default _ _ (by omega)]
    simp
  · obtain ⟨-, data⟩ := writeBeats_byte hb (k := i % 16) (Nat.mod_lt _ (by decide))
    have beat : byteAt ((writeBeats addr bytes).map WriteBeat.data) i = byteAt [b.data] (i % 16) := by
      simp [byteAt, hb]
    rw [beat, data, base, show addr + 16 * (i / 16) + i % 16 = addr + i by omega, Nat.add_sub_cancel_left]
    split
    · rfl
    · rw [List.getD_eq_default _ _ (by omega)]
      rfl

/-- A field of the beats is the field of the bytes written. -/
theorem writeBeats_fieldAt {addr : Nat} (ha : addr % 16 = 0) (bytes : List Byte) (off len : Nat) :
    fieldAt ((writeBeats addr bytes).map WriteBeat.data) off len = bytesAt bytes off len := by
  induction len generalizing off with
  | zero => rfl
  | succ len ih => rw [fieldAt, bytesAt, writeBeats_byteAt ha, ih]

/-- A field written where its bytes stand reads back, up to its width (R187). -/
theorem bytesAt_leBytes {bs : List Byte} {off k n : Nat} (h : (bs.drop off).take k = leBytes k n) :
    bytesAt bs off k = n % 256 ^ k := by
  induction k generalizing off n with
  | zero => simp [bytesAt, Nat.mod_one]
  | succ k ih =>
    have short : off < bs.length := by
      by_contra long
      rw [List.drop_eq_nil_of_le (by omega)] at h
      cases h
    rw [List.drop_eq_getElem_cons short, List.take_succ_cons, leBytes, List.cons.injEq] at h
    obtain ⟨low, high⟩ := h
    rw [bytesAt, ih high, List.getD_eq_getElem _ _ short, low, BitVec.toNat_ofNat, Nat.pow_succ' (m := 256),
      Nat.mod_mul]

theorem resultBytes_length (code tag : BitVec 16) (rc : ResultCode) (n : Word) (vs : List Word) :
    (resultBytes code tag rc n vs).length = 64 := by
  simp [resultBytes, List.length_flatten, List.map_map, Function.comp_def]

/-- The fields of the result record (Table 12-3). -/
theorem resultBytes_fields (code tag : BitVec 16) (rc : ResultCode) (n : Word) (vs : List Word) :
    let bs := resultBytes code tag rc n vs
    bytesAt bs 0 2 = code.toNat ∧ bytesAt bs 2 2 = tag.toNat ∧ bytesAt bs 4 4 = rc.code ∧ bytesAt bs 8 4 = n.toNat ∧
      (∀ i < 6, bytesAt bs (12 + 4 * i) 4 = (vs.getD i 0).toNat) ∧ ∀ i, 36 ≤ i → bs.getD i 0 = 0 := by
  intro bs
  have half : ∀ w : BitVec 16, w.toNat % 256 ^ 2 = w.toNat := fun w => Nat.mod_eq_of_lt w.isLt
  have word : ∀ w : Word, w.toNat % 256 ^ 4 = w.toNat := fun w => Nat.mod_eq_of_lt w.isLt
  have result : rc.code % 256 ^ 4 = rc.code := by cases rc <;> rfl
  refine ⟨?_, ?_, ?_, ?_, fun i hi => ?_, fun i hi => ?_⟩
  · rw [bytesAt_leBytes (n := code.toNat) rfl, half]
  · rw [bytesAt_leBytes (n := tag.toNat) rfl, half]
  · rw [bytesAt_leBytes (n := rc.code) rfl, result]
  · rw [bytesAt_leBytes (n := n.toNat) rfl, word]
  · rw [bytesAt_leBytes (n := (vs.getD i 0).toNat) ?_, word]
    interval_cases i <;> rfl
  · have zeros : bs = bs.take 36 ++ List.replicate 28 0 := rfl
    have front : (bs.take 36).length = 36 := by rw [List.length_take, resultBytes_length]; rfl
    rw [zeros, List.getD_append_right _ _ _ _ (by omega), List.getD_eq_getElem?_getD, List.getElem?_replicate]
    split <;> rfl

theorem writesOver_block {addr : Nat} {bytes : List Byte} (ha : addr % 256 + bytes.length ≤ 256) (h16 : addr % 16 = 0)
    (h : bytes ≠ []) : writesOver addr bytes = [(addr, .write (writeBeats addr bytes))] := by
  have short : bytes.length ≤ 256 - addr % 256 := by omega
  simp [writesOver, pieces, cutRange, h, short, h16]

/-- A result is one own write of the four whole beats of the result slot (R180). -/
theorem resultSlot_beats {base : Nat} (hb : base % 256 = 0) (code tag : BitVec 16) (rc : ResultCode) (n : Word)
    (vs : List Word) : ∃ beats : List WriteBeat, beats.length = 4 ∧ (∀ b ∈ beats, b.en = BitVec.allOnes 16) ∧
      writesOver (base + 0x40) (resultBytes code tag rc n vs) = [(base + 0x40, .write beats)] ∧
      (∀ off len, fieldAt (beats.map WriteBeat.data) off len = bytesAt (resultBytes code tag rc n vs) off len) ∧
      ∀ i, byteAt (beats.map WriteBeat.data) i = ((resultBytes code tag rc n vs).getD i 0).toNat := by
  have len := resultBytes_length code tag rc n vs
  have h16 : (base + 0x40) % 16 = 0 := by omega
  have count : (writeBeats (base + 0x40) (resultBytes code tag rc n vs)).length = 4 := by
    rw [writeBeats_length, len, beatsOver]
    omega
  refine ⟨writeBeats (base + 0x40) (resultBytes code tag rc n vs), count, fun b hb' => ?_, ?_,
    writeBeats_fieldAt h16 _, writeBeats_byteAt h16 _⟩
  · obtain ⟨j, hj⟩ := List.mem_iff_getElem?.mp hb'
    have hj4 : j < 4 := count ▸ (List.getElem?_eq_some_iff.mp hj).1
    refine BitVec.eq_of_getLsbD_eq fun k hk => ?_
    rw [BitVec.getLsbD_allOnes, decide_eq_true hk]
    refine (writeBeats_byte hj hk).1.mpr ?_
    omega
  · exact writesOver_block (by omega) h16 (List.ne_nil_of_length_pos (by omega))

/-! ## The ends of writes -/

/-- A work that hands nothing never waits. -/
theorem State.whenRoom_handsNothing {work : State → State} {s : State} (h : (work s).ptu.kept = s.ptu.kept) :
    s.whenRoom work = work s := by
  simp [State.whenRoom, h]

theorem exec_resultSlotWritten {s : State} {o : ClientOp} (h : s.ptu.firstEnded OpKind.isResult = some o)
    {code : BitVec 16} (hk : o.kind = .result code) :
    exec .resultSlotWritten s = .next ({ s with
      ptu := s.ptu.dropEnded o.id
      ctl := { (if code = 0x04 then s.ctl else s.ctl.raise .commandDone) with
        statusOwed := true } } : State).flush := by
  have work : s.resultSlotWritten = { s with
      ptu := s.ptu.dropEnded o.id
      ctl := { (if code = 0x04 then s.ctl else s.ctl.raise .commandDone) with statusOwed := true } } := by
    simp only [State.resultSlotWritten, h, hk, OpKind.result.injEq, State.raise]
    split <;> rfl
  show Host.Outcome.next _ = _
  rw [State.whenRoom_handsNothing (by rw [work]; rfl), work]

theorem exec_statusRewriteEnd {s : State} {o : ClientOp} (h : s.ptu.firstEnded (fun k => k == .status) = some o) :
    exec .statusRewriteEnd s = .next ({ s with
      ptu := s.ptu.dropEnded o.id, ctl := { s.ctl with statusOp := none } } : State).flush := by
  have work : s.statusRewriteEnd = { s with ptu := s.ptu.dropEnded o.id, ctl := { s.ctl with statusOp := none } } := by
    simp only [State.statusRewriteEnd, h]
  show Host.Outcome.next _ = _
  rw [State.whenRoom_handsNothing (by rw [work]; rfl), work]

theorem exec_imageRewriteEnd {s : State} {o : ClientOp} (h : s.ptu.firstEnded (fun k => k == .image) = some o) :
    exec .imageRewriteEnd s = .next ({ s with
      ptu := s.ptu.dropEnded o.id, rqu := { s.rqu with imageOp := none } } : State).flush := by
  have work : s.imageRewriteEnd = { s with ptu := s.ptu.dropEnded o.id, rqu := { s.rqu with imageOp := none } } := by
    simp only [State.imageRewriteEnd, h]
  show Host.Outcome.next _ = _
  rw [State.whenRoom_handsNothing (by rw [work]; rfl), work]

theorem exec_replyPlacementEnd {s : State} {o : ClientOp} (h : s.ptu.firstEnded OpKind.isReply = some o) {score : Bool}
    (hk : o.kind = .reply score) :
    exec .replyPlacementEnd s = .next ({ s with
      ptu := s.ptu.dropEnded o.id
      scr := { s.scr with scoreWaiting := if score then false else s.scr.scoreWaiting } } : State).flush := by
  have work : s.replyPlacementEnd = { s with
      ptu := s.ptu.dropEnded o.id
      scr := { s.scr with scoreWaiting := if score then false else s.scr.scoreWaiting } } := by
    simp only [State.replyPlacementEnd, h, hk]
    cases score <;> rfl
  show Host.Outcome.next _ = _
  rw [State.whenRoom_handsNothing (by rw [work]; rfl), work]

/-- Settles O4. The cut is an induction on the range block by block; a beat's bytes are its digits in base 256; a result
lies in one block, on whole beats. -/
theorem ownWritesBeginAndEnd : Obligations.OwnWritesBeginAndEnd := by
  unfold Obligations.OwnWritesBeginAndEnd
  refine ⟨fun addr len => ?_, fun addr bytes => ?_, fun code tag rc vs s hbase => ?_, fun s o => ?_⟩
  · refine ⟨fun h => by rw [h, readsOver, pieces_empty]; rfl, fun h => (readsOver_cut h).1, fun i r hr => ?_⟩
    rcases Nat.eq_zero_or_pos len with h | h
    · rw [h, readsOver, pieces_empty] at hr
      cases hr
    · exact (readsOver_cut h).2 i r hr
  · refine ⟨fun h => ?_, fun h => (writesOver_cut addr (List.length_pos_iff.mpr h)).1, fun i w hw => ?_⟩
    · rw [h, writesOver, List.length_nil, pieces_empty]
      rfl
    · rcases Nat.eq_zero_or_pos bytes.length with h | h
      · rw [writesOver, h, pieces_empty] at hw
        cases hw
      · exact (writesOver_cut addr h).2 i w hw
  · intro u
    obtain ⟨beats, count, enabled, writes, fields, byte⟩ :=
      resultSlot_beats hbase code tag rc (s.ctl.resultCount + 1) vs
    obtain ⟨hcode, htag, hrc, hcount, hvals, hzero⟩ := resultBytes_fields code tag rc (s.ctl.resultCount + 1) vs
    have began : u.ptu = s.ptu.startOp (.result code) .statusResult [(s.ptu.controlBase + 0x40, .write beats)] := by
      rw [← writes]
      rfl
    refine ⟨⟨beats, count, enabled, ?_, ?_, ?_, ?_, ?_, ?_, ?_⟩, ?_, ?_, ?_, rfl⟩
    · rw [began, Ptu.startOp_handed]
      rfl
    · rw [fields, hcode]
    · rw [fields, htag]
    · rw [fields, hrc]
    · rw [fields, hcount]
    · exact fun i hi => by rw [fields, hvals i hi]
    · exact fun i hi _ => by rw [byte, hzero i hi]; rfl
    · rw [began]
      exact (Ptu.startOp_fields ..).2.1
    · rw [began]
      exact (Ptu.startOp_fields ..).2.2.1
    · rw [began, Ptu.startOp_links]
  · exact ⟨fun code h hk => exec_resultSlotWritten h hk, exec_statusRewriteEnd, exec_imageRewriteEnd,
      fun score h hk => exec_replyPlacementEnd h hk⟩

end Sys2Proof.Machine
end

