-- ==== Sys2Proof/Proofs/RequestsHanded.lean ====
section
/-! SUPPORT. How own requests are handed (R169): every operation hands its requests behind those handed before it, moves
nothing while the intake line is full, and leaves the host commands that wait. Said once for each operation. -/

namespace Sys2Proof.Machine

/-! ## The relation -/

/-- From `s` to `t` requests have been handed behind those of `s`; while the intake line of `s` is full they stand with
their clients; and the host commands that wait are those of `s`. -/
def State.HandsOn (s t : State) : Prop :=
  s.ptu.handed <+: t.ptu.handed ∧
    (s.ptu.lineFull = true → t.ptu.queue = s.ptu.queue ∧ t.ptu.intake = s.ptu.intake) ∧ t.ctl.waiting = s.ctl.waiting

theorem State.HandsOn.refl (s : State) : s.HandsOn s :=
  ⟨⟨[], List.append_nil _⟩, fun _ => ⟨rfl, rfl⟩, rfl⟩

theorem State.HandsOn.behind {s t : State} (h : s.HandsOn t) : s.ptu.handed <+: t.ptu.handed := h.1

theorem State.HandsOn.waiting {s t : State} (h : s.HandsOn t) : t.ctl.waiting = s.ctl.waiting := h.2.2

/-- Events, the staged copy and the last mark leave the host commands that wait. -/
theorem Ctl.waiting_of_core {c d : Ctl} (h : c.core = d.core) : c.waiting = d.waiting := (Ctl.core_fields h).2.2.2.2

theorem State.HandsOn.trans {r s t : State} (h : r.HandsOn s) (g : s.HandsOn t) : r.HandsOn t := by
  obtain ⟨h1, h2, h3⟩ := h
  obtain ⟨g1, g2, g3⟩ := g
  refine ⟨h1.trans g1, fun hr => ?_, g3.trans h3⟩
  obtain ⟨hq, hi⟩ := h2 hr
  obtain ⟨gq, gi⟩ := g2 (by rw [Ptu.lineFull, hi]; exact hr)
  exact ⟨gq.trans hq, gi.trans hi⟩

/-- What leaves own traffic and the waiting commands hands nothing. -/
theorem State.HandsOn.same {r s t : State} (h : r.HandsOn s) (hp : t.ptu = s.ptu := by simp)
    (hw : t.ctl.waiting = s.ctl.waiting := by simp) : r.HandsOn t := by
  obtain ⟨h1, h2, h3⟩ := h
  exact ⟨by rwa [hp], by rwa [hp], hw.trans h3⟩

theorem Ptu.hand_full {p : Ptu} (r : OwnRequest) (h : p.lineFull = true) :
    (p.hand r).queue = p.queue ∧ (p.hand r).intake = p.intake := by
  have full : 64 ≤ p.intake.length := by simpa [Ptu.lineFull] using h
  unfold Ptu.hand
  split
  · next c => simp [c.2.1] at full
  · split
    · next c => omega
    · exact ⟨rfl, rfl⟩

theorem Ptu.handAll_full (c : Client) (op : Nat) (rs : List (Nat × Body)) : ∀ (k : Nat) (p : Ptu), p.lineFull = true →
    (Ptu.handAll c op k rs p).queue = p.queue ∧ (Ptu.handAll c op k rs p).intake = p.intake := by
  induction rs with
  | nil => exact fun k p _ => ⟨rfl, rfl⟩
  | cons x rest ih =>
    intro k p h
    obtain ⟨hq, hi⟩ := Ptu.hand_full ⟨c, op, k, x.1, x.2⟩ h
    obtain ⟨gq, gi⟩ := ih (k + 1) (p.hand ⟨c, op, k, x.1, x.2⟩) (by rw [Ptu.lineFull, hi]; exact h)
    exact ⟨gq.trans hq, gi.trans hi⟩

/-- An operation begun hands its requests. -/
theorem State.HandsOn.starts {r s t : State} {kind : OpKind} {c : Client} {rs : List (Nat × Body)} (h : r.HandsOn s)
    (hp : t.ptu = s.ptu.startOp kind c rs) (hw : t.ctl.waiting = s.ctl.waiting := by rfl) : r.HandsOn t := by
  refine h.trans ⟨?_, fun hf => ?_, hw⟩
  · rw [hp, Ptu.startOp_handed]
    exact ⟨_, rfl⟩
  · rw [hp]
    exact Ptu.handAll_full _ _ _ _ _ hf

@[simp] theorem Ptu.orphanId_line (id : Option Nat) (p : Ptu) :
    (p.orphanId id).kept = p.kept ∧ (p.orphanId id).intake = p.intake ∧ (p.orphanId id).queue = p.queue := by
  cases id <;> exact ⟨rfl, rfl, rfl⟩

/-- A load orphaned runs on. -/
theorem State.HandsOn.orphanId {r s t : State} {id : Option Nat} (h : r.HandsOn s) (hp : t.ptu = s.ptu.orphanId id)
    (hw : t.ctl.waiting = s.ctl.waiting := by rfl) : r.HandsOn t :=
  h.trans ⟨by simp [hp], fun _ => by simp [hp], hw⟩

theorem State.raise_handsOn {r s : State} {e : Event} (h : r.HandsOn s) : r.HandsOn (s.raise e) := h.same

/-! ## Rewrites, results and the Request Queue Unit -/

section
variable {r s : State}

theorem State.flush_handsOn (h : r.HandsOn s) : r.HandsOn s.flush := by
  have image : r.HandsOn s.beginImage := by
    unfold State.beginImage
    split
    · exact h.starts rfl
    · exact h
  unfold State.flush State.beginStatus
  split
  · exact image.starts rfl
  · exact image

theorem State.result_handsOn {code tag : BitVec 16} {rc : ResultCode} {vs : List Word} (h : r.HandsOn s) :
    r.HandsOn (s.result code tag rc vs) := h.starts rfl

theorem State.queueChanged_handsOn {old : Nat} (h : r.HandsOn s) : r.HandsOn (s.queueChanged old) :=
  h.same (by simp) (Ctl.waiting_of_core (State.queueChanged_core old s))

theorem State.placeReply_handsOn {x : Reply} {score : Bool} (h : r.HandsOn s) : r.HandsOn (s.placeReply x score) := by
  unfold State.placeReply
  dsimp only
  split
  · exact h.starts rfl
  · exact h

theorem State.issueReply_handsOn {k : Fin 16} {b : ReplyBody} {score : Bool} (h : r.HandsOn s) :
    r.HandsOn (s.issueReply k b score) := State.placeReply_handsOn h

theorem State.replyToSource_handsOn {src : Source} {b : ReplyBody} (h : r.HandsOn s) :
    r.HandsOn (s.replyToSource src b) := by
  unfold State.replyToSource
  split
  · exact State.issueReply_handsOn h
  · exact h

theorem State.stageTest_handsOn (h : r.HandsOn s) : r.HandsOn s.stageTest := by
  unfold State.stageTest
  split
  · exact h
  · split
    · dsimp only
      refine State.replyToSource_handsOn (State.HandsOn.same (s := State.raise .ticketStaged (State.queueChanged _
        { s with rqu := { s.rqu with queue := _ } })) ?_ rfl rfl)
      exact State.raise_handsOn (State.queueChanged_handsOn h)
    · exact h

theorem State.acceptRequest_handsOn {k : Fin 16} {song : Nat} {key : Int} {singers : Nat} (h : r.HandsOn s) :
    r.HandsOn (s.acceptRequest k song key singers) :=
  State.stageTest_handsOn (State.queueChanged_handsOn (State.issueReply_handsOn h))

theorem State.handleRequest_handsOn {k : Fin 16} {req : HeldRequest} (h : r.HandsOn s) :
    r.HandsOn (s.handleRequest k req) := by
  unfold State.handleRequest
  split
  · exact State.issueReply_handsOn h
  · split <;> exact State.issueReply_handsOn h
  · exact State.acceptRequest_handsOn h

theorem State.drainSlots_handsOn (h : r.HandsOn s) : r.HandsOn s.drainSlots := by
  refine foldl_keeps (P := r.HandsOn) (fun t k ht => ?_) _ s h
  unfold State.drainVisit
  split
  · exact ht
  · split
    · dsimp only
      split
      · exact State.issueReply_handsOn ht
      · exact ht
      · exact State.acceptRequest_handsOn ht
    · exact ht

theorem State.depart_handsOn {t : Ticket} {w : Bool} (h : r.HandsOn s) : r.HandsOn (s.depart t w) := by
  have left : r.HandsOn (s.departed t w) := by
    have changed : ∀ q old, r.HandsOn (State.queueChanged old { s with rqu := { s.rqu with queue := q } }) :=
      fun q old => State.queueChanged_handsOn h
    unfold State.departed
    dsimp only
    split
    · split
      · exact State.raise_handsOn ((changed _ _).same rfl rfl)
      · exact (changed _ _).same rfl rfl
    · exact changed _ _
  rw [State.depart_eq]
  refine State.stageTest_handsOn ?_
  split
  · exact State.drainSlots_handsOn left
  · exact left

theorem State.handleCancel_handsOn {k : Fin 16} {n : Nat} (h : r.HandsOn s) : r.HandsOn (s.handleCancel k n) := by
  have refused : ∀ b, r.HandsOn (s.issueReply k b false) := fun b => State.issueReply_handsOn h
  unfold State.handleCancel
  split
  · split
    · exact refused _
    · exact State.issueReply_handsOn h
  · split
    · split
      · exact State.depart_handsOn (refused _)
      · exact refused _
    · split
      · split
        · split <;> exact refused _
        · exact refused _
      · exact refused _

/-! ## Staff commands -/

theorem State.takeInsert_handsOn {song : Nat} {key : Int} {singers : Nat} {priority : Bool} (h : r.HandsOn s) :
    r.HandsOn (s.takeInsert song key singers priority).state := by
  unfold State.takeInsert
  split
  · exact h
  · split
    · exact h
    · exact State.stageTest_handsOn (State.queueChanged_handsOn h)

theorem State.takeRemove_handsOn {n : Nat} (h : r.HandsOn s) : r.HandsOn (s.takeRemove n).state := by
  unfold State.takeRemove
  split
  · exact State.depart_handsOn (State.replyToSource_handsOn h)
  · split <;> exact h

theorem State.takePromote_handsOn {n : Nat} (h : r.HandsOn s) : r.HandsOn (s.takePromote n).state := by
  unfold State.takePromote
  split
  · split
    · dsimp only
      refine State.stageTest_handsOn (State.queueChanged_handsOn ?_)
      exact h
    · exact h
  · split <;> exact h

theorem State.takeClose_handsOn (h : r.HandsOn s) : r.HandsOn s.takeClose.state := by
  have visit : ∀ t k, r.HandsOn t → r.HandsOn (State.closeVisit t k) := fun t k ht => by
    unfold State.closeVisit
    split
    · exact ht
    · refine State.issueReply_handsOn (s := t.setSlot k none) ?_
      exact ht
  simp only [State.takeClose]
  exact foldl_keeps (P := r.HandsOn) visit _ _ (h.same rfl rfl)

/-! ## The voices' work and the write-out -/

theorem State.beginWriteOut_handsOn (h : r.HandsOn s) : r.HandsOn s.beginWriteOut := by
  have begun : ∀ rs scr, r.HandsOn { s with scr := scr, ptu := s.ptu.startOp .writeOut .resultRecord rs } :=
    fun _ _ => h.starts rfl
  unfold State.beginWriteOut
  split
  · exact h
  · dsimp only
    split
    · exact begun _ _
    · exact State.issueReply_handsOn (begun _ _)

theorem State.drainCheck_handsOn (h : r.HandsOn s) : r.HandsOn s.drainCheck := by
  unfold State.drainCheck
  split
  · refine State.stageTest_handsOn (State.beginWriteOut_handsOn ?_)
    exact h
  · exact h

theorem State.vinDrain_handsOn (h : r.HandsOn s) : r.HandsOn s.vinDrain := by
  unfold State.vinDrain
  split
  · exact State.drainCheck_handsOn h
  · exact h

theorem State.pjeDrain_handsOn (h : r.HandsOn s) : r.HandsOn s.pjeDrain := by
  unfold State.pjeDrain
  split
  · exact State.drainCheck_handsOn h
  · exact h

theorem State.tryNoteFetch_handsOn (h : r.HandsOn s) : r.HandsOn s.tryNoteFetch := by
  unfold State.tryNoteFetch
  split
  · exact h.starts rfl
  · exact h

theorem State.takeBlock_handsOn (h : r.HandsOn s) : r.HandsOn s.takeBlock := by
  unfold State.takeBlock
  split
  · exact State.vinDrain_handsOn h
  · exact h

theorem State.endAnalysis_handsOn {e : BlockEntry} (h : r.HandsOn s) : r.HandsOn (s.endAnalysis e) :=
  State.takeBlock_handsOn (State.pjeDrain_handsOn h)

theorem State.applyJudgement_handsOn {j : Judgement} (h : r.HandsOn s) : r.HandsOn (s.applyJudgement j) := by
  unfold State.applyJudgement State.tick
  split
  · split
    · exact h
    · dsimp only
      split
      · exact h
      · split
        · exact State.raise_handsOn h
        · exact h
  · exact h

theorem State.judge_handsOn {b : BlockInHand} {period : Option Nat} (h : r.HandsOn s) :
    r.HandsOn (s.judge b period) := by
  have ends : r.HandsOn (s.endAnalysis b.entry) := State.endAnalysis_handsOn h
  unfold State.judge
  dsimp only
  split
  · exact ends
  split
  · exact ends
  split
  · exact ends
  split
  · exact ends
  split
  · exact State.endAnalysis_handsOn h
  · exact h
  · exact ends
  · exact State.endAnalysis_handsOn (State.applyJudgement_handsOn h)

theorem State.retryJudgement_handsOn (h : r.HandsOn s) : r.HandsOn s.retryJudgement := by
  unfold State.retryJudgement
  split
  · split
    · exact State.judge_handsOn h
    · exact h
  · exact h

theorem State.offerPje_handsOn (h : r.HandsOn s) : r.HandsOn s.offerPje :=
  State.retryJudgement_handsOn (State.tryNoteFetch_handsOn h)

/-! ## The song's states -/

theorem State.enterFinishing_handsOn {n : Nat} (h : r.HandsOn s) : r.HandsOn (s.enterFinishing n) :=
  State.retryJudgement_handsOn (State.pjeDrain_handsOn (State.vinDrain_handsOn (State.stageTest_handsOn h)))

theorem State.leaveSong_handsOn (h : r.HandsOn s) : r.HandsOn s.leaveSong := h

theorem State.loadBanner_handsOn {n : Nat} (h : r.HandsOn s) : r.HandsOn (s.loadBanner n) := by
  unfold State.loadBanner State.returnToIdle
  split
  · exact State.stageTest_handsOn (State.leaveSong_handsOn h)
  · exact h

theorem State.endWriteOut_handsOn (h : r.HandsOn s) : r.HandsOn s.endWriteOut := by
  unfold State.endWriteOut
  refine State.loadBanner_handsOn (State.stageTest_handsOn (State.raise_handsOn ?_))
  exact h

theorem State.finishCommand_handsOn {rc : ResultCode} (h : r.HandsOn s) : r.HandsOn (s.finishCommand rc) := by
  unfold State.finishCommand
  split
  · exact h
  · exact State.result_handsOn h

/-! ## Slots and cues -/

theorem State.retireSlot_handsOn {k : Fin 8} {st : SlotState} (h : r.HandsOn s) : r.HandsOn (s.retireSlot k st) :=
  h.orphanId rfl

theorem State.claimSlot_handsOn {k : Fin 8} {st : SlotState} {line : Nat} (h : r.HandsOn s) :
    r.HandsOn (s.claimSlot k st line) := h.starts rfl

theorem State.bindUnbound_handsOn (fuel : Nat) : ∀ {s : State}, r.HandsOn s → r.HandsOn (s.bindUnbound fuel) := by
  induction fuel with
  | zero => exact fun h => h
  | succ fuel ih =>
    intro s h
    unfold State.bindUnbound
    split
    · exact ih (State.claimSlot_handsOn h)
    · exact h

theorem State.bindFree_handsOn (h : r.HandsOn s) : r.HandsOn s.bindFree := State.bindUnbound_handsOn 8 h

theorem State.takeIn_handsOn {c : Cue} (h : r.HandsOn s) : r.HandsOn (s.takeIn c) := by
  unfold State.takeIn
  split
  · exact State.bindFree_handsOn h
  · exact h

theorem State.retryHeldCue_handsOn (h : r.HandsOn s) : r.HandsOn s.retryHeldCue := by
  unfold State.retryHeldCue
  split
  · exact h
  · exact State.takeIn_handsOn h

theorem State.tryCueFetch_handsOn (h : r.HandsOn s) : r.HandsOn s.tryCueFetch := by
  unfold State.tryCueFetch
  split
  · exact h.starts rfl
  · exact h

theorem State.snapScroll_handsOn (h : r.HandsOn s) : r.HandsOn s.snapScroll := by
  unfold State.snapScroll
  split
  · exact h
  · dsimp only
    split
    · split
      · exact State.bindFree_handsOn (State.retireSlot_handsOn h)
      · exact h
    · exact h

theorem State.takeLineIn_handsOn {k : Fin 8} {t : Nat} (h : r.HandsOn s) : r.HandsOn (s.takeLineIn k t) := by
  have shown : r.HandsOn (s.lineShown k t) := by
    have snapped := State.snapScroll_handsOn h
    unfold State.lineShown State.lineLateRaised
    dsimp only
    split
    · exact snapped.same rfl rfl
    · exact (State.raise_handsOn (e := .lineLate) (s := { s.snapScroll with lsq := _ })
        (snapped.same rfl rfl)).same rfl rfl
  obtain ⟨top, rest, hb⟩ := List.exists_cons_of_ne_nil (l := s.snapScroll.lsq.band ++ [k]) (by simp)
  rw [State.takeLineIn_eq hb]
  split
  · exact State.retireSlot_handsOn shown
  · exact shown

theorem State.takeCue_handsOn {c : QueuedCue} {t : Nat} (h : r.HandsOn s) : r.HandsOn (s.takeCue c t) := by
  unfold State.takeCue
  split
  · exact State.takeLineIn_handsOn h
  · exact h
  · have retired := foldl_keeps (P := r.HandsOn) (f := fun s k => State.retireSlot k .leaving s)
      (fun _ _ ht => State.retireSlot_handsOn ht) s.lsq.band s h
    exact retired.same rfl rfl
  · exact State.raise_handsOn h
  · unfold State.takeSongEnd
    dsimp only
    split
    · exact State.enterFinishing_handsOn h
    · exact h

theorem State.takeDue_handsOn (fuel t : Nat) : ∀ {s : State}, r.HandsOn s → r.HandsOn (s.takeDue fuel t) := by
  induction fuel with
  | zero => exact fun h => h
  | succ fuel ih =>
    intro s h
    unfold State.takeDue
    split
    · exact h
    · split
      · exact ih (State.tryCueFetch_handsOn (State.retryHeldCue_handsOn (State.takeCue_handsOn h)))
      · exact h

theorem State.takeCues_handsOn (h : r.HandsOn s) : r.HandsOn s.takeCues := State.takeDue_handsOn _ _ h

theorem State.offerLsq_handsOn (h : r.HandsOn s) : r.HandsOn s.offerLsq :=
  State.tryCueFetch_handsOn (State.takeCues_handsOn (State.retryHeldCue_handsOn h))

theorem State.offer_handsOn (h : r.HandsOn s) : r.HandsOn s.offer := by
  unfold State.offer
  split
  · exact State.stageTest_handsOn h
  · exact State.stageTest_handsOn (State.offerPje_handsOn (State.offerLsq_handsOn h))

end

end Sys2Proof.Machine
end

