-- ==== Sys2Proof/Proofs/CompletionsHand.lean ====
section
/-! SUPPORT. How the completions, the taps, the rebuilds and the glyph requests hand own requests (R169). -/

namespace Sys2Proof.Machine

/-- What moves nothing in the line, the queue or with a client hands nothing. -/
theorem State.HandsOn.line {r s t : State} (h : r.HandsOn s) (hq : t.ptu.queue = s.ptu.queue := by rfl)
    (hi : t.ptu.intake = s.ptu.intake := by rfl) (hk : t.ptu.kept = s.ptu.kept := by rfl)
    (hw : t.ctl.waiting = s.ctl.waiting := by rfl) : r.HandsOn t :=
  h.trans ⟨⟨[], by simp only [Ptu.handed, hq, hi, hk, List.append_nil]⟩, fun _ => ⟨hq, hi⟩, hw⟩

section
variable {r s : State}

/-! ## The rebuilds and the end of SEEKING (R16, R40, R41) -/

theorem State.lsqRebuildEnd_handsOn (h : r.HandsOn s) : r.HandsOn s.lsqRebuildEnd := by
  unfold State.lsqRebuildEnd
  split
  · split <;> exact h
  · exact h

theorem State.pjeRebuildEnd_handsOn (h : r.HandsOn s) : r.HandsOn s.pjeRebuildEnd := by
  unfold State.pjeRebuildEnd
  split <;> exact h

theorem State.leaveSeeking_handsOn (h : r.HandsOn s) : r.HandsOn s.leaveSeeking := by
  have ends : r.HandsOn (s.finishCommand .ok) := State.finishCommand_handsOn h
  unfold State.leaveSeeking
  dsimp only
  split
  · split
    · exact State.offerPje_handsOn (State.enterFinishing_handsOn (ends.same rfl rfl))
    · exact State.stageTest_handsOn (State.offerPje_handsOn (State.offerLsq_handsOn (ends.same rfl rfl)))
  · exact h

theorem State.rebuildEnds_handsOn (h : r.HandsOn s) : r.HandsOn s.rebuildEnds :=
  State.leaveSeeking_handsOn (State.pjeRebuildEnd_handsOn (State.lsqRebuildEnd_handsOn h))

theorem State.stopRescan_handsOn {x : Rescan} (h : r.HandsOn s) : r.HandsOn (s.stopRescan x) := by
  have shown : ∀ t n, r.HandsOn t → r.HandsOn (State.showCandidate t n) := fun t n ht => by
    unfold State.showCandidate
    split
    · exact ht
    · next k _ => exact (State.claimSlot_handsOn (k := k) (st := .shown) (line := n) ht).same rfl rfl
  unfold State.stopRescan
  exact foldl_keeps (P := r.HandsOn) shown _ _ (h.same rfl rfl)

theorem State.rescanGoesOn_handsOn {x : Rescan} {cs : List Nat} (h : r.HandsOn s) :
    r.HandsOn (s.rescanGoesOn x cs) := by
  unfold State.rescanGoesOn
  dsimp only
  split
  · exact State.stopRescan_handsOn (h.same rfl rfl)
  · exact h.same rfl rfl

theorem State.rescanCue_handsOn {x : Rescan} {data : Option (List Beat)} {off : Nat} (h : r.HandsOn s) :
    r.HandsOn (s.rescanCue x data off) := by
  obtain ⟨unread, read⟩ := State.rescanCue_eq x off s
  cases data with
  | none => rw [unread]; exact State.rescanGoesOn_handsOn h
  | some bs =>
    obtain ⟨beyond, within⟩ := read bs
    by_cases ht : x.target < cueTime bs off
    · rw [beyond ht]
      exact State.stopRescan_handsOn h
    · rw [within (Nat.le_of_not_lt ht)]
      split
      · exact State.rescanGoesOn_handsOn h
      · split
        · exact State.rescanGoesOn_handsOn h
        · exact State.rescanGoesOn_handsOn h
        · exact State.rescanGoesOn_handsOn h
        · exact State.stopRescan_handsOn h

theorem State.startRescan_handsOn {n : Nat} (h : r.HandsOn s) : r.HandsOn (s.startRescan n) := by
  unfold State.startRescan
  dsimp only
  split
  · exact State.stopRescan_handsOn h.line
  · exact h.line

/-! ## Ended reads of the Lyric Sequencer and of the engine -/

theorem State.cueArrived_handsOn {data : Option (List Beat)} {off : Nat} (h : r.HandsOn s) :
    r.HandsOn (s.cueArrived data off) := by
  unfold State.cueArrived
  dsimp only
  split
  · exact h
  · split
    · exact h
    · exact State.takeIn_handsOn (h.same rfl rfl)

theorem State.endCueFetch_handsOn {data : Option (List Beat)} (h : r.HandsOn s) : r.HandsOn (s.endCueFetch data) := by
  unfold State.endCueFetch
  dsimp only
  refine State.rebuildEnds_handsOn (State.tryCueFetch_handsOn ?_)
  split
  · split
    · exact State.rescanCue_handsOn (h.same rfl rfl)
    · exact State.cueArrived_handsOn (h.same rfl rfl)
  · exact State.cueArrived_handsOn (h.same rfl rfl)

theorem State.lineLateRaised_handsOn {b : Bool} (h : r.HandsOn s) : r.HandsOn (s.lineLateRaised b) := by
  unfold State.lineLateRaised
  split
  · exact (State.raise_handsOn (e := .lineLate) h).same rfl rfl
  · exact State.raise_handsOn h

theorem State.endLineLoad_handsOn {op : Nat} {data : Option (List Beat)} (h : r.HandsOn s) :
    r.HandsOn (s.endLineLoad op data) := by
  unfold State.endLineLoad
  split
  · exact h
  · dsimp only
    refine State.rebuildEnds_handsOn ?_
    split
    · exact h
    · exact State.lineLateRaised_handsOn (h.same rfl rfl)

theorem State.latchClaims_handsOn (h : r.HandsOn s) : r.HandsOn s.latchClaims := by
  have bound : r.HandsOn s.bindFree := State.bindFree_handsOn h
  unfold State.latchClaims
  rcases State.whenRoom_cases _ s with e | ⟨e, -⟩
  · rw [e]
    dsimp only
    split
    · exact State.rebuildEnds_handsOn (State.tryCueFetch_handsOn bound)
    · split
      · exact State.tryCueFetch_handsOn (State.takeCues_handsOn bound)
      · exact State.tryCueFetch_handsOn bound
  · rw [e]
    exact h

theorem State.cueFetchComplete_handsOn (h : r.HandsOn s) : r.HandsOn s.cueFetchComplete := by
  unfold State.cueFetchComplete
  split
  · exact h
  · exact State.endCueFetch_handsOn h.line

theorem State.lineLoadComplete_handsOn (h : r.HandsOn s) : r.HandsOn s.lineLoadComplete := by
  unfold State.lineLoadComplete
  split
  · exact h
  · exact State.endLineLoad_handsOn h.line

theorem State.noteFetchComplete_handsOn (h : r.HandsOn s) : r.HandsOn s.noteFetchComplete := by
  have took : ∀ n (t : State), r.HandsOn t → r.HandsOn (t.takeFetchedNote n) := fun n t ht => by
    unfold State.takeFetchedNote
    extract_lets
    split <;> exact ht.same rfl rfl
  have ends : ∀ data (t : State), r.HandsOn t → r.HandsOn (State.endNoteFetch data t) := fun data t ht => by
    unfold State.endNoteFetch
    refine State.rebuildEnds_handsOn (State.retryJudgement_handsOn (State.tryNoteFetch_handsOn ?_))
    split
    · exact ht.same rfl rfl
    · exact took _ _ (ht.same rfl rfl)
  unfold State.noteFetchComplete
  split
  · exact h
  · exact ends _ _ h.line

theorem State.measurementEnd_handsOn (h : r.HandsOn s) : r.HandsOn s.measurementEnd := by
  unfold State.measurementEnd
  split
  · exact h
  · split
    · exact State.judge_handsOn h
    · exact h

theorem State.writeOutEnd_handsOn (h : r.HandsOn s) : r.HandsOn s.writeOutEnd := by
  unfold State.writeOutEnd
  split
  · exact h
  · split
    · exact State.endWriteOut_handsOn h.line
    · exact h

/-! ## Taps (R78 to R86, R164) -/

theorem State.completeBlock_handsOn {ch : Fin 4} {k : Fin 2} (h : r.HandsOn s) : r.HandsOn (s.completeBlock ch k) := by
  have drop : ∀ o, r.HandsOn (s.dropBlock ch o) := fun o => State.raise_handsOn (h.same rfl rfl)
  have join : ∀ (t : State) v, r.HandsOn t → r.HandsOn (State.takeBlock { t with vin := v }) :=
    fun t v ht => State.takeBlock_handsOn (ht.same rfl rfl)
  unfold State.completeBlock
  dsimp only
  split
  · split
    · exact join _ _ h
    · exact join _ _ (drop _)
    · exact join _ _ h
    · exact join _ _ h
  · exact h

theorem State.storeSample_handsOn {ch : Fin 4} {y : Int} (h : r.HandsOn s) : r.HandsOn (s.storeSample ch y) := by
  unfold State.storeSample
  dsimp only
  split
  · exact h
  · split
    · exact State.completeBlock_handsOn (h.same rfl rfl)
    · exact h.same rfl rfl

theorem State.takeSample_handsOn {x : Int} (h : r.HandsOn s) : r.HandsOn (s.takeSample x) := by
  unfold State.takeSample
  dsimp only
  split
  · split
    · split
      · exact h.same rfl rfl
      · exact State.storeSample_handsOn (h.same rfl rfl)
    · exact h
  · exact h

theorem State.takeCapture_handsOn {q : Request} (h : r.HandsOn s) : r.HandsOn (s.takeCapture q) := by
  have beat : ∀ (t : State) (b : WriteBeat), r.HandsOn t → r.HandsOn ((beatSamples b.data).foldl State.takeSample t) :=
    fun t b ht => foldl_keeps (P := r.HandsOn) (fun _ _ hu => State.takeSample_handsOn hu) _ t ht
  unfold State.takeCapture
  split
  · exact h
  · next w _ =>
    dsimp only
    split
    · have seated : r.HandsOn { s with vin := s.vin.seat s.prm.channels w (beatAddr q.addr 0) } := h
      exact (foldl_keeps (P := r.HandsOn) beat (bodyBeats q.body) _ seated).same rfl rfl
    · exact h

theorem State.captureWrite_handsOn (h : r.HandsOn s) : r.HandsOn s.captureWrite := by
  unfold State.captureWrite
  split
  · exact h
  · exact State.takeCapture_handsOn h.line

theorem State.pagetableWrite_handsOn (h : r.HandsOn s) : r.HandsOn s.pagetableWrite := by
  unfold State.pagetableWrite
  split
  · exact h
  · exact h.line

theorem State.playbackTap_handsOn (h : r.HandsOn s) : r.HandsOn s.playbackTap := by
  unfold State.playbackTap
  dsimp only
  split
  · split
    · split
      · exact State.enterFinishing_handsOn (h.same rfl rfl)
      · exact h
    · split
      · exact h
      · exact State.offer_handsOn (h.same rfl rfl)
  · exact h

/-! ## Glyph rows and walks (R53, R64 to R70) -/

theorem State.endRow_handsOn {comp glyph row : Nat} {data : Option (List Beat)} (h : r.HandsOn s) :
    r.HandsOn (s.endRow comp glyph row data) := by
  unfold State.endRow
  split <;> exact h

theorem State.answerAddress_handsOn {q : GlyphReq} {phys : Nat} (h : r.HandsOn s) :
    r.HandsOn (s.answerAddress q phys) := by
  unfold State.answerAddress
  split
  · exact h
  · exact h.starts rfl

theorem State.answerFailure_handsOn {q : GlyphReq} (h : r.HandsOn s) : r.HandsOn (s.answerFailure q) :=
  State.endRow_handsOn (h.same rfl rfl)

theorem State.takeGlyph_handsOn {q : GlyphReq} {t : State} (h : r.HandsOn s) (ht : s.takeGlyph q = some t) :
    r.HandsOn t := by
  unfold State.takeGlyph at ht
  dsimp only at ht
  split at ht
  · cases ht
    exact State.answerFailure_handsOn h
  · split at ht
    · cases ht
      exact State.answerAddress_handsOn (h.same rfl rfl)
    · split at ht
      · split at ht
        · cases ht
          exact h.same rfl rfl
        · split at ht
          · cases ht
            exact h.starts rfl
          · cases ht
      · cases ht

theorem State.retakeIntake_handsOn (h : r.HandsOn s) : r.HandsOn s.retakeIntake := by
  unfold State.retakeIntake
  rcases State.whenRoom_cases _ s with e | ⟨e, -⟩
  · rw [e]
    split
    · exact h
    · next q _ =>
      have off : r.HandsOn { s with gxt := { s.gxt with intake := none } } := h
      rcases ht : State.takeGlyph q { s with gxt := { s.gxt with intake := none } } with _ | t
      · exact h
      · exact State.takeGlyph_handsOn off ht
  · rw [e]
    exact h

theorem State.feedIntake_handsOn (h : r.HandsOn s) : r.HandsOn s.feedIntake := by
  unfold State.feedIntake
  split <;> exact h

theorem State.pumpGlyphs_handsOn (n : Nat) : ∀ {s : State}, r.HandsOn s → r.HandsOn (s.pumpGlyphs n) := by
  induction n with
  | zero => exact fun h => h
  | succ n ih => exact fun h => ih (State.feedIntake_handsOn (State.retakeIntake_handsOn h))

theorem State.pump_handsOn (h : r.HandsOn s) : r.HandsOn s.pump := State.pumpGlyphs_handsOn _ h

theorem State.pageWalkComplete_handsOn (h : r.HandsOn s) : r.HandsOn s.pageWalkComplete := by
  have ends : ∀ k w data (t : State), r.HandsOn t → r.HandsOn (State.endWalk k w data t) := fun k w data t ht => by
    have answered : ∀ page (u : State), r.HandsOn u →
        r.HandsOn (w.waiters.foldl (fun t q => State.answerAddress q (physOf page q.va) t) u) := fun page u hu =>
      foldl_keeps (P := r.HandsOn) (fun _ _ hv => State.answerAddress_handsOn hv) _ u hu
    have failed : ∀ u : State, r.HandsOn u →
        r.HandsOn (w.waiters.foldl (fun t q => State.answerFailure q t) u) := fun u hu =>
      foldl_keeps (P := r.HandsOn) (fun _ _ hv => State.answerFailure_handsOn hv) _ u hu
    unfold State.endWalk
    dsimp only
    refine State.pump_handsOn ?_
    split
    · split
      · exact answered _ _ (ht.same rfl rfl)
      · exact answered _ _ (ht.same rfl rfl)
    · exact failed _ (ht.same rfl rfl)
  unfold State.pageWalkComplete
  split
  · exact h
  · dsimp only
    split
    · exact h.line
    · split
      · exact h.line
      · exact ends _ _ _ _ h.line

theorem State.glyphRowFetchComplete_handsOn (h : r.HandsOn s) : r.HandsOn s.glyphRowFetchComplete := by
  unfold State.glyphRowFetchComplete
  split
  · exact h
  · dsimp only
    split
    · exact State.endRow_handsOn h.line
    · exact h.line

end

end Sys2Proof.Machine
end

