-- ==== Sys2Proof/Proofs/CommandsHand.lean ====
section
/-! SUPPORT. How the host commands, the packets and every ended work hand own requests (R169, R179). -/

namespace Sys2Proof.Machine

section
variable {r s : State}

/-! ## START and SEEK (R9 to R15) -/

theorem State.beginStart_handsOn {tag : BitVec 16} {n : Nat} {bank : Fin 2} (h : r.HandsOn s) :
    r.HandsOn (s.beginStart tag n bank) := by
  have begun : ∀ (t : State) rs scu x, r.HandsOn t → r.HandsOn (State.stageTest { t with
      scu := scu, ptu := t.ptu.startOp .header .headerLoad rs, ctl := { t.ctl with inProgress := x } }) :=
    fun t rs scu x ht => State.stageTest_handsOn (ht.starts rfl)
  unfold State.beginStart
  dsimp only
  split
  · exact begun s.leaveSong _ _ _ (State.leaveSong_handsOn h)
  · exact begun s _ _ _ h

theorem State.failStart_handsOn {rc : ResultCode} (h : r.HandsOn s) : r.HandsOn (s.failStart rc) :=
  State.finishCommand_handsOn (State.stageTest_handsOn (h.same rfl rfl))

theorem State.completeStart_handsOn {t : Ticket} {bank : Fin 2} {base : Nat} {hd : Header} (h : r.HandsOn s) :
    r.HandsOn (s.completeStart t bank base hd) := by
  have left : r.HandsOn (State.depart t false { s with scu := { s.scu with current := some t } }) :=
    State.depart_handsOn (h.same rfl rfl)
  unfold State.completeStart
  exact State.finishCommand_handsOn (State.stageTest_handsOn (State.offer_handsOn left.line))

theorem State.headerReadComplete_handsOn (h : r.HandsOn s) : r.HandsOn s.headerReadComplete := by
  have ends : ∀ data (t : State), r.HandsOn t → r.HandsOn (State.headerEnded data t) := fun data t ht => by
    unfold State.headerEnded
    split
    · split
      · exact State.failStart_handsOn ht
      · split
        · split
          · exact State.failStart_handsOn ht
          · dsimp only
            split
            · exact State.completeStart_handsOn ht
            · exact State.failStart_handsOn ht
        · exact State.failStart_handsOn ht
    · exact ht
  unfold State.headerReadComplete
  split
  · exact h
  · exact ends _ _ h.line

theorem State.beginSeek_handsOn {tag : BitVec 16} {n : Nat} (h : r.HandsOn s) : r.HandsOn (s.beginSeek tag n) := by
  have aborted : ∀ t : State, r.HandsOn t → r.HandsOn t.abortAnalysis := fun t ht => by
    unfold State.abortAnalysis
    split <;> exact ht
  have renotes : ∀ t : State, r.HandsOn t → r.HandsOn t.startNoteRebuild := fun t ht => ht.line
  unfold State.beginSeek
  exact State.rebuildEnds_handsOn (State.tryNoteFetch_handsOn (State.tryCueFetch_handsOn (State.stageTest_handsOn
    (renotes _ (State.startRescan_handsOn (aborted _ (h.same rfl rfl)))))))

/-! ## What the owners of the commands do -/

/-- The Path Unit's part of a setup leaves what is handed. -/
theorem Ptu.setup_line (p : Setup) (u : Ptu) :
    (u.setup p).queue = u.queue ∧ (u.setup p).intake = u.intake ∧ (u.setup p).kept = u.kept := by
  unfold Ptu.setup Ptu.openAt Ptu.shutAt
  dsimp only
  split
  · split <;> exact ⟨rfl, rfl, rfl⟩
  · split <;> exact ⟨rfl, rfl, rfl⟩

theorem State.setupReplies_handsOn (h : r.HandsOn s) : r.HandsOn s.setupReplies := by
  refine h.trans ⟨?_, fun hf => ?_, rfl⟩
  · rw [show s.setupReplies.ptu = s.ptu.handUnwatched .reply _ from rfl, Ptu.handUnwatched_handed]
    exact ⟨_, rfl⟩
  · exact Ptu.handAll_full _ _ _ _ _ hf

theorem State.applySetup_handsOn {p : Setup} (h : r.HandsOn s) : r.HandsOn (s.applySetup p) := by
  obtain ⟨hq, hi, hk⟩ := Ptu.setup_line p s.ptu
  unfold State.applySetup
  exact State.setupReplies_handsOn (h.line hq hi hk)

theorem State.takeSetup_handsOn {sec commit : Byte} {words : List Word} (h : r.HandsOn s) :
    r.HandsOn (s.takeSetup sec commit words).state := by
  unfold State.takeSetup State.refuse
  dsimp only
  split
  · exact h
  · split
    · exact h.same rfl rfl
    · split
      · exact State.applySetup_handsOn (h.same rfl rfl)
      · exact h.same rfl rfl

theorem State.takeAssign_handsOn {singer mic part : Nat} (h : r.HandsOn s) :
    r.HandsOn (s.takeAssign singer mic part).state := by
  unfold State.takeAssign State.refuse
  split
  · dsimp only
    split
    · exact h
    · split
      · exact h
      · exact h.same rfl rfl
      · split
        · exact h
        · split
          · exact h
          · exact h.same rfl rfl
  · exact h

theorem State.takeStart_handsOn {tag : BitVec 16} {n b : Nat} (h : r.HandsOn s) :
    r.HandsOn (s.takeStart tag n b).state := by
  unfold State.takeStart State.refuse
  split
  · exact h
  · split
    · split
      · exact State.beginStart_handsOn h
      · exact h
    · exact h

theorem State.takeStop_handsOn (h : r.HandsOn s) : r.HandsOn s.takeStop.state := by
  unfold State.takeStop State.refuse
  split
  · exact State.enterFinishing_handsOn (h.same rfl rfl)
  · exact h

theorem State.takeSeek_handsOn {tag : BitVec 16} {ms : Nat} (h : r.HandsOn s) :
    r.HandsOn (s.takeSeek tag ms).state := by
  unfold State.takeSeek State.refuse
  split
  · exact State.beginSeek_handsOn h
  · exact h

theorem State.takeScoring_handsOn {g c l : Nat} {fold : Bool} {pm gm fm cad : Nat} (h : r.HandsOn s) :
    r.HandsOn (s.takeScoring g c l fold pm gm fm cad).state := by
  unfold State.takeScoring State.refuse
  split <;> exact h

theorem State.takeEnable_handsOn {mask : Word} (h : r.HandsOn s) : r.HandsOn (s.takeEnable mask).state := by
  refine h.same rfl ?_
  show (s.ctl.enable _ _).waiting = _
  unfold Ctl.enable
  dsimp only
  split
  · exact (Ctl.waiting_of_core (Ctl.raise_core _ _)).trans rfl
  · rfl

theorem State.takeClearRoom_handsOn (h : r.HandsOn s) : r.HandsOn s.takeClearRoom.state := by
  refine h.same (by simp [State.takeClearRoom, CommandEnd.state]) ?_
  show (State.clearQueue { s with scr := s.scr.clear }).ctl.waiting = _
  unfold State.clearQueue
  dsimp only
  split
  · rfl
  · exact Ctl.waiting_of_core (Ctl.raise_core _ _)

/-! ## Submitted commands (R179) -/

/-- A submitted command hands what its owner hands, then its result. -/
theorem State.submit_handsOn {code tag : BitVec 16} {f : State → CommandEnd} (h : r.HandsOn s)
    (hf : r.HandsOn (f s).state) : r.HandsOn (s.submit code tag (some f)) := by
  have answered : ∀ rc, r.HandsOn (s.result code tag rc []) := fun rc => State.result_handsOn h
  unfold State.submit
  split
  · exact answered _
  · dsimp only
    split
    · exact answered _
    · split
      · exact answered _
      · rcases e : f s with a | t
        · rw [e] at hf
          exact State.result_handsOn (s := a.state) hf
        · rw [e] at hf
          exact hf

theorem State.submitInstr_handsOn (c : Instr) (h : r.HandsOn s) : r.HandsOn (s.submitInstr c) := by
  unfold State.submitInstr
  split
  · exact State.submit_handsOn h (State.takeSetup_handsOn h)
  · exact State.submit_handsOn h (State.takeScoring_handsOn h)
  · exact State.submit_handsOn h (State.takeEnable_handsOn h)
  · exact State.submit_handsOn h (h.same rfl rfl)
  · exact State.submit_handsOn h (State.takeStart_handsOn h)
  · exact State.submit_handsOn h (State.takeStop_handsOn h)
  · exact State.submit_handsOn h (State.takeSeek_handsOn h)
  · exact State.submit_handsOn h (h.same rfl rfl)
  · exact State.submit_handsOn h (h.same rfl rfl)
  · exact State.submit_handsOn h (State.takeAssign_handsOn h)
  · exact State.submit_handsOn h (State.takeInsert_handsOn h)
  · exact State.submit_handsOn h (State.takeRemove_handsOn h)
  · exact State.submit_handsOn h (State.takePromote_handsOn h)
  · exact State.submit_handsOn h (h.same rfl rfl)
  · exact State.submit_handsOn h (State.takeClose_handsOn h)
  · exact State.submit_handsOn h (State.takeClearRoom_handsOn h)
  · exact State.submit_handsOn h (h.same rfl rfl)
  all_goals exact h

theorem State.submitRecord_handsOn {x : CommandRecord} (h : r.HandsOn s) : r.HandsOn (s.submitRecord x) := by
  unfold State.submitRecord
  split
  · exact State.submitInstr_handsOn (.setup _ _ _ _) h
  · exact State.submitInstr_handsOn (.setScoring _ _ _ _ _ _ _ _ _) h
  · exact State.submitInstr_handsOn (.enableEvents _ _) h
  · exact State.submitInstr_handsOn (.ack _ _) h
  · exact State.submitInstr_handsOn (.start _ _ _) h
  · exact State.submitInstr_handsOn (.stop _) h
  · exact State.submitInstr_handsOn (.seek _ _) h
  · exact State.submitInstr_handsOn (.setTempo _ _) h
  · exact State.submitInstr_handsOn (.setKey _ _) h
  · exact State.submitInstr_handsOn (.assign _ _ _ _) h
  · exact State.submitInstr_handsOn (.insert _ _ _ _ _) h
  · exact State.submitInstr_handsOn (.remove _ _) h
  · exact State.submitInstr_handsOn (.promote _ _) h
  · exact State.submitInstr_handsOn (.openRoom _) h
  · exact State.submitInstr_handsOn (.closeRoom _) h
  · exact State.submitInstr_handsOn (.clearRoom _) h
  · exact State.submitInstr_handsOn (.flushGlyphs _) h
  · have answered : ∀ code tag rc, r.HandsOn (s.result code tag rc []) := fun _ _ _ => State.result_handsOn h
    unfold State.submit
    dsimp only
    split <;> exact answered _ _ _

theorem State.commandSlotWrite_handsOn (h : r.HandsOn s) : r.HandsOn s.commandSlotWrite := by
  unfold State.commandSlotWrite
  split
  · exact h
  · dsimp only
    split
    · exact State.submitRecord_handsOn h.line
    · exact h.line

/-! ## Handset packets and reply taps (R128 to R140, R154) -/

theorem State.withPacket_handsOn {k : PacketKind} {f : Packet → State → State}
    (hf : ∀ p t, r.HandsOn t → r.HandsOn (f p t)) (h : r.HandsOn s) : r.HandsOn (s.withPacket k f) := by
  have next : ∀ b t, s.nextBeat = some (b, t) → r.HandsOn t := fun b t e => by
    unfold State.nextBeat at e
    split at e
    · cases e
    · split at e
      · split at e
        · cases e
        · cases e
          exact h.line
        · cases e
          exact h.line
      · cases e
  unfold State.withPacket
  split
  · exact h
  · next b t e =>
    split
    · exact hf _ _ (next _ _ e)
    · exact h

theorem State.badPacket_handsOn (h : r.HandsOn s) : r.HandsOn s.badPacket :=
  State.withPacket_handsOn (fun _ _ ht => ht.same rfl rfl) h

theorem State.handsetResend_handsOn (h : r.HandsOn s) : r.HandsOn s.handsetResend := by
  refine State.withPacket_handsOn (fun p t ht => ?_) h
  split
  · exact ht
  · exact State.placeReply_handsOn ht

theorem State.handsetRequest_handsOn (h : r.HandsOn s) : r.HandsOn s.handsetRequest :=
  State.withPacket_handsOn (fun _ _ ht => State.handleRequest_handsOn (ht.same rfl rfl)) h

theorem State.handsetCancel_handsOn (h : r.HandsOn s) : r.HandsOn s.handsetCancel :=
  State.withPacket_handsOn (fun _ _ ht => State.handleCancel_handsOn (ht.same rfl rfl)) h

theorem State.handsetStatus_handsOn (h : r.HandsOn s) : r.HandsOn s.handsetStatus :=
  State.withPacket_handsOn (fun _ _ ht => State.issueReply_handsOn (ht.same rfl rfl)) h

theorem State.badActionPacket_handsOn (h : r.HandsOn s) : r.HandsOn s.badActionPacket :=
  State.withPacket_handsOn (fun _ _ ht => State.issueReply_handsOn (ht.same rfl rfl)) h

theorem State.replyRead_handsOn (h : r.HandsOn s) : r.HandsOn s.replyRead := by
  unfold State.replyRead
  split
  · exact h
  · exact h.line

/-! ## The ends of writes (R152, R157, R180, R186) -/

theorem State.resultSlotWritten_handsOn (h : r.HandsOn s) : r.HandsOn s.resultSlotWritten := by
  unfold State.resultSlotWritten
  split
  · exact h
  · dsimp only
    split
    · exact h.line
    · exact (State.raise_handsOn (e := .commandDone) (h.line (t := { s with ptu := _ }))).same rfl rfl

theorem State.statusRewriteEnd_handsOn (h : r.HandsOn s) : r.HandsOn s.statusRewriteEnd := by
  unfold State.statusRewriteEnd
  split
  · exact h
  · exact h.line

theorem State.imageRewriteEnd_handsOn (h : r.HandsOn s) : r.HandsOn s.imageRewriteEnd := by
  unfold State.imageRewriteEnd
  split
  · exact h
  · exact h.line

theorem State.replyPlacementEnd_handsOn (h : r.HandsOn s) : r.HandsOn s.replyPlacementEnd := by
  unfold State.replyPlacementEnd
  split
  · exact h
  · dsimp only
    split <;> exact h.line

end

end Sys2Proof.Machine
end

