-- ==== Sys2Proof/Proofs/WorkWaits.lean ====
section
/-! While the intake line is full (R169, log 14) nothing moves in it, in the queue or with a client; what a frame latch
left waiting is taken up when there is room (R31). -/

namespace Sys2Proof.Machine

/-! ## A full line -/

/-- The queue, the intake line and the requests with clients are the same in both. -/
def Ptu.SameLine (p q : Ptu) : Prop := q.kept = p.kept ∧ q.intake = p.intake ∧ q.queue = p.queue

theorem Ptu.SameLine.trans {p q u : Ptu} (h : p.SameLine q) (g : q.SameLine u) : p.SameLine u := by
  obtain ⟨hk, hi, hq⟩ := h
  obtain ⟨gk, gi, gq⟩ := g
  exact ⟨gk.trans hk, gi.trans hi, gq.trans hq⟩

/-- The intake line of `r` is full, and `s` has the same line, queue and requests with clients. -/
def State.Stalled (r s : State) : Prop := r.ptu.lineFull = true ∧ r.ptu.SameLine s.ptu

theorem State.Stalled.refl {s : State} (h : s.ptu.lineFull = true) : s.Stalled s := ⟨h, rfl, rfl, rfl⟩

theorem State.Stalled.full {r s : State} (h : r.Stalled s) : s.ptu.lineFull = true := by
  obtain ⟨hf, -, hi, -⟩ := h
  rwa [Ptu.lineFull, hi]

theorem State.Stalled.keeps {r s t : State} (h : r.Stalled s) (g : s.ptu.SameLine t.ptu) : r.Stalled t :=
  ⟨h.1, h.2.trans g⟩

theorem State.Stalled.same {r s t : State} (h : r.Stalled s) (hp : t.ptu = s.ptu) : r.Stalled t :=
  h.keeps (by rw [hp]; exact ⟨rfl, rfl, rfl⟩)

/-- Requests handed at a full line stay with their clients, so with none kept more nothing has moved. -/
theorem State.HandsOn.sameLine {s t : State} (h : s.HandsOn t) (hf : s.ptu.lineFull = true)
    (hk : t.ptu.kept.length = s.ptu.kept.length) : s.ptu.SameLine t.ptu := by
  obtain ⟨behind, stay, -⟩ := h
  obtain ⟨hq, hi⟩ := stay hf
  obtain ⟨more, hmore⟩ := behind
  rw [Ptu.handed, Ptu.handed, hq, hi, List.append_assoc] at hmore
  have kept : s.ptu.kept ++ more = t.ptu.kept := List.append_cancel_left hmore
  have none : more = [] := by
    rw [← kept, List.length_append] at hk
    exact List.eq_nil_of_length_eq_zero (by omega)
  exact ⟨by rw [← kept, none, List.append_nil], hi, hq⟩

section
variable {r s : State}

/-- Work that may wait moves nothing while the line is full. -/
theorem State.whenRoom_stalled {work : State → State} (h : r.Stalled s) (hw : s.HandsOn (s.whenRoom work)) :
    r.Stalled (s.whenRoom work) := by
  refine h.keeps ?_
  by_cases hk : (work s).ptu.kept.length = s.ptu.kept.length
  · refine hw.sameLine h.full ?_
    rw [State.whenRoom, hk]
    split
    · rfl
    · exact hk
  · rw [State.whenRoom, h.full]
    simp only [bne_iff_ne.mpr hk, Bool.and_self, if_true]
    exact ⟨rfl, rfl, rfl⟩

/-- A work that hands requests behind those handed hands them so when it may wait. -/
theorem State.whenRoom_handsOn {work : State → State} (hw : s.HandsOn (work s)) : s.HandsOn (s.whenRoom work) := by
  rcases State.whenRoom_cases work s with e | ⟨e, -⟩
  · rw [e]
    exact hw
  · rw [e]
    exact .refl s

theorem State.flush_stalled (h : r.Stalled s) : r.Stalled s.flush := by
  have image : s.beginImage = s := by
    rw [State.beginImage, h.full]
    simp
  have status : s.beginStatus = s := by
    rw [State.beginStatus, h.full]
    simp
  rwa [State.flush, image, status]

/-- A playback tap whose offers would hand a request waits at the head of the lane. -/
theorem State.takePlaybacks_stalled (l : List Tap) :
    ∀ {s : State}, r.Stalled s → r.Stalled (State.takePlaybacks l s) := by
  induction l with
  | nil => exact fun h => h
  | cons t rest ih =>
    intro s h
    have popped : r.Stalled { s with ptu := { s.ptu with taps := rest } } := h
    have taken := State.playbackTap_handsOn (State.HandsOn.refl { s with ptu := { s.ptu with taps := rest } })
    unfold State.takePlaybacks
    dsimp only
    split
    · split
      · exact h
      · next hk =>
        refine ih (State.flush_stalled (popped.keeps (taken.sameLine popped.full ?_)))
        simpa [h.full] using hk
    · exact h

theorem State.playTaps_stalled (h : r.Stalled s) : r.Stalled s.playTaps := State.takePlaybacks_stalled _ h

/-! ## The two links -/

theorem Ptu.present_sameLine (x : SysOut) (last : Bool) (p : Ptu) : p.SameLine (p.present x last) := by
  unfold Ptu.present
  dsimp only
  split <;> exact ⟨rfl, rfl, rfl⟩

theorem Ptu.returnBeat_sameLine (q : PassReq) (n : Nat) (b : ReadBeat) (p : Ptu) : p.SameLine (p.returnBeat q n b) := by
  unfold Ptu.returnBeat
  split <;> exact Ptu.present_sameLine _ _ _

theorem Ptu.presentAll_sameLine (bs : List ReadBeat) : ∀ p : Ptu, p.SameLine (p.presentAll bs) := by
  induction bs with
  | nil => exact fun _ => ⟨rfl, rfl, rfl⟩
  | cons b rest ih =>
    intro p
    cases rest with
    | nil => exact Ptu.present_sameLine _ _ p
    | cons c rest => exact (Ptu.present_sameLine _ _ p).trans (ih _)

theorem Ptu.returnPart_sameLine (id k : Nat) (x : PartState) (p : Ptu) : p.SameLine (p.returnPart id k x) := by
  unfold Ptu.returnPart
  split
  · exact ⟨rfl, rfl, rfl⟩
  · dsimp only
    split <;> exact ⟨rfl, rfl, rfl⟩

theorem Ptu.finishRead_sameLine (a : OwnRead) (x : PartState) (p : Ptu) : p.SameLine (p.finishRead a x) := by
  have opened : ∀ u : Ptu, u.SameLine u.openAt := fun u => by
    unfold Ptu.openAt
    split <;> exact ⟨rfl, rfl, rfl⟩
  exact (opened { p with reads := p.reads.filter (fun y => y.arrival != a.arrival) }).trans
    (Ptu.returnPart_sameLine _ _ _ _)

theorem State.passThroughResponse_stalled (x : Response) (h : r.Stalled s) : r.Stalled (s.passThroughResponse x) := by
  unfold State.passThroughResponse
  split
  · split
    · dsimp only
      split
      · exact h.keeps (Ptu.presentAll_sameLine _ { s.ptu with placed := s.ptu.placed.tail })
      · exact h.keeps (Ptu.present_sameLine _ _ { s.ptu with placed := s.ptu.placed.tail })
    · exact h
  · exact h

theorem State.ownReadResponse_stalled (bs : List ReadBeat) (h : r.Stalled s) : r.Stalled (s.ownReadResponse bs) := by
  unfold State.ownReadResponse
  split
  · exact h
  · split
    · split
      · exact h
      · next a _ =>
        dsimp only
        split
        · exact h
        · split
          · split
            · exact h
            · refine h.keeps (Ptu.SameLine.trans ?_ (Ptu.finishRead_sameLine _ _ _))
              exact ⟨rfl, rfl, rfl⟩
          · refine h.keeps (Ptu.SameLine.trans ?_ (Ptu.finishRead_sameLine _ _ _))
            exact ⟨rfl, rfl, rfl⟩
    · exact h

theorem State.ownWriteCompletion_stalled (st : Status) (h : r.Stalled s) : r.Stalled (s.ownWriteCompletion st) := by
  unfold State.ownWriteCompletion
  split
  · exact h
  · split
    · dsimp only
      refine h.keeps (Ptu.SameLine.trans ?_ (Ptu.returnPart_sameLine _ _ _ _))
      split <;> exact ⟨rfl, rfl, rfl⟩
    · exact h

theorem State.playbackBeat_stalled (b : ReadBeat) (h : r.Stalled s) : r.Stalled (s.playbackBeat b) := by
  unfold State.playbackBeat
  split
  · split
    · exact State.playTaps_stalled (h.keeps (Ptu.returnBeat_sameLine _ _ b s.ptu))
    · exact h
  · exact h

/-! ## A display beat (R38, R48, R52, R57) -/

theorem State.pump_stalled (h : r.Stalled s) : r.Stalled s.pump := by
  have round : ∀ t : State, r.Stalled t → r.Stalled t.retakeIntake.feedIntake := fun t ht => by
    have taken : r.Stalled t.retakeIntake := by
      have hands := State.retakeIntake_handsOn (State.HandsOn.refl t)
      unfold State.retakeIntake at hands ⊢
      exact State.whenRoom_stalled ht hands
    unfold State.feedIntake
    split <;> exact taken
  have rounds : ∀ n (t : State), r.Stalled t → r.Stalled (t.pumpGlyphs n) := fun n => by
    induction n with
    | zero => exact fun _ ht => ht
    | succ n ih => exact fun t ht => ih _ (round t ht)
  exact rounds _ s h

theorem State.compose_stalled (y : Nat) (h : r.Stalled s) : r.Stalled (s.compose y) := by
  unfold State.compose
  split
  · exact h
  · split
    · exact h
    · split
      · exact h
      · split
        · exact State.pump_stalled (h.same rfl)
        · exact h

theorem State.latchLsq_stalled (h : r.Stalled s) : r.Stalled s.latchLsq := by
  have retired : ∀ (k : Fin 8) (t : State), r.Stalled t → r.Stalled (t.retireSlot k .free) := fun k t ht =>
    ht.keeps (by
      obtain ⟨hk, hi, hq⟩ := Ptu.orphanId_line (t.lsq.slots.get k).load t.ptu
      exact ⟨hk, hi, hq⟩)
  have ended : ∀ (n : Nat) (t : State), r.Stalled t → r.Stalled (t.endScroll n) := fun n t ht => by
    unfold State.endScroll
    split
    · dsimp only
      split
      · split
        · exact retired _ _ (ht.same rfl)
        · exact ht.same rfl
      · exact ht.same rfl
    · exact ht
  have freed : r.Stalled { s with lsq := s.lsq.freeLeaving } := h.same rfl
  exact (ended s.songMs _ freed).same rfl

theorem State.frameLatch_stalled (h : r.Stalled s) : r.Stalled s.frameLatch := by
  have claims : ∀ t : State, r.Stalled t → r.Stalled t.latchClaims := fun t ht => by
    have hands := State.latchClaims_handsOn (State.HandsOn.refl t)
    unfold State.latchClaims at hands ⊢
    exact State.whenRoom_stalled ht hands
  have reset : ∀ t : State, r.Stalled t → r.Stalled t.resetComposition := fun t ht => ht
  unfold State.frameLatch
  exact State.compose_stalled 1 (State.compose_stalled 0 (reset _ (claims _ ((State.latchLsq_stalled h).same rfl))))

theorem State.layerBeat_stalled (l : LatchRecord) (y x : Nat) (b : ReadBeat) (h : r.Stalled s) :
    r.Stalled (s.layerBeat l y x b).1 := by
  have decided : ∀ t : State, r.Stalled t → r.Stalled (t.makeDecision y) := fun t ht => by
    unfold State.makeDecision
    split <;> exact ht
  have made : r.Stalled (if (s.ovc.decision.map Decision.y) = some y then s else s.makeDecision y) := by
    split
    · exact h
    · exact decided _ h
  unfold State.layerBeat
  dsimp only
  split
  · exact made
  · split
    · exact made.same rfl
    · exact made

theorem State.afterLatch_stalled (h : r.Stalled s) : r.Stalled s.afterLatch := by
  have count : r.Stalled s.bannerLatch := by
    unfold State.bannerLatch
    split
    · split
      · have left : r.Stalled s.leaveSong := h
        exact State.whenRoom_stalled left (State.whenRoom_handsOn (State.stageTest_handsOn (State.HandsOn.refl _)))
      · exact h
    · exact h
  exact count.same rfl

theorem State.displayAt_stalled (a : Nat) (b : ReadBeat) (h : r.Stalled s) : r.Stalled (s.displayAt a b).1 := by
  have composed : ∀ (x y : Nat) (t : State), r.Stalled t → r.Stalled (if x = 0 then t.compose y else t) :=
    fun x y t ht => by
      split
      · exact State.compose_stalled y ht
      · exact ht
  have drawn : ∀ (c : Bool) (l : LatchRecord) (y x : Nat) (t : State), r.Stalled t →
      r.Stalled (if c then t.layerBeat l y x b else (t, b)).1 := fun c l y x t ht => by
    split
    · exact State.layerBeat_stalled l y x b ht
    · exact ht
  unfold State.displayAt
  dsimp only
  split
  · exact h
  · generalize (((a : Int) - _) % _).toNat = off
    split
    · refine State.afterLatch_stalled ?_
      split
      · exact composed _ _ _ (State.frameLatch_stalled h)
      · exact drawn _ _ _ _ _ (composed _ _ _ (State.frameLatch_stalled h))
    · split
      · exact composed _ _ _ h
      · exact drawn _ _ _ _ _ (composed _ _ _ h)

theorem State.displayBeat_stalled (b : ReadBeat) (h : r.Stalled s) : r.Stalled (s.displayBeat b) := by
  unfold State.displayBeat
  split
  · dsimp only
    split
    · next q n _ _ =>
      exact (State.displayAt_stalled (beatAddr q.req.addr n) b h).keeps (Ptu.returnBeat_sameLine _ _ _ _)
    · exact h
  · exact h

/-! ## Every command at a full line (R169, log 14) -/

/-- While the line is full no command but a decision or a reset moves anything in it, in the queue or with a client. -/
theorem exec_stalled {i : Instr} {t : State} (hf : s.ptu.lineFull = true) (e : exec i s = .next t)
    (hd : i ≠ .arbiterDecision) (hr : ∀ strap, i ≠ .lineReset strap) : s.Stalled t := by
  have start : s.Stalled s := .refl hf
  have self : s.HandsOn s := .refl s
  have host : ∀ (c : Instr) (work : State → State), s.Stalled (s.hostWork c work).flush := fun c work => by
    rw [State.hostWork_waits c work (fun room => absurd hf (by simp [room.1]))]
    exact State.flush_stalled (start.same rfl)
  have ended : ∀ work : State → State, s.HandsOn (work s) → s.Stalled (s.whenRoom work).flush := fun work hw =>
    State.flush_stalled (State.whenRoom_stalled start (State.whenRoom_handsOn hw))
  have tap : ∀ work : State → State, s.HandsOn (work s) → s.Stalled (s.whenRoom work).flush.playTaps := fun work hw =>
    State.playTaps_stalled (ended work hw)
  unfold exec at e
  split at e
  case h_1 => exact absurd rfl (hr _)
  case h_2 =>
    unfold execSystemRequest State.systemRequest at e
    split at e
    · cases e
      rw [if_pos (.inl (by simpa [Ptu.lineFull] using hf))]
      exact State.flush_stalled start
    · cases e
  case h_3 => exact absurd rfl hd
  all_goals cases e
  · exact State.flush_stalled (State.playbackBeat_stalled _ start)
  · exact State.flush_stalled (State.displayBeat_stalled _ start)
  · exact State.flush_stalled (State.passThroughResponse_stalled _ start)
  · exact State.flush_stalled start
  · exact State.flush_stalled (State.ownReadResponse_stalled _ start)
  · exact State.flush_stalled (State.ownWriteCompletion_stalled _ start)
  · exact ended _ (State.headerReadComplete_handsOn self)
  · exact ended _ (State.cueFetchComplete_handsOn self)
  · exact ended _ (State.lineLoadComplete_handsOn self)
  · exact ended _ (State.noteFetchComplete_handsOn self)
  · exact ended _ (State.pageWalkComplete_handsOn self)
  · exact ended _ (State.glyphRowFetchComplete_handsOn self)
  · exact tap _ (State.commandSlotWrite_handsOn self)
  iterate 17 exact host _ _
  · exact tap _ (State.captureWrite_handsOn self)
  · exact ended _ (State.measurementEnd_handsOn self)
  · exact ended _ (State.writeOutEnd_handsOn self)
  · exact tap _ (State.pagetableWrite_handsOn self)
  · exact tap _ (State.replyRead_handsOn self)
  · exact tap _ (State.badPacket_handsOn self)
  · exact tap _ (State.handsetResend_handsOn self)
  · exact tap _ (State.handsetRequest_handsOn self)
  · exact tap _ (State.handsetCancel_handsOn self)
  · exact tap _ (State.handsetStatus_handsOn self)
  · exact tap _ (State.badActionPacket_handsOn self)
  · exact ended _ (State.resultSlotWritten_handsOn self)
  · exact ended _ (State.statusRewriteEnd_handsOn self)
  · exact ended _ (State.imageRewriteEnd_handsOn self)
  · exact ended _ (State.replyPlacementEnd_handsOn self)

/-! ## Host commands that wait -/

theorem exec_hostCommand_waits {c : Instr} {code tag : BitVec 16} (hc : hostCode c = some (code, tag))
    (hw : s.ptu.lineFull = true ∨ s.ctl.waiting ≠ []) :
    exec c s = .next ({ s with ctl := { s.ctl with waiting := s.ctl.waiting ++ [c] } } : State).flush := by
  have crowded : ¬ s.roomy := fun ⟨room, noneWait⟩ => hw.elim (by simp [room]) (fun h => h noneWait)
  have waits : ∀ d work, s.hostWork d work = { s with ctl := { s.ctl with waiting := s.ctl.waiting ++ [d] } } :=
    fun d work => State.hostWork_waits d work crowded
  cases c
  all_goals first
    | exact congrArg (fun t : State => Host.Outcome.next t.flush) (waits _ _)
    | cases hc

theorem State.resumeWork_stays (h : s.ctl.waiting = [] ∨ s.ptu.lineFull = true) : s.resumeWork = s := by
  rcases hw : s.ctl.waiting with _ | ⟨c, rest⟩
  · rw [State.resumeWork, hw, State.resumeHost, ← hw]
  · have hf : s.ptu.lineFull = true := h.resolve_left (by simp [hw])
    rw [State.resumeWork, hw, State.resumeHost, if_pos hf, ← hw]

/-- With room the oldest waiting command is submitted, and the rest goes on waiting behind it. -/
theorem State.resumeWork_cons {c : Instr} {rest : List Instr} (hw : s.ctl.waiting = c :: rest)
    (hf : s.ptu.lineFull = false) :
    let u := (State.submitInstr { s with ctl := { s.ctl with waiting := [] } } c).flush
    s.resumeWork = State.resumeWork { u with ctl := { u.ctl with waiting := rest } } := by
  intro u
  have hu : u.ctl.waiting = [] :=
    State.HandsOn.waiting
      (State.flush_handsOn (State.submitInstr_handsOn c (.refl { s with ctl := { s.ctl with waiting := [] } })))
  have next : s.resumeWork = State.resumeHost rest u := by
    rw [State.resumeWork, hw, State.resumeHost]
    exact if_neg fun e => absurd (hf.symm.trans e) (by decide)
  rw [next, State.resumeWork]
  exact congrArg (fun w => State.resumeHost rest { u with ctl := { u.ctl with waiting := w } }) hu

/-! ## What a frame latch left waiting (R31) -/

theorem Lsq.claimWaits_false {q : Lsq} (h : (∀ k, (q.slots.get k).state ≠ .free) ∨ ∀ c ∈ q.queue, ¬ c.unbound) :
    q.claimWaits = false := by
  rcases h with h | h
  · rw [Lsq.claimWaits, Lsq.freeSlot_eq_none h]
    rfl
  · rw [Lsq.claimWaits, Lsq.unbound, (firstUnbound_none_iff _).mpr h]
    exact Bool.and_false _

/-- With room and no claim waiting, what is left is the staging test of IDLE. -/
theorem State.resumeLatch_noClaim (hc : s.lsq.claimWaits = false) (hf : s.ptu.lineFull = false) :
    (s.scu.state ≠ .idle → s.resumeLatch = s) ∧ (s.scu.state = .idle → s.resumeLatch = s.stageTest) := by
  refine ⟨State.resumeLatch_none hc, fun hs => ?_⟩
  simp [State.resumeLatch, State.resumeStaging, hc, hs, hf]

/-- With room, waiting claims are made, and what follows hands its requests behind theirs. -/
theorem State.resumeLatch_claims (hc : s.lsq.claimWaits = true) (hf : s.ptu.lineFull = false) :
    s.bindFree.HandsOn s.resumeLatch := by
  have claims : s.bindFree.HandsOn s.latchClaims := by
    rw [State.latchClaims, State.whenRoom_room _ hf]
    dsimp only
    split
    · exact State.rebuildEnds_handsOn (State.tryCueFetch_handsOn (.refl _))
    · split
      · exact State.tryCueFetch_handsOn (State.takeCues_handsOn (.refl _))
      · exact State.tryCueFetch_handsOn (.refl _)
  have closed := State.flush_handsOn claims
  rw [State.resumeLatch, if_pos hc, State.resumeStaging]
  split
  · exact closed.trans (State.whenRoom_handsOn (State.stageTest_handsOn (.refl _)))
  · exact closed

/-- With no cue due and no SEEKING, the claims are all that reaches the slots and the queue. -/
theorem State.resumeLatch_lsq (hc : s.lsq.claimWaits = true) (hf : s.ptu.lineFull = false)
    (hdue : ∀ x ∈ s.lsq.queue, s.songMs < x.cue.time) (hs : s.scu.state ≠ .seeking) :
    s.resumeLatch.lsq = { s.bindFree.lsq with fetch := s.resumeLatch.lsq.fetch } := by
  have head : s.headWaits = false := by
    unfold State.headWaits
    split
    · rfl
    · next c _ hq => simp [hdue c (by simp [hq])]
  have claims : s.latchClaims = s.bindFree.tryCueFetch := by
    rw [State.latchClaims, State.whenRoom_room _ hf]
    simp [hs, head]
  have lsq : s.resumeLatch.lsq = s.bindFree.tryCueFetch.lsq := by
    rw [State.resumeLatch, if_pos hc, claims]
    simp
  rw [lsq]
  exact State.tryCueFetch_lsq _

end

/-- Settles O3. Every operation hands its requests behind those handed before it and moves nothing at a full line, so
work that may wait, which is done only when no request stays with its client, moves nothing. -/
theorem workWaitsForTheLine : Obligations.WorkWaitsForTheLine := by
  unfold Obligations.WorkWaitsForTheLine
  refine ⟨fun c code tag s hc => ⟨exec_hostCommand hc, exec_hostCommand_waits hc⟩,
    fun s => ⟨State.resumeWork_stays, fun c rest => State.resumeWork_cons⟩, fun c s u hf e hd hr => ?_, fun s hf => ?_⟩
  · exact (exec_stalled hf e hd hr).2
  · refine ⟨fun h => State.resumeLatch_noClaim (Lsq.claimWaits_false h) hf, ?_⟩
    intro k front c back n hk hlow hq hfront hslot hkind u
    have waits : s.lsq.claimWaits = true := by
      rw [Lsq.claimWaits, Lsq.freeSlot_first hk hlow, (Lsq.unbound_iff _).mpr ⟨c, by simp [hq], hslot, n, hkind⟩]
      rfl
    have bound := State.bindFree_first hk hlow hq hfront hslot hkind
    refine ⟨?_, fun hdue hothers hseek => ?_⟩
    · have first : (State.claimSlot k .loading n { s with lsq := { s.lsq with
          queue := front ++ { c with slot := some k } :: back } }).HandsOn u := by
        refine State.HandsOn.trans ?_ (State.resumeLatch_claims waits hf)
        rw [bound]
        exact State.bindUnbound_handsOn 7 (.refl _)
      obtain ⟨more, hmore⟩ := first.behind
      exact ⟨more, by rw [← hmore, State.claimSlot_handed]⟩
    · have all : s.bindFree = State.claimSlot k .loading n { s with lsq := { s.lsq with
          queue := front ++ { c with slot := some k } :: back } } := by
        refine bound.trans (State.bindUnbound_stops (.inl (Lsq.freeSlot_eq_none fun j => ?_)) 7)
        rw [State.claimSlot_get]
        split
        · exact nofun
        · next hj => exact hothers j (Ne.symm hj)
      have lsq := State.resumeLatch_lsq waits hf hdue hseek
      rw [all] at lsq
      refine ⟨by rw [lsq]; rfl, ?_, fun j hj => ?_⟩
      · rw [lsq]
        exact (State.claimSlot_get ..).trans (if_pos rfl)
      · rw [lsq]
        exact (State.claimSlot_get ..).trans (if_neg hj.symm)

end Sys2Proof.Machine
end

