-- ==== Sys2Proof/Proofs/SetupTaken.lean ====
section
/-! SETUP decided (R181), and what a commit that passes leaves in each block (R182). -/

namespace Sys2Proof.Machine

/-- In IDLE, with no command in progress, SETUP reaches its owner, set up or not (R179). -/
theorem State.submitSetup_answered {s : State} {tag : BitVec 16} {sec commit : Byte} {ws : List Word} {a : Answer}
    (hp : s.ctl.inProgress = none) (hi : s.scu.state = .idle) (ha : s.takeSetup sec commit ws = .answered a) :
    s.submitSetup tag sec commit ws = a.state.result 0x01 tag a.rc a.values := by
  simp [State.submitSetup, State.submit, hp, hi, ha]

/-- SETUP's answer, section by section and check by check (R181). -/
theorem State.takeSetup_eq (sec commit : Byte) (ws : List Word) (s : State) :
    let p := s.ctl.pendingSetup.copySection sec.toNat (fun i => ws.getD i 0)
    let copied : State := { s with ctl := { s.ctl with pendingSetup := p } }
    (5 < sec.toNat → s.takeSetup sec commit ws = .answered ⟨s, .badArg, []⟩) ∧
      (sec.toNat ≤ 5 → commit = 0 → s.takeSetup sec commit ws = .answered ⟨copied, .ok, []⟩) ∧
      (sec.toNat ≤ 5 → commit ≠ 0 → p.ok s.ptu.controlBase = false →
        s.takeSetup sec commit ws = .answered ⟨copied, .badArg, []⟩) ∧
      (sec.toNat ≤ 5 → commit ≠ 0 → p.ok s.ptu.controlBase = true →
        s.takeSetup sec commit ws = .answered ⟨copied.applySetup p, .ok, []⟩) := by
  intro p copied
  unfold State.takeSetup
  refine ⟨fun h => if_pos h, fun h hc => ?_, fun h hc hp => ?_, fun h hc hp => ?_⟩ <;> rw [if_neg (Nat.not_lt.mpr h)]
  · exact if_pos hc
  · rw [if_neg hc]
    exact if_neg (ne_true_of_eq_false hp)
  · rw [if_neg hc]
    exact if_pos hp

/-- A checked OWN_BASE lies below OWN_LIMIT (R162). -/
theorem Setup.ok_ownBase {control : Nat} {p : Setup} (h : p.ok control = true) : p.ownBase < p.ownLimit := by
  simp only [Setup.ok, Setup.pathOk, Bool.and_eq_true, decide_eq_true_eq] at h
  omega

theorem Ptu.shutAt_eq (p : Ptu) : p.shutAt = { p with shut := decide (p.ownLimit ≤ p.reads.length) || p.shut } := by
  unfold Ptu.shutAt
  split
  · next h => simp [h]
  · next h => simp [h]

theorem Ptu.openAt_eq (p : Ptu) : p.openAt = { p with shut := !decide (p.reads.length ≤ p.ownBase) && p.shut } := by
  unfold Ptu.openAt
  split
  · next h => simp [h]
  · next h => simp [h]

/-- The Path Unit under a new setup, the throttle shut and opened by the new limits (R162, R171). -/
theorem Ptu.setup_eq (p : Setup) (u : Ptu) : u.setup p = { u with
    windows := p.windows, tags := some ⟨p.controlTag, p.playbackTag, p.displayTag, p.captureTag, p.radioTag⟩
    rotateN := p.rotateN, ownLimit := p.ownLimit, ownBase := p.ownBase, retryMax := p.retryMax, rotation := 0
    shut := !decide (u.reads.length ≤ p.ownBase) && (decide (p.ownLimit ≤ u.reads.length) || u.shut) } := by
  rw [Ptu.setup, Ptu.shutAt_eq, Ptu.openAt_eq]

/-- The Path Unit that a commit leaves: the new setup, the row reads orphaned, the producer count's write handed. -/
theorem State.applySetup_ptu (p : Setup) (s : State) : (s.applySetup p).ptu =
    ((s.ptu.setup p).orphan OpKind.isRow).handUnwatched .reply (writesOver p.wReply.base (leBytes 4 0)) := by
  have base : baseOf ((s.ptu.setup p).orphan OpKind.isRow).windows.reply = p.wReply.base := by
    rw [Ptu.setup_eq]
    rfl
  rw [← base]
  rfl

/-- New limits leave the throttle SHUT from OWN_LIMIT on, OPEN up to OWN_BASE, and as it was between them (R171). -/
theorem throttle_limits {base limit : Nat} (h : base < limit) (n : Nat) (shut : Bool) :
    let x := !decide (n ≤ base) && (decide (limit ≤ n) || shut)
    (limit ≤ n → x = true) ∧ (n ≤ base → x = false) ∧ (base < n ∧ n < limit → x = shut) := by
  intro x
  refine ⟨fun hl => ?_, fun hb => ?_, fun ⟨hb, hl⟩ => ?_⟩
  · simp [x, hl, Nat.not_le.mpr (Nat.lt_of_lt_of_le h hl)]
  · simp [x, hb]
  · simp [x, Nat.not_le.mpr hb, Nat.not_le.mpr hl]

/-- Of the links a commit writes the setup's own fields (R162). -/
theorem State.applySetup_links (p : Setup) (s : State) :
    (s.applySetup p).ptu.links = ({ s.ptu with
      windows := p.windows, tags := some ⟨p.controlTag, p.playbackTag, p.displayTag, p.captureTag, p.radioTag⟩
      rotateN := p.rotateN, ownLimit := p.ownLimit, ownBase := p.ownBase, retryMax := p.retryMax, rotation := 0
      shut := !decide (s.ptu.reads.length ≤ p.ownBase) &&
        (decide (p.ownLimit ≤ s.ptu.reads.length) || s.ptu.shut) } : Ptu).links := by
  rw [State.applySetup_ptu, Ptu.handUnwatched_links, Ptu.orphan_links, Ptu.setup_eq]

/-- A commit orphans the row reads and hands the write of the producer count (R48, R147). -/
theorem State.applySetup_traffic (p : Setup) (s : State) :
    (s.applySetup p).ptu.handed = s.ptu.handed ++
        requestsOf .reply s.ptu.nextOp 0 (writesOver p.wReply.base (leBytes 4 0)) ∧
      (s.applySetup p).ptu.ops = s.ptu.ops.filter (fun o => !o.kind.isRow) ∧
      (s.applySetup p).ptu.ended = s.ptu.ended.filter (fun o => !o.kind.isRow) := by
  rw [State.applySetup_ptu, Ptu.setup_eq, Ptu.handUnwatched_handed]
  obtain ⟨-, ops, ended, -⟩ := Ptu.handUnwatched_fields .reply (writesOver p.wReply.base (leBytes 4 0))
    (Ptu.orphan OpKind.isRow (Ptu.setup p s.ptu))
  rw [Ptu.setup_eq] at ops ended
  exact ⟨rfl, ops, ended⟩

/-- Settles O12. SETUP's answer is taken case by case; of the Path Unit a commit writes the setup's own fields, and the
write of the producer count and the orphaned row reads leave the links. -/
theorem setupIsCheckedAndTaken : Obligations.SetupIsCheckedAndTaken := by
  unfold Obligations.SetupIsCheckedAndTaken
  have decided : ∀ {s : State} {tag sec commit ws a}, s.ctl.inProgress = none → s.scu.state = .idle → s.roomy →
      s.takeSetup sec commit ws = .answered a →
      exec (.setup tag sec commit ws) s = .next (a.state.result 0x01 tag a.rc a.values).flush := fun hp hi hr ha =>
    (exec_hostCommand rfl hr).trans (congrArg (fun t : State => Host.Outcome.next t.flush)
      (State.submitSetup_answered hp hi ha))
  refine ⟨fun tag sec commit ws s hp hi hr => ?_, fun tag sec commit ws s hp hi hr hsec hc => ?_⟩
  · obtain ⟨beyond, kept, failed, -⟩ := State.takeSetup_eq sec commit ws s
    exact ⟨fun h => decided hp hi hr (beyond h), fun h hc => decided hp hi hr (kept h hc),
      fun h hc hk => decided hp hi hr (failed h hc hk)⟩
  · intro p hok
    obtain ⟨-, -, -, passed⟩ := State.takeSetup_eq sec commit ws s
    obtain ⟨shuts, opens, stays⟩ := throttle_limits (Setup.ok_ownBase hok) s.ptu.reads.length s.ptu.shut
    obtain ⟨controlBase, windows, tags, rotateN, ownLimit, ownBase, retryMax, reads, shut, rotation, discard, pathFault,
      guardHit, lastGuard, memError, memErrorCount, passQueue, placed, taps, sysHeld, sysOrder, sysOut⟩ :=
      Ptu.links_fields (State.applySetup_links p { s with ctl := { s.ctl with pendingSetup := p } })
    obtain ⟨handed, ops, ended⟩ := State.applySetup_traffic p { s with ctl := { s.ctl with pendingSetup := p } }
    refine ⟨State.applySetup p { s with ctl := { s.ctl with pendingSetup := p } },
      decided hp hi hr (passed hsec hc hok), ?_⟩
    exact ⟨rfl, rfl, rfl, rfl, rfl, rfl, rfl, rfl, fun k => map_get .., rfl, rfl, rfl, windows, tags, rotateN,
      ownLimit, ownBase, retryMax, rotation, reads, fun h => shut.trans (shuts h), fun h => shut.trans (opens h),
      fun h => shut.trans (stays h), handed, ops, ended, placed, passQueue, taps, controlBase, pathFault, guardHit,
      lastGuard, memError, memErrorCount, discard, sysHeld, sysOrder, sysOut, rfl⟩

end Sys2Proof.Machine
end

