-- ==== Sys2Proof/Proofs/RepliesAndStrip.lean ====
section
/-! The bytes of a reply record (R151, R189) and the characters of the strip text (R50). -/

namespace Sys2Proof.Machine

/-! ## Fields of a padded record -/

/-- Every byte no field fills is 0 (R189). -/
theorem bytesAt_padTo_rest {n i : Nat} {bs : List Byte} (h : bs.length ≤ i) : bytesAt (padTo n bs) i 1 = 0 := by
  have zero : (padTo n bs).getD i 0 = 0 := by
    rw [padTo, List.getD_eq_getElem?_getD, List.getElem?_take]
    split
    · rw [List.getElem?_append_right h, List.getElem?_replicate]
      split <;> rfl
    · rfl
  rw [bytesAt, zero]
  rfl

/-- The `j`-th of the entries of one length that stand behind a head. -/
theorem padTo_entry {n k j a m : Nat} {head : List Byte} {parts : List (List Byte)} {p : List Byte}
    (hk : ∀ p ∈ parts, p.length = k) (hj : parts[j]? = some p) (hn : head.length + (k * j + k) ≤ n) (ha : a + m ≤ k) :
    ((padTo n (head ++ parts.flatten)).drop (head.length + k * j + a)).take m = (p.drop a).take m := by
  obtain ⟨room, slice⟩ := flatten_slice hk hj
  rw [padTo_slice (by omega) (by rw [List.length_append]; omega), Nat.add_assoc, List.drop_length_add_append, ← slice,
    List.drop_take, List.take_take, List.drop_drop, Nat.min_eq_left (by omega)]

/-! ## Reply records (section 12.4) -/

/-- A reply record of these first four bytes. -/
def replyRecord (r : Reply) (kind third : Nat) (rest : List Byte) : List Byte :=
  padTo 32 ([BitVec.ofNat 8 r.handset.val, r.seq, BitVec.ofNat 8 kind, BitVec.ofNat 8 third] ++ rest)

theorem Reply.bytes_head {r : Reply} {kind third : Nat} {rest : List Byte}
    (e : r.bytes = replyRecord r kind third rest) :
    bytesAt r.bytes 0 1 = r.handset.val ∧ bytesAt r.bytes 1 1 = r.seq.toNat ∧ bytesAt r.bytes 2 1 = kind % 256 ∧
      bytesAt r.bytes 3 1 = third % 256 := by
  rw [e]
  refine ⟨?_, rfl, bytesAt_leBytes (n := kind) rfl, bytesAt_leBytes (n := third) rfl⟩
  rw [bytesAt_leBytes (n := r.handset.val) rfl]
  exact Nat.mod_eq_of_lt (r.handset.isLt.trans (by decide))

theorem Reply.bytes_record (r : Reply) : ∃ kind third rest, r.bytes = replyRecord r kind third rest := by
  obtain ⟨h, q, body⟩ := r
  cases body <;> exact ⟨_, _, _, rfl⟩

/-- The entry of a ticket in a POSITIONS reply. -/
def PositionEntry.bytes (e : PositionEntry) : List Byte :=
  leBytes 2 e.number ++ leBytes 1 (e.position % 64 + 64 * e.cls.code)

/-- The entry of a singer in a SCORE reply. -/
def ScoreEntry.bytes (e : ScoreEntry) : List Byte := leBytes 1 e.singer ++ leBytes 2 e.score

/-- Every byte behind a reply's fields is 0 (R189). -/
theorem replyRecord_rest {r : Reply} {kind third i : Nat} {rest : List Byte} (h : 4 + rest.length ≤ i) :
    bytesAt (replyRecord r kind third rest) i 1 = 0 :=
  bytesAt_padTo_rest (by rw [List.length_append]; exact h)

/-- A field of the `j`-th three-byte entry of a reply. -/
theorem replyRecord_entry {r : Reply} {kind third i h j a m v : Nat} {head : List Byte} {parts : List (List Byte)}
    {p : List Byte} (hi : i = 4 + h + 3 * j + a) (hh : head.length = h) (hk : ∀ p ∈ parts, p.length = 3)
    (hj : parts[j]? = some p) (hn : 4 + h + (3 * j + 3) ≤ 32) (ha : a + m ≤ 3) (hv : (p.drop a).take m = leBytes m v) :
    bytesAt (replyRecord r kind third (head ++ parts.flatten)) i m = v % 256 ^ m := by
  have length : ([BitVec.ofNat 8 r.handset.val, r.seq, BitVec.ofNat 8 kind, BitVec.ofNat 8 third] ++ head).length =
      4 + h := by rw [List.length_append, hh]; rfl
  have slice := padTo_entry (n := 32) hk hj (by rw [length]; exact hn) ha
  rw [length, List.append_assoc, ← hi, hv] at slice
  exact bytesAt_leBytes slice

theorem Reply.bytes_field {r : Reply} {kind third off k n : Nat} {rest : List Byte}
    (e : r.bytes = replyRecord r kind third rest)
    (h : ((replyRecord r kind third rest).drop off).take k = leBytes k n) : bytesAt r.bytes off k = n % 256 ^ k := by
  rw [e]
  exact bytesAt_leBytes h

theorem PositionEntry.bytes_length (e : PositionEntry) : e.bytes.length = 3 := rfl

theorem ScoreEntry.bytes_length (e : ScoreEntry) : e.bytes.length = 3 := rfl

theorem length_entries {α : Type} (f : α → List Byte) (hf : ∀ e, (f e).length = 3) (es : List α) :
    (∀ p ∈ es.map f, p.length = 3) ∧ (es.map f).flatten.length = 3 * es.length := by
  refine ⟨fun p hp => ?_, ?_⟩
  · obtain ⟨e, -, rfl⟩ := List.mem_map.mp hp
    exact hf e
  · induction es with
    | nil => rfl
    | cons e rest ih =>
      rw [List.map_cons, List.flatten_cons, List.length_append, ih, hf, List.length_cons]
      omega

/-- The fields of a POSITIONS reply (Table 9-2). -/
theorem Reply.bytes_positions {r : Reply} {es : List PositionEntry} {held : Bool} {cur : Option Nat}
    (h : r.body = .positions es held cur) (h8 : es.length ≤ 8) :
    bytesAt r.bytes 2 1 = 6 ∧ bytesAt r.bytes 3 1 = es.length ∧
      bytesAt r.bytes 4 1 = bit01 held + 2 * bit01 cur.isSome ∧ bytesAt r.bytes 5 1 = 0 ∧
      bytesAt r.bytes 6 2 = cur.getD 0 % 65536 ∧
      (∀ i e, es[i]? = some e → bytesAt r.bytes (8 + 3 * i) 2 = e.number % 65536 ∧
        bytesAt r.bytes (10 + 3 * i) 1 = e.position % 64 + 64 * e.cls.code) ∧
      ∀ i, 8 + 3 * es.length ≤ i → bytesAt r.bytes i 1 = 0 := by
  have record : r.bytes = replyRecord r 6 es.length ((leBytes 1 (bit01 held + 2 * bit01 cur.isSome) ++ [0] ++
      leBytes 2 (cur.getD 0)) ++ (es.map PositionEntry.bytes).flatten) := by
    rw [Reply.bytes, h]
    rfl
  obtain ⟨three, total⟩ := length_entries PositionEntry.bytes PositionEntry.bytes_length es
  obtain ⟨-, -, kind, third⟩ := Reply.bytes_head record
  refine ⟨kind, third.trans (Nat.mod_eq_of_lt (by omega)), ?_, ?_, ?_, fun i e he => ?_, fun i hi => ?_⟩
  · rw [Reply.bytes_field record (n := bit01 held + 2 * bit01 cur.isSome) rfl]
    cases held <;> cases cur <;> rfl
  · exact Reply.bytes_field record (n := 0) rfl
  · exact Reply.bytes_field record (n := cur.getD 0) rfl
  · have short : i < es.length := (List.getElem?_eq_some_iff.mp he).1
    have entry : (es.map PositionEntry.bytes)[i]? = some e.bytes := by rw [List.getElem?_map, he]; rfl
    rw [record]
    refine ⟨replyRecord_entry (h := 4) (a := 0) (by omega) rfl three entry (by omega) (by omega) rfl, ?_⟩
    rw [replyRecord_entry (h := 4) (a := 2) (by omega) rfl three entry (by omega) (by omega)
      (v := e.position % 64 + 64 * e.cls.code) rfl]
    have code : e.cls.code ≤ 3 := by cases e.cls <;> decide
    exact Nat.mod_eq_of_lt (by omega)
  · rw [record]
    refine replyRecord_rest ?_
    rw [List.length_append, total]
    simp only [List.length_append, leBytes_length, List.length_singleton]
    omega

/-- The fields of a SCORE reply (Table 9-2). -/
theorem Reply.bytes_score {r : Reply} {n song : Nat} {es : List ScoreEntry} (h : r.body = .score n song es)
    (h4 : es.length ≤ 4) :
    bytesAt r.bytes 2 1 = 7 ∧ bytesAt r.bytes 3 1 = es.length ∧ bytesAt r.bytes 4 2 = n % 65536 ∧
      bytesAt r.bytes 6 2 = 0 ∧ bytesAt r.bytes 8 3 = song % 2 ^ 24 ∧ bytesAt r.bytes 11 1 = 0 ∧
      (∀ i e, es[i]? = some e → bytesAt r.bytes (12 + 3 * i) 1 = e.singer % 256 ∧
        bytesAt r.bytes (13 + 3 * i) 2 = e.score % 65536) ∧
      ∀ i, 12 + 3 * es.length ≤ i → bytesAt r.bytes i 1 = 0 := by
  have record : r.bytes = replyRecord r 7 es.length ((leBytes 2 n ++ [0, 0] ++ leBytes 3 song ++ [0]) ++
      (es.map ScoreEntry.bytes).flatten) := by
    rw [Reply.bytes, h]
    rfl
  obtain ⟨three, total⟩ := length_entries ScoreEntry.bytes ScoreEntry.bytes_length es
  obtain ⟨-, -, kind, third⟩ := Reply.bytes_head record
  refine ⟨kind, third.trans (Nat.mod_eq_of_lt (by omega)), ?_, ?_, ?_, ?_, fun i e he => ?_, fun i hi => ?_⟩
  · exact Reply.bytes_field record (n := n) rfl
  · exact Reply.bytes_field record (n := 0) rfl
  · exact Reply.bytes_field record (n := song) rfl
  · exact Reply.bytes_field record (n := 0) rfl
  · have short : i < es.length := (List.getElem?_eq_some_iff.mp he).1
    have entry : (es.map ScoreEntry.bytes)[i]? = some e.bytes := by rw [List.getElem?_map, he]; rfl
    rw [record]
    exact ⟨replyRecord_entry (h := 8) (a := 0) (by omega) rfl three entry (by omega) (by omega) rfl,
      replyRecord_entry (h := 8) (a := 1) (by omega) rfl three entry (by omega) (by omega) rfl⟩
  · rw [record]
    refine replyRecord_rest ?_
    rw [List.length_append, total]
    simp only [List.length_append, leBytes_length, List.length_cons, List.length_nil]
    omega

/-- The fields of the replies without entries (Table 9-2): the head's two bytes, a ticket number or none, and what
stands behind it. -/
theorem Reply.bytes_short (r : Reply) :
    (∀ n pos, r.body = .accepted n pos → r.bytes = replyRecord r 1 0 (leBytes 2 n ++ leBytes 1 pos)) ∧
      (r.body = .held → r.bytes = replyRecord r 2 0 []) ∧
      (∀ why, r.body = .refused why → r.bytes = replyRecord r 3 why.code []) ∧
      (∀ n, r.body = .cancelled n → r.bytes = replyRecord r 4 0 (leBytes 2 n)) ∧
      (∀ n song, r.body = .called n song → r.bytes = replyRecord r 5 0 (leBytes 2 n ++ [0, 0] ++ leBytes 3 song)) := by
  refine ⟨fun n pos h => ?_, fun h => ?_, fun why h => ?_, fun n h => ?_, fun n song h => ?_⟩ <;> rw [Reply.bytes, h]
  all_goals rfl

/-! ## Numbers in decimal (R50) -/

/-- Decimal digits: of a number below 10 itself, of any other a first digit that is not 0 and more behind it. -/
theorem digitsOf_spec (fuel : Nat) : ∀ n, n < 10 ^ (fuel + 1) → ∃ ds : List Nat,
    (∀ acc, digitsOf (fuel + 1) n acc = ds ++ acc) ∧ (∀ d ∈ ds, d < 10) ∧
      ds.foldl (fun a d => 10 * a + d) 0 = n ∧ (n < 10 → ds = [n]) ∧
      (10 ≤ n → 1 < ds.length ∧ ds.head? ≠ some 0) := by
  induction fuel with
  | zero =>
    intro n hn
    have small : n < 10 := by simpa using hn
    exact ⟨[n], fun acc => if_pos small, by simpa using small, by simp, fun _ => rfl, fun h => by omega⟩
  | succ fuel ih =>
    intro n hn
    by_cases small : n < 10
    · exact ⟨[n], fun acc => if_pos small, by simpa using small, by simp, fun _ => rfl, fun h => by omega⟩
    · rw [Nat.pow_succ] at hn
      obtain ⟨ds, digits, below, value, short, long⟩ := ih (n / 10) (by omega)
      refine ⟨ds ++ [n % 10], fun acc => ?_, fun d hd => ?_, ?_, fun h => absurd h small, fun _ => ?_⟩
      · rw [digitsOf, if_neg small, digits, List.append_assoc]
        rfl
      · rcases List.mem_append.mp hd with hd | hd
        · exact below d hd
        · rw [List.mem_singleton.mp hd]
          omega
      · rw [List.foldl_append, value]
        show 10 * (n / 10) + n % 10 = n
        omega
      · by_cases next : n / 10 < 10
        · rw [short next]
          refine ⟨by simp, ?_⟩
          simp
          omega
        · obtain ⟨more, head⟩ := long (by omega)
          rw [List.length_append, List.head?_append_of_ne_nil _ (by rintro rfl; simp at more)]
          exact ⟨by omega, head⟩

/-- A number is written in decimal without leading zeros. -/
theorem decimal_spells {n : Nat} (h : n < 10 ^ 10) : decimal n ≠ [] ∧ (∀ d ∈ decimal n, d < 10) ∧
    (decimal n).foldl (fun a d => 10 * a + d) 0 = n ∧ (1 < (decimal n).length → (decimal n).head? ≠ some 0) := by
  obtain ⟨ds, digits, below, value, short, long⟩ := digitsOf_spec 9 n h
  have eq : decimal n = ds := (digits []).trans (List.append_nil ds)
  rw [eq]
  by_cases small : n < 10
  · rw [short small] at below value ⊢
    exact ⟨by simp, below, value, fun more => absurd more (by simp)⟩
  · obtain ⟨more, head⟩ := long (by omega)
    exact ⟨List.ne_nil_of_length_pos (by omega), below, value, fun _ => head⟩

theorem decimal_length_one {n : Nat} (h : n < 10 ^ 10) : (decimal n).length = 1 ↔ n < 10 := by
  obtain ⟨ds, digits, -, -, short, long⟩ := digitsOf_spec 9 n h
  have eq : decimal n = ds := (digits []).trans (List.append_nil ds)
  rw [eq]
  by_cases small : n < 10
  · simp [short small, small]
  · have := (long (by omega)).1
    omega

/-! ## The strip text (R50) -/

theorem joinFields_eq (fields : List (List StripChar)) :
    joinFields fields = (fields.intersperse [⟨11, .separator⟩, ⟨11, .separator⟩]).flatten := by
  induction fields with
  | nil => rfl
  | cons f rest ih =>
    cases rest with
    | nil => simp [joinFields]
    | cons g rest =>
      rw [joinFields, ih, List.intersperse_cons_cons]
      · simp [chars]
      · simp

theorem ticketField_eq (t : Ticket) :
    ticketField t = (decimal t.number ++ 11 :: decimal t.song).map (fun o => ⟨o, .ticket⟩) := by
  rw [ticketField, chars, List.append_assoc]
  rfl

/-- A score is at most 10,000 (R114). -/
theorem Totals.score_le {t : Totals} (h : t.earned ≤ t.possible) : t.score ≤ 10000 := by
  unfold Totals.score
  split
  · omega
  · refine Nat.div_le_of_le_mul ?_
    rw [Nat.mul_comm]
    exact Nat.mul_le_mul_left _ h |>.trans_eq (Nat.mul_comm ..)

theorem scoreField_eq {t : Totals} (h : t.earned ≤ t.possible) :
    (t.possible = 0 → scoreField t = [12, 12, 10, 12, 12].map (fun o => ⟨o, .score⟩)) ∧
      (t.possible ≠ 0 → scoreField t =
        ((if (decimal (t.score / 100)).length = 1 then 0 :: decimal (t.score / 100) else decimal (t.score / 100)) ++
          [10, t.score % 100 / 10, t.score % 10]).map (fun o => ⟨o, .score⟩)) := by
  refine ⟨fun h0 => if_pos h0, fun h0 => (if_neg h0).trans ?_⟩
  have le := Totals.score_le h
  have one := decimal_length_one (n := t.score / 100) (by omega)
  by_cases small : t.score / 100 < 10
  · rw [if_pos (one.mpr small)]
    simp [small, chars]
  · rw [if_neg (fun l => small (one.mp l))]
    simp [small, chars]

/-- Settles O26. A reply's fields stand where its bytes do; digits are written by an induction on their number. -/
theorem repliesAndStripAreSpelled : Obligations.RepliesAndStripAreSpelled := by
  unfold Obligations.RepliesAndStripAreSpelled
  refine ⟨fun r => ?_, fun queue singers hq hs => ?_⟩
  · intro field rest head
    obtain ⟨accepted, held, refused, cancelled, called⟩ := r.bytes_short
    have heads : ∀ kind third more, r.bytes = replyRecord r kind third more → kind < 256 → third < 256 →
        head kind third := fun kind third more e hk ht => by
        obtain ⟨-, -, second, fourth⟩ := Reply.bytes_head e
        exact ⟨second.trans (Nat.mod_eq_of_lt hk), fourth.trans (Nat.mod_eq_of_lt ht)⟩
    have zeros : ∀ kind third more used, r.bytes = replyRecord r kind third more → 4 + more.length ≤ used → rest used :=
      fun kind third more used e h i hi _ => by
        show bytesAt r.bytes i 1 = 0
        rw [e]
        exact replyRecord_rest (h.trans hi)
    obtain ⟨kind, third, more, record⟩ := r.bytes_record
    obtain ⟨handset, seq, -, -⟩ := Reply.bytes_head record
    refine ⟨by rw [record]; exact padTo_length .., handset, seq, fun n pos h => ?_, fun h => ?_, fun why h => ?_,
      fun n h => ?_, fun n song h => ?_, fun es held cur h h8 => ?_, fun n song es h h4 => ?_⟩
    · have e := accepted n pos h
      exact ⟨heads _ _ _ e (by decide) (by decide), Reply.bytes_field e (n := n) rfl,
        Reply.bytes_field e (n := pos) rfl, zeros _ _ _ _ e (by simp)⟩
    · exact ⟨heads _ _ _ (held h) (by decide) (by decide), zeros _ _ _ _ (held h) (by simp)⟩
    · have e := refused why h
      refine ⟨?_, zeros _ _ _ _ e (by simp)⟩
      have coded := heads _ _ _ e (by decide) (by cases why <;> decide)
      cases why <;> exact coded
    · have e := cancelled n h
      exact ⟨heads _ _ _ e (by decide) (by decide), Reply.bytes_field e (n := n) rfl, zeros _ _ _ _ e (by simp)⟩
    · have e := called n song h
      exact ⟨heads _ _ _ e (by decide) (by decide), Reply.bytes_field e (n := n) rfl, Reply.bytes_field e (n := 0) rfl,
        Reply.bytes_field e (n := song) rfl, zeros _ _ _ _ e (by simp)⟩
    · obtain ⟨kind, third, marks, zero, current, entries, behind⟩ := r.bytes_positions h h8
      refine ⟨⟨kind, third⟩, marks.trans ?_, zero, fun hc => ?_, fun c hc => ?_, fun i e he => ?_,
        fun i hi _ => behind i hi⟩
      · cases held <;> cases cur <;> rfl
      · exact current.trans (by rw [hc]; rfl)
      · exact current.trans (by rw [hc]; rfl)
      · obtain ⟨number, place⟩ := entries i e he
        refine ⟨number, place.trans ?_⟩
        cases e.cls <;> rfl
    · obtain ⟨kind, third, number, zero, songs, gap, entries, behind⟩ := r.bytes_score h h4
      exact ⟨⟨kind, third⟩, number, zero, songs, gap, entries, fun i hi _ => behind i hi⟩
  · intro spells
    refine ⟨(queue.take 3).map ticketField ++ singers.map (fun p => scoreField p.2.totals), joinFields_eq _, by simp,
      fun i t hi ht => ?_, fun i p hp => ?_⟩
    · obtain ⟨hn, hsong⟩ := hq t (List.mem_of_getElem? ht)
      refine ⟨decimal t.number, decimal t.song, decimal_spells (by omega), decimal_spells (by omega), ?_⟩
      have short : i < queue.length := (List.getElem?_eq_some_iff.mp ht).1
      rw [List.getElem?_append_left (by simp; omega), List.getElem?_map, List.getElem?_take, if_pos hi, ht,
        ← ticketField_eq]
      rfl
    · intro possible score
      have earned := hs p (List.mem_of_getElem? hp)
      obtain ⟨blank, scored⟩ := scoreField_eq earned
      have field : ((queue.take 3).map ticketField ++ singers.map (fun p => scoreField p.2.totals))[
          min 3 queue.length + i]? = some (scoreField p.2.totals) := by
        rw [List.getElem?_append_right (by simp)]
        simp [hp]
      refine ⟨fun h0 => field.trans (congrArg some (blank h0)), fun h0 => ?_⟩
      have whole : score = p.2.totals.score := (if_neg h0).symm
      have le := Totals.score_le earned
      rw [whole]
      exact ⟨decimal (p.2.totals.score / 100), decimal_spells (by omega), field.trans (congrArg some (scored h0))⟩

end Sys2Proof.Machine
end

