-- ==== Sys2Proof/Proofs/GlyphRows.lean ====
section
/-! An ended glyph row fetch (R54 to R56): the pixels its row gives, column by column, and the composition it ends. -/

namespace Sys2Proof.Machine

/-! ## The pixels of one column (R54) -/

/-- The pixels that stand at column `x`. -/
def column (x : Nat) (ps : List Pixel) : List Pixel := ps.filter (fun q => q.x == x)

/-- A pixel put over those of its own column. -/
def overlay (c : List Pixel) (p : Pixel) : List Pixel := if c.any (fun q => p.order < q.order) then c else [p]

theorem find?_column (x : Nat) (ps : List Pixel) : ps.find? (fun q => q.x == x) = (column x ps).head? :=
  (List.head?_filter ..).symm

theorem mem_column {x : Nat} {ps : List Pixel} {q : Pixel} : q ∈ column x ps ↔ q ∈ ps ∧ q.x = x := by
  simp [column]

/-- A pixel put touches its own column alone. -/
theorem column_putPixel (x : Nat) (p : Pixel) (ps : List Pixel) :
    column x (putPixel p ps) = if p.x = x then overlay (column x ps) p else column x ps := by
  have later : ps.any (fun q => q.x == p.x && p.order < q.order) = (column p.x ps).any (fun q => p.order < q.order) :=
    List.any_filter.symm
  unfold putPixel
  rw [later]
  by_cases hx : p.x = x
  · subst hx
    rw [if_pos rfl, overlay]
    split
    · rfl
    · simp [column, List.filter_filter]
  · rw [if_neg hx]
    split
    · rfl
    · have kept : ∀ q : Pixel, (q.x == x && q.x != p.x) = (q.x == x) := fun q => by
        by_cases hq : q.x = x
        · simp [hq, Ne.symm hx]
        · simp [hq]
      simp [column, List.filter_filter, hx, kept]

theorem column_putPixels (x : Nat) (new ps : List Pixel) :
    column x (new.foldl (fun ps p => putPixel p ps) ps) = (column x new).foldl overlay (column x ps) := by
  induction new generalizing ps with
  | nil => rfl
  | cons p rest ih =>
    rw [List.foldl_cons, ih, column_putPixel]
    by_cases hx : p.x = x
    · simp [column, hx]
    · simp [column, hx]

/-- A pixel later in drawing order than all that are put stays. -/
theorem overlay_foldl_under {c new : List Pixel} {q : Pixel} (hq : q ∈ c) (h : ∀ p ∈ new, p.order < q.order) :
    new.foldl overlay c = c := by
  induction new with
  | nil => rfl
  | cons p rest ih =>
    have later : c.any (fun q => p.order < q.order) = true := List.any_eq_true.mpr ⟨q, hq, by simpa using h p (by simp)⟩
    rw [List.foldl_cons, overlay, if_pos later]
    exact ih fun r hr => h r (by simp [hr])

theorem overlay_foldl_le {c new : List Pixel} {o : Nat} (hc : ∀ q ∈ c, q.order ≤ o) (h : ∀ p ∈ new, p.order ≤ o) :
    ∀ q ∈ new.foldl overlay c, q.order ≤ o := by
  induction new generalizing c with
  | nil => exact hc
  | cons p rest ih =>
    refine ih ?_ fun r hr => h r (by simp [hr])
    unfold overlay
    split
    · exact hc
    · simpa using h p (by simp)

/-- The last of the pixels put stands alone over those not later in drawing order. -/
theorem overlay_foldl_last {c new : List Pixel} {p : Pixel} (hc : ∀ q ∈ c, q.order ≤ p.order)
    (h : ∀ q ∈ new, q.order ≤ p.order) : (new ++ [p]).foldl overlay c = [p] := by
  have le := overlay_foldl_le hc h
  rw [List.foldl_append]
  exact if_neg fun later => by
    obtain ⟨q, hq, lt⟩ := List.any_eq_true.mp later
    exact Nat.not_le.mpr (of_decide_eq_true lt) (le q hq)

/-! ## The pixels of a row (R51, R54, R56) -/

/-- Whether an appearance of the glyph row covers column `x` inside its span. -/
def Appearance.drawsAt (glyph row x : Nat) (a : Appearance) : Bool :=
  decide (a.glyph = glyph ∧ a.row = row ∧ a.left ≤ x ∧ x < a.left + a.advance ∧ a.clipFrom ≤ x ∧ x < a.clipTo)

theorem Appearance.drawsAt_iff {glyph row x : Nat} {a : Appearance} : a.drawsAt glyph row x = true ↔
    a.glyph = glyph ∧ a.row = row ∧ a.left ≤ x ∧ x < a.left + a.advance ∧ a.clipFrom ≤ x ∧ x < a.clipTo :=
  decide_eq_true_iff

/-- The pixel that an appearance gives column `x`. -/
def Appearance.pixel (prm : Setup) (data : Option (List Beat)) (x order : Nat) (a : Appearance) : Pixel :=
  { x := x, colour := a.paint.colourAt prm x, order := order
    alpha := match data with
      | some bs => 17 * coverage bs (x - a.left)
      | none => 0 }

/-- The pixels that the appearances of a row give column `x`, in drawing order. -/
def rowPixels (prm : Setup) (glyph row : Nat) (data : Option (List Beat)) (x : Nat) (set : List (Appearance × Nat)) :
    List Pixel :=
  (set.filter (fun ao => ao.1.drawsAt glyph row x)).map (fun ao => ao.1.pixel prm data x ao.2)

theorem column_appearancePixels (prm : Setup) (data : Option (List Beat)) (order x : Nat) (a : Appearance) :
    column x (appearancePixels prm data order a) =
      if a.drawsAt a.glyph a.row x then [a.pixel prm data x order] else [] := by
  have columns : (List.range a.advance).filter (fun j =>
      (a.left + j == x) && (a.clipFrom ≤ a.left + j && a.left + j < a.clipTo)) =
        if a.drawsAt a.glyph a.row x then [x - a.left] else [] := by
    split
    · next h =>
      refine List.perm_singleton.mp ((List.perm_ext_iff_of_nodup (List.nodup_range.filter _)
        (List.nodup_singleton _)).mpr fun j => ?_)
      rw [Appearance.drawsAt_iff] at h
      simp only [List.mem_filter, List.mem_range, Bool.and_eq_true, beq_iff_eq, decide_eq_true_eq, List.mem_singleton]
      omega
    · next h =>
      refine List.filter_eq_nil_iff.mpr fun j hj => ?_
      rw [Appearance.drawsAt_iff] at h
      simp only [List.mem_range, Bool.and_eq_true, beq_iff_eq, decide_eq_true_eq] at hj ⊢
      omega
  unfold column appearancePixels
  rw [List.filter_map, List.filter_filter]
  simp only [Function.comp_def]
  rw [columns]
  by_cases h : a.drawsAt a.glyph a.row x = true
  · have left : a.left + (x - a.left) = x := by
      rw [Appearance.drawsAt_iff] at h
      omega
    rw [if_pos h, if_pos h, List.map_singleton, left]
    rfl
  · rw [if_neg h, if_neg h]
    rfl

/-- A row applied overlays each column with the pixels its appearances give it (R54). -/
theorem column_applyRow (prm : Setup) (b : StagingBuffer) (glyph row x : Nat) (data : Option (List Beat)) :
    column x (b.applyRow prm glyph row data).pixels =
      (rowPixels prm glyph row data x b.set.zipIdx).foldl overlay (column x b.pixels) := by
  have general : ∀ (set : List (Appearance × Nat)) (ps : List Pixel), column x (set.foldl (fun ps ao =>
      if ao.1.glyph = glyph ∧ ao.1.row = row then
        (appearancePixels prm data ao.2 ao.1).foldl (fun ps p => putPixel p ps) ps
      else ps) ps) = (rowPixels prm glyph row data x set).foldl overlay (column x ps) := by
    intro set
    induction set with
    | nil => exact fun ps => rfl
    | cons ao rest ih =>
      intro ps
      rw [List.foldl_cons, ih]
      by_cases hr : ao.1.glyph = glyph ∧ ao.1.row = row
      · obtain ⟨rfl, rfl⟩ := hr
        rw [if_pos ⟨rfl, rfl⟩, column_putPixels, column_appearancePixels, rowPixels, rowPixels, List.filter_cons]
        split <;> rfl
      · have out : ao.1.drawsAt glyph row x = false := eq_false_of_ne_true fun h => by
          obtain ⟨hg, hw, -⟩ := Appearance.drawsAt_iff.mp h
          exact hr ⟨hg, hw⟩
        rw [if_neg hr, rowPixels, rowPixels, List.filter_cons, out]
        rfl
  exact general _ _

/-- Where the last appearance that covers column `x` stands in drawing order, the row's pixels end with its own. -/
theorem rowPixels_last (prm : Setup) {set : List Appearance} {glyph row x o : Nat} {a : Appearance}
    (data : Option (List Beat)) (ho : set[o]? = some a) (ha : a.drawsAt glyph row x = true)
    (hlast : ∀ o' a', o < o' → set[o']? = some a' → a'.drawsAt glyph row x = false) :
    ∃ before, rowPixels prm glyph row data x set.zipIdx = before ++ [a.pixel prm data x o] ∧
      ∀ p ∈ before, p.order < o := by
  obtain ⟨short, rfl⟩ := List.getElem?_eq_some_iff.mp ho
  have parted : set.zipIdx = (set.zipIdx.take o ++ [(set[o], o)]) ++ set.zipIdx.drop (o + 1) := by
    have mid : set.zipIdx[o]'(by simpa using short) = (set[o], o) := by simp
    rw [← mid, List.take_append_getElem, List.take_append_drop]
  have after : (set.zipIdx.drop (o + 1)).filter (fun ao => ao.1.drawsAt glyph row x) = [] := by
    refine List.filter_eq_nil_iff.mpr fun ao hm => ?_
    obtain ⟨i, hi⟩ := List.mem_iff_getElem?.mp hm
    rw [List.getElem?_drop, List.getElem?_zipIdx, Option.map_eq_some_iff] at hi
    obtain ⟨a', ha', rfl⟩ := hi
    simpa using hlast _ a' (by omega) ha'
  refine ⟨rowPixels prm glyph row data x (set.zipIdx.take o), ?_, fun p hp => ?_⟩
  · conv_lhs => rw [parted]
    rw [rowPixels, rowPixels, List.filter_append, List.filter_append, after]
    simp [ha]
  · obtain ⟨ao, hm, rfl⟩ := List.mem_map.mp hp
    obtain ⟨i, hi⟩ := List.mem_iff_getElem?.mp (List.mem_filter.mp hm).1
    rw [List.getElem?_take] at hi
    split at hi
    · next lt =>
      rw [List.getElem?_zipIdx, Option.map_eq_some_iff] at hi
      obtain ⟨-, -, rfl⟩ := hi
      simpa [Appearance.pixel] using lt
    · cases hi

/-! ## The end of a row (R54, R55) -/

theorem State.endRow_orphaned {comp glyph row : Nat} {data : Option (List Beat)} {s : State}
    (h : s.ovc.composing comp = none) : s.endRow comp glyph row data = s := by
  simp [State.endRow, h]

theorem State.endRow_composing {comp glyph row : Nat} {data : Option (List Beat)} {s : State} {k : Fin 3}
    {l : LatchRecord} (hk : s.ovc.composing comp = some k) (hl : s.ovc.latch = some l) :
    s.endRow comp glyph row data = { s with ovc := { s.ovc with
      buffers := vset s.ovc.buffers k ((s.ovc.buffers.get k).applyRow l.prm glyph row data).rowDone } } := by
  simp [State.endRow, hk, hl]

/-- The end of a row fetch hands nothing, so it never waits for the line. -/
theorem exec_glyphRowFetchComplete {s : State} {o : ClientOp} {comp glyph row : Nat}
    (h : s.ptu.firstEnded OpKind.isRow = some o)
    (hk : o.kind = .row comp glyph row) : exec .glyphRowFetchComplete s =
      .next (State.endRow comp glyph row o.data { s with ptu := s.ptu.dropEnded o.id }).flush := by
  have work : s.glyphRowFetchComplete = State.endRow comp glyph row o.data { s with ptu := s.ptu.dropEnded o.id } := by
    simp [State.glyphRowFetchComplete, h, hk]
  show Host.Outcome.next _ = _
  rw [State.whenRoom_handsNothing (by rw [work]; simp [Ptu.dropEnded]), work]

/-- One row less outstanding (R54, R62). -/
theorem StagingBuffer.rowDone_eq (b : StagingBuffer) :
    (1 < b.outstanding → b.rowDone = { b with outstanding := b.outstanding - 1 }) ∧
      (b.outstanding ≤ 1 → b.discard = false → b.rowDone = { b with state := .ready, outstanding := 0 }) ∧
      (b.outstanding ≤ 1 → b.discard = true → b.rowDone = {}) := by
  unfold StagingBuffer.rowDone
  refine ⟨fun h => if_neg (Nat.not_le.mpr h), fun h hd => ?_, fun h hd => ?_⟩
  · rw [if_pos h, if_neg (ne_true_of_eq_false hd)]
  · rw [if_pos h, if_pos hd]
    rfl

/-- Settles O35. A row applied overlays each column with its appearances' pixels in drawing order, of which the last
stands over all but a later one. -/
theorem glyphRowsEndAComposition : Obligations.GlyphRowsEndAComposition := by
  unfold Obligations.GlyphRowsEndAComposition
  refine ⟨fun prm b glyph row x data => ?_, fun s o comp glyph row h hk => ?_⟩
  · intro covers pixel u
    have draws : ∀ a, a.drawsAt glyph row x = true ↔ covers a := fun a => Appearance.drawsAt_iff
    have look : ∀ c : StagingBuffer, pixel c = (column x c.pixels).head? := fun c => find?_column x c.pixels
    have drawn : column x u.pixels = (rowPixels prm glyph row data x b.set.zipIdx).foldl overlay (column x b.pixels) :=
      column_applyRow ..
    refine ⟨rfl, fun bare => ?_, fun o a ho ha hlast => ?_⟩
    · have empty : rowPixels prm glyph row data x b.set.zipIdx = [] := by
        rw [rowPixels, List.map_eq_nil_iff, List.filter_eq_nil_iff]
        exact fun ao hm hd => bare _ (List.fst_mem_of_mem_zipIdx hm) ((draws _).mp hd)
      rw [look, look, drawn, empty]
      rfl
    · obtain ⟨before, rows, earlier⟩ := rowPixels_last prm data ho ((draws a).mpr ha)
        fun o' a' lt ho' => eq_false_of_ne_true fun hd => hlast o' a' lt ho' ((draws a').mp hd)
      refine ⟨fun ⟨p, hp, hx, later⟩ => ?_, fun under => ⟨a.pixel prm data x o, ?_, rfl, rfl, ?_, ?_, ?_, ?_⟩⟩
      · rw [look, look, drawn, rows, overlay_foldl_under (mem_column.mpr ⟨hp, hx⟩)]
        intro q hq
        rcases List.mem_append.mp hq with hq | hq
        · exact (earlier q hq).trans later
        · rw [List.mem_singleton.mp hq]
          exact later
      · rw [look, drawn, rows, overlay_foldl_last (fun q hq => ?_) fun q hq => (earlier q hq).le]
        · rfl
        · obtain ⟨hq, hx⟩ := mem_column.mp hq
          exact under q hq hx
      · rintro rfl
        rfl
      · rintro bs rfl
        rfl
      · intro colour paint
        show a.paint.colourAt prm x = colour
        rw [paint]
        rfl
      · intro part wiped paint
        show a.paint.colourAt prm x = _
        rw [paint]
        cases part <;> rfl
  · intro p
    rw [exec_glyphRowFetchComplete h hk]
    refine ⟨fun orphaned => ?_, fun k l hc hl => ?_⟩
    · rw [State.endRow_orphaned]
      exact vfind_eq_none fun k => by simpa using orphaned k
    · intro b
      obtain ⟨fewer, ready, freed⟩ := b.rowDone_eq
      refine ⟨_, congrArg (fun t : State => Host.Outcome.next t.flush) (State.endRow_composing hc hl), rfl,
        fun j hj => vset_get_ne _ _ hj.symm, fun lt => ?_, fun le hd => ?_, fun le hd => ?_⟩
      · exact (vset_get_self ..).trans (fewer lt)
      · exact (vset_get_self ..).trans (ready le hd)
      · exact (vset_get_self ..).trans (freed le hd)

end Sys2Proof.Machine
end

