-- ==== Sys2Proof/Proofs/PageWalks.lean ====
section
/-! The end of a page walk (R70, R71): the mapping cached, the waiters answered or failed, the intake taken again; and
the page-table writes that make mappings and walks stale (R72). -/

namespace Sys2Proof.Machine

/-! ## The intake at rest (R69) -/

/-- With nothing at the intake and nothing behind it, no request is taken. -/
theorem State.pump_idle {s : State} (hi : s.gxt.intake = none) (hw : s.ovc.waiting = []) : s.pump = s := by
  have round : s.retakeIntake.feedIntake = s := by
    have stays : s.retakeIntake = s := by
      unfold State.retakeIntake
      rcases State.whenRoom_cases _ s with e | ⟨e, -⟩ <;> rw [e]
      simp only [hi]
    rw [stays]
    simp [State.feedIntake, hi, hw]
  have rounds : ∀ n, s.pumpGlyphs n = s := fun n => by
    induction n with
    | zero => rfl
    | succ n ih => rw [State.pumpGlyphs, round, ih]
  exact rounds _

/-! ## Waiters answered (R70) -/

theorem State.answerAddress_orphaned {q : GlyphReq} {s : State} (h : s.ovc.composing q.comp = none) (phys : Nat) :
    s.answerAddress q phys = s := by
  simp [State.answerAddress, h]

theorem State.answerAddress_live {q : GlyphReq} {s : State} (h : (s.ovc.composing q.comp).isSome = true) (phys : Nat) :
    s.answerAddress q phys =
      { s with ptu := s.ptu.startOp (.row q.comp q.glyph q.row) .glyphRow (readsOver phys 32) } := by
  obtain ⟨k, hk⟩ := Option.isSome_iff_exists.mp h
  simp [State.answerAddress, hk]

/-- The waiters answered in order: each live one begins the row read of its physical address. -/
theorem State.answerAddress_foldl_traffic (page : Nat) (l : List GlyphReq) (s : State) :
    let live := l.filter (fun q => (s.ovc.composing q.comp).isSome)
    let u := l.foldl (fun t q => State.answerAddress q (physOf page q.va) t) s
    u.ptu.handed = s.ptu.handed ++ ((live.zipIdx s.ptu.nextOp).map (fun qi =>
        requestsOf .glyphRow qi.2 0 (readsOver (page * 4096 + qi.1.va % 4096) 32))).flatten ∧
      u.ptu.ops.map (fun x => (x.id, x.kind)) = s.ptu.ops.map (fun x => (x.id, x.kind)) ++
        (live.zipIdx s.ptu.nextOp).map (fun qi => (qi.2, .row qi.1.comp qi.1.glyph qi.1.row)) := by
  induction l generalizing s with
  | nil => simp
  | cons q rest ih =>
    intro live u
    by_cases hq : (s.ovc.composing q.comp).isSome = true
    · obtain ⟨handed, ops⟩ := ih (s.answerAddress q (physOf page q.va))
      have began := State.answerAddress_live hq (physOf page q.va)
      have lives : live = q :: rest.filter (fun q => (s.ovc.composing q.comp).isSome) := List.filter_cons_of_pos hq
      have step : u = rest.foldl (fun t q => State.answerAddress q (physOf page q.va) t)
          (s.answerAddress q (physOf page q.va)) := rfl
      rw [lives, step, List.zipIdx_cons, List.map_cons, List.flatten_cons, List.map_cons, handed, ops, began]
      simp [physOf]
    · have same := State.answerAddress_orphaned (Option.not_isSome_iff_eq_none.mp hq) (physOf page q.va)
      have lives : live = rest.filter (fun q => (s.ovc.composing q.comp).isSome) := List.filter_cons_of_neg hq
      have step : u = rest.foldl (fun t q => State.answerAddress q (physOf page q.va) t) s :=
        congrArg (rest.foldl _) same
      rw [lives, step]
      exact ih s

/-- Operations named in order from `n` on. -/
theorem zipIdx_named {α β : Type} (l : List α) (n : Nat) (f : α → Nat → β) :
    (l.zipIdx n).map (fun qi => f qi.1 qi.2) = l.zipIdx.map (fun qi => f qi.1 (n + qi.2)) := by
  have shifted := List.map_snd_add_zipIdx_eq_zipIdx (l := l) (n := n) (k := 0)
  rw [Nat.add_zero] at shifted
  rw [← shifted, List.map_map]
  refine List.map_congr_left fun qi _ => ?_
  simp [Nat.add_comm]

/-! ## Waiters failed (R64, R70) -/

/-- The end of a row touches the buffers of the compositor alone, and reads nothing else of the state. -/
theorem State.endRow_ovc (comp glyph row : Nat) (data : Option (List Beat)) (s : State) :
    (s.endRow comp glyph row data).ovc = { s.ovc with buffers := (s.endRow comp glyph row data).ovc.buffers } := by
  unfold State.endRow
  split <;> rfl

theorem State.endRow_ovc_congr {s t : State} (h : s.ovc = t.ovc) (comp glyph row : Nat) (data : Option (List Beat)) :
    (s.endRow comp glyph row data).ovc = (t.endRow comp glyph row data).ovc := by
  unfold State.endRow
  rw [h]
  split
  · rfl
  · exact h

/-- The waiters failed in order: each row ended as a failed one, each failure counted. -/
theorem State.answerFailure_foldl (l : List GlyphReq) : ∀ s t : State, s.ovc = t.ovc →
    (l.foldl (fun t q => State.answerFailure q t) s).ovc =
        (l.foldl (fun t q => State.endRow q.comp q.glyph q.row none t) t).ovc ∧
      (l.foldl (fun t q => State.answerFailure q t) s).ovc.waiting = s.ovc.waiting ∧
      (l.foldl (fun t q => State.answerFailure q t) s).gxt =
        { s.gxt with glyphFault := s.gxt.glyphFault + BitVec.ofNat 32 l.length } := by
  induction l with
  | nil => exact fun s t h => ⟨h, rfl, by simp⟩
  | cons q rest ih =>
    intro s t h
    obtain ⟨ended, waiting, gxt⟩ := ih (s.answerFailure q) (t.endRow q.comp q.glyph q.row none)
      (State.endRow_ovc_congr (s := { s with gxt := { s.gxt with glyphFault := s.gxt.glyphFault + 1 } }) h ..)
    refine ⟨ended, waiting.trans ?_, gxt.trans ?_⟩
    · rw [State.answerFailure, State.endRow_ovc]
    · have one : (s.answerFailure q).gxt = { s.gxt with glyphFault := s.gxt.glyphFault + 1 } := by
        simp [State.answerFailure]
      rw [one, List.length_cons, BitVec.ofNat_add, BitVec.add_comm (BitVec.ofNat 32 rest.length), ← BitVec.add_assoc]
      rfl

/-! ## The end of a walk (R70, R71) -/

/-- A walk's record given up. -/
def Gxt.freed (k : Fin 8) (g : Gxt) : Gxt := { g with walks := vset g.walks k none }

/-- A walk's record given up, its mapping installed where it is FRESH. -/
def Gxt.mapped (k : Fin 8) (w : Walk) (page : Nat) (g : Gxt) : Gxt :=
  if w.fresh then (g.freed k).install ⟨w.page, page⟩ else g.freed k

theorem Gxt.mapped_eq (k : Fin 8) (w : Walk) (page : Nat) (g : Gxt) :
    g.mapped k w page = { g.freed k with cache := (g.mapped k w page).cache } ∧
      (w.fresh = false → (g.mapped k w page).cache = g.cache) ∧
      (w.fresh = true → g.cache.length < 16 → (g.mapped k w page).cache = g.cache ++ [⟨w.page, page⟩]) ∧
      (w.fresh = true → 16 ≤ g.cache.length → (g.mapped k w page).cache = g.cache.tail ++ [⟨w.page, page⟩]) := by
  unfold Gxt.mapped Gxt.install
  refine ⟨?_, fun h => ?_, fun h lt => ?_, fun h le => ?_⟩
  · split <;> rfl
  · simp [h, Gxt.freed]
  · simp [h, Gxt.freed, Nat.not_le.mpr lt]
  · simp [h, Gxt.freed, le]

/-- A walk's read taken, the translator left as `g`. -/
def State.walkTaken (id : Nat) (g : Gxt) (s : State) : State := { s with ptu := s.ptu.dropEnded id, gxt := g }

/-- The end of a walk with room in the line (R70). -/
theorem exec_pageWalkComplete {s : State} {o : ClientOp} {k : Fin 8} {w : Walk}
    (h : s.ptu.firstEnded (fun x => x == .walk) = some o) (hk : s.gxt.walkOf o.id = some k)
    (hw : s.gxt.walks.get k = some w) (hf : s.ptu.lineFull = false) :
    exec .pageWalkComplete s = .next (State.endWalk k w o.data (s.walkTaken o.id s.gxt)).flush := by
  have work : s.pageWalkComplete = State.endWalk k w o.data (s.walkTaken o.id s.gxt) := by
    simp [State.pageWalkComplete, State.walkTaken, h, hk, hw]
  show Host.Outcome.next _ = _
  rw [State.whenRoom_room _ hf, work]

theorem State.endWalk_valid {k : Fin 8} {w : Walk} {data : Option (List Beat)} {id page : Nat} {s : State}
    (h : data.bind (fun bs => readEntry bs (4 * w.page % 16)) = some page) :
    (s.walkTaken id s.gxt).endWalk k w data =
      State.pump (w.waiters.foldl (fun t q => State.answerAddress q (physOf page q.va) t)
        (s.walkTaken id (s.gxt.mapped k w page))) := by
  simp only [State.endWalk, h, Gxt.mapped]
  split <;> rfl

theorem State.endWalk_invalid {k : Fin 8} {w : Walk} {data : Option (List Beat)} {id : Nat} {s : State}
    (h : data.bind (fun bs => readEntry bs (4 * w.page % 16)) = none) :
    (s.walkTaken id s.gxt).endWalk k w data =
      State.pump (w.waiters.foldl (fun t q => State.answerFailure q t) (s.walkTaken id (s.gxt.freed k))) := by
  simp only [State.endWalk, h]
  rfl

/-! ## Page-table writes (R72) -/

/-- Some byte of the `k`-th entry of a beat is enabled. -/
theorem nibble_ne_zero (en : Enables) (k : Nat) :
    ((en >>> (4 * k)) &&& 15) ≠ 0 ↔ ∃ e < 4, en.getLsbD (4 * k + e) = true := by
  have low : ∀ e < 16, (15 : Enables).getLsbD e = decide (e < 4) := by decide
  have clear : ∀ e, (0 : Enables).getLsbD e = false := fun e => by simp
  constructor
  · intro h
    by_contra none
    refine h (BitVec.eq_of_getLsbD_eq fun e he => ?_)
    rw [BitVec.getLsbD_and, BitVec.getLsbD_ushiftRight, low e he, clear]
    by_cases h4 : e < 4
    · simpa [h4] using fun hb => none ⟨e, h4, hb⟩
    · simp [h4]
  · rintro ⟨e, h4, hb⟩ zero
    have bit := congrArg (fun v : Enables => v.getLsbD e) zero
    simp only [BitVec.getLsbD_and, BitVec.getLsbD_ushiftRight, low e (by omega), hb, h4, clear] at bit
    cases bit

/-- The entries that an enabled byte of a write covers, its beats standing in the window. -/
theorem mem_coveredEntries {base : Nat} {r : Request} {bs : List WriteBeat} (hr : r.body = .write bs)
    (hin : ∀ i < bs.length, base ≤ beatAddr r.addr i) (page : Nat) :
    page ∈ coveredEntries base r ↔ ∃ (i k : Nat) (b : WriteBeat) (e : Nat), bs[i]? = some b ∧ k < 4 ∧ e < 4 ∧
      b.en.getLsbD (4 * k + e) = true ∧ page = (beatAddr r.addr i - base) / 4 + k := by
  have beats : bodyBeats r.body = bs := by rw [hr]; rfl
  unfold coveredEntries coveredBy
  rw [beats]
  constructor
  · intro h
    obtain ⟨ps, hps, hp⟩ := List.mem_flatten.mp h
    obtain ⟨bi, hbi, rfl⟩ := List.mem_map.mp hps
    obtain ⟨k, hk, rfl⟩ := List.mem_map.mp hp
    simp only [List.mem_filter, List.mem_range, Bool.and_eq_true, bne_iff_ne] at hk
    obtain ⟨h4, -, enabled⟩ := hk
    obtain ⟨e, he, hb⟩ := (nibble_ne_zero _ _).mp enabled
    exact ⟨bi.2, k, bi.1, e, List.mem_zipIdx_iff_getElem?.mp hbi, h4, he, hb, rfl⟩
  · rintro ⟨i, k, b, e, hb, h4, he, enabled, rfl⟩
    refine List.mem_flatten.mpr ⟨_, List.mem_map.mpr ⟨(b, i), List.mem_zipIdx_iff_getElem?.mpr hb, rfl⟩,
      List.mem_map.mpr ⟨k, ?_, rfl⟩⟩
    simp only [List.mem_filter, List.mem_range, Bool.and_eq_true, bne_iff_ne, decide_eq_true_eq]
    exact ⟨h4, hin i (List.getElem?_eq_some_iff.mp hb).1, (nibble_ne_zero _ _).mpr ⟨e, he, enabled⟩⟩

theorem Gxt.invalidate_walks (ps : List Nat) (g : Gxt) (k : Fin 8) :
    (g.walks.get k = none → (g.invalidate ps).walks.get k = none) ∧
      ∀ w, g.walks.get k = some w → (w.page ∈ ps → (g.invalidate ps).walks.get k = some { w with fresh := false }) ∧
        (w.page ∉ ps → (g.invalidate ps).walks.get k = some w) := by
  have walk : (g.invalidate ps).walks.get k = (g.walks.get k).map
      (fun w => if w.page ∈ ps then { w with fresh := false } else w) := map_get ..
  refine ⟨fun h => by rw [walk, h]; rfl, fun w h => ⟨fun hp => ?_, fun hp => ?_⟩⟩ <;> rw [walk, h, Option.map_some]
  · rw [if_pos hp]
  · rw [if_neg hp]

/-- The pages whose entries a write covers, below the aperture's end (R72). -/
def State.coveredPages (r : Request) (s : State) : List Nat :=
  (coveredEntries (baseOf s.ptu.windows.pagetable) r).filter (fun p => p < s.prm.aperture / 4096)

/-- A page-table write hands nothing, so it never waits for the line. -/
theorem exec_pagetableWrite {s : State} {t : Tap} {rest : List Tap} (h : s.ptu.taps = t :: rest)
    (hc : t.cls = .pagetable) :
    exec .pagetableWrite s = .next (State.flush { s with
      ptu := { s.ptu with taps := rest }, gxt := s.gxt.invalidate (s.coveredPages t.req) }).playTaps := by
  have work : s.pagetableWrite = { s with
      ptu := { s.ptu with taps := rest }, gxt := s.gxt.invalidate (s.coveredPages t.req) } := by
    have head : s.ptu.headTap .pagetable = some t.req := by simp [Ptu.headTap, h, hc]
    have tail : s.dropTap = { s with ptu := { s.ptu with taps := rest } } := by simp [State.dropTap, h]
    simp only [State.pagetableWrite, head, tail]
    rfl
  show Host.Outcome.next _ = _
  rw [State.whenRoom_handsNothing (by rw [work]), work]

/-- Settles O36. The waiters are taken one by one, each live one's read behind those before it; a page-table write reads
its enables four bytes at a time. -/
theorem walksEndAndTableWritesInvalidate : Obligations.WalksEndAndTableWritesInvalidate := by
  unfold Obligations.WalksEndAndTableWritesInvalidate
  refine ⟨fun s o k w h hk hw hf => ?_, fun s t rest bs h hc hb hin => ?_⟩
  · intro live
    rw [exec_pageWalkComplete h hk hw hf]
    rcases hm : o.data.bind (fun bs => readEntry bs (4 * w.page % 16)) with _ | page
    · rw [State.endWalk_invalid hm]
      obtain ⟨ended, waiting, gxt⟩ := State.answerFailure_foldl w.waiters
        (s.walkTaken o.id (s.gxt.freed k)) s rfl
      obtain ⟨pending, scu, lsq, vin, pje, scr, rqu, ptu, ctl⟩ := State.answerFailure_foldl_frame w.waiters
        (s.walkTaken o.id (s.gxt.freed k))
      refine ⟨_, rfl, fun hi hq => State.pump_idle ((congrArg Gxt.intake gxt).trans hi) (waiting.trans hq),
        (congrArg (fun g => g.walks.get k) gxt).trans (vset_get_self ..),
        fun j hj => (congrArg (fun g => g.walks.get j) gxt).trans (vset_get_ne _ _ hj.symm),
        (congrArg Gxt.intake gxt).trans rfl, waiting, fun bs page hd he => ?_,
        fun _ => ⟨congrArg Gxt.glyphFault gxt, (congrArg Gxt.cache gxt).trans rfl, ended, ptu⟩, scu, lsq, vin, pje, scr,
        rqu, ctl, pending, (congrArg Ptu.links ptu).trans rfl⟩
      rw [hd, Option.bind_some, he] at hm
      cases hm
    · rw [State.endWalk_valid hm]
      obtain ⟨mapped, stale, fresh, full⟩ := s.gxt.mapped_eq k w page
      obtain ⟨pending, scu, lsq, ovc, gxt, vin, pje, scr, rqu, ctl, links⟩ :=
        State.answerAddress_foldl_frame page w.waiters (s.walkTaken o.id (s.gxt.mapped k w page))
      obtain ⟨handed, ops⟩ := State.answerAddress_foldl_traffic page w.waiters
        (s.walkTaken o.id (s.gxt.mapped k w page))
      rw [zipIdx_named _ _ fun (q : GlyphReq) n =>
        requestsOf .glyphRow n 0 (readsOver (page * 4096 + q.va % 4096) 32)] at handed
      rw [zipIdx_named _ _ fun (q : GlyphReq) n => (n, OpKind.row q.comp q.glyph q.row)] at ops
      have left := gxt.trans mapped
      refine ⟨_, rfl, fun hi hq => State.pump_idle ((congrArg Gxt.intake left).trans hi)
          ((congrArg Ovc.waiting ovc).trans hq), (congrArg (fun g => g.walks.get k) left).trans (vset_get_self ..),
        fun j hj => (congrArg (fun g => g.walks.get j) left).trans (vset_get_ne _ _ hj.symm),
        (congrArg Gxt.intake left).trans rfl, congrArg Ovc.waiting ovc, fun bs page' hd he => ?_, fun invalid => ?_,
        scu, lsq, vin, pje, scr, rqu, ctl, pending, links⟩
      · obtain rfl : page' = page := by
          rw [hd, Option.bind_some, he] at hm
          exact Option.some.inj hm
        rw [gxt]
        exact ⟨(congrArg Gxt.glyphFault mapped).trans rfl, ovc, stale, fresh, full, handed, ops⟩
      · rcases invalid with hd | ⟨bs, hd, he⟩
        · rw [hd] at hm
          cases hm
        · rw [hd, Option.bind_some, he] at hm
          cases hm
  · intro covered
    have entries : ∀ page, page ∈ s.coveredPages t.req ↔ covered page := fun page => by
      rw [State.coveredPages, List.mem_filter, mem_coveredEntries hb hin, decide_eq_true_iff]
      exact and_comm
    refine ⟨_, exec_pagetableWrite h hc, rfl, fun e => ?_, List.filter_sublist, rfl, rfl, fun k => ?_, fun k w hk => ?_⟩
    · exact List.mem_filter.trans (and_congr_right fun _ => by rw [decide_eq_true_iff, entries])
    · exact (Gxt.invalidate_walks _ _ k).1
    · obtain ⟨-, walks⟩ := Gxt.invalidate_walks (s.coveredPages t.req) s.gxt k
      rw [← entries]
      exact walks w hk

end Sys2Proof.Machine
end

