-- ==== Sys2Proof/Proofs/Compositions.lean ====
section
/-! Compose requests (R52) and composition sets (R53): which buffer a request claims, and which glyphs its scanline
shows in which order. -/

namespace Sys2Proof.Machine

/-! ## The elements of a list that meet a condition, by their places -/

theorem filterMap_ite {α β : Type} (p : α → Prop) [DecidablePred p] (f : α → β) (l : List α) :
    l.filterMap (fun x => if p x then some (f x) else none) = (l.filter (fun x => decide (p x))).map f := by
  induction l with
  | nil => rfl
  | cons x rest ih => by_cases h : p x <;> simp [h, ih]

/-- The places of the elements that meet a condition. -/
def placesOf {α : Type} (p : α → Bool) (l : List α) : List Nat := (l.zipIdx.filter (fun xi => p xi.1)).map Prod.snd

theorem placesOf_sorted {α : Type} (p : α → Bool) (l : List α) : (placesOf p l).Pairwise (· < ·) := by
  have places : l.zipIdx.map Prod.snd = List.range' 0 l.length := by simp
  refine List.Pairwise.sublist (List.filter_sublist.map _) ?_
  rw [places]
  exact List.pairwise_lt_range'

theorem mem_placesOf {α : Type} {p : α → Bool} {l : List α} {i : Nat} :
    i ∈ placesOf p l ↔ ∃ x, l[i]? = some x ∧ p x = true := by
  constructor
  · intro h
    obtain ⟨xi, hx, rfl⟩ := List.mem_map.mp h
    obtain ⟨hm, hp⟩ := List.mem_filter.mp hx
    exact ⟨xi.1, List.mem_zipIdx_iff_getElem?.mp hm, hp⟩
  · rintro ⟨x, hx, hp⟩
    exact List.mem_map.mpr ⟨(x, i), List.mem_filter.mpr ⟨List.mem_zipIdx_iff_getElem?.mpr hx, hp⟩, rfl⟩

/-- What is said of the elements that meet a condition can be said by their places. -/
theorem map_filter_placesOf {α β : Type} {p : α → Bool} {l : List α} {f : α → β} {g : Nat → β}
    (h : ∀ (i : Nat) (x : α), l[i]? = some x → f x = g i) : (l.filter p).map f = (placesOf p l).map g := by
  have elements : l.filter p = (l.zipIdx.filter (fun xi => p xi.1)).map Prod.fst := by
    conv_lhs => rw [← List.zipIdx_map_fst (i := 0) (l := l)]
    rw [List.filter_map]
    rfl
  rw [elements, placesOf, List.map_map, List.map_map]
  exact List.map_congr_left fun xi hx => h _ _ (List.mem_zipIdx_iff_getElem?.mp (List.mem_filter.mp hx).1)

theorem mem_map_filter {α β : Type} {p : α → Bool} {l : List α} {f : α → β} {a : β} :
    a ∈ (l.filter p).map f ↔ ∃ (i : Nat) (x : α), l[i]? = some x ∧ p x = true ∧ a = f x := by
  constructor
  · intro h
    obtain ⟨x, hx, rfl⟩ := List.mem_map.mp h
    obtain ⟨hm, hp⟩ := List.mem_filter.mp hx
    obtain ⟨i, hi⟩ := List.mem_iff_getElem?.mp hm
    exact ⟨i, x, hi, hp, rfl⟩
  · rintro ⟨i, x, hi, hp, rfl⟩
    exact List.mem_map_of_mem (List.mem_filter.mpr ⟨List.mem_of_getElem? hi, hp⟩)

/-! ## The distinct rows of a set (R53) -/

theorem distinctRows_append (as : List Appearance) (a : Appearance) :
    distinctRows (as ++ [a]) = if (a.glyph, a.row) ∈ distinctRows as then distinctRows as
      else distinctRows as ++ [(a.glyph, a.row)] := by
  rw [distinctRows, List.foldl_append]
  rfl

theorem mem_distinctRows (as : List Appearance) (r : Nat × Nat) :
    r ∈ distinctRows as ↔ ∃ a ∈ as, r = (a.glyph, a.row) := by
  induction as using List.reverseRecOn with
  | nil => simp [distinctRows]
  | append_singleton as a ih =>
    have step : r ∈ distinctRows (as ++ [a]) ↔ r ∈ distinctRows as ∨ r = (a.glyph, a.row) := by
      rw [distinctRows_append]
      split
      · next h => exact ⟨.inl, fun e => e.elim id fun e => e ▸ h⟩
      · simp
    rw [step, ih]
    simp [or_and_right, exists_or]

theorem distinctRows_nodup (as : List Appearance) : (distinctRows as).Nodup := by
  induction as using List.reverseRecOn with
  | nil => exact List.nodup_nil
  | append_singleton as a ih =>
    rw [distinctRows_append]
    split
    · exact ih
    · next h => exact List.nodup_append.mpr ⟨ih, List.nodup_singleton _, fun r hr q hq e => h (by
        rw [← List.mem_singleton.mp hq, ← e]
        exact hr)⟩

/-- Where a row appears first in a set. -/
def firstPlace (as : List Appearance) (r : Nat × Nat) : Nat := as.findIdx (fun a => decide ((a.glyph, a.row) = r))

theorem firstPlace_lt {as : List Appearance} {r : Nat × Nat} (h : r ∈ distinctRows as) :
    firstPlace as r < as.length := by
  obtain ⟨a, ha, e⟩ := (mem_distinctRows as r).mp h
  exact List.findIdx_lt_length_of_exists ⟨a, ha, by simpa using e.symm⟩

/-- An appearance more leaves the first place of a row that has appeared. -/
theorem firstPlace_append (as bs : List Appearance) (r : Nat × Nat) :
    (r ∈ distinctRows as → firstPlace (as ++ bs) r = firstPlace as r) ∧
      (r ∉ distinctRows as → as.length ≤ firstPlace (as ++ bs) r) := by
  unfold firstPlace
  rw [List.findIdx_append]
  refine ⟨fun h => if_pos (firstPlace_lt h), fun h => ?_⟩
  rw [if_neg]
  · exact Nat.le_add_left ..
  · intro lt
    refine h ((mem_distinctRows as r).mpr ⟨as[_]'lt, List.getElem_mem lt, ?_⟩)
    have found := List.findIdx_getElem (w := lt)
    exact (of_decide_eq_true found).symm

theorem distinctRows_inOrder (as : List Appearance) :
    (distinctRows as).Pairwise (fun r q => firstPlace as r < firstPlace as q) := by
  induction as using List.reverseRecOn with
  | nil => exact List.Pairwise.nil
  | append_singleton as a ih =>
    have kept : (distinctRows as).Pairwise (fun r q => firstPlace (as ++ [a]) r < firstPlace (as ++ [a]) q) :=
      ih.imp_of_mem fun hr hq lt => by
        rw [(firstPlace_append as [a] _).1 hr, (firstPlace_append as [a] _).1 hq]
        exact lt
    rw [distinctRows_append]
    split
    · exact kept
    · next new =>
      refine List.pairwise_append.mpr ⟨kept, List.pairwise_singleton .., fun r hr q hq => ?_⟩
      rw [List.mem_singleton.mp hq, (firstPlace_append as [a] _).1 hr]
      exact (firstPlace_lt hr).trans_le ((firstPlace_append as [a] _).2 new)

/-! ## Layers (R49) -/

theorem LatchRecord.bandAt_iff {l : LatchRecord} {y : Nat} : l.bandAt y = true ↔
    l.state ≠ .idle ∧ l.prm.bandY ≤ y ∧ y < l.prm.bandY + 48 * l.prm.bandRows := by
  simp [LatchRecord.bandAt, and_assoc]

theorem LatchRecord.stripAt_iff {l : LatchRecord} {y : Nat} : l.stripAt y = true ↔
    l.prm.stripEnable = true ∧ l.prm.stripY ≤ y ∧ y < l.prm.stripY + 48 := by
  simp [LatchRecord.stripAt, and_assoc]

theorem LatchRecord.spans_eq_nil {l : LatchRecord} {y : Nat} :
    l.spans y = [] ↔ l.bandAt y = false ∧ l.stripAt y = false := by
  unfold LatchRecord.spans
  cases l.bandAt y <;> cases l.stripAt y <;> simp

/-! ## The set of a scanline (R51, R53) -/

/-- A glyph of the band's entry `e` with its position, as it appears on scanline `y`. -/
def LatchRecord.bandGlyph (l : LatchRecord) (y : Nat) (e : BandEntry) (gp : Glyph × Nat) : Appearance :=
  { glyph := gp.1.index, row := ((y : Int) - e.top).toNat, left := gp.2, advance := gp.1.advance
    clipFrom := l.prm.bandX, clipTo := l.prm.bandX + l.prm.bandW, paint := .band e.part e.wiped }

/-- Whether a glyph at its position shows in the band's columns. -/
def LatchRecord.showsGlyph (l : LatchRecord) (gp : Glyph × Nat) : Bool :=
  decide (l.prm.bandX < gp.2 + gp.1.advance ∧ gp.2 < l.prm.bandX + l.prm.bandW)

/-- A character of the strip with its place, as it appears on scanline `y`. -/
def LatchRecord.stripGlyph (l : LatchRecord) (y : Nat) (ci : StripChar × Nat) : Appearance :=
  { glyph := l.prm.digitBase + ci.1.offset, row := y - l.prm.stripY, left := l.prm.stripX + ci.2 * l.prm.stripAdvance
    advance := l.prm.stripAdvance, clipFrom := l.prm.stripX, clipTo := l.prm.stripX + l.prm.stripW
    paint := .strip (if ci.1.field = .score ∧ l.bannerShown = true then l.prm.bannerColour else l.prm.stripColour) }

/-- Whether a character starts in the strip's columns. -/
def LatchRecord.showsChar (l : LatchRecord) (ci : StripChar × Nat) : Bool :=
  decide (ci.2 * l.prm.stripAdvance < l.prm.stripW)

/-- The band's set without an entry that holds the scanline. -/
theorem LatchRecord.bandSet_none {l : LatchRecord} {y : Nat}
    (h : ∀ e ∈ l.entries, ¬ (e.top ≤ (y : Int) ∧ (y : Int) ≤ e.top + 47)) : l.bandSet y = [] := by
  have missed : l.entries.find? (fun e => e.top ≤ (y : Int) && (y : Int) ≤ e.top + 47) = none :=
    List.find?_eq_none.mpr fun e he => by simpa using h e he
  unfold LatchRecord.bandSet
  rw [missed]
  split <;> rfl

/-- The band's set from the first entry that holds the scanline. -/
theorem LatchRecord.bandSet_entry {l : LatchRecord} {y : Nat} {e : BandEntry} {front back : List BandEntry}
    (hb : l.bandAt y = true) (hl : l.entries = front ++ e :: back) (he : e.top ≤ (y : Int) ∧ (y : Int) ≤ e.top + 47)
    (hf : ∀ f ∈ front, ¬ (f.top ≤ (y : Int) ∧ (y : Int) ≤ f.top + 47)) :
    (e.drawnEmpty = true → l.bandSet y = []) ∧ (e.drawnEmpty = false → l.bandSet y =
      ((e.glyphs.zip e.positions).filter l.showsGlyph).map (l.bandGlyph y e)) := by
  have found : l.entries.find? (fun e => e.top ≤ (y : Int) && (y : Int) ≤ e.top + 47) = some e := by
    have before : front.find? (fun e => e.top ≤ (y : Int) && (y : Int) ≤ e.top + 47) = none :=
      List.find?_eq_none.mpr fun f h => by simpa using hf f h
    rw [hl, List.find?_append, before, Option.none_or]
    exact List.find?_cons_of_pos (by simpa using he)
  unfold LatchRecord.bandSet
  rw [if_pos hb, found]
  refine ⟨fun h => if_pos h, fun h => (if_neg (ne_true_of_eq_false h)).trans ?_⟩
  exact filterMap_ite (fun gp : Glyph × Nat => l.prm.bandX < gp.2 + gp.1.advance ∧ gp.2 < l.prm.bandX + l.prm.bandW)
    (l.bandGlyph y e) _

theorem LatchRecord.stripSet_shown {l : LatchRecord} {y : Nat} (h : l.stripAt y = true) :
    l.stripSet y = (l.text.zipIdx.filter l.showsChar).map (l.stripGlyph y) := by
  unfold LatchRecord.stripSet
  rw [if_pos h]
  simp only [Nat.add_lt_add_iff_left]
  exact filterMap_ite (fun ci : StripChar × Nat => ci.2 * l.prm.stripAdvance < l.prm.stripW) (l.stripGlyph y) _

/-! ## Compose requests (R52) -/

theorem State.compose_unlatched {y : Nat} {s : State} (h : s.ovc.latch = none) : s.compose y = s := by
  simp only [State.compose, h]

/-- Outside the layers or the frame nothing is composed. -/
theorem State.compose_outside {y : Nat} {s : State} {l : LatchRecord} (hl : s.ovc.latch = some l)
    (h : l.spans y = [] ∨ l.prm.height ≤ y) : s.compose y = s := by
  simp only [State.compose, hl, if_pos h]

/-- Without a FREE buffer, or for a scanline already held, nothing is composed. -/
theorem State.compose_stays {y : Nat} {s : State}
    (h : (∃ k, (s.ovc.buffers.get k).y = some y ∧ (s.ovc.buffers.get k).discard = false ∧
      (s.ovc.buffers.get k).state ≠ .free) ∨ ∀ k, (s.ovc.buffers.get k).state ≠ .free) : s.compose y = s := by
  unfold State.compose
  split
  · rfl
  · split
    · rfl
    · split
      · rfl
      · next _ _ _ unheld =>
        split
        · next k found =>
          rcases h with ⟨j, hy, hd, hs⟩ | h
          · have := vfind_none unheld j
            simp [hy, hd, hs] at this
          · exact absurd (by simpa using vfind_some found) (h k)
        · rfl

/-- A claim: the buffer filled, and its requests behind those that wait (R53). -/
theorem State.claimBuffer_eq (k : Fin 3) (l : LatchRecord) (y : Nat) (s : State) :
    s.claimBuffer k l y = State.pump { s with ovc := { s.ovc with
      buffers := vset s.ovc.buffers k
        { state := (if distinctRows (l.compositionSet y) = [] then .ready else .composing), y := some y
          discard := false, outstanding := (distinctRows (l.compositionSet y)).length, comp := s.ovc.nextComp
          set := l.compositionSet y, pixels := [] }
      nextComp := s.ovc.nextComp + 1
      waiting := s.ovc.waiting ++ (distinctRows (l.compositionSet y)).map
        (fun r => ⟨1536 * r.1 + 32 * r.2, s.ovc.nextComp, r.1, r.2⟩) } } := by
  have place : ∀ glyph row, glyphVa glyph row = 1536 * glyph + 32 * row := fun glyph row => by
    rw [glyphVa, Nat.mul_comm glyph, Nat.mul_comm row]
  simp only [State.claimBuffer, place]

theorem State.compose_claims {y : Nat} {s : State} {l : LatchRecord} {k : Fin 3} (hl : s.ovc.latch = some l)
    (hs : l.bandAt y = true ∨ l.stripAt y = true) (hy : y < l.prm.height)
    (unheld : ∀ j, (s.ovc.buffers.get j).state ≠ .free → (s.ovc.buffers.get j).discard = false →
      (s.ovc.buffers.get j).y ≠ some y)
    (hk : (s.ovc.buffers.get k).state = .free) (hlow : ∀ j, j < k → (s.ovc.buffers.get j).state ≠ .free) :
    s.compose y = s.claimBuffer k l y := by
  have inside : ¬ (l.spans y = [] ∨ l.prm.height ≤ y) := by
    rw [LatchRecord.spans_eq_nil]
    rintro (⟨hb, ht⟩ | h)
    · simp [hb, ht] at hs
    · exact absurd hy (Nat.not_lt.mpr h)
  have unclaimed : s.ovc.holding y (fun st => st != .free) = none := vfind_eq_none fun j => by
    have := unheld j
    by_cases hf : (s.ovc.buffers.get j).state = .free
    · simp [hf]
    · cases hd : (s.ovc.buffers.get j).discard
      · simp [unheld j hf hd]
      · simp
  have lowest : vfind s.ovc.buffers (fun b => b.state == .free) = some k :=
    vfind_first (by simpa using hk) fun j hj => by simpa using hlow j hj
  simp only [State.compose, hl, if_neg inside, unclaimed, lowest]

/-- Settles O32. A compose request is taken case by case; the set's rows stand in the order of their first places, and
its appearances in the order of theirs in the line and in the text. -/
theorem scanlinesAreComposed : Obligations.ScanlinesAreComposed := by
  unfold Obligations.ScanlinesAreComposed
  refine ⟨fun y s => ⟨State.compose_unlatched, fun l hl => ⟨fun hb ht => ?_, fun hh => ?_⟩,
    fun h => State.compose_stays (.inl h), fun h => State.compose_stays (.inr h), fun l k hl hs hy hu hk hlow => ?_⟩,
    fun set => ⟨distinctRows_nodup set, mem_distinctRows set, distinctRows_inOrder set⟩,
    fun l y => ⟨LatchRecord.bandAt_iff, LatchRecord.stripAt_iff, l.bandSet y, l.stripSet y, rfl, fun hb => ?_,
      fun ht => ?_, LatchRecord.bandSet_none, fun e front back he hin hf hb => ?_, fun ht => ?_, fun ht a => ?_⟩⟩
  · exact State.compose_outside hl (.inl (LatchRecord.spans_eq_nil.mpr ⟨hb, ht⟩))
  · exact State.compose_outside hl (.inr hh)
  · exact (State.compose_claims hl hs hy hu hk hlow).trans (State.claimBuffer_eq ..)
  · exact if_neg (ne_true_of_eq_false hb)
  · exact if_neg (ne_true_of_eq_false ht)
  · obtain ⟨empty, drawn⟩ := LatchRecord.bandSet_entry hb he hin hf
    refine ⟨empty, fun hd a => ?_, fun hd =>
      ⟨placesOf l.showsGlyph (e.glyphs.zip e.positions), placesOf_sorted .., fun i => ?_, ?_⟩⟩
    · rw [drawn hd, mem_map_filter]
      constructor
      · rintro ⟨i, ⟨g, p⟩, hi, hs, rfl⟩
        obtain ⟨hg, hp⟩ := List.getElem?_zip_eq_some.mp hi
        obtain ⟨left, right⟩ := of_decide_eq_true hs
        exact ⟨i, g, p, hg, hp, left, right, rfl⟩
      · rintro ⟨i, g, p, hg, hp, left, right, rfl⟩
        exact ⟨i, (g, p), List.getElem?_zip_eq_some.mpr ⟨hg, hp⟩, decide_eq_true ⟨left, right⟩, rfl⟩
    · rw [mem_placesOf]
      constructor
      · rintro ⟨⟨g, p⟩, hi, hs⟩
        obtain ⟨hg, hp⟩ := List.getElem?_zip_eq_some.mp hi
        exact ⟨g, p, hg, hp, of_decide_eq_true hs⟩
      · rintro ⟨g, p, hg, hp, hs⟩
        exact ⟨(g, p), List.getElem?_zip_eq_some.mpr ⟨hg, hp⟩, decide_eq_true hs⟩
    · rw [drawn hd, List.map_map]
      refine map_filter_placesOf fun i x hx => ?_
      obtain ⟨hg, hp⟩ := List.getElem?_zip_eq_some.mp hx
      rw [hg, hp]
      rfl
  · refine ⟨placesOf l.showsChar l.text.zipIdx, placesOf_sorted .., fun i => ?_, ?_⟩
    · rw [mem_placesOf]
      simp only [List.getElem?_zipIdx, Option.map_eq_some_iff]
      constructor
      · rintro ⟨-, ⟨c, hc, rfl⟩, hs⟩
        refine ⟨(List.getElem?_eq_some_iff.mp hc).1, ?_⟩
        simpa [LatchRecord.showsChar] using hs
      · rintro ⟨hi, hs⟩
        exact ⟨_, ⟨_, List.getElem?_eq_getElem hi, rfl⟩, by simpa [LatchRecord.showsChar] using hs⟩
    · rw [LatchRecord.stripSet_shown ht, List.map_map]
      refine map_filter_placesOf fun i x hx => ?_
      rw [List.getElem?_zipIdx, Option.map_eq_some_iff] at hx
      obtain ⟨c, hc, rfl⟩ := hx
      rw [hc]
      simp [LatchRecord.stripGlyph]
  · rw [LatchRecord.stripSet_shown ht, mem_map_filter]
    simp only [List.getElem?_zipIdx, Option.map_eq_some_iff]
    constructor
    · rintro ⟨i, -, ⟨c, hc, rfl⟩, hs, rfl⟩
      refine ⟨i, c, hc, by simpa [LatchRecord.showsChar] using hs, by simp [LatchRecord.stripGlyph]⟩
    · rintro ⟨i, c, hc, hs, rfl⟩
      exact ⟨i, (c, 0 + i), ⟨c, hc, rfl⟩, by simpa [LatchRecord.showsChar] using hs, by simp [LatchRecord.stripGlyph]⟩

end Sys2Proof.Machine
end

