-- ==== Sys2Proof/Proofs/DisplayBeats.lean ====
section
/-! A display beat that is no latch (R52, R57 to R61): the pixels of a blended beat, the scanline's decision, and the
buffer freed behind the last layer beat. -/

namespace Sys2Proof.Machine

/-! ## The pixels of a blended beat (R59) -/

/-- Pixels packed into a beat read back, the lowest first. -/
theorem packedPixels_digit (f : Nat → Nat) (hf : ∀ j, f j < 2 ^ 32) (l : List Nat) (j : Nat) :
    l.foldr (fun j acc => f j + 2 ^ 32 * acc) 0 / 2 ^ (32 * j) % 2 ^ 32 = (l[j]?.map f).getD 0 := by
  induction l generalizing j with
  | nil => simp
  | cons x rest ih =>
    have small := hf x
    rw [List.foldr_cons]
    cases j with
    | zero =>
      simp only [Nat.mul_zero, Nat.pow_zero, Nat.div_one, List.getElem?_cons_zero, Option.map_some, Option.getD_some]
      omega
    | succ j =>
      rw [Nat.mul_succ, Nat.add_comm (32 * j), Nat.pow_add, ← Nat.div_div_eq_div_mul,
        show (f x + 2 ^ 32 * rest.foldr (fun j acc => f j + 2 ^ 32 * acc) 0) / 2 ^ 32 =
          rest.foldr (fun j acc => f j + 2 ^ 32 * acc) 0 by omega, ih]
      rfl

theorem packedPixels_lt (f : Nat → Nat) (hf : ∀ j, f j < 2 ^ 32) (l : List Nat) :
    l.foldr (fun j acc => f j + 2 ^ 32 * acc) 0 < 2 ^ (32 * l.length) := by
  induction l with
  | nil => simp
  | cons x rest ih =>
    have small := hf x
    rw [List.foldr_cons, List.length_cons, Nat.mul_succ, Nat.pow_add]
    omega

/-- Pixel `j` of a blended beat of scanline `y` from column `x`, from the pixel `v` as read. -/
def LatchRecord.blended (l : LatchRecord) (y x : Nat) (ps : List Pixel) (j v : Nat) : Nat :=
  if l.covers y (x + j) then
    match ps.find? (fun p => p.x == x + j) with
    | some p => blendPixel l.prm.shade p.colour p.alpha v
    | none => blendPixel l.prm.shade 0 0 v
  else v

theorem blendChannel_lt {shade fg alpha bg : Nat} (hs : shade ≤ 256) (hf : fg < 256) (ha : alpha ≤ 255)
    (hb : bg < 256) : blendChannel shade fg alpha bg < 256 := by
  have dim : bg * shade / 256 ≤ 255 := by
    refine Nat.div_le_of_le_mul ?_
    calc bg * shade ≤ 255 * 256 := Nat.mul_le_mul (by omega) hs
      _ ≤ 256 * 255 := by decide
  have lit : fg * alpha ≤ 255 * alpha := Nat.mul_le_mul_right _ (by omega)
  have shaded : bg * shade / 256 * (255 - alpha) ≤ 255 * (255 - alpha) := Nat.mul_le_mul_right _ dim
  unfold blendChannel
  refine Nat.div_lt_of_lt_mul ?_
  omega

/-- Three channels packed under the X byte of a pixel read back. -/
theorem packedChannels {ch : Nat → Nat} (hc : ∀ k, ch k < 256) {v : Nat} (hv : v < 2 ^ 32) :
    let p := ch 0 + 256 * ch 1 + 65536 * ch 2 + v / 2 ^ 24 % 256 * 2 ^ 24
    p < 2 ^ 32 ∧ p / 2 ^ 24 = v / 2 ^ 24 ∧ ∀ k < 3, p / 256 ^ k % 256 = ch k := by
  intro p
  have c0 := hc 0
  have c1 := hc 1
  have c2 := hc 2
  refine ⟨by omega, by omega, fun k hk => ?_⟩
  interval_cases k <;> omega

/-- The channels of a blended pixel, its X byte unchanged. -/
theorem blendPixel_bytes {shade colour alpha v : Nat} (hs : shade ≤ 256) (ha : alpha ≤ 255) (hv : v < 2 ^ 32) :
    blendPixel shade colour alpha v < 2 ^ 32 ∧ blendPixel shade colour alpha v / 2 ^ 24 = v / 2 ^ 24 ∧
      ∀ k < 3, blendPixel shade colour alpha v / 256 ^ k % 256 =
        blendChannel shade (colour / 256 ^ k % 256) alpha (v / 256 ^ k % 256) :=
  packedChannels (ch := fun k => blendChannel shade (colour / 256 ^ k % 256) alpha (v / 256 ^ k % 256))
    (fun k => blendChannel_lt hs (Nat.mod_lt _ (by decide)) ha (Nat.mod_lt _ (by decide))) hv

theorem pixelOf_lt (d : Beat) (j : Nat) : pixelOf d j < 2 ^ 32 := Nat.mod_lt _ (by decide)

/-- What a pixel gets from the buffer: outside the layers nothing; inside, the first pixel of its column or none. -/
theorem LatchRecord.blended_cases {l : LatchRecord} {y x : Nat} {ps : List Pixel} (j v : Nat) :
    (l.covers y (x + j) = false → l.blended y x ps j v = v) ∧
      (l.covers y (x + j) = true →
        (∀ p, ps.find? (fun p => p.x == x + j) = some p →
          l.blended y x ps j v = blendPixel l.prm.shade p.colour p.alpha v) ∧
        (ps.find? (fun p => p.x == x + j) = none → l.blended y x ps j v = blendPixel l.prm.shade 0 0 v)) := by
  unfold LatchRecord.blended
  refine ⟨fun h => if_neg (ne_true_of_eq_false h), fun h => ⟨fun p hp => ?_, fun hp => ?_⟩⟩ <;> rw [if_pos h, hp]

theorem LatchRecord.blended_lt {l : LatchRecord} {y x : Nat} {ps : List Pixel} (hs : l.prm.shade ≤ 256)
    (ha : ∀ p ∈ ps, p.alpha ≤ 255) {j v : Nat} (hv : v < 2 ^ 32) : l.blended y x ps j v < 2 ^ 32 := by
  obtain ⟨outside, inside⟩ := LatchRecord.blended_cases (l := l) (y := y) (x := x) (ps := ps) j v
  cases hc : l.covers y (x + j)
  · rw [outside hc]
    exact hv
  · obtain ⟨hit, missed⟩ := inside hc
    rcases hp : ps.find? (fun p => p.x == x + j) with _ | p
    · rw [missed hp]
      exact (blendPixel_bytes hs (by decide) hv).1
    · rw [hit p hp]
      exact (blendPixel_bytes hs (ha p (List.mem_of_find?_eq_some hp)) hv).1

/-- Each of a blended beat's four pixels is its own (R59). -/
theorem pixelOf_blendBeat {l : LatchRecord} {y x : Nat} {ps : List Pixel} {d : Beat} (hs : l.prm.shade ≤ 256)
    (ha : ∀ p ∈ ps, p.alpha ≤ 255) {j : Nat} (hj : j < 4) :
    pixelOf (blendBeat l y x ps d) j = l.blended y x ps j (pixelOf d j) := by
  have small : ∀ j, l.blended y x ps j (pixelOf d j) < 2 ^ 32 := fun j => LatchRecord.blended_lt hs ha (pixelOf_lt d j)
  have packed : blendBeat l y x ps d = BitVec.ofNat 128
      ((List.range 4).foldr (fun j acc => l.blended y x ps j (pixelOf d j) + 2 ^ 32 * acc) 0) := rfl
  have whole := packedPixels_lt (fun j => l.blended y x ps j (pixelOf d j)) small (List.range 4)
  rw [List.length_range] at whole
  rw [packed, pixelOf, BitVec.toNat_ofNat, Nat.mod_eq_of_lt (b := 2 ^ 128) whole, packedPixels_digit _ small,
    List.getElem?_range hj]
  rfl

/-! ## The latch record under compose requests (R52) -/

theorem State.takeGlyph_latch {q : GlyphReq} {s t : State} (h : s.takeGlyph q = some t) :
    t.ovc.latch = s.ovc.latch := by
  unfold State.takeGlyph at h
  dsimp only at h
  split at h
  · cases h
    rw [State.answerFailure, State.endRow_ovc]
  · split at h
    · cases h
      simp
    · split at h
      · split at h
        · cases h
          rfl
        · split at h
          · cases h
            rfl
          · cases h
      · cases h

/-- The intake pumped leaves the latch record. -/
theorem State.pump_latch (s : State) : s.pump.ovc.latch = s.ovc.latch := by
  have round : ∀ t : State, t.retakeIntake.feedIntake.ovc.latch = t.ovc.latch := fun t => by
    have taken : t.retakeIntake.ovc.latch = t.ovc.latch := by
      unfold State.retakeIntake
      refine State.whenRoom_keeps (fun u : State => u.ovc.latch) _ t ?_
      dsimp only
      split
      · rfl
      · next q _ =>
        rcases ht : State.takeGlyph q { t with gxt := { t.gxt with intake := none } } with _ | u
        · rfl
        · have kept := State.takeGlyph_latch ht
          exact kept
    unfold State.feedIntake
    split <;> exact taken
  have rounds : ∀ n (t : State), (t.pumpGlyphs n).ovc.latch = t.ovc.latch := fun n => by
    induction n with
    | zero => exact fun _ => rfl
    | succ n ih => exact fun t => (ih _).trans (round t)
  exact rounds _ s

theorem State.compose_latch (y : Nat) (s : State) : (s.compose y).ovc.latch = s.ovc.latch := by
  unfold State.compose
  split
  · rfl
  · split
    · rfl
    · split
      · rfl
      · split
        · exact State.pump_latch _
        · rfl

/-! ## The scanline's decision (R57, R58) -/

theorem Ovc.blendBuffer_pass {o : Ovc} {y : Nat} (h : o.decision = some ⟨y, .pass⟩) : o.blendBuffer y = none := by
  simp only [Ovc.blendBuffer, h]

/-- A BLEND decision names its buffer while that holds its composition, READY. -/
theorem Ovc.blendBuffer_blend {o : Ovc} {y comp : Nat} {k : Fin 3} (h : o.decision = some ⟨y, .blend k comp⟩) :
    ((o.buffers.get k).comp ≠ comp ∨ (o.buffers.get k).state ≠ .ready → o.blendBuffer y = none) ∧
      ((o.buffers.get k).comp = comp → (o.buffers.get k).state = .ready → o.blendBuffer y = some k) := by
  simp only [Ovc.blendBuffer, h, true_and]
  refine ⟨fun other => if_neg fun ⟨hc, hs⟩ => ?_, fun hc hs => if_pos ⟨hc, hs⟩⟩
  exact other.elim (fun g => g hc) (fun g => g hs)

theorem State.makeDecision_ready {s : State} {y : Nat} {k : Fin 3}
    (h : s.ovc.holding y (fun st => st == .ready) = some k) :
    s.makeDecision y = { s with ovc := { s.ovc with
      decision := some ⟨y, .blend k (s.ovc.buffers.get k).comp⟩ } } := by
  simp only [State.makeDecision, h]

/-- The buffers when a scanline is passed: one that still composes it gets a discard mark (R58). -/
def Ovc.passed (y : Nat) (o : Ovc) : Vector StagingBuffer 3 :=
  match o.holding y (fun st => st == .composing) with
  | some k => vset o.buffers k { o.buffers.get k with discard := true }
  | none => o.buffers

theorem Ovc.passed_get (y : Nat) (o : Ovc) (k : Fin 3) :
    (o.holding y (fun st => st == .composing) = some k →
      (o.passed y).get k = { o.buffers.get k with discard := true }) ∧
      (o.holding y (fun st => st == .composing) ≠ some k → (o.passed y).get k = o.buffers.get k) := by
  unfold Ovc.passed
  constructor
  · intro h
    rw [h]
    exact vset_get_self ..
  · intro h
    split
    · next j hj => exact vset_get_ne _ _ fun e => h (hj.trans (congrArg some e))
    · rfl

theorem State.makeDecision_unready {s : State} {y : Nat} (h : s.ovc.holding y (fun st => st == .ready) = none) :
    s.makeDecision y = State.raise .scanLate { s with ovc := { s.ovc with
      buffers := s.ovc.passed y, decision := some ⟨y, .pass⟩, scanLate := s.ovc.scanLate + 1 } } := by
  simp only [State.makeDecision, h]
  rfl

/-! ## A layer beat (R59 to R61) -/

/-- The state in which a layer beat of scanline `y` finds its decision made. -/
def State.decided (y : Nat) (s : State) : State :=
  if (s.ovc.decision.map Decision.y) = some y then s else s.makeDecision y

theorem State.decided_before {s : State} {y : Nat} {t : Treatment} (h : s.ovc.decision = some ⟨y, t⟩) :
    s.decided y = s := if_pos (by rw [h]; rfl)

theorem State.decided_first {s : State} {y : Nat} (h : ∀ d, s.ovc.decision = some d → d.y ≠ y) :
    s.decided y = s.makeDecision y := if_neg fun e => by
  obtain ⟨d, hd, hy⟩ := Option.map_eq_some_iff.mp e
  exact h d hd hy

theorem State.layerBeat_untouched {l : LatchRecord} {y x : Nat} {b : ReadBeat} {s t : State} (ht : s.decided y = t)
    (hb : t.ovc.blendBuffer y = none) : s.layerBeat l y x b = (t, b) := by
  subst ht
  unfold State.decided at hb ⊢
  simp only [State.layerBeat, hb]

/-- A beat returned blended from buffer `k`, an ERROR beat as it is (R61). -/
def State.blendedBeat (l : LatchRecord) (y x : Nat) (b : ReadBeat) (k : Fin 3) (s : State) : ReadBeat :=
  if b.status = .okay then { b with data := blendBeat l y x (s.ovc.buffers.get k).pixels b.data } else b

/-- The buffers behind a blended beat: the last layer beat frees buffer `k` (R60). -/
def State.buffersAfter (l : LatchRecord) (y x : Nat) (k : Fin 3) (s : State) : Vector StagingBuffer 3 :=
  if x ≤ l.lastColumn y ∧ l.lastColumn y < x + 4 then vset s.ovc.buffers k {} else s.ovc.buffers

theorem State.layerBeat_blended {l : LatchRecord} {y x : Nat} {b : ReadBeat} {s t : State} {k : Fin 3}
    (ht : s.decided y = t) (hb : t.ovc.blendBuffer y = some k) : s.layerBeat l y x b =
      ({ t with ovc := { t.ovc with buffers := t.buffersAfter l y x k } }, t.blendedBeat l y x b k) := by
  subst ht
  unfold State.buffersAfter State.blendedBeat
  unfold State.decided at hb ⊢
  simp only [State.layerBeat, hb]
  split <;> split <;> rfl

/-! ## A beat that is no latch (R43, R52, R57) -/

/-- The offset of a byte address in the frame (R43). -/
def frameOffset (a base size : Nat) : Nat := (((a : Int) - base) % (size : Nat)).toNat

/-- The compose request that the first beat of a scanline makes, for the scanline two below (R52). -/
def State.composedAt (y x : Nat) (s : State) : State := if x = 0 then s.compose (y + 2) else s

theorem State.composedAt_latch (y x : Nat) (s : State) : (s.composedAt y x).ovc.latch = s.ovc.latch := by
  unfold State.composedAt
  split
  · exact State.compose_latch ..
  · rfl

theorem State.displayAt_noFrame {s : State} (h : s.ptu.windows.frame = none) (a : Nat) (b : ReadBeat) :
    s.displayAt a b = (s, b) := by
  simp only [State.displayAt, h, true_or, if_true]

/-- A beat that is no latch: the compose request first, then the beat by the record (R42, R43, R52). -/
theorem State.displayAt_beat {s : State} {w : Window} {a off : Nat} (b : ReadBeat) (hw : s.ptu.windows.frame = some w)
    (hg : 0 < s.prm.stride * s.prm.height) (hoff : frameOffset a w.base (s.prm.stride * s.prm.height) = off)
    (h0 : off ≠ 0) :
    let y := off / s.prm.stride
    let x := off % s.prm.stride / 4
    (s.ovc.latch = none → s.displayAt a b = (s, b)) ∧
      ∀ l, s.ovc.latch = some l →
        ((¬ ∃ j < 4, l.covers y (x + j) = true) → s.displayAt a b = (s.composedAt y x, b)) ∧
        ((∃ j < 4, l.covers y (x + j) = true) → s.displayAt a b = (s.composedAt y x).layerBeat l y x b) := by
  intro y x
  have base : baseOf s.ptu.windows.frame = w.base := by rw [hw]; rfl
  have inFrame : ¬ (s.ptu.windows.frame = none ∨ s.prm.stride * s.prm.height = 0) := by
    rintro (h | h)
    · rw [hw] at h
      cases h
    · exact hg.ne' h
  have offset : (((a : Int) - baseOf s.ptu.windows.frame) % (s.prm.stride * s.prm.height : Nat)).toNat = off := by
    rw [base]
    exact hoff
  have record := s.composedAt_latch y x
  unfold State.displayAt
  dsimp only
  rw [if_neg inFrame, offset, if_neg h0, if_neg h0]
  have inLayers : ∀ l : LatchRecord, (List.range 4).any (fun j => l.covers y (x + j)) = true ↔
      ∃ j < 4, l.covers y (x + j) = true := fun l => by simp
  refine ⟨fun h => ?_, fun l h => ⟨fun bare => ?_, fun layered => ?_⟩⟩
  · rw [State.compose_unlatched h, ite_self, h]
  · rw [show (if x = 0 then s.compose (y + 2) else s).ovc.latch = some l from record.trans h]
    exact if_neg fun any => bare ((inLayers l).mp any)
  · rw [show (if x = 0 then s.compose (y + 2) else s).ovc.latch = some l from record.trans h]
    exact if_pos ((inLayers l).mpr layered)

/-- A display beat returned: the frame's own work, then the beat as that leaves it (R43, R159). -/
theorem exec_displayBeat {s : State} {q : PassReq} {n : Nat} {rest : List Placed} {b : ReadBeat} {r : State × ReadBeat}
    (hd : s.ptu.discard = 0) (hp : s.ptu.placed = .pass q n :: rest) (hc : q.cls = .display)
    (hr : s.displayAt (beatAddr q.req.addr n) b = r) :
    exec (.displayBeat b) s = .next ({ r.1 with ptu := r.1.ptu.returnBeat q n r.2 } : State).flush := by
  have head : s.ptu.headPass = some (q, n) := by simp [Ptu.headPass, hd, hp]
  subst hr
  show Host.Outcome.next (s.displayBeat b).flush = _
  simp only [State.displayBeat, head, hc, if_true]

/-- Settles O31. A beat's pixels are digits in base 2^32 and a pixel's channels digits in base 256; the beats of a
scanline are taken by its decision, made at the first of them. -/
theorem displayBeatsAreBlendedOrPass : Obligations.DisplayBeatsAreBlendedOrPass := by
  unfold Obligations.DisplayBeatsAreBlendedOrPass
  refine ⟨fun l y x ps d hs ha j hj => ?_, fun b s q n rest hd hp hc => ⟨fun hl w hw hg h0 => ?_, fun hw => ?_⟩,
    fun b s0 q n rest w l hd hp hc hw hg hl => ?_⟩
  · intro v out
    have pixel : out = l.blended y x ps j v := pixelOf_blendBeat hs ha hj
    obtain ⟨outside, inside⟩ := LatchRecord.blended_cases (l := l) (y := y) (x := x) (ps := ps) j v
    refine ⟨fun h => pixel.trans (outside h), fun h => ?_⟩
    obtain ⟨hit, missed⟩ := inside h
    rcases hp : ps.find? (fun p => p.x == x + j) with _ | p
    · obtain ⟨-, top, channels⟩ := blendPixel_bytes (colour := 0) (alpha := 0) hs (by decide) (pixelOf_lt d j)
      rw [pixel, missed hp]
      refine ⟨top, fun k hk fg a covered => (channels k hk).trans ?_⟩
      rcases covered with ⟨p, found, -⟩ | ⟨-, rfl⟩
      · cases hp.symm.trans found
      · rw [blendChannel, Nat.mul_zero, Nat.mul_zero]
    · obtain ⟨-, top, channels⟩ := blendPixel_bytes (colour := p.colour) hs (ha p (List.mem_of_find?_eq_some hp))
        (pixelOf_lt d j)
      rw [pixel, hit p hp]
      refine ⟨top, fun k hk fg a covered => (channels k hk).trans ?_⟩
      rcases covered with ⟨p', found, rfl, rfl⟩ | ⟨unfound, -⟩
      · cases hp.symm.trans found
        rfl
      · cases hp.symm.trans unfound
  · have nonzero : frameOffset (beatAddr q.req.addr n) w.base (s.prm.stride * s.prm.height) ≠ 0 := by
      have := Int.emod_nonneg ((beatAddr q.req.addr n : Int) - w.base)
        (b := (s.prm.stride * s.prm.height : Nat)) (by omega)
      unfold frameOffset
      omega
    exact exec_displayBeat hd hp hc ((State.displayAt_beat b hw hg rfl nonzero).1 hl)
  · exact exec_displayBeat hd hp hc (State.displayAt_noFrame hw _ b)
  · intro off y x s layered blended after h0
    obtain ⟨-, latched⟩ := State.displayAt_beat b hw hg rfl h0
    obtain ⟨outside, inside⟩ := latched l hl
    have untouched : ∀ {t : State}, layered → s.decided y = t → t.ovc.blendBuffer y = none →
        exec (.displayBeat b) s0 = .next ({ t with ptu := t.ptu.returnBeat q n b } : State).flush := fun hi ht hb =>
      exec_displayBeat hd hp hc ((inside hi).trans (State.layerBeat_untouched ht hb))
    refine ⟨fun bare => exec_displayBeat hd hp hc (outside bare),
      fun hi dec => untouched hi (State.decided_before dec) (Ovc.blendBuffer_pass dec), fun k comp hi dec => ?_,
      fun k hi fresh ready => ?_, fun hi fresh unready => ?_⟩
    · obtain ⟨freed, held⟩ := Ovc.blendBuffer_blend dec
      exact ⟨fun other => untouched hi (State.decided_before dec) (freed other), fun hcomp hs =>
        exec_displayBeat hd hp hc ((inside hi).trans
          (State.layerBeat_blended (State.decided_before dec) (held hcomp hs)))⟩
    · have made := (State.decided_first fresh).trans (State.makeDecision_ready ready)
      refine exec_displayBeat hd hp hc ((inside hi).trans (State.layerBeat_blended made ?_))
      refine (Ovc.blendBuffer_blend rfl).2 rfl ?_
      have holds := vfind_some ready
      simp only [Bool.and_eq_true, beq_iff_eq] at holds
      exact holds.2
    · have made := (State.decided_first fresh).trans (State.makeDecision_unready unready)
      exact ⟨_, untouched hi made (Ovc.blendBuffer_pass rfl), rfl, rfl, fun k => (s.ovc.passed_get y k).1,
        fun k => (s.ovc.passed_get y k).2⟩

end Sys2Proof.Machine
end

