-- ==== Sys2Proof/Proofs/CacheLaw.lean ====
section
/-! The law of the translation cache (R68, R70, R71): every operation that touches the cache or the walks keeps it, and so
every step does. -/

namespace Sys2Proof.Machine

/-! ## What keeps the law of the cache (R68, R70, R71) -/

/-- Fewer mappings and fewer FRESH walks keep the law. -/
theorem Gxt.cacheLaw.of_fewer {g u : Gxt} (h : g.cacheLaw) (hc : u.cache.Sublist g.cache)
    (hw : ∀ k p, freshPage (u.walks.get k) = some p → freshPage (g.walks.get k) = some p) : u.cacheLaw := by
  obtain ⟨short, once, missed, apart⟩ := h
  refine ⟨hc.length_le.trans short, (hc.map _).nodup once, fun k p hp e he => ?_, fun j k p hj hk => ?_⟩
  · exact missed k p (hw k p hp) e (hc.subset he)
  · exact apart j k p (hw j p hj) (hw k p hk)

/-- A mapping made the most recently used keeps the law: no page joins the cache. -/
theorem Gxt.touch_cacheLaw {g : Gxt} {e : CacheEntry} (h : g.cacheLaw) (he : e ∈ g.cache) : (g.touch e).cacheLaw := by
  obtain ⟨short, once, missed, apart⟩ := h
  have fewer : (g.cache.filter (fun x => x.page != e.page)).length < g.cache.length :=
    List.length_filter_lt_length_iff_exists.mpr ⟨e, he, by simp⟩
  refine ⟨?_, ?_, fun k p hp x hx => ?_, apart⟩
  · simp only [Gxt.touch, List.length_append, List.length_singleton]
    omega
  · simp only [Gxt.touch, List.map_append, List.map_singleton]
    refine List.nodup_append.mpr ⟨(List.filter_sublist.map _).nodup once, List.nodup_singleton _, ?_⟩
    intro p hp q hq
    obtain ⟨x, hx, rfl⟩ := List.mem_map.mp hp
    rw [List.mem_singleton.mp hq]
    simpa using (List.mem_filter.mp hx).2
  · rcases List.mem_append.mp hx with hx | hx
    · exact missed k p hp x (List.mem_filter.mp hx).1
    · rw [List.mem_singleton.mp hx]
      exact missed k p hp e he

/-- A mapping of an uncached page for which no walk is FRESH keeps the law (R71). -/
theorem Gxt.install_cacheLaw {g : Gxt} {e : CacheEntry} (h : g.cacheLaw) (hc : ∀ x ∈ g.cache, x.page ≠ e.page)
    (hw : ∀ k, freshPage (g.walks.get k) ≠ some e.page) : (g.install e).cacheLaw := by
  obtain ⟨short, once, missed, apart⟩ := h
  obtain ⟨kept, hk, sub, room⟩ : ∃ kept,
      (g.install e).cache = kept ++ [e] ∧ kept.Sublist g.cache ∧ kept.length < 16 := by
    refine ⟨_, rfl, ?_, ?_⟩ <;> split
    · exact List.tail_sublist _
    · exact List.Sublist.refl _
    · rw [List.length_tail]
      omega
    · omega
  refine ⟨?_, ?_, fun k p hp x hx => ?_, apart⟩
  · rw [hk, List.length_append, List.length_singleton]
    exact room
  · rw [hk, List.map_append]
    refine List.nodup_append.mpr ⟨(sub.map _).nodup once, List.nodup_singleton _, fun p hp q hq => ?_⟩
    obtain ⟨x, hx, rfl⟩ := List.mem_map.mp hp
    rw [List.mem_singleton.mp hq]
    exact hc x (sub.subset hx)
  · rw [hk] at hx
    rcases List.mem_append.mp hx with hx | hx
    · exact missed k p hp x (sub.subset hx)
    · rw [List.mem_singleton.mp hx]
      exact fun same => hw k (same ▸ hp)

/-- Record `k` set: what its FRESH page must be apart from. -/
theorem Gxt.cacheLaw.walkSet {g : Gxt} {k : Fin 8} {w : Option Walk} (h : g.cacheLaw)
    (hc : ∀ p, freshPage w = some p → ∀ e ∈ g.cache, e.page ≠ p)
    (hw : ∀ p, freshPage w = some p → ∀ j, j ≠ k → freshPage (g.walks.get j) ≠ some p) :
    ({ g with walks := vset g.walks k w } : Gxt).cacheLaw := by
  obtain ⟨short, once, missed, apart⟩ := h
  refine ⟨short, once, fun j p hj => ?_, fun i j p hi hj => ?_⟩
  · simp only [vset_get] at hj
    split at hj
    · exact hc p hj
    · exact missed j p hj
  · simp only [vset_get] at hi hj
    split at hi <;> split at hj
    · next hki hkj => exact hki.symm.trans hkj
    · next hkj => exact absurd hj (hw p hi j (Ne.symm hkj))
    · next hki _ => exact absurd hi (hw p hj i (Ne.symm hki))
    · exact apart i j p hi hj

/-- A record given up keeps the law. -/
theorem Gxt.freed_cacheLaw {g : Gxt} (k : Fin 8) (h : g.cacheLaw) : (g.freed k).cacheLaw :=
  h.walkSet (by simp [freshPage]) (by simp [freshPage])

/-- A waiter put on a walk leaves its page and its mark. -/
theorem Gxt.join_cacheLaw {g : Gxt} (k : Fin 8) (q : GlyphReq) (h : g.cacheLaw) : (g.join k q).cacheLaw := by
  refine h.of_fewer (List.Sublist.refl _) fun j p hj => ?_
  simp only [Gxt.join, vset_get] at hj
  split at hj
  · next same =>
    subst same
    rcases hw : g.walks.get k with _ | w
    · simp [hw, freshPage] at hj
    · simpa [hw, freshPage] using hj
  · exact hj

/-- A walk marked STALE looks for no page. -/
theorem Gxt.flush_cacheLaw (g : Gxt) : g.flush.cacheLaw := by
  have stale : ∀ k, freshPage (g.flush.walks.get k) = none := fun k => by
    rcases hw : g.walks.get k with _ | w <;> simp [Gxt.flush, freshPage, hw]
  exact ⟨by simp [Gxt.flush], by simp [Gxt.flush], by simp [stale], by simp [stale]⟩

theorem Gxt.invalidate_cacheLaw {g : Gxt} (ps : List Nat) (h : g.cacheLaw) : (g.invalidate ps).cacheLaw := by
  refine h.of_fewer List.filter_sublist fun k p hk => ?_
  obtain ⟨free, used⟩ := Gxt.invalidate_walks ps g k
  rcases hw : g.walks.get k with _ | w
  · rw [free hw] at hk
    exact hk
  · obtain ⟨stale, kept⟩ := used w hw
    by_cases hp : w.page ∈ ps
    · simp [stale hp, freshPage] at hk
    · rwa [kept hp] at hk

/-- A FRESH walk that ends installs a page that is not cached and that no other walk looks for (R70, R71). -/
theorem Gxt.mapped_cacheLaw {g : Gxt} {k : Fin 8} {w : Walk} (page : Nat) (h : g.cacheLaw)
    (hw : g.walks.get k = some w) : (g.mapped k w page).cacheLaw := by
  have freed := Gxt.freed_cacheLaw k h
  obtain ⟨-, -, missed, apart⟩ := h
  unfold Gxt.mapped
  split
  · next fresh =>
    have own : freshPage (g.walks.get k) = some w.page := by simp [freshPage, hw, fresh]
    refine Gxt.install_cacheLaw freed (missed k _ own) fun j hj => ?_
    simp only [Gxt.freed, vset_get] at hj
    split at hj
    · simp [freshPage] at hj
    · next other => exact other (apart k j _ own hj)
  · exact freed

theorem freshPage_iff {w : Option Walk} {p : Nat} :
    freshPage w = some p ↔ ∃ x, w = some x ∧ x.fresh = true ∧ x.page = p := by
  rcases w with _ | w
  · simp [freshPage]
  · cases hf : w.fresh <;> simp [freshPage, hf]

/-- The FRESH walk of a page is the lowest record whose FRESH page it is. -/
theorem Gxt.freshWalk_eq (p : Nat) (g : Gxt) :
    g.freshWalk p = vfind g.walks (fun w => decide (freshPage w = some p)) := by
  unfold Gxt.freshWalk
  congr 1
  funext w
  rcases w with _ | w
  · simp [freshPage]
  · cases hf : w.fresh <;> simp [freshPage, hf, Bool.beq_eq_decide_eq]

theorem Gxt.freshWalk_none {g : Gxt} {p : Nat} (h : g.freshWalk p = none) (k : Fin 8) :
    freshPage (g.walks.get k) ≠ some p := by
  rw [Gxt.freshWalk_eq] at h
  exact of_decide_eq_false (vfind_none h k)

/-! ## Requests taken (R68, R69) -/

theorem State.answerFailure_cacheLaw {s : State} (q : GlyphReq) (h : s.gxt.cacheLaw) :
    (s.answerFailure q).gxt.cacheLaw := by
  have counted : (s.answerFailure q).gxt = { s.gxt with glyphFault := s.gxt.glyphFault + 1 } := by
    simp [State.answerFailure]
  rw [counted]
  exact h

theorem State.takeGlyph_cacheLaw {q : GlyphReq} {s t : State} (h : s.gxt.cacheLaw) (e : s.takeGlyph q = some t) :
    t.gxt.cacheLaw := by
  unfold State.takeGlyph at e
  dsimp only at e
  split at e
  · cases e
    exact State.answerFailure_cacheLaw q h
  · split at e
    · next hit =>
      cases e
      simpa using Gxt.touch_cacheLaw h (List.mem_of_find?_eq_some hit)
    · next miss =>
      split at e
      · split at e
        · cases e
          exact Gxt.join_cacheLaw _ _ h
        · next unwalked =>
          split at e
          · cases e
            refine h.walkSet (fun p hp x hx => ?_) fun p hp j _ => ?_ <;> cases hp
            · simpa using List.find?_eq_none.mp miss x hx
            · exact Gxt.freshWalk_none unwalked j
          · cases e
      · cases e

/-- The intake pumped takes requests one by one, each of which keeps the law. -/
theorem State.pump_cacheLaw {s : State} (h : s.gxt.cacheLaw) : s.pump.gxt.cacheLaw := by
  have retaken : ∀ t : State, t.gxt.cacheLaw → t.retakeIntake.gxt.cacheLaw := fun t ht => by
    unfold State.retakeIntake
    rcases State.whenRoom_cases _ t with e | ⟨e, -⟩ <;> rw [e]
    · dsimp only
      split
      · exact ht
      · next q _ =>
        rcases e : State.takeGlyph q { t with gxt := { t.gxt with intake := none } } with _ | u
        · exact ht
        · exact State.takeGlyph_cacheLaw (s := { t with gxt := { t.gxt with intake := none } }) ht e
    · exact ht
  have fed : ∀ t : State, t.gxt.cacheLaw → t.feedIntake.gxt.cacheLaw := fun t ht => by
    unfold State.feedIntake
    split <;> exact ht
  have rounds : ∀ n (t : State), t.gxt.cacheLaw → (t.pumpGlyphs n).gxt.cacheLaw := fun n => by
    induction n with
    | zero => exact fun _ ht => ht
    | succ n ih => exact fun t ht => ih _ (fed _ (retaken t ht))
  exact rounds _ s h

/-! ## Walks ended, table writes and the compositor's requests -/

/-- The read of a walk taken and the waiters answered or failed, a walk that ends keeps the law (R70, R71). -/
theorem State.endWalk_cacheLaw {s : State} {k : Fin 8} {w : Walk} (id : Nat) (data : Option (List Beat))
    (h : s.gxt.cacheLaw) (hw : s.gxt.walks.get k = some w) :
    ((s.walkTaken id s.gxt).endWalk k w data).gxt.cacheLaw := by
  rcases hm : data.bind (fun bs => readEntry bs (4 * w.page % 16)) with _ | page
  · rw [State.endWalk_invalid hm]
    refine State.pump_cacheLaw (foldl_keeps (P := fun t : State => t.gxt.cacheLaw) ?_ _ _ (Gxt.freed_cacheLaw k h))
    exact fun t q ht => State.answerFailure_cacheLaw q ht
  · rw [State.endWalk_valid hm]
    refine State.pump_cacheLaw ?_
    simpa [State.walkTaken] using Gxt.mapped_cacheLaw page h hw

theorem State.pageWalkComplete_cacheLaw {s : State} (h : s.gxt.cacheLaw) : s.pageWalkComplete.gxt.cacheLaw := by
  unfold State.pageWalkComplete
  split
  · exact h
  · next o _ =>
    dsimp only
    split
    · exact h
    · split
      · exact h
      · next k _ _ w hw => exact State.endWalk_cacheLaw o.id o.data h hw

theorem State.pagetableWrite_cacheLaw {s : State} (h : s.gxt.cacheLaw) : s.pagetableWrite.gxt.cacheLaw := by
  unfold State.pagetableWrite
  split
  · exact h
  · exact Gxt.invalidate_cacheLaw _ h

theorem State.glyphRowFetchComplete_gxt (s : State) : s.glyphRowFetchComplete.gxt = s.gxt := by
  unfold State.glyphRowFetchComplete
  split
  · rfl
  · dsimp only
    split <;> simp

theorem State.compose_cacheLaw {s : State} (y : Nat) (h : s.gxt.cacheLaw) : (s.compose y).gxt.cacheLaw := by
  unfold State.compose
  split
  · exact h
  · split
    · exact h
    · split
      · exact h
      · split
        · exact State.pump_cacheLaw h
        · exact h

theorem State.frameLatch_cacheLaw {s : State} (h : s.gxt.cacheLaw) : s.frameLatch.gxt.cacheLaw := by
  unfold State.frameLatch
  refine State.compose_cacheLaw 1 (State.compose_cacheLaw 0 ?_)
  simpa using h

/-- What a frame latch, a compose request, a layer beat and the latch's end keep, a display beat keeps. -/
theorem State.displayAt_keeps {P : State → Prop} (hl : ∀ s : State, P s → P s.frameLatch)
    (hc : ∀ (s : State) y, P s → P (s.compose y)) (hb : ∀ (s : State) l y x b, P s → P (s.layerBeat l y x b).1)
    (ha : ∀ s : State, P s → P s.afterLatch) {s : State} (a : Nat) (b : ReadBeat) (h : P s) :
    P (s.displayAt a b).1 := by
  unfold State.displayAt
  dsimp only
  split
  · exact h
  · generalize (((a : Int) - _) % _).toNat = off
    have latched : P (if off = 0 then s.frameLatch else s) := by
      split
      · exact hl s h
      · exact h
    generalize (if off = 0 then s.frameLatch else s) = t at latched ⊢
    have composed : ∀ (p : Prop) [Decidable p] (y : Nat), P (if p then t.compose y else t) := by
      intro p _ y
      split
      · exact hc t y latched
      · exact latched
    have decided : ∀ (u : State) (y x : Nat), P u → P (match u.ovc.latch with
        | none => (u, b)
        | some l => if (List.range 4).any (fun j => l.covers y (x + j)) then u.layerBeat l y x b else (u, b)).1 := by
      intro u y x hu
      split
      · exact hu
      · split
        · exact hb _ _ _ _ _ hu
        · exact hu
    split
    · exact ha _ (decided _ _ _ (composed _ _))
    · exact decided _ _ _ (composed _ _)

theorem State.displayBeat_cacheLaw {s : State} (b : ReadBeat) (h : s.gxt.cacheLaw) :
    (s.displayBeat b).gxt.cacheLaw := by
  unfold State.displayBeat
  split
  · dsimp only
    split
    · refine State.displayAt_keeps (P := fun t : State => t.gxt.cacheLaw) ?_ ?_ ?_ ?_ _ b h
      · exact fun _ g => State.frameLatch_cacheLaw g
      · exact fun _ y g => State.compose_cacheLaw y g
      · exact fun _ _ _ _ _ g => by simpa using g
      · exact fun _ g => by simpa using g
    · exact h
  · exact h

/-! ## Host commands -/

/-- A command record is submitted as the host command it spells, or answered at once as no command. -/
theorem State.submitRecord_cases (r : CommandRecord) (s : State) :
    (∃ c, s.submitRecord r = s.submitInstr c) ∨ ∃ code rc, s.submitRecord r = s.result code r.tag rc [] := by
  unfold State.submitRecord
  split
  · exact .inl ⟨.setup _ _ _ _, rfl⟩
  · exact .inl ⟨.setScoring _ _ _ _ _ _ _ _ _, rfl⟩
  · exact .inl ⟨.enableEvents _ _, rfl⟩
  · exact .inl ⟨.ack _ _, rfl⟩
  · exact .inl ⟨.start _ _ _, rfl⟩
  · exact .inl ⟨.stop _, rfl⟩
  · exact .inl ⟨.seek _ _, rfl⟩
  · exact .inl ⟨.setTempo _ _, rfl⟩
  · exact .inl ⟨.setKey _ _, rfl⟩
  · exact .inl ⟨.assign _ _ _ _, rfl⟩
  · exact .inl ⟨.insert _ _ _ _ _, rfl⟩
  · exact .inl ⟨.remove _ _, rfl⟩
  · exact .inl ⟨.promote _ _, rfl⟩
  · exact .inl ⟨.openRoom _, rfl⟩
  · exact .inl ⟨.closeRoom _, rfl⟩
  · exact .inl ⟨.clearRoom _, rfl⟩
  · exact .inl ⟨.flushGlyphs _, rfl⟩
  · refine .inr ?_
    unfold State.submit
    dsimp only
    split
    · exact ⟨_, _, rfl⟩
    · exact ⟨_, _, rfl⟩

/-- A submitted command leaves the translator as it was or as its owner leaves it. -/
theorem State.submit_cacheLaw {s : State} {code tag : BitVec 16} {f : State → CommandEnd} (h : s.gxt.cacheLaw)
    (hf : (f s).state.gxt.cacheLaw) : (s.submit code tag (some f)).gxt.cacheLaw := by
  have answered : ∀ rc, (s.result code tag rc []).gxt.cacheLaw := fun _ => h
  unfold State.submit
  split
  · exact answered _
  · dsimp only
    split
    · exact answered _
    · split
      · exact answered _
      · rcases e : f s with a | t
        · rw [e] at hf
          exact hf
        · rw [e] at hf
          exact hf

theorem State.submit_untranslated {s : State} {code tag : BitVec 16} {f : State → CommandEnd} (h : s.gxt.cacheLaw)
    (hf : (f s).state.gxt = s.gxt) : (s.submit code tag (some f)).gxt.cacheLaw :=
  State.submit_cacheLaw h (hf ▸ h)

/-- A commit that passes empties the cache and makes every walk STALE (R75); any other SETUP leaves the translator. -/
theorem State.takeSetup_cacheLaw {s : State} (sec commit : Byte) (ws : List Word) (h : s.gxt.cacheLaw) :
    (s.takeSetup sec commit ws).state.gxt.cacheLaw := by
  unfold State.takeSetup
  dsimp only
  split
  · exact h
  · split
    · exact h
    · split
      · simpa [State.applySetup, CommandEnd.state] using Gxt.flush_cacheLaw s.gxt
      · exact h

theorem State.takeScoring_gxt (s : State) (g c l : Nat) (fold : Bool) (pm gm fm cad : Nat) :
    (s.takeScoring g c l fold pm gm fm cad).state.gxt = s.gxt := by
  unfold State.takeScoring
  split <;> rfl

theorem State.takeStart_gxt (s : State) (tag : BitVec 16) (n b : Nat) : (s.takeStart tag n b).state.gxt = s.gxt := by
  unfold State.takeStart
  repeat' split
  all_goals simp [State.refuse, CommandEnd.state]

theorem State.takeStop_gxt (s : State) : s.takeStop.state.gxt = s.gxt := by
  unfold State.takeStop
  split <;> simp [State.refuse, CommandEnd.state]

theorem State.takeSeek_gxt (s : State) (tag : BitVec 16) (ms : Nat) : (s.takeSeek tag ms).state.gxt = s.gxt := by
  unfold State.takeSeek
  split <;> simp [State.refuse, CommandEnd.state]

theorem State.takeAssign_gxt (s : State) (singer mic part : Nat) :
    (s.takeAssign singer mic part).state.gxt = s.gxt := by
  unfold State.takeAssign
  dsimp only
  repeat' split
  all_goals rfl

theorem State.takeClearRoom_gxt (s : State) : s.takeClearRoom.state.gxt = s.gxt := by
  simp [State.takeClearRoom, CommandEnd.state]

theorem State.submitInstr_cacheLaw {s : State} (c : Instr) (h : s.gxt.cacheLaw) : (s.submitInstr c).gxt.cacheLaw := by
  have staff : ∀ {f : State → Answer} {code tag : BitVec 16}, (f s).state.gxt = s.gxt →
      (s.submit code tag (answering f)).gxt.cacheLaw := fun hf => State.submit_untranslated h hf
  unfold State.submitInstr
  split
  · exact State.submit_cacheLaw h (State.takeSetup_cacheLaw _ _ _ h)
  · exact State.submit_untranslated h (State.takeScoring_gxt ..)
  · exact State.submit_untranslated h rfl
  · exact State.submit_untranslated h rfl
  · exact State.submit_untranslated h (State.takeStart_gxt ..)
  · exact State.submit_untranslated h (State.takeStop_gxt s)
  · exact State.submit_untranslated h (State.takeSeek_gxt ..)
  · exact State.submit_untranslated h rfl
  · exact State.submit_untranslated h rfl
  · exact State.submit_untranslated h (State.takeAssign_gxt ..)
  · exact staff (by simp)
  · exact staff (by simp)
  · exact staff (by simp)
  · exact staff rfl
  · exact staff (by simp)
  · exact State.submit_untranslated h (State.takeClearRoom_gxt s)
  · exact State.submit_cacheLaw h (Gxt.flush_cacheLaw s.gxt)
  all_goals exact h

theorem State.submitRecord_cacheLaw {s : State} (r : CommandRecord) (h : s.gxt.cacheLaw) :
    (s.submitRecord r).gxt.cacheLaw := by
  rcases State.submitRecord_cases r s with ⟨c, e⟩ | ⟨code, rc, e⟩ <;> rw [e]
  · exact State.submitInstr_cacheLaw c h
  · exact h

theorem State.commandSlotWrite_cacheLaw {s : State} (h : s.gxt.cacheLaw) : s.commandSlotWrite.gxt.cacheLaw := by
  unfold State.commandSlotWrite
  split
  · exact h
  · dsimp only
    split
    · exact State.submitRecord_cacheLaw (s := { s.dropTap with ctl := _ }) _ h
    · exact h

/-! ## Every command -/

theorem State.arbiterDecision_cacheLaw {s : State} (h : s.gxt.cacheLaw) : s.arbiterDecision.gxt.cacheLaw := by
  refine State.arbiterDecision_keeps (P := fun t : State => t.gxt.cacheLaw) ?_ ?_ ?_ ?_ s h
  · exact fun _ g => by simpa using g
  · exact fun _ g => by simpa using g
  · exact fun _ g => State.pump_cacheLaw g
  · exact fun _ g => by simpa using g

theorem State.resumeWork_cacheLaw {s : State} (h : s.gxt.cacheLaw) : s.resumeWork.gxt.cacheLaw := by
  refine State.resumeWork_keeps (P := fun t : State => t.gxt.cacheLaw) ?_ ?_ s h
  · exact fun _ c g => by simpa using State.submitInstr_cacheLaw c g
  · exact fun _ _ g => g

theorem exec_cacheLaw {i : Instr} {s t : State} (h : s.gxt.cacheLaw) (e : exec i s = .next t) : t.gxt.cacheLaw := by
  have closed : ∀ u : State, u.gxt.cacheLaw → u.flush.gxt.cacheLaw := fun u g => by simpa using g
  have played : ∀ u : State, u.gxt.cacheLaw → u.playTaps.gxt.cacheLaw := fun u g => by simpa using g
  have host : ∀ c : Instr, (s.hostWork c fun s => s.submitInstr c).flush.gxt.cacheLaw := fun c => by
    refine closed _ ?_
    unfold State.hostWork
    split
    · exact h
    · exact State.submitInstr_cacheLaw c h
  have ended : ∀ work : State → State, (work s).gxt.cacheLaw → (s.whenRoom work).flush.gxt.cacheLaw := by
    intro work g
    refine closed _ ?_
    rcases State.whenRoom_cases work s with e | ⟨e, -⟩ <;> rw [e]
    · exact g
    · exact h
  have same : ∀ work : State → State, (work s).gxt = s.gxt → (s.whenRoom work).flush.gxt.cacheLaw := fun work g =>
    ended work (g ▸ h)
  have tap : ∀ work : State → State, (work s).gxt = s.gxt → (s.whenRoom work).flush.playTaps.gxt.cacheLaw :=
    fun work g => played _ (same work g)
  unfold exec at e
  split at e
  case h_2 =>
    unfold execSystemRequest at e
    split at e
    · cases e
      exact closed _ (by simpa using h)
    · cases e
  all_goals cases e
  · obtain ⟨-, -, reset, -⟩ := resetMeetsTheLaws
    exact closed _ reset
  · exact played _ (State.resumeWork_cacheLaw (State.arbiterDecision_cacheLaw h))
  · exact closed _ (by simpa using h)
  · exact closed _ (State.displayBeat_cacheLaw _ h)
  · exact closed _ (by simpa using h)
  · exact closed _ (by simpa using h)
  · exact closed _ (by simpa using h)
  · exact closed _ (by simpa using h)
  · exact same _ (by simp)
  · exact same _ (by simp)
  · exact same _ (by simp)
  · exact same _ (by simp)
  · exact ended _ (State.pageWalkComplete_cacheLaw h)
  · exact same _ (State.glyphRowFetchComplete_gxt s)
  · exact played _ (ended _ (State.commandSlotWrite_cacheLaw h))
  iterate 17 exact host _
  · exact tap _ (by simp)
  · exact same _ (by simp)
  · exact same _ (by simp)
  · exact played _ (ended _ (State.pagetableWrite_cacheLaw h))
  iterate 7 exact tap _ (by simp)
  iterate 4 exact same _ (by simp)

/-- Settles O52. Only requests taken, walks ended, table writes and flushes touch the cache or a walk's page; each keeps
the law. -/
theorem cacheLawIsKept : Obligations.CacheLawIsKept := by
  intro s t h e
  unfold step at e
  split at e
  · cases e
    exact h
  · next c rest _ => exact exec_cacheLaw (s := { s with pending := rest }) h e

end Sys2Proof.Machine
end

