-- ==== Sys2Proof/Proofs/Translations.lean ====
section
/-! A translation request (R64, R68, R69): beyond the aperture, cached, walked or held; and the intake pumped round by
round. -/

namespace Sys2Proof.Machine

/-! ## Walks and waiters (R68) -/

/-- The waiters of one walk record. -/
def waitersOf : Option Walk → Nat
  | some w => w.waiters.length
  | none => 0

/-- The waiter places in use are those of the eight walk records. -/
theorem Gxt.waiters_eq (g : Gxt) : g.waiters = ((List.finRange 8).map (fun k => waitersOf (g.walks.get k))).sum := by
  have counted : ∀ (l : List (Option Walk)) (n : Nat),
      l.foldl (fun n w => n + waitersOf w) n = n + (l.map waitersOf).sum := fun l => by
    induction l with
    | nil => exact fun n => rfl
    | cons w rest ih => exact fun n => by rw [List.foldl_cons, ih, List.map_cons, List.sum_cons, Nat.add_assoc]
  have records : g.walks.toList = (List.finRange 8).map g.walks.get :=
    List.ext_getElem (by simp) fun i h h' => by simp [Vector.get_eq_getElem]
  have whole := counted g.walks.toList 0
  rw [Nat.zero_add] at whole
  exact whole.trans (by rw [records, List.map_map]; rfl)

/-- The FRESH walk of a page is the lowest record that looks for it. -/
theorem Gxt.freshWalk_first {g : Gxt} {page : Nat} {k : Fin 8} (hk : freshPage (g.walks.get k) = some page)
    (hlow : ∀ j, j < k → freshPage (g.walks.get j) ≠ some page) : g.freshWalk page = some k := by
  rw [Gxt.freshWalk_eq]
  exact vfind_first (decide_eq_true hk) fun j hj => decide_eq_false (hlow j hj)

theorem Gxt.freshWalk_eq_none {g : Gxt} {page : Nat} (h : ∀ k, freshPage (g.walks.get k) ≠ some page) :
    g.freshWalk page = none := by
  rw [Gxt.freshWalk_eq]
  exact vfind_eq_none fun k => decide_eq_false (h k)

theorem Gxt.freeWalk_first {g : Gxt} {k : Fin 8} (hk : g.walks.get k = none)
    (hlow : ∀ j, j < k → g.walks.get j ≠ none) : g.freeWalk = some k :=
  vfind_first (by simp [hk]) fun j hj => by simpa [Option.isSome_iff_ne_none] using hlow j hj

theorem Gxt.freeWalk_eq_none {g : Gxt} (h : ∀ k, g.walks.get k ≠ none) : g.freeWalk = none :=
  vfind_eq_none fun k => by simpa [Option.isSome_iff_ne_none] using h k

/-- Where each page is cached once, the mapping found is the page's own. -/
theorem Gxt.find_cached {g : Gxt} {e : CacheEntry} {page : Nat} (he : e ∈ g.cache) (hp : e.page = page)
    (once : (g.cache.map CacheEntry.page).Nodup) : g.cache.find? (fun x => x.page == page) = some e := by
  subst hp
  rcases hf : g.cache.find? (fun x => x.page == e.page) with _ | x
  · exact absurd (List.find?_eq_none.mp hf e he) (by simp)
  · have same : x.page = e.page := by simpa using List.find?_some hf
    exact hf.trans (congrArg some (List.inj_on_of_nodup_map once (List.mem_of_find?_eq_some hf) he same))

theorem Gxt.find_missed {g : Gxt} {page : Nat} (h : ∀ e ∈ g.cache, e.page ≠ page) :
    g.cache.find? (fun x => x.page == page) = none :=
  List.find?_eq_none.mpr fun e he => by simpa using h e he

/-- An answer touches own traffic alone: a live composition's row read is handed, an orphaned one's is not (R53,
R55). -/
theorem State.answerAddress_eq (q : GlyphReq) (phys : Nat) (s : State) :
    let u := s.answerAddress q phys
    u = { s with ptu := u.ptu } ∧ (s.ovc.composing q.comp = none → u.ptu = s.ptu) ∧
      ((s.ovc.composing q.comp).isSome = true → u.ptu.handed = s.ptu.handed ++
        requestsOf .glyphRow s.ptu.nextOp 0 (readsOver phys 32)) := by
  intro u
  rcases hc : s.ovc.composing q.comp with _ | k
  · have orphaned : u = s := State.answerAddress_orphaned hc phys
    exact ⟨by rw [orphaned], fun _ => by rw [orphaned], by simp⟩
  · have live := State.answerAddress_live (q := q) (s := s) (by rw [hc]; rfl) phys
    refine ⟨by rw [show u = _ from live], by simp, fun _ => ?_⟩
    rw [show u = _ from live]
    exact Ptu.startOp_handed ..

/-! ## A request, case by case (R64, R68, R69) -/

theorem State.takeGlyph_beyond {q : GlyphReq} {s : State} (h : s.prm.aperture ≤ q.va) :
    s.takeGlyph q = some (s.answerFailure q) := if_pos h

theorem State.takeGlyph_cached {q : GlyphReq} {s : State} {e : CacheEntry} (hi : q.va < s.prm.aperture)
    (hf : s.gxt.cache.find? (fun x => x.page == q.va / 4096) = some e) :
    s.takeGlyph q = some (State.answerAddress q (physOf e.phys q.va) { s with gxt := s.gxt.touch e }) := by
  simp only [State.takeGlyph, if_neg (Nat.not_le.mpr hi), hf]

theorem State.takeGlyph_joins {q : GlyphReq} {s : State} {k : Fin 8} (hi : q.va < s.prm.aperture)
    (hm : ∀ e ∈ s.gxt.cache, e.page ≠ q.va / 4096) (hw : s.gxt.waiters < 64)
    (hk : s.gxt.freshWalk (q.va / 4096) = some k) : s.takeGlyph q = some { s with gxt := s.gxt.join k q } := by
  simp only [State.takeGlyph, if_neg (Nat.not_le.mpr hi), Gxt.find_missed hm, if_pos hw, hk]

theorem State.takeGlyph_begins {q : GlyphReq} {s : State} {k : Fin 8} (hi : q.va < s.prm.aperture)
    (hm : ∀ e ∈ s.gxt.cache, e.page ≠ q.va / 4096) (hw : s.gxt.waiters < 64)
    (hn : s.gxt.freshWalk (q.va / 4096) = none) (hk : s.gxt.freeWalk = some k) :
    s.takeGlyph q = some (s.beginWalk k (q.va / 4096) q) := by
  simp only [State.takeGlyph, if_neg (Nat.not_le.mpr hi), Gxt.find_missed hm, if_pos hw, hn, hk]

theorem State.takeGlyph_held {q : GlyphReq} {s : State} (hi : q.va < s.prm.aperture)
    (hm : ∀ e ∈ s.gxt.cache, e.page ≠ q.va / 4096)
    (h : 64 ≤ s.gxt.waiters ∨ (s.gxt.freshWalk (q.va / 4096) = none ∧ s.gxt.freeWalk = none)) :
    s.takeGlyph q = none := by
  simp only [State.takeGlyph, if_neg (Nat.not_le.mpr hi), Gxt.find_missed hm]
  rcases h with full | ⟨unwalked, busy⟩
  · exact if_neg (Nat.not_lt.mpr full)
  · simp only [unwalked, busy, ite_self]

/-- A request taken leaves what is at the intake and behind it. -/
theorem State.takeGlyph_intake {q : GlyphReq} {s t : State} (h : s.takeGlyph q = some t) :
    t.gxt.intake = s.gxt.intake ∧ t.ovc.waiting = s.ovc.waiting := by
  unfold State.takeGlyph at h
  dsimp only at h
  split at h
  · cases h
    rw [State.answerFailure, State.endRow_ovc]
    simp
  · split at h
    · cases h
      simp [Gxt.touch]
    · split at h
      · split at h
        · cases h
          exact ⟨rfl, rfl⟩
        · split at h
          · cases h
            exact ⟨rfl, rfl⟩
          · cases h
      · cases h

/-! ## The intake pumped (R69) -/

theorem State.retakeIntake_empty {s : State} (h : s.gxt.intake = none) : s.retakeIntake = s := by
  unfold State.retakeIntake
  rcases State.whenRoom_cases _ s with e | ⟨e, -⟩ <;> rw [e]
  simp only [h]

theorem State.retakeIntake_stays {s : State} {q : GlyphReq} (h : s.gxt.intake = some q)
    (ht : State.takeGlyph q { s with gxt := { s.gxt with intake := none } } = none) : s.retakeIntake = s := by
  unfold State.retakeIntake
  rcases State.whenRoom_cases _ s with e | ⟨e, -⟩ <;> rw [e]
  simp only [h, ht, Option.getD_none]

theorem State.retakeIntake_taken {s u : State} {q : GlyphReq} (h : s.gxt.intake = some q)
    (ht : State.takeGlyph q { s with gxt := { s.gxt with intake := none } } = some u) (hl : s.ptu.lineFull = false) :
    s.retakeIntake = u := by
  unfold State.retakeIntake
  rw [State.whenRoom_room _ hl]
  simp only [h, ht, Option.getD_some]

/-- While the request at the intake cannot be taken, none behind it is. -/
theorem State.pump_stays {s : State} {q : GlyphReq} (h : s.gxt.intake = some q)
    (ht : State.takeGlyph q { s with gxt := { s.gxt with intake := none } } = none) : s.pump = s := by
  have round : s.retakeIntake.feedIntake = s := by
    rw [State.retakeIntake_stays h ht]
    simp only [State.feedIntake, h]
  have rounds : ∀ n, s.pumpGlyphs n = s := fun n => by
    induction n with
    | zero => rfl
    | succ n ih => rw [State.pumpGlyphs, round, ih]
  exact rounds _

/-- The next request of the compositor is brought to an empty intake. -/
theorem State.pump_feeds {s : State} {q : GlyphReq} {rest : List GlyphReq} (h : s.gxt.intake = none)
    (hw : s.ovc.waiting = q :: rest) : s.pump = State.pump { s with
      gxt := { s.gxt with intake := some q }, ovc := { s.ovc with waiting := rest } } := by
  have fed : s.feedIntake = { s with
      gxt := { s.gxt with intake := some q }, ovc := { s.ovc with waiting := rest } } := by
    simp only [State.feedIntake, h, hw]
  have round : s.pump = (s.retakeIntake.feedIntake).pumpGlyphs (rest.length + 2) := by
    rw [State.pump, hw]
    rfl
  rw [round, State.retakeIntake_empty h, fed]
  rfl

/-- The request at the intake taken, the round that follows it is the next one's first. -/
theorem State.pump_takes {s u : State} {q : GlyphReq} (h : s.gxt.intake = some q)
    (ht : State.takeGlyph q { s with gxt := { s.gxt with intake := none } } = some u) (hl : s.ptu.lineFull = false) :
    s.pump = u.pump := by
  obtain ⟨empty, behind⟩ := State.takeGlyph_intake ht
  have first : s.pump = (s.retakeIntake.feedIntake).pumpGlyphs (s.ovc.waiting.length + 1) := rfl
  have next : u.pump = (u.retakeIntake.feedIntake).pumpGlyphs (u.ovc.waiting.length + 1) := rfl
  rw [first, next, State.retakeIntake_taken h ht hl, State.retakeIntake_empty empty, behind]

/-- Settles O33. Each outcome is one branch of the taking; a round of the intake that takes nothing leaves the state to
the next round. -/
theorem translationsAreTakenInOrder : Obligations.TranslationsAreTakenInOrder := by
  unfold Obligations.TranslationsAreTakenInOrder
  refine ⟨fun q s => ?_, fun s => ⟨State.pump_idle, fun q => State.pump_stays, fun q rest => State.pump_feeds,
    fun q u => State.pump_takes⟩⟩
  intro page inside missed walked waiters
  have looks : ∀ j, walked j ↔ freshPage (s.gxt.walks.get j) = some page := fun j => freshPage_iff.symm
  have places : s.gxt.waiters = waiters := s.gxt.waiters_eq
  have unwalked : (∀ j, ¬ walked j) → s.gxt.freshWalk page = none := fun h =>
    Gxt.freshWalk_eq_none fun j hj => h j ((looks j).mpr hj)
  refine ⟨fun h => State.takeGlyph_beyond (Nat.not_lt.mp h), fun e hi he hp once => ?_,
    fun k w hi hm hw hk hlow hwalk => ?_, fun k hi hm hw hn hk hlow => ?_, fun hi hm h => ?_⟩
  · obtain ⟨traffic, orphaned, live⟩ := State.answerAddress_eq q (physOf e.phys q.va)
      { s with gxt := s.gxt.touch e }
    refine ⟨_, State.takeGlyph_cached hi (Gxt.find_cached he hp once),
      (congrArg State.gxt traffic).trans ?_, traffic.trans ?_, orphaned, live⟩
    · rw [← hp]
      rfl
    · rw [traffic]
  · rw [State.takeGlyph_joins hi hm (places ▸ hw) (Gxt.freshWalk_first ((looks k).mp hk) fun j hj g =>
      hlow j hj ((looks j).mpr g)), Gxt.join, hwalk]
    rfl
  · exact ⟨_, State.takeGlyph_begins hi hm (places ▸ hw) (unwalked hn) (Gxt.freeWalk_first hk hlow), rfl, rfl,
      Ptu.startOp_handed ..⟩
  · refine State.takeGlyph_held hi hm (h.imp (fun full => places ▸ full) fun ⟨hn, busy⟩ => ?_)
    exact ⟨unwalked hn, Gxt.freeWalk_eq_none busy⟩

end Sys2Proof.Machine
end

