-- ==== Sys2Proof/Proofs/SetupChecks.lean ====
section
/-! The checks of a commit (R162, R66) as ranges and disjoint windows, and what a record that passes guarantees; the words
of each section (R188). -/

namespace Sys2Proof.Machine

/-! ## Powers of two and windows (R162) -/

theorem powerOfTwo_iff {lo span n : Nat} : powerOfTwo lo span n = true ↔ ∃ k, lo ≤ k ∧ k ≤ lo + span ∧ n = 2 ^ k := by
  simp only [powerOfTwo, List.any_eq_true, List.mem_range, beq_iff_eq]
  constructor
  · rintro ⟨i, hi, rfl⟩
    exact ⟨lo + i, by omega, by omega, rfl⟩
  · rintro ⟨k, hl, hu, rfl⟩
    exact ⟨k - lo, by omega, by rw [Nat.add_sub_cancel' hl]⟩

theorem WindowParam.ok_iff {w : WindowParam} :
    w.ok = true ↔ (∃ k, 12 ≤ k ∧ k ≤ 28 ∧ w.size = 2 ^ k) ∧ w.base % w.size = 0 := by
  rw [WindowParam.ok, Bool.and_eq_true, powerOfTwo_iff, beq_iff_eq]

theorem WindowParam.size_pos {w : WindowParam} (h : w.ok = true) : 0 < w.size := by
  obtain ⟨⟨k, -, -, size⟩, -⟩ := WindowParam.ok_iff.mp h
  exact size ▸ Nat.two_pow_pos k

theorem Window.holds_iff {w : Window} {a : Nat} : w.holds a = true ↔ w.base ≤ a ∧ a < w.base + w.size := by
  simp [Window.holds]

/-- Two ranges that are not empty share no byte exactly when one ends before the other begins. -/
theorem ranges_apart {b c m n : Nat} (hm : 0 < m) (hn : 0 < n) :
    b + m ≤ c ∨ c + n ≤ b ↔ ∀ a, ¬ ((b ≤ a ∧ a < b + m) ∧ (c ≤ a ∧ a < c + n)) := by
  constructor
  · omega
  · intro h
    have := h (max b c)
    omega

theorem WindowParam.apart_iff {v w : WindowParam} (hv : 0 < v.size) (hw : 0 < w.size) :
    v.apart w = true ↔ ∀ a, ¬ (v.window.holds a = true ∧ w.window.holds a = true) := by
  simp only [WindowParam.apart, Bool.or_eq_true, decide_eq_true_eq, Window.holds_iff]
  exact ranges_apart hv hw

theorem allApart_iff {l : List WindowParam} : allApart l = true ↔ l.Pairwise (fun v w => v.apart w = true) := by
  induction l with
  | nil => simp [allApart]
  | cons w rest ih => rw [allApart, Bool.and_eq_true, List.all_eq_true, ih, List.pairwise_cons]

/-- Windows none of which is empty are apart exactly when no byte lies in two of them. -/
theorem allApart_holds {l : List WindowParam} (h : ∀ w ∈ l, 0 < w.size) : allApart l = true ↔
    l.Pairwise (fun v w => ∀ a, ¬ (v.window.holds a = true ∧ w.window.holds a = true)) := by
  rw [allApart_iff]
  exact List.Pairwise.iff_of_mem fun hv hw => WindowParam.apart_iff (h _ hv) (h _ hw)

/-! ## The ranges of the tables -/

theorem Setup.pathOk_iff {control : Nat} {p : Setup} : p.pathOk control = true ↔
    (∀ w ∈ p.windowList, (∃ k, 12 ≤ k ∧ k ≤ 28 ∧ w.size = 2 ^ k) ∧ w.base % w.size = 0) ∧
      ((⟨control, 4096⟩ : WindowParam) :: p.windowList).Pairwise
        (fun v w => ∀ a, ¬ (v.window.holds a = true ∧ w.window.holds a = true)) ∧
      (p.controlTag ≤ 15 ∧ p.playbackTag ≤ 15 ∧ p.displayTag ≤ 15 ∧ p.captureTag ≤ 15 ∧ p.radioTag ≤ 15) ∧
      (1 ≤ p.rotateN ∧ p.rotateN ≤ 8 ∧ 2 ≤ p.ownLimit ∧ p.ownLimit ≤ 16 ∧ p.ownBase < p.ownLimit ∧ p.retryMax ≤ 3) := by
  simp only [← WindowParam.ok_iff]
  simp only [Setup.pathOk, Bool.and_eq_true, List.all_eq_true, decide_eq_true_eq, and_assoc]
  refine and_congr_right fun sized => and_congr_left' (allApart_holds fun w hw => ?_)
  rcases List.mem_cons.mp hw with rfl | hw
  · exact Nat.succ_pos _
  · exact WindowParam.size_pos (sized w hw)

theorem Setup.unitsOk_iff {p : Setup} : p.unitsOk = true ↔ 1 ≤ p.channels ∧ p.channels ≤ 4 ∧
    (∃ k, 20 ≤ k ∧ k ≤ 27 ∧ p.aperture = 2 ^ k) ∧ p.aperture / 1024 ≤ p.wPagetable.size := by
  simp only [Setup.unitsOk, Bool.and_eq_true, decide_eq_true_eq, powerOfTwo_iff, and_assoc]

theorem Setup.frameOk_iff {p : Setup} : p.frameOk = true ↔
    (1 ≤ p.width ∧ p.width ≤ 1920 ∧ 1 ≤ p.height ∧ p.height ≤ 1080 ∧ p.stride % 16 = 0 ∧ 4 * p.width ≤ p.stride ∧
      p.stride * p.height ≤ p.wFrame.size) ∧
    (1 ≤ p.bandW ∧ p.bandX + p.bandW ≤ p.width ∧ 2 ≤ p.bandRows ∧ p.bandRows ≤ 4 ∧
      p.bandY + 48 * p.bandRows ≤ p.height) := by
  simp only [Setup.frameOk, Bool.and_eq_true, decide_eq_true_eq, beq_iff_eq, and_assoc]

/-- Whether a pixel lies in the band rectangle. -/
def Setup.inBand (p : Setup) (x y : Nat) : Prop :=
  p.bandX ≤ x ∧ x < p.bandX + p.bandW ∧ p.bandY ≤ y ∧ y < p.bandY + 48 * p.bandRows

/-- Whether a pixel lies in the strip rectangle. -/
def Setup.inStrip (p : Setup) (x y : Nat) : Prop :=
  p.stripX ≤ x ∧ x < p.stripX + p.stripW ∧ p.stripY ≤ y ∧ y < p.stripY + 48

/-- Rectangles that are not empty share no pixel exactly when they are apart in columns or in rows (Table 3-1). -/
theorem Setup.stripApart_iff {p : Setup} (hw : 1 ≤ p.bandW) (hr : 2 ≤ p.bandRows) (hs : 1 ≤ p.stripW) :
    p.stripApart = true ↔ ∀ x y, ¬ (p.inBand x y ∧ p.inStrip x y) := by
  simp only [Setup.stripApart, Bool.or_eq_true, decide_eq_true_eq, Setup.inBand, Setup.inStrip]
  constructor
  · omega
  · intro h
    have := h (max p.bandX p.stripX) (max p.bandY p.stripY)
    omega

/-- The strip rectangle's conditions bind only while the strip is enabled. -/
theorem Setup.layersOk_iff {p : Setup} (hw : 1 ≤ p.bandW) (hr : 2 ≤ p.bandRows) : p.layersOk = true ↔
    (p.stripEnable = true → 1 ≤ p.stripW ∧ p.stripX + p.stripW ≤ p.width ∧ p.stripY + 48 ≤ p.height ∧
      ∀ x y, ¬ (p.inBand x y ∧ p.inStrip x y)) ∧
    (p.shade ≤ 256 ∧ p.digitBase ≤ 65523 ∧ 16 ≤ p.stripAdvance ∧ p.stripAdvance ≤ 64) := by
  have strip : (1 ≤ p.stripW ∧ p.stripX + p.stripW ≤ p.width ∧ p.stripY + 48 ≤ p.height ∧ p.stripApart = true) ↔ _ :=
    and_congr_right fun hs => and_congr_right fun _ => and_congr_right fun _ => Setup.stripApart_iff hw hr hs
  rw [← strip]
  simp only [Setup.layersOk, Bool.and_eq_true, Bool.or_eq_true, Bool.not_eq_true', decide_eq_true_eq, and_assoc]
  cases p.stripEnable <;> simp

theorem Setup.timesOk_iff {p : Setup} : p.timesOk = true ↔ p.scrollMs ≤ 2000 ∧ 200 ≤ p.lookaheadMs ∧
    p.lookaheadMs ≤ 5000 ∧ p.bannerFrames ≤ 1023 ∧ p.stageLeadMs ≤ 120000 ∧ 1 ≤ p.catalogSize ∧
    p.catalogSize ≤ 16777215 ∧ 1 ≤ p.limit ∧ p.limit ≤ 8 := by
  simp only [Setup.timesOk, Bool.and_eq_true, decide_eq_true_eq, and_assoc]

theorem Setup.ok_iff {control : Nat} {p : Setup} : p.ok control = true ↔
    p.pathOk control = true ∧ p.unitsOk = true ∧ p.frameOk = true ∧ p.layersOk = true ∧ p.timesOk = true := by
  simp only [Setup.ok, Bool.and_eq_true, and_assoc]

/-! ## What a record that passes guarantees -/

/-- Of elements no two of which meet a condition together, at most one meets it. -/
theorem length_filter_le_one {α : Type} {p : α → Bool} {l : List α}
    (h : l.Pairwise (fun v w => ¬ (p v = true ∧ p w = true))) : (l.filter p).length ≤ 1 := by
  have apart := h.filter p
  have holds : ∀ v ∈ l.filter p, p v = true := fun v hv => (List.mem_filter.mp hv).2
  match l.filter p, apart, holds with
  | [], _, _ => simp
  | [v], _, _ => simp
  | v :: w :: rest, apart, holds =>
    exact absurd ⟨holds v (by simp), holds w (by simp)⟩ (List.rel_of_pairwise_cons apart (by simp))

/-- No byte lies in two of the nine windows. -/
theorem Setup.windows_apart {control : Nat} {p : Setup} (h : p.ok control = true) (a : Nat) :
    (((⟨control, 4096⟩ : Window) :: p.windowList.map WindowParam.window).filter (fun w => w.holds a)).length ≤ 1 := by
  obtain ⟨path, -⟩ := Setup.ok_iff.mp h
  obtain ⟨-, apart, -⟩ := Setup.pathOk_iff.mp path
  have nine : (⟨control, 4096⟩ : Window) :: p.windowList.map WindowParam.window =
      ((⟨control, 4096⟩ : WindowParam) :: p.windowList).map WindowParam.window := rfl
  rw [nine]
  exact length_filter_le_one (List.pairwise_map.mpr (apart.imp fun shared => shared a))

/-- The page table holds the entry of every page of the aperture (R66). -/
theorem Setup.pagetable_room {control : Nat} {p : Setup} (h : p.ok control = true) {page : Nat}
    (hp : page < p.aperture / 4096) : 4 * page + 4 ≤ p.wPagetable.size := by
  obtain ⟨-, units, -⟩ := Setup.ok_iff.mp h
  obtain ⟨-, -, -, room⟩ := Setup.unitsOk_iff.mp units
  omega

/-! ## The words of a section (R188) -/

theorem wordOn_eq (w : Word) : wordOn w = decide (w.toNat ≠ 0) := by
  by_cases h : w = 0
  · subst h
    rfl
  · have positive : w.toNat ≠ 0 := fun e => h (BitVec.eq_of_toNat_eq e)
    exact (bne_iff_ne.mpr h).trans (decide_eq_true positive).symm

/-- Settles O13. Two ranges or rectangles that are not empty are apart exactly when they share nothing; a size that is a
power of two and a band of some columns and rows are not empty. -/
theorem checkedSetupsMeetTheTables : Obligations.CheckedSetupsMeetTheTables := by
  unfold Obligations.CheckedSetupsMeetTheTables
  refine ⟨fun control p => ?_, fun control p h => ⟨Setup.windows_apart h, fun page => Setup.pagetable_room h⟩,
    fun p a => ?_⟩
  · intro inBand inStrip
    rw [Setup.ok_iff, Setup.pathOk_iff, Setup.unitsOk_iff, Setup.frameOk_iff, Setup.timesOk_iff]
    constructor
    · rintro ⟨⟨sized, apart, tags, limits⟩, units, ⟨frame, band⟩, layers, times⟩
      obtain ⟨columns, inside, rows, heights⟩ := band
      obtain ⟨strip, shade⟩ := (Setup.layersOk_iff columns rows).mp layers
      exact ⟨sized, apart, tags, limits, units, frame, ⟨columns, inside, rows, heights⟩, strip, shade, times⟩
    · rintro ⟨sized, apart, tags, limits, units, frame, band, strip, shade, times⟩
      obtain ⟨columns, inside, rows, heights⟩ := band
      exact ⟨⟨sized, apart, tags, limits⟩, units, ⟨frame, columns, inside, rows, heights⟩,
        (Setup.layersOk_iff columns rows).mpr ⟨strip, shade⟩, times⟩
  · intro n colour
    refine ⟨rfl, rfl, rfl, ?_, rfl, ?_⟩
    · simp only [Setup.copySection, wordOn_eq]
      rfl
    · simp only [Setup.copySection, wordOn_eq]
      rfl

end Sys2Proof.Machine
end

