-- ==== Sys2Proof/Proofs/RoomCommands.lean ====
section
/-! OPEN, CLOSE, CLEAR_ROOM and FLUSH_GLYPHS decided: what each changes and what it leaves (R74, R127, R144, R183). -/

namespace Sys2Proof.Machine

/-! ## What replies leave -/

/-- A reply issued is the handset's last reply; of the handsets' records it changes only that handset's last reply and
lost mark. -/
theorem State.issueReply_handsets (h : Fin 16) (b : ReplyBody) (s : State) :
    (∀ k, h ≠ k → (s.issueReply h b false).rqu.handsets.get k = s.rqu.handsets.get k) ∧
      ((s.issueReply h b false).rqu.handsets.get h).slot = (s.rqu.handsets.get h).slot ∧
      ((s.issueReply h b false).rqu.handsets.get h).lastSeq = (s.rqu.handsets.get h).lastSeq ∧
      ∃ r, ((s.issueReply h b false).rqu.handsets.get h).lastReply = some r ∧ r.handset = h ∧ r.body = b := by
  unfold State.issueReply State.placeReply
  dsimp only
  split
  all_goals
    refine ⟨fun k ne => ?_, ?_, ?_, ⟨h, (s.rqu.handsets.get h).lastSeq.getD Config.unheardSequence, b⟩, ?_, rfl, rfl⟩
    · rw [vset_get_ne _ _ ne, vset_get_ne _ _ ne]
    all_goals simp

theorem State.issueReply_imageOwed (h : Fin 16) (b : ReplyBody) (s : State) :
    (s.issueReply h b false).rqu.imageOwed = s.rqu.imageOwed := by
  unfold State.issueReply State.placeReply
  dsimp only
  split <;> rfl

/-! ## CLOSE's visits (R144) -/

/-- What CLOSE makes of a handset's record: its slot emptied, and REFUSED(CLOSED) its last reply where the slot was
occupied. -/
def HandsetRecord.closedAs (h : Fin 16) (x y : HandsetRecord) : Prop :=
  y.slot = none ∧ y.lastSeq = x.lastSeq ∧ (x.slot = none → y = x) ∧
    (x.slot.isSome = true → ∃ r, y.lastReply = some r ∧ r.handset = h ∧ r.body = .refused .closed)

/-- The room closed, its pending slots not yet visited. -/
def State.doorShut (s : State) : State :=
  { s with rqu := { s.rqu with closed := true, imageOwed := s.rqu.imageOwed || !s.rqu.closed } }

theorem State.closeVisit_empty {s : State} {h : Fin 16} (hs : (s.rqu.handsets.get h).slot = none) :
    s.closeVisit h = s := by
  simp only [State.closeVisit, hs]

theorem State.closeVisit_occupied {s : State} {h : Fin 16} {req : HeldRequest}
    (hs : (s.rqu.handsets.get h).slot = some req) :
    s.closeVisit h = (s.setSlot h none).issueReply h (.refused .closed) false := by
  simp only [State.closeVisit, hs]

/-- A visit changes the record of its handset alone. -/
theorem State.closeVisit_handsets (s : State) (h : Fin 16) :
    (∀ k, h ≠ k → (s.closeVisit h).rqu.handsets.get k = s.rqu.handsets.get k) ∧
      HandsetRecord.closedAs h (s.rqu.handsets.get h) ((s.closeVisit h).rqu.handsets.get h) := by
  rcases hs : (s.rqu.handsets.get h).slot with _ | req
  · rw [State.closeVisit_empty hs]
    exact ⟨fun _ _ => rfl, hs, rfl, fun _ => rfl, by simp [hs]⟩
  · rw [State.closeVisit_occupied hs]
    obtain ⟨others, slot, lastSeq, reply⟩ := State.issueReply_handsets h (.refused .closed) (s.setSlot h none)
    refine ⟨fun k ne => (others k ne).trans (vset_get_ne _ _ ne), slot.trans ?_, lastSeq.trans ?_, ?_, fun _ => reply⟩
    · simp [State.setSlot]
    · simp [State.setSlot]
    · simp [hs]

/-- Visits to distinct handsets close the records of those handsets. -/
theorem State.closeVisit_foldl_handsets {l : List (Fin 16)} (hl : l.Nodup) (s : State) (k : Fin 16) :
    (k ∉ l → (l.foldl State.closeVisit s).rqu.handsets.get k = s.rqu.handsets.get k) ∧
      (k ∈ l → HandsetRecord.closedAs k (s.rqu.handsets.get k) ((l.foldl State.closeVisit s).rqu.handsets.get k)) := by
  induction l generalizing s with
  | nil => exact ⟨fun _ => rfl, fun hk => absurd hk List.not_mem_nil⟩
  | cons h rest ih =>
    obtain ⟨new, hl⟩ := List.nodup_cons.mp hl
    obtain ⟨unvisited, visited⟩ := ih hl (s.closeVisit h)
    obtain ⟨others, own⟩ := State.closeVisit_handsets s h
    rw [List.foldl_cons]
    refine ⟨fun hk => ?_, fun hk => ?_⟩
    · obtain ⟨ne, hk⟩ := List.ne_and_not_mem_of_not_mem_cons hk
      rw [unvisited hk, others k (Ne.symm ne)]
    · rcases List.mem_cons.mp hk with rfl | hk
      · rw [unvisited new]
        exact own
      · have := visited hk
        rwa [others k fun e => new (e ▸ hk)] at this

/-- A visit leaves the room's state, the queue, the history and the last number, and an image owed stays owed. -/
theorem State.closeVisit_room (s : State) (h : Fin 16) :
    (s.closeVisit h).rqu.closed = s.rqu.closed ∧ (s.closeVisit h).rqu.queue = s.rqu.queue ∧
      (s.closeVisit h).rqu.history = s.rqu.history ∧ (s.closeVisit h).rqu.lastNumber = s.rqu.lastNumber ∧
      (s.rqu.imageOwed = true → (s.closeVisit h).rqu.imageOwed = true) := by
  rcases hs : (s.rqu.handsets.get h).slot with _ | req
  · rw [State.closeVisit_empty hs]
    exact ⟨rfl, rfl, rfl, rfl, id⟩
  · rw [State.closeVisit_occupied hs, State.issueReply_imageOwed]
    simp [State.setSlot]

theorem State.closeVisit_foldl_room (l : List (Fin 16)) (s : State) :
    (l.foldl State.closeVisit s).rqu.closed = s.rqu.closed ∧ (l.foldl State.closeVisit s).rqu.queue = s.rqu.queue ∧
      (l.foldl State.closeVisit s).rqu.history = s.rqu.history ∧
      (l.foldl State.closeVisit s).rqu.lastNumber = s.rqu.lastNumber ∧
      (s.rqu.imageOwed = true → (l.foldl State.closeVisit s).rqu.imageOwed = true) := by
  induction l generalizing s with
  | nil => exact ⟨rfl, rfl, rfl, rfl, id⟩
  | cons h rest ih =>
    obtain ⟨closed, queue, history, number, owed⟩ := State.closeVisit_room s h
    obtain ⟨closed', queue', history', number', owed'⟩ := ih (s.closeVisit h)
    exact ⟨closed'.trans closed, queue'.trans queue, history'.trans history, number'.trans number, owed' ∘ owed⟩

/-- A state whose other blocks are those of `s` is `s` with its own Request Queue Unit and Path Unit. -/
theorem State.eq_of_blocks {s u : State} (h : u.pending = s.pending ∧ u.scu = s.scu ∧ u.lsq = s.lsq ∧ u.ovc = s.ovc ∧
    u.gxt = s.gxt ∧ u.vin = s.vin ∧ u.pje = s.pje ∧ u.scr = s.scr ∧ u.ctl = s.ctl) :
    u = { s with rqu := u.rqu, ptu := u.ptu } := by
  obtain ⟨pending, scu, lsq, ovc, gxt, vin, pje, scr, ctl⟩ := h
  rw [← pending, ← scu, ← lsq, ← ovc, ← gxt, ← vin, ← pje, ← scr, ← ctl]

/-! ## CLEAR_ROOM (R127, R183) -/

/-- In IDLE, a command of any code but SETUP's reaches its owner (R179). -/
theorem State.submit_idle {s : State} {code tag : BitVec 16} {f : State → CommandEnd} {a : Answer} (hs : s.ready)
    (hi : s.scu.state = .idle) (hf : f s = .answered a) :
    s.submit code tag (some f) = a.state.result code tag a.rc a.values := by
  obtain ⟨free, setup, -⟩ := hs
  have isSet : s.ctl.setup.isNone = false := by simpa using setup
  simp [State.submit, free, isSet, hi, hf]

/-- What CLEAR_ROOM empties in the Request Queue Unit and the Control Unit; QUEUE_CHANGED for a queue that was not
empty. -/
theorem State.clearQueue_eq (s : State) :
    s.clearQueue = { s with rqu := s.clearQueue.rqu, ctl := s.clearQueue.ctl } ∧
      s.clearQueue.rqu = { s.rqu with
        queue := [], history := [], handsets := Vector.replicate 16 {}, arrival := 0, lastDrained := none
        closed := false, imageOwed := true } ∧
      (s.rqu.queue = [] → s.clearQueue.ctl = { s.ctl with staged := none }) ∧
      (s.rqu.queue ≠ [] → s.clearQueue.ctl = Ctl.raise .queueChanged { s.ctl with staged := none }) := by
  by_cases h : s.rqu.queue = []
  · rw [State.clearQueue, if_pos h]
    exact ⟨rfl, rfl, fun _ => rfl, fun ne => absurd h ne⟩
  · rw [State.clearQueue, if_neg h]
    exact ⟨rfl, rfl, fun e => absurd e h, fun _ => rfl⟩

/-- Settles O21. CLOSE's visits are to distinct handsets, each changing its own record; the other three commands are one
update each. -/
theorem roomAndGlyphCommands : Obligations.RoomAndGlyphCommands := by
  unfold Obligations.RoomAndGlyphCommands
  refine ⟨fun tag s hs => ⟨?_, ?_⟩, fun tag s hs => ⟨fun hi => ?_, ?_⟩⟩
  · exact exec_answered (c := .openRoom tag) (f := fun s => .answered s.takeOpen) hs rfl rfl rfl
  · have decided := exec_answered (c := .closeRoom tag) (f := fun s => .answered s.takeClose) hs rfl rfl rfl
    have visits : s.takeClose = ⟨(List.finRange 16).foldl State.closeVisit s.doorShut, .ok, []⟩ := by
      rw [State.takeClose, State.doorShut]
    rw [visits] at decided
    generalize hu : (List.finRange 16).foldl State.closeVisit s.doorShut = u at decided
    obtain ⟨pending, scu, lsq, ovc, gxt, vin, pje, scr, ctl, links⟩ := hu ▸
      State.closeVisit_foldl_frame (List.finRange 16) s.doorShut
    obtain ⟨closed, queue, history, number, owed⟩ := hu ▸
      State.closeVisit_foldl_room (List.finRange 16) s.doorShut
    refine ⟨u, decided, State.eq_of_blocks ⟨pending, scu, lsq, ovc, gxt, vin, pje, scr, ctl⟩, links, closed, queue,
      history, number, fun opened => owed (by simp [State.doorShut, opened]), fun h => ?_, fun empty => ?_⟩
    · exact hu ▸ (State.closeVisit_foldl_handsets (List.nodup_finRange 16) s.doorShut h).2 (List.mem_finRange h)
    · rw [← hu, List.foldl_fixed' fun h => State.closeVisit_empty (s := s.doorShut) (empty h)]
      rfl
  · obtain ⟨frame, rqu, quiet, raised⟩ := State.clearQueue_eq { s with scr := s.scr.clear }
    have decided := State.submit_idle (code := 0x10) (tag := tag) (f := State.takeClearRoom) hs hi rfl
    refine ⟨State.clearQueue { s with scr := s.scr.clear }, ?_, frame.trans ?_, rqu, ?_, quiet, raised⟩
    · rw [exec_hostCommand (c := .clearRoom tag) rfl hs.2.2]
      exact congrArg (fun t : State => Host.Outcome.next t.flush) decided
    · rw [frame]
    · rw [frame]
      rfl
  · refine ⟨{ s with gxt := s.gxt.flush }, exec_answered (c := .flushGlyphs tag) (f := State.takeFlush) hs rfl rfl rfl,
      rfl, rfl, rfl, rfl, fun k => map_get ..⟩

end Sys2Proof.Machine
end

