-- ==== Sys2Proof/Proofs/SamplesAndBlocks.lean ====
section
/-! Samples and blocks of the Voice Intake: decimation by four and the half that takes the result (R81 to R83), the
block that the 256th completes (R83 to R86), and its take by an idle engine (R94). -/

namespace Sys2Proof.Machine

/-! ## Elements replaced and found -/

theorem vset_vset {α : Type} {n : Nat} (v : Vector α n) (i : Fin n) (x y : α) : vset (vset v i x) i y = vset v i y :=
  Vector.set_set ..

theorem vset_comm {α : Type} {n : Nat} (v : Vector α n) {i j : Fin n} (h : i ≠ j) (x y : α) :
    vset (vset v i x) j y = vset (vset v j y) i x :=
  Vector.set_comm x y fun e => h (Fin.ext e)

theorem vfind_isSome {α : Type} {n : Nat} {v : Vector α n} {p : α → Bool} :
    (vfind v p).isSome = true ↔ ∃ i, p (v.get i) = true := by
  simp [vfind]

theorem otherHalf_eq {k o : Fin 2} (h : k ≠ o) : otherHalf k = o := by
  revert k o
  decide

/-! ## The block in hand taken (R94) -/

/-- The queue's head in hand, its half in analysis. -/
def State.blockTaken (e : BlockEntry) (rest : List BlockEntry) (s : State) : State :=
  let c := s.vin.channels.get e.channel
  { s with
    vin := { s.vin.setChannel e.channel (c.setHalf e.half { c.halves.get e.half with state := .analysing }) with
      queue := rest }
    pje := { s.pje with block := some ⟨e, s.pje.prm, .measuring⟩ } }

theorem State.takeBlock_busy {s : State} (h : s.pje.block.isSome = true) : s.takeBlock = s := by
  obtain ⟨b, hb⟩ := Option.isSome_iff_exists.mp h
  simp [State.takeBlock, hb]

theorem State.takeBlock_empty {s : State} (h : s.vin.queue = []) : s.takeBlock = s := by
  simp [State.takeBlock, h]

theorem State.takeBlock_idle {s : State} {e : BlockEntry} {rest : List BlockEntry} (hb : s.pje.block = none)
    (hq : s.vin.queue = e :: rest) : s.takeBlock = (s.blockTaken e rest).vinDrain := by
  simp only [State.takeBlock, hb, hq]
  rfl

/-- Out of DRAIN the Voice Intake makes no report (R89). -/
theorem State.vinDrain_playing {s : State} (h : s.scu.state = .playing) : s.vinDrain = s := by
  obtain ⟨-, none, -, -⟩ := s.drainReports
  exact none (.inl fun ⟨hf, _, _⟩ => by simp [h] at hf)

/-- In PLAYING a take hands nothing. -/
theorem State.takeBlock_ptu {s : State} (h : s.scu.state = .playing) : s.takeBlock.ptu = s.ptu := by
  rcases hb : s.pje.block with _ | b
  · rcases hq : s.vin.queue with _ | ⟨e, rest⟩
    · rw [State.takeBlock_empty hq]
    · rw [State.takeBlock_idle hb hq, State.vinDrain_playing (s := s.blockTaken e rest) h]
      rfl
  · rw [State.takeBlock_busy (by rw [hb]; rfl)]

/-! ## Blocks that complete (R83 to R86) -/

/-- A half whose block has completed. -/
def Channel.queueHalf (k : Fin 2) (c : Channel) : Channel :=
  c.setHalf k { c.halves.get k with state := .queued }

/-- A completed block behind the queue, its channel left as `c`. -/
def State.blockJoined (ch : Fin 4) (c : Channel) (e : BlockEntry) (s : State) : State :=
  { s with vin := { s.vin.setChannel ch c with queue := s.vin.queue ++ [e] } }

section
variable {s : State} {ch : Fin 4} {k o : Fin 2}

theorem State.completeBlock_unplayed (h : s.scu.state ≠ .playing) :
    s.completeBlock ch k = { s with vin := s.vin.setChannel ch ((s.vin.channels.get ch).setHalf k Half.emptied) } := by
  simp only [State.completeBlock, if_neg h]

theorem State.completeBlock_otherFree (hp : s.scu.state = .playing) (ne : k ≠ o)
    (ho : ((s.vin.channels.get ch).halves.get o).state = .free) :
    s.completeBlock ch k = (s.blockJoined ch (((s.vin.channels.get ch).queueHalf k).setHalf o Half.emptied)
      (s.entryFor ch k)).takeBlock := by
  simp only [State.completeBlock, if_pos hp, otherHalf_eq ne, ho]
  rfl

theorem State.completeBlock_otherQueued (hp : s.scu.state = .playing) (ne : k ≠ o)
    (ho : ((s.vin.channels.get ch).halves.get o).state = .queued) :
    s.completeBlock ch k = ((s.dropBlock ch o).blockJoined ch
      (((s.vin.channels.get ch).queueHalf k).setHalf o Half.emptied) (s.entryFor ch k)).takeBlock := by
  simp only [State.completeBlock, if_pos hp, otherHalf_eq ne, ho]
  rfl

theorem State.completeBlock_otherAnalysing (hp : s.scu.state = .playing) (ne : k ≠ o)
    (ho : ((s.vin.channels.get ch).halves.get o).state = .analysing) :
    s.completeBlock ch k = (s.blockJoined ch { (s.vin.channels.get ch).queueHalf k with hold := true }
      (s.entryFor ch k)).takeBlock := by
  simp only [State.completeBlock, if_pos hp, otherHalf_eq ne, ho]
  rfl

theorem State.completeBlock_otherFilling (hp : s.scu.state = .playing) (ne : k ≠ o)
    (ho : ((s.vin.channels.get ch).halves.get o).state = .filling) :
    s.completeBlock ch k =
      (s.blockJoined ch ((s.vin.channels.get ch).queueHalf k) (s.entryFor ch k)).takeBlock := by
  simp only [State.completeBlock, if_pos hp, otherHalf_eq ne, ho]
  rfl

end

/-- A block that completes hands nothing: only in DRAIN would its take begin the write-out. -/
theorem State.completeBlock_ptu (s : State) (ch : Fin 4) (k : Fin 2) : (s.completeBlock ch k).ptu = s.ptu := by
  have ne : k ≠ otherHalf k := by revert k; decide
  by_cases hp : s.scu.state = .playing
  · rcases ho : ((s.vin.channels.get ch).halves.get (otherHalf k)).state
    case free =>
      rw [State.completeBlock_otherFree hp ne ho]
      exact State.takeBlock_ptu hp
    case filling =>
      rw [State.completeBlock_otherFilling hp ne ho]
      exact State.takeBlock_ptu hp
    case queued =>
      rw [State.completeBlock_otherQueued hp ne ho]
      exact State.takeBlock_ptu hp
    case analysing =>
      rw [State.completeBlock_otherAnalysing hp ne ho]
      exact State.takeBlock_ptu hp
  · rw [State.completeBlock_unplayed hp]

/-- A drop is counted against the singer that holds the channel, if there is one (R85, R119). -/
theorem Scr.countDrop_held {c : Scr} {ch : Fin 4} {i : Fin 4} (h : c.holder ch.val = some i) :
    c.countDrop ch = c.setTotals i { (c.singers.get i).totals with
      dropped := min 4294967295 ((c.singers.get i).totals.dropped + 1) } := by
  simp only [Scr.countDrop, h]
  rfl

theorem Scr.countDrop_unheld {c : Scr} {ch : Fin 4} (h : c.holder ch.val = none) : c.countDrop ch = c := by
  simp only [Scr.countDrop, h]

/-! ## Samples stored (R82, R83) -/

/-- A half with one more sample. -/
def Half.stored (y : Int) (h : Half) : Half := { h with samples := h.samples ++ [y] }

/-- The FILLING half of lowest number takes the sample. -/
theorem Channel.fillingHalf_filling {c : Channel} {k : Fin 2} (hk : (c.halves.get k).state = .filling)
    (first : ∀ j : Fin 2, j < k → (c.halves.get j).state ≠ .filling) : c.fillingHalf = (k, c) := by
  unfold Channel.fillingHalf
  match k with
  | 0 => rw [if_pos hk]
  | 1 => rw [if_neg (first 0 (by decide)), if_pos hk]

/-- With no half FILLING, half 0 is given to the channel if FREE, and half 1 otherwise. -/
theorem Channel.fillingHalf_none {c : Channel} {k : Fin 2} (none : ∀ j : Fin 2, (c.halves.get j).state ≠ .filling)
    (hk : if (c.halves.get 0).state = .free then k = 0 else k = 1) :
    c.fillingHalf = (k, c.setHalf k Half.emptied) := by
  rw [Channel.fillingHalf, if_neg (none 0), if_neg (none 1)]
  split at hk
  · next free => rw [if_pos free, hk]
  · next free => rw [if_neg free, hk]

section
variable {s : State} {ch : Fin 4} {x y : Int}

theorem State.storeSample_held (h : (s.vin.channels.get ch).hold = true) : s.storeSample ch y = s := by
  simp [State.storeSample, h]

/-- A sample stored in the half that fills of a channel just left as `c`. -/
theorem State.storeSample_into {c c' : Channel} {k : Fin 2} (noHold : c.hold = false) (hf : c.fillingHalf = (k, c')) :
    let t : State := { s with vin := s.vin.setChannel ch (c'.setHalf k ((c'.halves.get k).stored y)) }
    let u := ({ s with vin := s.vin.setChannel ch c } : State).storeSample ch y
    ((c'.halves.get k).samples.length < 255 → u = t) ∧
      ((c'.halves.get k).samples.length = 255 → u = t.completeBlock ch k) := by
  have again : ∀ d, (s.vin.setChannel ch c).setChannel ch d = s.vin.setChannel ch d := fun d =>
    congrArg (fun cs => ({ s.vin with channels := cs } : Vin)) (vset_vset ..)
  simp only [State.storeSample, Vin.setChannel_fields, vset_get_self, noHold, hf, again, Bool.false_eq_true, if_false,
    Half.stored, List.length_append, List.length_singleton]
  exact ⟨fun short => if_neg (by omega), fun full => if_pos (by omega)⟩

/-! ## Samples taken (R79, R81, R82) -/

/-- The phase moved on by one sample. -/
def State.phaseNext (s : State) : State :=
  { s with vin := { s.vin with phase := (s.vin.phase + 1) % s.prm.channels } }

theorem State.channelLive_iff (hc : ch.val < s.prm.channels) : s.channelLive ch.val = true ↔
    ∃ i : Fin 4, (s.scr.singers.get i).active = true ∧ (s.scr.singers.get i).mic = some ch.val := by
  simp [State.channelLive, hc, Scr.holder, vfind_isSome]

theorem SongState.sings_iff (st : SongState) :
    st.sings = true ↔ st = .playing ∨ st = .seeking ∨ st = .finishing := by
  cases st <;> decide

/-- A sample of a channel that is not live, or taken while no song runs, is skipped. -/
theorem State.takeSample_skipped (h : s.channelLive s.vin.phase = false ∨ s.scu.state.sings = false) :
    s.takeSample x = s.phaseNext := by
  have off : (s.channelLive s.vin.phase && s.scu.state.sings) = false := Bool.and_eq_false_iff.mpr h
  unfold State.takeSample
  simp only [off]
  split <;> rfl

/-- A live sample: one of the first three is summed, the fourth gives the floor of a quarter of the sum. -/
theorem State.takeSample_live (hp : s.vin.phase = ch.val) (live : s.channelLive s.vin.phase = true)
    (sings : s.scu.state.sings = true) :
    let c := s.vin.channels.get ch
    let t := fun c' : Channel => { s.phaseNext with vin := s.phaseNext.vin.setChannel ch c' }
    (c.count ≠ 3 → s.takeSample x = t { c with sum := c.sum + x, count := c.count + 1 }) ∧
      (c.count = 3 → s.takeSample x = (t { c with sum := 0, count := 0 }).storeSample ch ((c.sum + x) / 4)) := by
  have numbered : ∀ h, (⟨s.vin.phase, h⟩ : Fin 4) = ch := fun h => Fin.ext hp
  have below : s.vin.phase < 4 := hp ▸ ch.isLt
  simp only [State.takeSample, dif_pos below, live, sings, Bool.and_self, if_true, numbered, Channel.addSample]
  exact ⟨fun three => by rw [if_neg three]; rfl, fun three => by rw [if_pos three]; rfl⟩

end

theorem State.storeSample_ptu (ch : Fin 4) (y : Int) (s : State) : (s.storeSample ch y).ptu = s.ptu := by
  unfold State.storeSample
  dsimp only
  split
  · rfl
  · split
    · exact State.completeBlock_ptu ..
    · rfl

/-- A sample hands nothing. -/
theorem State.takeSample_ptu (s : State) (x : Int) : (s.takeSample x).ptu = s.ptu := by
  unfold State.takeSample
  dsimp only
  split
  · split
    · split
      · rfl
      · exact State.storeSample_ptu ..
    · rfl
  · rfl

/-- Settles O49. A fourth sample is stored in the half that fills; a completed block is taken at once only by an idle
engine. -/
theorem samplesFillBlocks : Obligations.SamplesFillBlocks := by
  unfold Obligations.SamplesFillBlocks
  refine ⟨fun s x ch hp hc => ?_, fun s ch k o t ne busy => ?_, fun s ch k o t ne idle hq hs ht ho => ?_⟩
  · intro c next live runs with_
    have live_iff : s.channelLive s.vin.phase = true ↔ live := by
      rw [hp]
      exact State.channelLive_iff hc
    have runs_iff : s.scu.state.sings = true ↔ runs := SongState.sings_iff _
    have taken := fun (hl : live) (hr : runs) =>
      State.takeSample_live (x := x) hp (live_iff.mpr hl) (runs_iff.mpr hr)
    refine ⟨fun skipped => State.takeSample_skipped ?_, fun hl hr => (taken hl hr).1,
      fun hl hr three held => ?_, fun hl hr three noHold => ?_⟩
    · exact skipped.imp (fun h => Bool.eq_false_iff.mpr (h ∘ live_iff.mp))
        (fun h => Bool.eq_false_iff.mpr (h ∘ runs_iff.mp))
    · rw [(taken hl hr).2 three]
      exact State.storeSample_held (by simpa using held)
    · refine ⟨(c.sum + x) / 4, by omega, by omega, fun k hk first => ?_, fun k none hk => ?_⟩
      · have into := State.storeSample_into (s := s.phaseNext) (ch := ch) (y := (c.sum + x) / 4) (k := k)
          (c := { c with sum := 0, count := 0 }) noHold (Channel.fillingHalf_filling hk first)
        rw [(taken hl hr).2 three]
        exact into
      · have into := State.storeSample_into (s := s.phaseNext) (ch := ch) (y := (c.sum + x) / 4) (k := k)
          (c := { c with sum := 0, count := 0 }) noHold (Channel.fillingHalf_none none hk)
        rw [(taken hl hr).2 three]
        obtain ⟨short, -⟩ := into
        rw [short (by simp [Half.emptied])]
        simp [State.phaseNext, Vin.setChannel, Channel.setHalf, vset_vset, Half.stored, Half.emptied, with_, next]
  · intro c full entry u
    refine ⟨fun hs => State.completeBlock_unplayed hs, fun hs ht => ?_⟩
    have named : s.entryFor ch k = entry := by simp [State.entryFor, ht, entry]
    refine ⟨fun ho => ?_, fun ho => ?_, fun ho => ?_⟩
    · have completed := State.completeBlock_otherFree hs ne ho
      rw [State.takeBlock_busy (by exact busy), named] at completed
      exact completed
    · have completed := State.completeBlock_otherAnalysing hs ne ho
      rw [State.takeBlock_busy (by exact busy), named] at completed
      exact completed
    · have completed := State.completeBlock_otherQueued hs ne ho
      rw [State.takeBlock_busy (by exact busy), named] at completed
      simp only [u, completed]
      exact ⟨rfl, rfl, rfl, rfl, rfl, fun i hi => Scr.countDrop_held hi, fun hn => Scr.countDrop_unheld hn⟩
  · intro c halves entry
    have named : s.entryFor ch k = entry := by simp [State.entryFor, ht, entry]
    rw [State.completeBlock_otherFree hs ne ho, named,
      State.takeBlock_idle (e := entry) (rest := []) (by exact idle) (by simp [State.blockJoined, hq]),
      State.vinDrain_playing (by exact hs)]
    have kept : (vset (vset c.halves k { c.halves.get k with state := .queued }) o Half.emptied).get k =
        { c.halves.get k with state := .queued } := by rw [vset_get_ne _ _ ne.symm, vset_get_self]
    have twice : vset (vset (vset c.halves k { c.halves.get k with state := .queued }) o Half.emptied) k
        { c.halves.get k with state := .analysing } = halves := by rw [vset_comm _ ne, vset_vset]; rfl
    simp only [State.blockTaken, State.blockJoined, Channel.queueHalf, Channel.setHalf, Vin.setChannel, vset_get_self,
      vset_vset, entry]
    rw [kept, twice, hq]

end Sys2Proof.Machine
end

