-- ==== Sys2Proof/Proofs/CaptureWrites.lean ====
section
/-! A capture write taken: its samples in order, what it does to the sample phase, and a run of samples skipped (R78 to
R81). -/

namespace Sys2Proof.Machine

/-! ## Runs of samples -/

/-- The samples of a write's beats, in order. -/
def capturedSamples (bs : List WriteBeat) : List Int := (bs.map (fun b => beatSamples b.data)).flatten

theorem capturedSamples_length (bs : List WriteBeat) : (capturedSamples bs).length = 8 * bs.length := by
  simp [capturedSamples, beatSamples, Function.comp_def, Nat.mul_comm]

theorem State.takeSample_foldl_ptu (l : List Int) (s : State) : (l.foldl State.takeSample s).ptu = s.ptu :=
  foldl_keeps (P := fun t : State => t.ptu = s.ptu) (fun t x h => (State.takeSample_ptu t x).trans h) l s rfl

/-- While no song runs, samples move the phase on and do nothing else (R81). -/
theorem State.takeSample_foldl_skipped (l : List Int) {s : State} (h : s.scu.state.sings = false)
    (hp : s.vin.phase < s.prm.channels) :
    l.foldl State.takeSample s =
      { s with vin := { s.vin with phase := (s.vin.phase + l.length) % s.prm.channels } } := by
  induction l generalizing s with
  | nil => rw [List.foldl_nil, List.length_nil, Nat.add_zero, Nat.mod_eq_of_lt hp]
  | cons x rest ih =>
    have moved : s.phaseNext.vin.phase < s.phaseNext.prm.channels := Nat.mod_lt _ (Nat.zero_lt_of_lt hp)
    rw [List.foldl_cons, State.takeSample_skipped (.inr h), ih (s := s.phaseNext) h moved]
    simp [State.phaseNext, State.prm, Nat.add_assoc, Nat.add_comm 1]

/-! ## The seat of a whole write (R79, R80) -/

/-- The phase computed from a write's place lies below the channel count. -/
theorem phaseAt_lt {channels : Nat} (h : 1 ≤ channels) (offset : Int) : phaseAt channels offset < channels := by
  have low := Int.emod_nonneg offset (b := (2 * channels : Nat)) (by omega)
  have high := Int.emod_lt_of_pos offset (b := (2 * channels : Nat)) (by omega)
  unfold phaseAt
  omega

theorem Vin.seat_continues {v : Vin} {first : Nat} (h : v.expected = some first) (channels : Nat) (w : Window) :
    v.seat channels w first = v := by
  simp [Vin.seat, h]

theorem Vin.seat_starts {v : Vin} (h : v.expected = none) (channels : Nat) (w : Window) (first : Nat) :
    v.seat channels w first = { v.clearDecimators with phase := phaseAt channels ((first : Int) - w.base) } := by
  simp only [Vin.seat, h]

theorem Vin.seat_gap {v : Vin} {x first : Nat} (h : v.expected = some x) (ne : x ≠ first) (channels : Nat)
    (w : Window) :
    v.seat channels w first = { v.clearDecimators with
      phase := phaseAt channels ((first : Int) - w.base), micGap := v.micGap + 1 } := by
  simp only [Vin.seat, h, if_neg ne]

/-! ## The tap taken (R78 to R80) -/

/-- The head of the lane taken, the Voice Intake left as `v`. -/
def State.tapHeard (rest : List Tap) (v : Vin) (s : State) : State :=
  { s with ptu := { s.ptu with taps := rest }, vin := v }

/-- A run of samples from `s` on, the next expected address set behind them. -/
def State.samplesTaken (l : List Int) (expected : Nat) (s : State) : State :=
  let u := l.foldl State.takeSample s
  { u with vin := { u.vin with expected := some expected } }

section
variable {s : State} {t : Tap} {rest : List Tap} {bs : List WriteBeat} {w : Window}

/-- A capture write hands nothing, so it never waits for the line. -/
theorem exec_captureWrite {u : State} (ht : s.ptu.taps = t :: rest) (hc : t.cls = .capture)
    (hu : (s.tapHeard rest s.vin).takeCapture t.req = u) (kept : u.ptu.kept = s.ptu.kept) :
    exec .captureWrite s = .next u.flush.playTaps := by
  have head : s.ptu.headTap .capture = some t.req := by simp [Ptu.headTap, ht, hc]
  have tail : s.dropTap = s.tapHeard rest s.vin := by simp [State.dropTap, State.tapHeard, ht]
  have work : s.captureWrite = u := by simp only [State.captureWrite, head, tail, hu]
  show Host.Outcome.next _ = _
  rw [State.whenRoom_handsNothing (by rw [work, kept]), work]

theorem exec_captureWrite_partial (ht : s.ptu.taps = t :: rest) (hc : t.cls = .capture)
    (hb : t.req.body = .write bs) (hw : s.ptu.windows.mic = some w) (part : ∃ b ∈ bs, b.en ≠ BitVec.allOnes 16) :
    exec .captureWrite s = .next (s.tapHeard rest s.vin.partialWrite).flush.playTaps := by
  have cut : wholeBeats (bodyBeats t.req.body) = false := by simpa [wholeBeats, bodyBeats, hb] using part
  have mic : (s.tapHeard rest s.vin).ptu.windows.mic = some w := hw
  refine exec_captureWrite ht hc ?_ rfl
  simp only [State.takeCapture, mic, cut]
  rfl

theorem exec_captureWrite_whole {v : Vin} (ht : s.ptu.taps = t :: rest) (hc : t.cls = .capture)
    (hb : t.req.body = .write bs) (hw : s.ptu.windows.mic = some w) (whole : ∀ b ∈ bs, b.en = BitVec.allOnes 16)
    (seated : s.vin.seat s.prm.channels w (beatAddr t.req.addr 0) = v) :
    exec .captureWrite s = .next ((s.tapHeard rest v).samplesTaken (capturedSamples bs)
      (nextExpected w (beatAddr t.req.addr 0 + 16 * bs.length))).flush.playTaps := by
  have beats : bodyBeats t.req.body = bs := by rw [hb]; rfl
  have full : wholeBeats bs = true := by simpa [wholeBeats] using whole
  have mic : (s.tapHeard rest s.vin).ptu.windows.mic = some w := hw
  have kept := congrArg Ptu.kept (State.takeSample_foldl_ptu (capturedSamples bs) (s.tapHeard rest v))
  refine exec_captureWrite ht hc ?_ kept
  simp only [State.takeCapture, mic, beats, full, if_true, State.samplesTaken, capturedSamples, List.foldl_flatten,
    List.foldl_map, ← seated]
  rfl

/-- A whole write while no song runs: its samples move the phase on and do nothing else. -/
theorem exec_captureWrite_skipped {v : Vin} (ht : s.ptu.taps = t :: rest) (hc : t.cls = .capture)
    (hb : t.req.body = .write bs) (hw : s.ptu.windows.mic = some w) (whole : ∀ b ∈ bs, b.en = BitVec.allOnes 16)
    (seated : s.vin.seat s.prm.channels w (beatAddr t.req.addr 0) = v) (still : s.scu.state.sings = false)
    (below : v.phase < s.prm.channels) :
    exec .captureWrite s = .next (s.tapHeard rest { v with
      phase := (v.phase + 8 * bs.length) % s.prm.channels
      expected := some (nextExpected w (beatAddr t.req.addr 0 + 16 * bs.length)) }).flush.playTaps := by
  have skipped := State.takeSample_foldl_skipped (capturedSamples bs) (s := s.tapHeard rest v) still below
  rw [exec_captureWrite_whole ht hc hb hw whole seated, State.samplesTaken, skipped, capturedSamples_length]
  rfl

end

/-- Settles O48. No sample hands anything, so the write never waits; what is left is where the write is seated. -/
theorem captureWritesKeepThePhase : Obligations.CaptureWritesKeepThePhase := by
  unfold Obligations.CaptureWritesKeepThePhase
  intro s t rest bs w ht hc hb hw first silent next expected ring samples done seated taken
  refine ⟨fun part => exec_captureWrite_partial ht hc hb hw part, fun whole => ?_, fun whole rests one => ?_⟩
  · exact ⟨fun goes => exec_captureWrite_whole ht hc hb hw whole (Vin.seat_continues goes _ _),
      fun starts => exec_captureWrite_whole ht hc hb hw whole (Vin.seat_starts starts _ _ _),
      fun x gap ne => exec_captureWrite_whole ht hc hb hw whole (Vin.seat_gap gap ne _ _)⟩
  · have still : s.scu.state.sings = false := by rcases rests with h | h <;> rw [h] <;> rfl
    have placed : ring < s.prm.channels := phaseAt_lt one _
    exact ⟨fun goes below =>
        (exec_captureWrite_skipped ht hc hb hw whole (Vin.seat_continues goes _ _) still below :),
      fun starts => (exec_captureWrite_skipped ht hc hb hw whole (Vin.seat_starts starts _ _ _) still placed :),
      fun x gap ne => (exec_captureWrite_skipped ht hc hb hw whole (Vin.seat_gap gap ne _ _) still placed :)⟩

end Sys2Proof.Machine
end

