-- ==== Sys2Proof/Proofs/Assignments.lean ====
section
/-! ASSIGN decided: the order of its checks (R115), the singer's record (R116) and the channels it touches (R90). -/

namespace Sys2Proof.Machine

/-! ## The channels touched (R90) -/

theorem foldl_vset_get {α : Type} {n : Nat} (f : Fin n → α → α) {l : List (Fin n)} (hl : l.Nodup)
    (v : Vector α n) (j : Fin n) : (l.foldl (fun acc i => vset acc i (f i (acc.get i))) v).get j =
      if j ∈ l then f j (v.get j) else v.get j := by
  induction l generalizing v with
  | nil => rfl
  | cons i rest ih =>
    obtain ⟨new, hl⟩ := List.nodup_cons.mp hl
    rw [List.foldl_cons, ih hl]
    by_cases e : i = j
    · subst e
      simp [new]
    · simp [vset_get_ne _ _ e, Ne.symm e]

theorem Vin.assign_get {v : Vin} {chs : List Nat} (h : chs ≠ []) (ch : Fin 4) :
    (v.assign chs).channels.get ch =
      if ch.val ∈ chs then {} else { v.channels.get ch with sum := 0, count := 0 } := by
  simp only [Vin.assign, if_neg h]
  rw [foldl_vset_get (fun (i : Fin 4) (c : Channel) =>
      if i.val ∈ chs then { c with halves := Vector.replicate 2 {}, hold := false } else c) (List.nodup_finRange 4),
    if_pos (List.mem_finRange ch)]
  simp only [Vin.clearDecimators, map_get]

/-- An assignment that touches a channel ends the capture position and clears every decimator; the touched channels'
halves and HOLD are reset. -/
theorem Vin.assign_resets {v : Vin} {chs : List Nat} {touched : Nat → Prop} (h : chs ≠ [])
    (ht : ∀ ch, ch ∈ chs ↔ touched ch) :
    let u := v.assign chs
    { u with channels := v.channels, expected := v.expected } = v ∧ u.expected = none ∧
      ∀ ch : Fin 4, (u.channels.get ch).sum = 0 ∧ (u.channels.get ch).count = 0 ∧
        (touched ch.val → (u.channels.get ch).halves = Vector.replicate 2 {} ∧ (u.channels.get ch).hold = false) ∧
        (¬ touched ch.val → (u.channels.get ch).halves = (v.channels.get ch).halves ∧
          (u.channels.get ch).hold = (v.channels.get ch).hold) := by
  refine ⟨?_, ?_, fun ch => ?_⟩
  · simp only [Vin.assign, if_neg h]
    rfl
  · simp only [Vin.assign, if_neg h]
  · rw [Vin.assign_get h, ← ht]
    split
    · next yes => exact ⟨rfl, rfl, fun _ => ⟨rfl, rfl⟩, fun no => absurd yes no⟩
    · next no => exact ⟨rfl, rfl, fun yes => absurd yes no, fun _ => ⟨rfl, rfl⟩⟩

/-! ## The checks (R115) -/

theorem Scr.micTaken_iff (c : Scr) (i : Fin 4) (mic : Nat) : c.micTaken i mic = true ↔
    ∃ j : Fin 4, j ≠ i ∧ (c.singers.get j).active = true ∧ (c.singers.get j).mic = some mic := by
  simp [Scr.micTaken, and_assoc]

/-- The part named by an ASSIGN's part word of 1 or 2. -/
theorem readAssignPart_part {n : Nat} (h : n = 1 ∨ n = 2) :
    readAssignPart n = some (.part (if n = 1 then .a else .b)) := by
  rcases h with rfl | rfl <;> rfl

theorem readAssignPart_none {n : Nat} (h : 2 < n) : readAssignPart n = none := by
  unfold readAssignPart
  split
  · omega
  · omega
  · omega
  · rfl

/-- A singer that takes no ASSIGN now (R115). -/
def State.assignLate (i : Fin 4) (s : State) : Prop :=
  s.scu.state = .finishing ∨ (s.scu.state = .playing ∧ (s.scr.singers.get i).active = true)

/-- The ticket that a singer made ACTIVE is linked to (R116). -/
def State.assignLink (s : State) : Option Nat :=
  if s.scu.state = .playing then s.scu.current.map Ticket.number else none

/-- The state in which an ASSIGN of a singer is taken (R90, R116). -/
def State.assigned (i : Fin 4) (mic : Nat) (p : AssignPart) (s : State) : State :=
  let r := (s.scr.singers.get i).assign mic p s.assignLink
  { s with scr := { s.scr with singers := vset s.scr.singers i r.1 }, vin := s.vin.assign r.2 }

section
variable {s : State} {i : Fin 4} {mic part : Nat}

theorem State.takeAssign_noSinger {singer : Nat} (h : 3 < singer) : s.takeAssign singer mic part = s.refuse .badArg :=
  dif_neg (by omega)

theorem State.takeAssign_late (h : s.assignLate i) : s.takeAssign i.val mic part = s.refuse .state := by
  unfold State.takeAssign
  rw [dif_pos i.isLt]
  exact if_pos h

theorem State.takeAssign_noPart (h : ¬ s.assignLate i) (hp : 2 < part) :
    s.takeAssign i.val mic part = s.refuse .badArg := by
  unfold State.takeAssign
  rw [dif_pos i.isLt, readAssignPart_none hp]
  exact if_neg h

theorem State.takeAssign_badMic (h : ¬ s.assignLate i) (hp : part = 1 ∨ part = 2)
    (bad : s.prm.channels ≤ mic ∨ s.scr.micTaken i mic = true) :
    s.takeAssign i.val mic part = s.refuse .badArg := by
  unfold State.takeAssign
  rw [dif_pos i.isLt, readAssignPart_part hp]
  refine (if_neg h).trans ?_
  rcases bad with high | taken
  · exact if_pos high
  · dsimp only
    rw [if_pos taken, ite_self]

theorem State.takeAssign_off (h : ¬ s.assignLate i) :
    s.takeAssign i.val mic 0 = .answered ⟨s.assigned i mic .off, .ok, [BitVec.ofNat 32 i.val]⟩ := by
  unfold State.takeAssign
  rw [dif_pos i.isLt]
  exact if_neg h

theorem State.takeAssign_part (h : ¬ s.assignLate i) (hp : part = 1 ∨ part = 2) (low : mic < s.prm.channels)
    (free : s.scr.micTaken i mic = false) : s.takeAssign i.val mic part =
      .answered ⟨s.assigned i mic (.part (if part = 1 then .a else .b)), .ok, [BitVec.ofNat 32 i.val]⟩ := by
  unfold State.takeAssign
  rw [dif_pos i.isLt, readAssignPart_part hp]
  refine (if_neg h).trans ?_
  dsimp only
  rw [if_neg (Nat.not_le.mpr low), if_neg (Bool.eq_false_iff.mp free)]
  rfl

end

/-! ## The singer's record (R116) -/

theorem Singer.assign_off (g : Singer) (mic : Nat) (link : Option Nat) :
    (g.assign mic .off link).1 = (if g.active then { g with active := false, mic := none, part := none } else g) ∧
      (g.assign mic .off link).2 = if g.active then g.mic.toList else [] := by
  unfold Singer.assign
  dsimp only
  split <;> exact ⟨rfl, rfl⟩

theorem Singer.assign_part (g : Singer) (mic : Nat) (q : SingerPart) (link : Option Nat) :
    (g.assign mic (.part q) link).1 =
        { active := true, mic := some mic, part := some q, link := if g.active then g.link else link
          totals := if g.active then g.totals else {} } ∧
      (g.assign mic (.part q) link).2 = mic :: if g.active then g.mic.toList else [] := by
  unfold Singer.assign
  dsimp only
  split
  · next ha => simp [ha]
  · exact ⟨rfl, rfl⟩

/-! ## The command -/

section
variable {s : State} {tag : BitVec 16} {singer mic part : Word}

theorem exec_assign {a : Answer} (hs : s.ready)
    (hf : s.takeAssign singer.toNat mic.toNat part.toNat = .answered a) :
    exec (.assign tag singer mic part) s = .next (a.state.result 0x0A tag a.rc a.values).flush :=
  exec_answered (c := .assign tag singer mic part) hs rfl rfl hf

/-- An ASSIGN taken changes one singer's record, and of the Voice Intake what `Vin.assign` changes. -/
theorem exec_assign_taken {i : Fin 4} {p : AssignPart} (hs : s.ready)
    (hf : s.takeAssign singer.toNat mic.toNat part.toNat =
      .answered ⟨s.assigned i mic.toNat p, .ok, [BitVec.ofNat 32 i.val]⟩) :
    let u := s.assigned i mic.toNat p
    exec (.assign tag singer mic part) s = .next (u.result 0x0A tag .ok [BitVec.ofNat 32 i.val]).flush ∧
      u = { s with scr := u.scr, vin := u.vin } ∧ { u.scr with singers := s.scr.singers } = s.scr ∧
      (∀ j, j ≠ i → u.scr.singers.get j = s.scr.singers.get j) :=
  ⟨exec_assign hs hf, rfl, rfl, fun _ hj => vset_get_ne _ _ hj.symm⟩

end

/-- Settles O14. The checks in their order, then the channels touched: those of the new and of the old microphone. -/
theorem assignIsCheckedAndTaken : Obligations.AssignIsCheckedAndTaken := by
  unfold Obligations.AssignIsCheckedAndTaken
  refine ⟨fun tag singer mic part s hs => ?_, fun tag singer mic part i s hs hi unfinished idle => ?_⟩
  · refine ⟨fun high => exec_assign hs (State.takeAssign_noSinger high), fun i hi => ⟨fun late => ?_,
      fun early high => ?_, fun early hp bad => ?_⟩⟩
    all_goals refine exec_assign (a := ⟨s, _, []⟩) hs ?_; rw [hi]
    · exact State.takeAssign_late late
    · exact State.takeAssign_noPart early high
    · exact State.takeAssign_badMic early hp (bad.imp_right (Scr.micTaken_iff ..).mpr)
  · have early : ¬ s.assignLate i := by
      rintro (h | ⟨playing, active⟩)
      · exact unfinished h
      · simp [idle playing] at active
    intro old link resets taken
    have record : ∀ p, (s.assigned i mic.toNat p).scr.singers.get i = (old.assign mic.toNat p s.assignLink).1 :=
      fun _ => vset_get_self ..
    have vin : ∀ p, (s.assigned i mic.toNat p).vin = s.vin.assign (old.assign mic.toNat p s.assignLink).2 :=
      fun _ => rfl
    refine ⟨fun off => ?_, fun hp low _ free => ?_⟩
    · obtain ⟨own, touched⟩ := Singer.assign_off old mic.toNat s.assignLink
      refine ⟨s.assigned i mic.toNat .off, exec_assign_taken hs ?_, (record _).trans own, fun untouched => ?_,
        fun m active held => ?_⟩
      · rw [hi, off]
        exact State.takeAssign_off early
      · rw [vin, touched]
        rcases untouched with inactive | unheld
        · rw [inactive]
          rfl
        · rw [unheld, Option.toList_none, ite_self]
          rfl
      · rw [vin, touched, active, held]
        exact Vin.assign_resets (List.cons_ne_nil _ _) fun ch => List.mem_singleton
    · obtain ⟨own, touched⟩ := Singer.assign_part old mic.toNat (if part.toNat = 1 then .a else .b) s.assignLink
      refine ⟨s.assigned i mic.toNat (.part (if part.toNat = 1 then .a else .b)), exec_assign_taken hs ?_,
        (record _).trans own, ?_⟩
      · rw [hi]
        refine State.takeAssign_part early hp low (Bool.eq_false_iff.mpr fun busy => ?_)
        obtain ⟨j, ne, active, same⟩ := (Scr.micTaken_iff ..).mp busy
        exact free j ne active same
      · have touches : ∀ ch, ch ∈ mic.toNat :: (if old.active then old.mic.toList else []) ↔
            ch = mic.toNat ∨ (old.active = true ∧ old.mic = some ch) := fun ch => by
          cases old.active <;> simp
        rw [vin, touched]
        exact Vin.assign_resets (List.cons_ne_nil _ _) touches

end Sys2Proof.Machine
end

