-- ==== Sys2Proof/Proofs/Judgements.lean ====
section
/-! A measured block judged, or not, or waiting (R95 to R120), and the end of its analysis (R86, R96, R112). -/

namespace Sys2Proof.Machine

/-! ## The half released (R86, R87) -/

theorem Vin.release_held {v : Vin} {ch : Fin 4} (k : Fin 2) (h : (v.channels.get ch).hold = true) :
    v.release ch k = v.setChannel ch { (v.channels.get ch).setHalf k Half.emptied with hold := false } := by
  simp only [Vin.release, h]
  rfl

theorem Vin.release_frame (v : Vin) (ch : Fin 4) (k : Fin 2) :
    v.release ch k = { v with channels := (v.release ch k).channels } ∧
      ∀ j, j ≠ ch → (v.release ch k).channels.get j = v.channels.get j := by
  cases h : (v.channels.get ch).hold
  · rw [Vin.release_free k h]
    exact ⟨rfl, fun j hj => vset_get_ne _ _ hj.symm⟩
  · rw [Vin.release_held k h]
    exact ⟨rfl, fun j hj => vset_get_ne _ _ hj.symm⟩

/-! ## The end of an analysis (R89, R96, R112) -/

/-- The block in hand given up and its half released. -/
def State.halfReleased (e : BlockEntry) (s : State) : State :=
  { s with pje := { s.pje with block := none }, vin := s.vin.release e.channel e.half }

/-- FINISHING in DRAIN. -/
def State.drains (s : State) : Prop := s.scu.state = .finishing ∧ s.scu.phase = some .drain

theorem State.halfReleased_queue (s : State) (e : BlockEntry) : (s.halfReleased e).vin.queue = s.vin.queue := by
  simp [State.halfReleased]

/-- The taken half is in analysis, its samples kept (R87, R94). -/
theorem State.blockTaken_half (s : State) (e : BlockEntry) (rest : List BlockEntry) :
    (((s.blockTaken e rest).vin.channels.get e.channel).halves.get e.half) =
      { (s.vin.channels.get e.channel).halves.get e.half with state := .analysing } := by
  simp [State.blockTaken]

section
variable {s : State} {e : BlockEntry}

/-- With no block queued the engine's report is all that the end of an analysis can bring. -/
theorem State.endAnalysis_emptyQueue (hq : s.vin.queue = []) : s.endAnalysis e = (s.halfReleased e).pjeDrain :=
  State.takeBlock_empty (by simpa [State.halfReleased] using hq)

/-- With a block queued the engine takes it. -/
theorem State.endAnalysis_next {e' : BlockEntry} {rest : List BlockEntry} (hq : s.vin.queue = e' :: rest) :
    s.endAnalysis e = ((s.halfReleased e).blockTaken e' rest).vinDrain := by
  have queued : (s.halfReleased e).vin.queue = e' :: rest := (s.halfReleased_queue e).trans hq
  have ended : s.endAnalysis e = (s.halfReleased e).pjeDrain.takeBlock := rfl
  rw [ended, State.pjeDrain_busy (.inl (by simp [queued])), State.takeBlock_idle rfl queued]

theorem State.endAnalysis_empty_reports (hq : s.vin.queue = []) (hd : s.drains) (hr : s.pje.drainReported = false) :
    s.endAnalysis e = State.drainCheck { s.halfReleased e with
      pje := { (s.halfReleased e).pje with drainReported := true } } := by
  obtain ⟨-, -, reports, -⟩ := (s.halfReleased e).drainReports
  obtain ⟨finishing, drain⟩ := hd
  rw [State.endAnalysis_emptyQueue hq]
  exact reports ⟨finishing, drain, (s.halfReleased_queue e).trans hq⟩ rfl hr

theorem State.endAnalysis_empty_quiet (hq : s.vin.queue = []) (h : ¬ s.drains ∨ s.pje.drainReported = true) :
    s.endAnalysis e = s.halfReleased e := by
  obtain ⟨-, -, -, quiet⟩ := (s.halfReleased e).drainReports
  rw [State.endAnalysis_emptyQueue hq]
  exact quiet (h.imp (fun off ⟨finishing, drain, _⟩ => off ⟨finishing, drain⟩) .inr)

end

/-! ## What a judgement comes to (R95, R108, R117) -/

/-- A block whose judgement has a singer to find: of the current ticket, past the latency, and before the END time in
FINISHING (R95). -/
def State.judgeable (b : BlockInHand) (s : State) : Prop :=
  s.scu.current.map Ticket.number = some b.entry.ticket ∧ b.prm.latencyMs ≤ b.entry.songMs ∧
    ¬ (s.scu.state = .finishing ∧ ∃ x, s.pje.endTime = some x ∧ x ≤ b.entry.songMs - b.prm.latencyMs)

section
variable {s : State} {b : BlockInHand} {period : Option Nat} {i : Fin 4}

theorem State.endPast_iff (s : State) (t : Nat) :
    (s.scu.state = .finishing ∧ s.pje.endTime.any (fun e => decide (e ≤ t)) = true) ↔
      (s.scu.state = .finishing ∧ ∃ x, s.pje.endTime = some x ∧ x ≤ t) := by
  simp [Option.any_eq_true]

theorem State.judge_unjudged (h : ¬ s.judgeable b ∨ s.scr.holder b.entry.channel.val = none) :
    s.judge b period = s.endAnalysis b.entry := by
  unfold State.judge
  dsimp only
  split
  · rfl
  · split
    · rfl
    · split
      · rfl
      · next hc hl hp =>
        have mine : s.judgeable b := ⟨not_not.mp hc, Nat.not_lt.mp hl, fun past => hp ((s.endPast_iff _).mpr past)⟩
        have unheld := h.resolve_left (fun no => no mine)
        simp only [unheld]

/-- The lookup at a block's reference time, for the part of singer `i` (R108). -/
def State.noteFor (b : BlockInHand) (i : Fin 4) (s : State) : Lookup :=
  s.pje.lookup s.songMs (b.entry.songMs - b.prm.latencyMs) (s.scr.singers.get i).part

/-- A judgeable block of a held channel is judged by what the lookup finds (R95, R108). -/
theorem State.judge_held (h : s.judgeable b) (hi : s.scr.holder b.entry.channel.val = some i) :
    (s.noteFor b i = .rest → s.judge b period = s.endAnalysis b.entry) ∧
      (s.noteFor b i = .late → s.judge b period = s.countNoteLate.endAnalysis b.entry) ∧
      (s.noteFor b i = .wait →
        s.judge b period = { s with pje := { s.pje with block := some { b with phase := .judging period } } }) ∧
      (∀ n, s.noteFor b i = .note n →
        s.judge b period = (s.applyJudgement (judgeOver b period n)).endAnalysis b.entry) := by
  obtain ⟨current, late, before⟩ := h
  unfold State.judge State.noteFor
  dsimp only
  rw [if_neg (not_not.mpr current), if_neg (Nat.not_lt.mpr late), if_neg fun past => before ((s.endPast_iff _).mp past)]
  simp only [hi]
  refine ⟨fun found => ?_, fun found => ?_, fun found => ?_, fun n found => ?_⟩ <;> simp only [found]

end

/-! ## The Score Unit's part (R117, R118, R120) -/

theorem Scu.takesJudgements_iff (c : Scu) :
    c.takesJudgements = true ↔ c.state ≠ .idle ∧ (c.phase = none ∨ c.phase = some .drain) := by
  unfold Scu.takesJudgements
  rcases c.phase with _ | _ | _ | _ <;> simp

theorem Scr.matching_none {c : Scr} {j : Judgement} (h : ∀ k : Fin 4, (c.singers.get k).active = true →
    (c.singers.get k).mic = some j.channel.val → (c.singers.get k).link ≠ some j.ticket) : c.matching j = none := by
  refine vfind_eq_none fun k => Bool.eq_false_iff.mpr fun found => ?_
  simp only [Bool.and_eq_true, beq_iff_eq] at found
  obtain ⟨⟨active, mic⟩, link⟩ := found
  exact h k active mic link

theorem vfind_lower {α : Type} {n : Nat} {v : Vector α n} {p : α → Bool} {i : Fin n} (h : vfind v p = some i) :
    ∀ j, j < i → p (v.get j) = false := by
  obtain ⟨-, m, hm, rfl, lower⟩ := List.find?_eq_some_iff_getElem.mp h
  intro j hj
  have below : j.val < m := by simpa using Fin.lt_def.mp hj
  simpa using lower j.val below

/-- The singer that holds a channel takes its judgements when it is linked to their ticket. -/
theorem Scr.matching_holder {c : Scr} {j : Judgement} {i : Fin 4} (h : c.holder j.channel.val = some i)
    (link : (c.singers.get i).link = some j.ticket) : c.matching j = some i := by
  have holds := vfind_some h
  refine vfind_first (by simpa [link] using holds) fun k hk => ?_
  rw [vfind_lower h k hk, Bool.false_and]

section
variable {s : State} {j : Judgement} {i : Fin 4}

theorem State.applyJudgement_unmatched (h : s.scr.matching j = none ∨ s.scu.takesJudgements = false) :
    s.applyJudgement j = s := by
  unfold State.applyJudgement
  split
  · next takes => simp only [h.resolve_right (by simp [takes])]
  · rfl

/-- A judgement that would carry POSSIBLE past its limit is discarded (R118). -/
theorem State.applyJudgement_past (hm : s.scr.matching j = some i)
    (past : accMax < (s.scr.singers.get i).totals.possible + j.possible) : s.applyJudgement j = s := by
  unfold State.applyJudgement
  simp only [hm]
  rw [if_pos past, ite_self]

end

/-- The cadence counts an applied judgement, and SCORE_TICK is raised as it reaches SCORE_CADENCE (R120). -/
theorem State.tick_cadence (s : State) :
    s.tick = { s with scr := s.tick.scr, ctl := s.tick.ctl } ∧
      s.tick.scr = { s.scr with cadenceCount := s.tick.scr.cadenceCount } ∧
      (s.scr.cadenceCount + 1 < s.scr.cadence →
        s.tick.scr.cadenceCount = s.scr.cadenceCount + 1 ∧ s.tick.ctl = s.ctl) ∧
      (s.scr.cadence ≤ s.scr.cadenceCount + 1 →
        s.tick.scr.cadenceCount = 0 ∧ s.tick.ctl = s.ctl.raise .scoreTick) := by
  unfold State.tick
  split
  · next reached => exact ⟨rfl, rfl, fun short => absurd reached (Nat.not_le.mpr short), fun _ => ⟨rfl, rfl⟩⟩
  · next short => exact ⟨rfl, rfl, fun _ => ⟨rfl, rfl⟩, fun reached => absurd reached short⟩

/-- A judgement applied (R117, R118, R120): the matching singer's accumulators and the cadence, and nothing else. -/
theorem State.applyJudgement_matched {s : State} {j : Judgement} {i : Fin 4} (hm : s.scr.matching j = some i)
    (takes : s.scu.takesJudgements = true)
    (within : (s.scr.singers.get i).totals.possible + j.possible ≤ accMax) :
    let u := s.applyJudgement j
    u = { s with scr := u.scr, ctl := u.ctl } ∧
      { u.scr with singers := s.scr.singers, cadenceCount := s.scr.cadenceCount } = s.scr ∧
      (s.scr.cadenceCount + 1 < s.scr.cadence → u.scr.cadenceCount = s.scr.cadenceCount + 1 ∧ u.ctl = s.ctl) ∧
      (s.scr.cadence ≤ s.scr.cadenceCount + 1 → u.scr.cadenceCount = 0 ∧ u.ctl = s.ctl.raise .scoreTick) ∧
      (∀ k, k ≠ i → u.scr.singers.get k = s.scr.singers.get k) ∧
      u.scr.singers.get i = { s.scr.singers.get i with totals := (s.scr.singers.get i).totals.apply j } := by
  have applied : s.applyJudgement j =
      State.tick { s with scr := s.scr.setTotals i ((s.scr.singers.get i).totals.apply j) } := by
    unfold State.applyJudgement
    simp only [takes, hm, if_true]
    exact if_neg (Nat.not_lt.mpr within)
  obtain ⟨frame, scr, counted, reached⟩ :=
    State.tick_cadence { s with scr := s.scr.setTotals i ((s.scr.singers.get i).totals.apply j) }
  rw [applied]
  refine ⟨frame, ?_, counted, reached, fun k hk => ?_, ?_⟩ <;> rw [scr]
  · rfl
  · exact vset_get_ne _ _ hk.symm
  · exact vset_get_self ..

/-! ## The accumulators after a judgement (R109, R110, R118) -/

/-- The least deviation of a measured period from the three candidates (R110). -/
def leastDeviation (lm lr : Nat) : Nat :=
  min (deviation lm lr) (min (deviation lm ((lr + 1) / 2)) (deviation lm (2 * lr)))

theorem takenDeviation_eq (fold : Bool) (lm lr : Nat) : takenDeviation fold lm lr =
    (if fold then leastDeviation lm lr else deviation lm lr,
      decide (fold = true ∧ leastDeviation lm lr < deviation lm lr)) := by
  unfold takenDeviation leastDeviation
  generalize deviation lm lr = d0
  generalize deviation lm ((lr + 1) / 2) = dUp
  generalize deviation lm (2 * lr) = dDown
  cases fold
  · simp
  · simp only [Bool.not_true, Bool.false_or, Bool.and_eq_true, decide_eq_true_eq, if_true, true_and]
    split
    · next same =>
      obtain ⟨up, down⟩ := same
      simp [min_eq_left (le_min up down)]
    · next other =>
      split
      · next up =>
        rw [min_eq_left up, min_eq_right (by omega)]
        simp only [Prod.mk.injEq, true_and]
        exact (decide_eq_true (by omega)).symm
      · next up =>
        rw [min_eq_right (by omega : dDown ≤ dUp), min_eq_right (by omega)]
        simp only [Prod.mk.injEq, true_and]
        exact (decide_eq_true (by omega)).symm

theorem judgeOver_fields (b : BlockInHand) (period : Option Nat) (n : Note) :
    (judgeOver b period n).channel = b.entry.channel ∧ (judgeOver b period n).ticket = b.entry.ticket ∧
      (judgeOver b period n).possible = 4 * n.weight := by
  cases period <;> exact ⟨rfl, rfl, rfl⟩

/-- An UNVOICED block is a MISS with no points (R110). -/
theorem Totals.apply_unvoiced (t : Totals) (b : BlockInHand) (n : Note) :
    t.apply (judgeOver b none n) = { t with
      earned := bump 0 t.earned, possible := t.possible + 4 * n.weight, miss := bump 1 t.miss
      unvoiced := bump 1 t.unvoiced, streak := 0, lastBand := some .miss } := by
  simp [Totals.apply, judgeOver]

/-- A measured block's band, points and fold mark as the accumulators take them (R110, R118). -/
theorem Totals.apply_measured (t : Totals) (b : BlockInHand) (lm : Nat) (n : Note) :
    let lr := scaledPeriod n.period b.entry.key
    let d := if b.prm.octaveFold then leastDeviation lm lr else deviation lm lr
    let new := t.apply (judgeOver b (some lm) n)
    let base := { t with
      possible := t.possible + 4 * n.weight
      folds := if b.prm.octaveFold = true ∧ leastDeviation lm lr < deviation lm lr then bump 1 t.folds else t.folds }
    (d ≤ b.prm.pMax → new = { base with
      earned := bump (4 * n.weight) t.earned, perfect := bump 1 t.perfect, streak := bump 1 t.streak
      maxStreak := max t.maxStreak (bump 1 t.streak), lastBand := some .perfect }) ∧
    (b.prm.pMax < d → d ≤ b.prm.gMax → new = { base with
      earned := bump (3 * n.weight) t.earned, good := bump 1 t.good, streak := bump 1 t.streak
      maxStreak := max t.maxStreak (bump 1 t.streak), lastBand := some .good }) ∧
    (b.prm.pMax < d → b.prm.gMax < d → d ≤ b.prm.fMax → new = { base with
      earned := bump n.weight t.earned, fair := bump 1 t.fair, streak := 0, lastBand := some .fair }) ∧
    (b.prm.pMax < d → b.prm.gMax < d → b.prm.fMax < d → new = { base with
      earned := bump 0 t.earned, miss := bump 1 t.miss, streak := 0, lastBand := some .miss }) := by
  intro lr d new base
  have judged : judgeOver b (some lm) n = ⟨b.entry.channel, b.entry.ticket, bandOf b.prm d,
      bandPoints (bandOf b.prm d) n.weight, 4 * n.weight, false,
      decide (b.prm.octaveFold = true ∧ leastDeviation lm lr < deviation lm lr)⟩ := by
    simp only [judgeOver, takenDeviation_eq]
    rfl
  have banded : ∀ band, bandOf b.prm d = band → new = t.apply ⟨b.entry.channel, b.entry.ticket, band,
      bandPoints band n.weight, 4 * n.weight, false,
      decide (b.prm.octaveFold = true ∧ leastDeviation lm lr < deviation lm lr)⟩ := fun band h => by
    rw [← h]
    exact congrArg t.apply judged
  refine ⟨fun p => ?_, fun p g => ?_, fun p g f => ?_, fun p g f => ?_⟩
  · rw [banded .perfect (by simp [bandOf, p])]
    simp [Totals.apply, bandPoints, base]
  · rw [banded .good (by simp [bandOf, Nat.not_le.mpr p, g])]
    simp [Totals.apply, bandPoints, base]
  · rw [banded .fair (by simp [bandOf, Nat.not_le.mpr p, Nat.not_le.mpr g, f])]
    simp [Totals.apply, bandPoints, base]
  · rw [banded .miss (by simp [bandOf, Nat.not_le.mpr p, Nat.not_le.mpr g, Nat.not_le.mpr f])]
    simp [Totals.apply, bandPoints, base]

/-- Settles O44. The end of an analysis is one take after the engine's report; a judgement is what the lookup finds,
then the Score Unit's part of it. -/
theorem measuredBlocksAreJudged : Obligations.MeasuredBlocksAreJudged := by
  unfold Obligations.MeasuredBlocksAreJudged
  refine ⟨fun v ch k => ?_, fun s e => ?_, fun s b hb => ?_, fun s b period i => ?_⟩
  · obtain ⟨frame, others⟩ := v.release_frame ch k
    refine ⟨frame, others, fun held => ?_, fun free => ?_⟩
    · rw [Vin.release_held k held]
      exact vset_get_self ..
    · rw [Vin.release_free k free]
      exact vset_get_self ..
  · refine ⟨fun hq => ⟨fun hd hr => State.endAnalysis_empty_reports hq hd hr, State.endAnalysis_empty_quiet hq⟩,
      fun e' rest hq => ?_⟩
    obtain ⟨reports, quiet, -⟩ := ((s.halfReleased e).blockTaken e' rest).drainReports
    refine ⟨(s.halfReleased e).blockTaken e' rest, rfl, fun ⟨finishing, drain⟩ last hr => ?_, fun h => ?_,
      rfl, rfl, ?_, ?_, ?_⟩
    · rw [State.endAnalysis_next hq]
      exact reports ⟨finishing, drain, last⟩ (by simpa [State.blockTaken, State.halfReleased] using hr)
    · rw [State.endAnalysis_next hq]
      rcases h with off | more | made
      · exact quiet (.inl fun ⟨finishing, drain, _⟩ => off ⟨finishing, drain⟩)
      · exact quiet (.inl fun ⟨_, _, last⟩ => more last)
      · exact quiet (.inr (by simpa [State.blockTaken, State.halfReleased] using made))
    · simp [State.blockTaken, State.halfReleased]
    · rw [State.blockTaken_half]
    · rw [State.blockTaken_half]
      rfl
  · refine ⟨fun hp => ⟨?_, fun room => ?_⟩, fun period hp => ⟨?_, ?_⟩⟩
    · simp only [State.retryJudgement, hb, hp]
    · have work : s.measurementEnd = s.judge b
          (measure b.prm ((s.vin.channels.get b.entry.channel).halves.get b.entry.half).samples) := by
        simp only [State.measurementEnd, hb, hp]
      show Host.Outcome.next _ = _
      rw [State.whenRoom_room _ room, work]
    · simp only [State.retryJudgement, hb, hp]
    · have work : s.measurementEnd = s := by simp only [State.measurementEnd, hb, hp]
      show Host.Outcome.next _ = _
      rw [State.whenRoom_handsNothing (by rw [work]), work]
  · intro e t past mine found
    refine ⟨State.judge_unjudged, fun hm hi => ?_⟩
    obtain ⟨rest, late, wait, note⟩ := State.judge_held (period := period) hm hi
    refine ⟨rest, late, wait, fun n hn => ?_⟩
    intro taken old
    obtain ⟨channel, ticket, possible⟩ := judgeOver_fields b period n
    have matched : (s.scr.singers.get i).link = some e.ticket → s.scr.matching (judgeOver b period n) = some i :=
      fun link => Scr.matching_holder (by rw [channel]; exact hi) (by rw [ticket]; exact link)
    refine ⟨fun discarded => ?_, fun link takes within => ?_⟩
    · have kept : s.applyJudgement (judgeOver b period n) = s := by
        rcases discarded with unlinked | off | ⟨link, past⟩
        · refine State.applyJudgement_unmatched (.inl (Scr.matching_none ?_))
          rw [channel, ticket]
          exact unlinked
        · exact State.applyJudgement_unmatched (.inr (Bool.eq_false_iff.mpr (off ∘ s.scu.takesJudgements_iff.mp)))
        · refine State.applyJudgement_past (matched link) ?_
          rw [possible]
          exact past
      rw [note n hn, kept]
    · obtain ⟨frame, scr, counted, reached, others, own⟩ := State.applyJudgement_matched (matched link)
        (s.scu.takesJudgements_iff.mpr takes) (by rw [possible]; exact within)
      refine ⟨s.applyJudgement (judgeOver b period n), note n hn, frame, scr, counted, reached, others, ?_⟩
      intro new up
      have totals : new = old.apply (judgeOver b period n) := congrArg Singer.totals own
      refine ⟨own.trans (by rw [totals]), fun unvoiced => ?_, fun lm measured => ?_⟩
      · rw [totals, unvoiced]
        exact Totals.apply_unvoiced ..
      · rw [totals, measured]
        exact Totals.apply_measured old b lm n

end Sys2Proof.Machine
end

