-- ==== Sys2Proof/Proofs/Measurement.lean ====
section
/-! The measurement of a block: the function of lags and its extremes (R98), the chosen lag (R99), which blocks are
VOICED (R97, R100), and the refinement between lags (R101). -/

namespace Sys2Proof.Machine

/-! ## The function of lags (R98) -/

/-- D(L) as a sum, for a lag that leaves 80 samples behind it. -/
theorem amdf_eq {x : List Int} {lag : Nat} (h : 80 + lag ≤ x.length) :
    amdf x lag = ((List.range 80).map (fun n => (x.getD n 0 - x.getD (n + lag) 0).natAbs)).sum := by
  have terms : ((x.take 80).zip (x.drop lag)).map (fun p => (p.1 - p.2).natAbs) =
      (List.range 80).map (fun n => (x.getD n 0 - x.getD (n + lag) 0).natAbs) := by
    refine List.ext_getElem ?_ fun n h₁ h₂ => ?_
    · simp only [List.length_map, List.length_zip, List.length_take, List.length_drop, List.length_range]
      omega
    have hn : n < 80 := by simpa using h₂
    have first : x.getD n 0 = x[n] := List.getD_eq_getElem _ _ (by omega)
    have second : x.getD (n + lag) 0 = x[lag + n] := by
      rw [Nat.add_comm]
      exact List.getD_eq_getElem _ _ (by omega)
    simp only [List.getElem_map, List.getElem_zip, List.getElem_take, List.getElem_drop, List.getElem_range, first,
      second]
  rw [← terms, List.sum_eq_foldl, List.foldl_map, amdf]

/-- 80 differences of 16-bit samples. -/
theorem amdf_le {x : List Int} {lag : Nat} (h : 80 + lag ≤ x.length) (hx : ∀ v ∈ x, -32768 ≤ v ∧ v ≤ 32767) :
    amdf x lag ≤ 5242800 := by
  have sample : ∀ n < x.length, -32768 ≤ x.getD n 0 ∧ x.getD n 0 ≤ 32767 := fun n hn => by
    rw [List.getD_eq_getElem _ _ hn]
    exact hx _ (List.getElem_mem hn)
  have total := List.sum_le_card_nsmul ((List.range 80).map (fun n => (x.getD n 0 - x.getD (n + lag) 0).natAbs)) 65535
  rw [amdf_eq h]
  refine (total fun d hd => ?_).trans (by simp)
  obtain ⟨n, hn, rfl⟩ := List.mem_map.mp hd
  have hn : n < 80 := List.mem_range.mp hn
  have first := sample n (by omega)
  have second := sample (n + lag) (by omega)
  omega

/-- The table holds D(L) for the lags 12 to 176. -/
theorem dAt_amdfTable (x : List Int) {l : Nat} (h : 12 ≤ l ∧ l ≤ 176) : dAt (amdfTable x) l = amdf x l := by
  have inTable : l - 12 < (amdfTable x).length := by
    rw [amdfTable, List.length_map, List.length_range]
    omega
  rw [dAt, List.getD_eq_getElem _ _ inTable]
  simp [amdfTable, h.1]

theorem mem_amdfTable {x : List Int} {v : Nat} : v ∈ amdfTable x ↔ ∃ l, 12 ≤ l ∧ l ≤ 176 ∧ v = dAt (amdfTable x) l := by
  constructor
  · intro hv
    obtain ⟨i, hi, rfl⟩ := List.mem_map.mp hv
    have hi : i < 165 := List.mem_range.mp hi
    exact ⟨12 + i, by omega, by omega, (dAt_amdfTable x (by omega)).symm⟩
  · rintro ⟨l, low, high, rfl⟩
    rw [dAt_amdfTable x ⟨low, high⟩]
    exact List.mem_map.mpr ⟨l - 12, List.mem_range.mpr (by omega), by rw [Nat.add_sub_cancel' low]⟩

theorem dMin_eq_min? {d : List Nat} (h : d ≠ []) : d.min? = some (dMin d) := by
  obtain ⟨v, d, rfl⟩ := List.exists_cons_of_ne_nil h
  rw [List.min?_cons', dMin, List.headD_cons, List.foldl_cons, min_self]

theorem dMax_eq_max? {d : List Nat} (h : d ≠ []) : d.max? = some (dMax d) := by
  obtain ⟨v, d, rfl⟩ := List.exists_cons_of_ne_nil h
  rw [List.max?_cons', dMax, List.foldl_cons, Nat.zero_max]

theorem amdfTable_ne_nil (x : List Int) : amdfTable x ≠ [] :=
  List.ne_nil_of_mem (mem_amdfTable.mpr ⟨12, by omega, by omega, rfl⟩)

/-- Dmin is one of the 165 values and at or below each. -/
theorem dMin_least (x : List Int) :
    (∃ l, 12 ≤ l ∧ l ≤ 176 ∧ dMin (amdfTable x) = dAt (amdfTable x) l) ∧
      ∀ l, 12 ≤ l → l ≤ 176 → dMin (amdfTable x) ≤ dAt (amdfTable x) l := by
  obtain ⟨mem, least⟩ := List.min?_eq_some_iff.mp (dMin_eq_min? (amdfTable_ne_nil x))
  exact ⟨mem_amdfTable.mp mem, fun l low high => least _ (mem_amdfTable.mpr ⟨l, low, high, rfl⟩)⟩

/-- Dmax is one of the 165 values and at or above each. -/
theorem dMax_greatest (x : List Int) :
    (∃ l, 12 ≤ l ∧ l ≤ 176 ∧ dMax (amdfTable x) = dAt (amdfTable x) l) ∧
      ∀ l, 12 ≤ l → l ≤ 176 → dAt (amdfTable x) l ≤ dMax (amdfTable x) := by
  obtain ⟨mem, greatest⟩ := List.max?_eq_some_iff.mp (dMax_eq_max? (amdfTable_ne_nil x))
  exact ⟨mem_amdfTable.mp mem, fun l low high => greatest _ (mem_amdfTable.mpr ⟨l, low, high, rfl⟩)⟩

/-- Dmax bounds whatever is read from the table, at every lag. -/
theorem dAt_le_dMax (d : List Nat) (l : Nat) : dAt d l ≤ dMax d := by
  rw [dAt, List.getD_eq_getElem?_getD]
  cases hv : d[l - 12]? with
  | none => exact Nat.zero_le _
  | some v =>
    have mem : v ∈ d := List.mem_of_getElem? hv
    exact (List.max?_eq_some_iff.mp (dMax_eq_max? (List.ne_nil_of_mem mem))).2 v mem

/-! ## The chosen lag and VOICED (R97, R99, R100) -/

/-- A lag that is no edge, a local minimum, and within an eighth of Dmin. -/
def DipsAt (d : List Nat) (l : Nat) : Prop :=
  13 ≤ l ∧ l ≤ 175 ∧ dAt d l ≤ dAt d (l - 1) ∧ dAt d l ≤ dAt d (l + 1) ∧ dAt d l ≤ dMin d + dMin d / 8

/-- The chosen lag is the first that dips. -/
theorem chosenLag_eq_some_iff (d : List Nat) (l : Nat) :
    chosenLag d = some l ↔ DipsAt d l ∧ ∀ j < l, ¬ DipsAt d j := by
  unfold chosenLag
  rw [List.find?_map, Option.map_eq_some_iff]
  simp only [List.find?_range_eq_some, Function.comp_apply, List.mem_range, Bool.not_eq_true', Bool.eq_false_iff, ne_eq,
    Bool.and_eq_true, decide_eq_true_eq]
  constructor
  · rintro ⟨i, ⟨⟨⟨below, above⟩, deep⟩, hi, first⟩, rfl⟩
    refine ⟨⟨by omega, by omega, below, above, deep⟩, fun j hj ⟨low, _, below', above', deep'⟩ => ?_⟩
    refine first (j - 13) (by omega) ?_
    rw [Nat.add_sub_cancel' low]
    exact ⟨⟨below', above'⟩, deep'⟩
  · rintro ⟨⟨low, high, below, above, deep⟩, first⟩
    refine ⟨l - 13, ⟨?_, by omega, fun j hj ⟨⟨below', above'⟩, deep'⟩ => ?_⟩, by omega⟩
    · rw [Nat.add_sub_cancel' low]
      exact ⟨⟨below, above⟩, deep⟩
    · exact first (13 + j) (by omega) ⟨by omega, by omega, below', above', deep'⟩

theorem level_eq (x : List Int) : level x = (x.map Int.natAbs).sum / 256 := by
  rw [level, List.sum_eq_foldl, List.foldl_map]

/-- A block is VOICED when it has a chosen lag, a level at GATE and a clarity at CLARITY_MIN; its period is then the
refined lag. -/
theorem measure_eq_some_iff (prm : Scoring) (x : List Int) (m : Nat) :
    let d := amdfTable x
    measure prm x = some m ↔ ∃ l, chosenLag d = some l ∧
      (dMax d ≠ 0 ∧ prm.gate ≤ level x ∧ prm.clarityMin ≤ clarity d l) ∧
      m = (16 * (l : Int) + refine (dAt d (l - 1)) (dAt d l) (dAt d (l + 1))).toNat := by
  intro d
  unfold measure
  cases hl : chosenLag (amdfTable x) with
  | none => simp [d, hl]
  | some l => simp [d, hl, eq_comm]

/-- Settles O58: the table read back as its sums, its extremes as the least and greatest of a list, and the search for
the chosen lag as the first that dips. -/
theorem lagsAreSummedAndChosen : Obligations.LagsAreSummedAndChosen := by
  unfold Obligations.LagsAreSummedAndChosen
  refine ⟨fun x hlen hx => ?_, fun prm x => ⟨chosenLag_eq_some_iff _, fun l => ?_, ?_⟩⟩
  · obtain ⟨dminAt, least⟩ := dMin_least x
    obtain ⟨dmaxAt, greatest⟩ := dMax_greatest x
    refine ⟨fun l low high => ?_, dminAt, dmaxAt⟩
    have room : 80 + l ≤ x.length := by omega
    have atLag := dAt_amdfTable x ⟨low, high⟩
    exact ⟨atLag.trans (amdf_eq room), atLag.trans_le (amdf_le room hx), least l low high, greatest l low high⟩
  · exact Nat.div_le_of_le_mul (by rw [Nat.mul_comm]; exact Nat.mul_le_mul_right 256 (dAt_le_dMax _ l))
  · simp only [measure_eq_some_iff, chosenLag_eq_some_iff, ← level_eq]
    constructor
    · rintro ⟨_, l, ⟨dips, first⟩, ⟨sounds, loud, clear⟩, -⟩
      exact ⟨l, dips, first, sounds, loud, clear⟩
    · rintro ⟨l, dips, first, sounds, loud, clear⟩
      exact ⟨_, l, ⟨dips, first⟩, ⟨sounds, loud, clear⟩, rfl⟩

/-! ## The refinement between lags (R101) -/

/-- 8 × num / den to the nearest whole sixteenth, halves away from zero. -/
def nearestSixteenth (num den : Int) : Int := num.sign * ((16 * num.natAbs + den.toNat) / (2 * den.toNat) : Nat)

/-- The offset of the parabola through three values of D: none where they do not open upwards, and otherwise the nearest
sixteenth, clamped. -/
theorem refine_eq (a b c : Nat) :
    let num : Int := a - c
    let den : Int := a - 2 * b + c
    (den ≤ 0 → refine a b c = 0) ∧ (0 < den → refine a b c = clampInt (-8) 8 (nearestSixteenth num den)) :=
  ⟨fun flat => if_pos flat, fun opens => if_neg (Int.not_le.mpr opens)⟩

/-- Rounding a quotient of naturals to the nearest, halves up. -/
theorem nearest_quotient {n d : Nat} (hd : 0 < d) :
    let q := (16 * n + d) / (2 * d)
    2 * (q * d) ≤ 16 * n + d ∧ 16 * n < 2 * (q * d) + d := by
  intro q
  have lower : q * (2 * d) ≤ 16 * n + d := Nat.div_mul_le_self ..
  have upper : 16 * n + d < q * (2 * d) + 2 * d := Nat.lt_div_mul_add (by omega)
  have reorder : q * (2 * d) = 2 * (q * d) := Nat.mul_left_comm ..
  omega

section
variable {num den : Int}

theorem nearestSixteenth_zero (den : Int) : nearestSixteenth 0 den = 0 := by simp [nearestSixteenth]

theorem nearestSixteenth_natAbs (hden : 0 < den) :
    (nearestSixteenth num den).natAbs = (16 * num.natAbs + den.toNat) / (2 * den.toNat) := by
  obtain rfl | hn := eq_or_ne num 0
  · rw [nearestSixteenth_zero den]
    exact (Nat.div_eq_of_lt (by omega)).symm
  · rw [nearestSixteenth, Int.natAbs_mul, Int.natAbs_sign_of_ne_zero hn, Nat.one_mul, Int.natAbs_natCast]

theorem nearestSixteenth_sign (num den : Int) :
    nearestSixteenth num den = 0 ∨ (nearestSixteenth num den).sign = num.sign := by
  unfold nearestSixteenth
  rcases Nat.eq_zero_or_pos ((16 * num.natAbs + den.toNat) / (2 * den.toNat)) with hq | hq
  · exact .inl (by rw [hq]; simp)
  · exact .inr (by rw [Int.sign_mul, Int.sign_sign, Int.sign_natCast_of_ne_zero hq.ne', Int.mul_one])

/-- The distance of the rounded offset from 8 × num / den, over the denominator, is that of the absolute values. -/
theorem nearestSixteenth_distance (hden : 0 < den) :
    (nearestSixteenth num den * den - 8 * num).natAbs =
      (((nearestSixteenth num den).natAbs * den.toNat : Nat) - 8 * (num.natAbs : Int)).natAbs := by
  obtain rfl | hn := eq_or_ne num 0
  · simp [nearestSixteenth_zero den]
  · have signed : nearestSixteenth num den * den - 8 * num =
        num.sign * (((nearestSixteenth num den).natAbs * den.toNat : Nat) - 8 * (num.natAbs : Int)) := by
      rw [nearestSixteenth_natAbs hden, nearestSixteenth, Nat.cast_mul, Int.toNat_of_nonneg hden.le]
      linear_combination 8 * Int.sign_mul_natAbs num
    rw [signed, Int.natAbs_mul, Int.natAbs_sign_of_ne_zero hn, Nat.one_mul]

/-- The rounded offset is within half a unit of 8 × num / den, and a half is rounded away from zero. -/
theorem nearestSixteenth_nearest (hden : 0 < den) :
    2 * (nearestSixteenth num den * den - 8 * num).natAbs ≤ den.toNat ∧
      (2 * (nearestSixteenth num den * den - 8 * num).natAbs = den.toNat →
        8 * num.natAbs ≤ (nearestSixteenth num den * den).natAbs) := by
  obtain ⟨lower, upper⟩ := nearest_quotient (n := num.natAbs) (d := den.toNat) (by omega)
  have scaled : (nearestSixteenth num den * den).natAbs = (nearestSixteenth num den).natAbs * den.toNat := by
    rw [Int.natAbs_mul]
    congr 1
    omega
  rw [nearestSixteenth_distance hden, scaled]
  rw [← nearestSixteenth_natAbs hden] at lower upper
  generalize (nearestSixteenth num den).natAbs * den.toNat = p at lower upper ⊢
  omega

end

/-- The rounded offset leans to the side of its numerator. -/
theorem nearestSixteenth_leans (num den : Int) :
    (0 < nearestSixteenth num den → 0 < num) ∧ (nearestSixteenth num den < 0 → num < 0) := by
  rcases nearestSixteenth_sign num den with none | same
  · rw [none]
    exact ⟨fun h => absurd h (lt_irrefl 0), fun h => absurd h (lt_irrefl 0)⟩
  · exact ⟨fun h => Int.sign_eq_one_iff_pos.mp (same ▸ Int.sign_eq_one_of_pos h),
      fun h => Int.sign_eq_neg_one_iff_neg.mp (same ▸ Int.sign_eq_neg_one_of_neg h)⟩

theorem clampInt_eight (x : Int) :
    let y := clampInt (-8) 8 x
    (-8 ≤ y ∧ y ≤ 8) ∧ (0 < y → 0 < x) ∧ (y < 0 → x < 0) := by
  unfold clampInt
  dsimp only
  split
  · omega
  · split <;> omega

/-- The offset stays within half a sample and leans towards the lower neighbour. -/
theorem refine_leans (a b c : Nat) :
    (-8 ≤ refine a b c ∧ refine a b c ≤ 8) ∧ (0 < refine a b c → (c : Int) < a) ∧
      (refine a b c < 0 → (a : Int) < c) := by
  obtain ⟨flat, opens⟩ := refine_eq a b c
  rcases le_or_gt ((a : Int) - 2 * b + c) 0 with h | h
  · rw [flat h]
    omega
  · obtain ⟨within, up, down⟩ := clampInt_eight (nearestSixteenth ((a : Int) - c) (a - 2 * b + c))
    obtain ⟨towards, away⟩ := nearestSixteenth_leans ((a : Int) - c) (a - 2 * b + c)
    rw [opens h]
    exact ⟨within, fun pos => by have := towards (up pos); omega, fun neg => by have := away (down neg); omega⟩

/-- Settles O59: the refined lag of a VOICED block, its fraction the nearest sixteenth clamped. -/
theorem periodIsRefinedByTheParabola : Obligations.PeriodIsRefinedByTheParabola := by
  unfold Obligations.PeriodIsRefinedByTheParabola
  intro prm x m hm
  obtain ⟨l, chosen, -, hm⟩ := (measure_eq_some_iff prm x m).mp hm
  obtain ⟨⟨low, high, -⟩, -⟩ := (chosenLag_eq_some_iff _ l).mp chosen
  generalize amdfTable x = d at chosen hm ⊢
  obtain ⟨flat, opens⟩ := refine_eq (dAt d (l - 1)) (dAt d l) (dAt d (l + 1))
  obtain ⟨within, leans⟩ := refine_leans (dAt d (l - 1)) (dAt d l) (dAt d (l + 1))
  refine ⟨l, _, chosen, ?_, ?_, ?_, flat, fun hden => ?_, leans⟩
  · rw [hm]
    omega
  · omega
  · omega
  · obtain ⟨near, halves⟩ := nearestSixteenth_nearest hden
    exact ⟨_, nearestSixteenth_natAbs hden, nearestSixteenth_sign .., near, halves, opens hden⟩

end Sys2Proof.Machine
end

