-- ==== Sys2Proof/Proofs/KeyScaling.lean ====
section
/-! The reference period scaled by the KEY of a block's own entry (R109). -/

namespace Sys2Proof.Machine

/-- K[s] is 65,536 × 2^(s/12) rounded: twice the exact factor, raised to the twelfth power, lies between the twelfth
powers of the neighbouring odd numbers. -/
theorem semitone_rounded :
    ∀ s ≤ 12, (2 * semitone s - 1) ^ 12 ≤ 131072 ^ 12 * 2 ^ s ∧ 131072 ^ 12 * 2 ^ s ≤ (2 * semitone s + 1) ^ 12 := by
  decide

/-- A factor of a raised or lowered key lies above 1 and at most at 2. -/
theorem semitone_range : ∀ s ≤ 12, 1 ≤ s → 69433 ≤ semitone s ∧ semitone s ≤ 131072 := by decide

theorem scaledPeriod_unkeyed (lr : Nat) : scaledPeriod lr 0 = lr := rfl

theorem scaledPeriod_raised (lr : Nat) {k : Int} (h : 0 < k) :
    scaledPeriod lr k = (lr * 65536 + semitone k.toNat / 2) / semitone k.toNat := by
  rw [scaledPeriod, if_neg (by omega), if_pos h]

theorem scaledPeriod_lowered (lr : Nat) {k : Int} (h : k < 0) :
    scaledPeriod lr k = (lr * semitone (-k).toNat + 32768) / 65536 := by
  rw [scaledPeriod, if_neg (by omega), if_neg (by omega)]

theorem scaledPeriod_octaveDown (lr : Nat) : scaledPeriod lr (-12) = 2 * lr := by
  have octave : semitone (-(-12 : Int)).toNat = 131072 := rfl
  rw [scaledPeriod_lowered lr (by omega), octave]
  omega

theorem scaledPeriod_octaveUp (lr : Nat) : scaledPeriod lr 12 = (lr + 1) / 2 := by
  have octave : semitone (12 : Int).toNat = 131072 := rfl
  rw [scaledPeriod_raised lr (by omega), octave]
  omega

/-- A period of the notes' range stays within an octave of it under every key. -/
theorem scaledPeriod_range {lr : Nat} {k : Int} (hk : -12 ≤ k ∧ k ≤ 12) (hlr : 192 ≤ lr ∧ lr ≤ 2816) :
    96 ≤ scaledPeriod lr k ∧ scaledPeriod lr k ≤ 5632 := by
  rcases lt_trichotomy k 0 with h | rfl | h
  · obtain ⟨low, high⟩ := semitone_range (-k).toNat (by omega) (by omega)
    have least : 192 * 69433 ≤ lr * semitone (-k).toNat := Nat.mul_le_mul hlr.1 low
    have greatest : lr * semitone (-k).toNat ≤ 2816 * 131072 := Nat.mul_le_mul hlr.2 high
    rw [scaledPeriod_lowered lr h]
    omega
  · rw [scaledPeriod_unkeyed]
    omega
  · obtain ⟨low, high⟩ := semitone_range k.toNat (by omega) (by omega)
    rw [scaledPeriod_raised lr h, Nat.le_div_iff_mul_le (by omega)]
    refine ⟨by omega, Nat.div_le_of_le_mul ?_⟩
    omega

/-- A measured block is judged by the KEY of its own entry. -/
theorem judgeOver_band (b : BlockInHand) (lm : Nat) (n : Note) :
    (judgeOver b (some lm) n).band =
      bandOf b.prm (takenDeviation b.prm.octaveFold lm (scaledPeriod n.period b.entry.key)).1 := rfl

/-- Settles O60. -/
theorem referencePeriodIsScaledByTheKey : Obligations.ReferencePeriodIsScaledByTheKey := by
  unfold Obligations.ReferencePeriodIsScaledByTheKey
  refine ⟨semitone_rounded, fun lr k low high => ⟨?_, scaledPeriod_raised lr, scaledPeriod_lowered lr, ?_, ?_,
    fun least greatest => scaledPeriod_range ⟨low, high⟩ ⟨least, greatest⟩⟩, judgeOver_band⟩
  · rintro rfl
    exact scaledPeriod_unkeyed lr
  · rintro rfl
    exact scaledPeriod_octaveDown lr
  · rintro rfl
    exact scaledPeriod_octaveUp lr

end Sys2Proof.Machine
end

