-- ==== Sys2Proof/Proofs/NoteWindows.lean ====
section
/-! The note windows (R102 to R104, R106): their fetch, what leaves and joins them, and an offer; and what the lookup
finds in them (R108). -/

namespace Sys2Proof.Machine

/-! ## The next fetch (R103) -/

/-- Notes are read: in PLAYING, the rebuild and DRAIN. -/
def State.readsNotes (s : State) : Prop :=
  s.scu.state = .playing ∨ (s.scu.state = .seeking ∧ s.pje.rebuild = true) ∨
    (s.scu.state = .finishing ∧ s.scu.phase = some .drain)

/-- The conditions under which a note fetch is issued. -/
def State.issuesNoteFetch (s : State) : Prop :=
  s.pje.fetch = none ∧ s.pje.held = none ∧ s.pje.cursor < s.pje.noteCount ∧ s.readsNotes

theorem State.notesRun_iff (s : State) : s.notesRun = true ↔ s.readsNotes := by
  unfold State.notesRun State.readsNotes
  cases s.scu.state <;> simp

theorem State.tryNoteFetch_iff (s : State) :
    (s.issuesNoteFetch → s.tryNoteFetch = { s with
      pje := { s.pje with fetch := some s.ptu.nextOp }
      ptu := s.ptu.startOp .note .noteFetch (readsOver (s.pje.noteBase + 8 * s.pje.cursor) 8) }) ∧
      (¬ s.issuesNoteFetch → s.tryNoteFetch = s) := by
  have cond : (s.pje.fetch = none ∧ s.pje.held = none ∧ s.pje.cursor < s.pje.noteCount ∧ s.notesRun = true) ↔
      s.issuesNoteFetch := by rw [State.notesRun_iff, State.issuesNoteFetch]
  exact ⟨fun h => if_pos (cond.mpr h), fun h => if_neg fun c => h (cond.mp c)⟩

/-- A fetch issued names itself, hands its reads, and changes nothing else. -/
theorem State.tryNoteFetch_eq (s : State) :
    s.tryNoteFetch = { s with
      pje := { s.pje with fetch := (s.tryNoteFetch).pje.fetch }, ptu := (s.tryNoteFetch).ptu } := by
  unfold State.tryNoteFetch
  split <;> rfl

/-- With no fetch in flight, one is in flight afterwards exactly when it was issued. -/
theorem State.tryNoteFetch_isSome {s : State} (h : s.pje.fetch = none) :
    (s.tryNoteFetch).pje.fetch.isSome = true ↔ s.issuesNoteFetch := by
  obtain ⟨issued, stays⟩ := s.tryNoteFetch_iff
  by_cases hi : s.issuesNoteFetch
  · simp [issued hi, hi]
  · simp [stays hi, hi, h]

/-! ## What joins and leaves the windows (R103, R104) -/

/-- Every window of the note's part has room. -/
theorem Pje.hasRoom_iff (n : Note) (p : Pje) :
    p.hasRoom n = true ↔ (n.part = .b ∨ p.winA.length < 4) ∧ (n.part = .a ∨ p.winB.length < 4) := by
  unfold Pje.hasRoom
  split <;> simp [*]

/-- The note at the tail of the window of its part, or of both. -/
theorem Pje.addNote_eq (n : Note) (p : Pje) :
    p.addNote n = { p with
      winA := if n.part = .b then p.winA else p.winA ++ [n]
      winB := if n.part = .a then p.winB else p.winB ++ [n] } := by
  unfold Pje.addNote
  split <;> simp [*]

/-- A note is admitted when it is within reach and each window of its part has room. -/
def Pje.admits (reach : Nat) (n : Note) (p : Pje) : Prop :=
  n.start ≤ reach ∧ (n.part = .b ∨ p.winA.length < 4) ∧ (n.part = .a ∨ p.winB.length < 4)

theorem Pje.takeNote_iff (reach : Nat) (n : Note) (p : Pje) :
    (p.admits reach n → p.takeNote reach n = p.addNote n) ∧
      (¬ p.admits reach n → p.takeNote reach n = { p with held := some n }) := by
  have cond : (decide (n.start ≤ reach) && p.hasRoom n) = true ↔ p.admits reach n := by
    rw [Bool.and_eq_true, decide_eq_true_eq, Pje.hasRoom_iff, Pje.admits]
  exact ⟨fun h => if_pos (cond.mpr h), fun h => if_neg fun c => h (cond.mp c)⟩

/-- Taking a note touches the windows and the held note. -/
theorem Pje.takeNote_eq (reach : Nat) (n : Note) (p : Pje) :
    p.takeNote reach n = { p with
      winA := (p.takeNote reach n).winA, winB := (p.takeNote reach n).winB, held := (p.takeNote reach n).held } := by
  obtain ⟨joins, holds⟩ := Pje.takeNote_iff reach n p
  by_cases h : p.admits reach n
  · rw [joins h, Pje.addNote_eq]
  · rw [holds h]

/-- A note stays while its end is above SONG_MS - LATENCY_MS - 1000. -/
def Pje.keeps (songMs : Nat) (p : Pje) (n : Note) : Prop := songMs < n.start + n.duration + p.prm.latencyMs + 1000

theorem Pje.noteLeft_false_iff (songMs : Nat) (p : Pje) (n : Note) :
    noteLeft songMs p.prm.latencyMs n = false ↔ p.keeps songMs n := by
  rw [noteLeft, decide_eq_false_iff_not, Nat.not_le]
  rfl

/-- The leaving bound keeps, in their order, the notes that stay. -/
theorem Pje.leave_windows (songMs : Nat) (p : Pje) :
    ((p.leave songMs).winA.Sublist p.winA ∧ ∀ m, m ∈ (p.leave songMs).winA ↔ m ∈ p.winA ∧ p.keeps songMs m) ∧
      ((p.leave songMs).winB.Sublist p.winB ∧ ∀ m, m ∈ (p.leave songMs).winB ↔ m ∈ p.winB ∧ p.keeps songMs m) := by
  have kept : ∀ (win : List Note) (m : Note),
      m ∈ win.filter (fun n => !noteLeft songMs p.prm.latencyMs n) ↔ m ∈ win ∧ p.keeps songMs m := fun win m => by
    rw [List.mem_filter, Bool.not_eq_true', Pje.noteLeft_false_iff]
  exact ⟨⟨List.filter_sublist, kept _⟩, List.filter_sublist, kept _⟩

/-! ## A judgement tried again (R95, R108) -/

theorem State.retryJudgement_measuring {s : State} (h : ∀ b, s.pje.block = some b → b.phase = .measuring) :
    s.retryJudgement = s := by
  unfold State.retryJudgement
  cases hb : s.pje.block with
  | none => rfl
  | some b => simp only [h b hb]

theorem State.retryJudgement_judging {s : State} {b : BlockInHand} {period : Option Nat} (hb : s.pje.block = some b)
    (hp : b.phase = .judging period) : s.retryJudgement = s.judge b period := by
  simp only [State.retryJudgement, hb, hp]

/-! ## An offer (R104) -/

/-- The windows after an offer: the leaving bound applied, the held note tried. -/
def State.offeredNotes (s : State) : Pje := (s.pje.leave s.songMs).retryHeld (s.songMs + s.prm.lookaheadMs)

/-- The engine after an offer and the next fetch, before a judgement that waits is tried again. -/
def State.notesOffered (s : State) : State := State.tryNoteFetch { s with pje := s.offeredNotes }

theorem State.offerPje_eq (s : State) : s.offerPje = s.notesOffered.retryJudgement := rfl

/-- An offer touches the windows and the held note. -/
theorem State.offeredNotes_eq (s : State) :
    s.offeredNotes = { s.pje with
      winA := s.offeredNotes.winA, winB := s.offeredNotes.winB, held := s.offeredNotes.held } := by
  unfold State.offeredNotes Pje.retryHeld
  split
  · rfl
  · rw [Pje.takeNote_eq]
    rfl

theorem State.offeredNotes_unheld {s : State} (h : s.pje.held = none) : s.offeredNotes = s.pje.leave s.songMs := by
  have left : (s.pje.leave s.songMs).held = none := h
  rw [State.offeredNotes, Pje.retryHeld, left]

/-- The held note is admitted if it now may be and stays held otherwise. -/
theorem State.offeredNotes_held {s : State} {n : Note} (h : s.pje.held = some n) :
    let p : Pje := { s.pje.leave s.songMs with held := none }
    (p.admits (s.songMs + s.prm.lookaheadMs) n → s.offeredNotes = p.addNote n) ∧
      (¬ p.admits (s.songMs + s.prm.lookaheadMs) n → s.offeredNotes = s.pje.leave s.songMs) := by
  intro p
  have left : (s.pje.leave s.songMs).held = some n := h
  have tried : s.offeredNotes = p.takeNote (s.songMs + s.prm.lookaheadMs) n := by
    rw [State.offeredNotes, Pje.retryHeld, left]
  obtain ⟨joins, holds⟩ := Pje.takeNote_iff (s.songMs + s.prm.lookaheadMs) n p
  rw [tried]
  refine ⟨joins, fun hn => (holds hn).trans ?_⟩
  rw [← left]

theorem State.notesOffered_pje (s : State) :
    s.notesOffered.pje = { s.offeredNotes with fetch := s.notesOffered.pje.fetch } :=
  congrArg State.pje (State.tryNoteFetch_eq _)

/-- The next fetch is issued behind the held note, when its conditions hold. -/
theorem State.notesOffered_fetch (s : State) :
    let u := s.notesOffered
    let issues := s.pje.fetch = none ∧ u.pje.held = none ∧ s.pje.cursor < s.pje.noteCount ∧ s.readsNotes
    (issues → u.pje.fetch = some s.ptu.nextOp ∧ u.ptu.links = s.ptu.links ∧ u.ptu.handed = s.ptu.handed ++
        requestsOf .noteFetch s.ptu.nextOp 0 (readsOver (s.pje.noteBase + 8 * s.pje.cursor) 8)) ∧
      (¬ issues → u.pje.fetch = s.pje.fetch ∧ u.ptu = s.ptu) := by
  intro u issues
  obtain ⟨issued, idle⟩ := State.tryNoteFetch_iff { s with pje := s.offeredNotes }
  have cond : State.issuesNoteFetch { s with pje := s.offeredNotes } ↔ issues := by
    have held : u.pje.held = s.offeredNotes.held := by rw [s.notesOffered_pje]
    simp only [issues, held, State.issuesNoteFetch, State.readsNotes]
    rw [State.offeredNotes_eq]
  rw [cond] at issued idle
  refine ⟨fun h => ?_, fun h => ?_⟩
  · have start : u = _ := issued h
    rw [start, State.offeredNotes_eq]
    exact ⟨rfl, by simp, by simp⟩
  · have stay : u = _ := idle h
    rw [stay, State.offeredNotes_eq]
    exact ⟨rfl, rfl⟩

/-! ## The lookup (R108) -/

/-- The note covers the time. -/
theorem Note.covers_iff (n : Note) (t : Nat) : n.covers t = true ↔ n.start ≤ t ∧ t < n.start + n.duration := by
  rw [Note.covers, Bool.and_eq_true, decide_eq_true_eq, decide_eq_true_eq, Note.finish]

/-- One more note of a window: it is found when it covers the time and starts no earlier than the note found so far. -/
theorem coveringNote_append (t : Nat) (win : List Note) (n : Note) :
    coveringNote t (win ++ [n]) =
      if n.covers t ∧ ∀ m, coveringNote t win = some m → m.start ≤ n.start then some n else coveringNote t win := by
  simp only [coveringNote, List.foldl_append, List.foldl_cons, List.foldl_nil]
  split
  · next hc =>
    split
    · next h => simp [h, hc]
    · next m h => simp [h, hc]
  · next hc => simp [hc]

theorem coveringNote_eq_none_iff (t : Nat) (win : List Note) :
    coveringNote t win = none ↔ ∀ n ∈ win, ¬ n.covers t := by
  induction win using List.reverseRecOn with
  | nil => simp [coveringNote]
  | append_singleton win n ih =>
    rw [coveringNote_append]
    split
    · next h => simp [h.1]
    · next h =>
      rw [ih, List.forall_mem_append, List.forall_mem_singleton]
      exact ⟨fun none => ⟨none, fun hc => h ⟨hc, by rw [ih.mpr none]; exact nofun⟩⟩, And.left⟩

/-- `n` is the covering note of the window with the latest start, the later of those with one start. -/
def LatestCover (t : Nat) (win : List Note) (n : Note) : Prop :=
  ∃ before after, win = before ++ n :: after ∧ n.covers t ∧ (∀ m ∈ before, m.covers t → m.start ≤ n.start) ∧
    ∀ m ∈ after, m.covers t → m.start < n.start

theorem latestCover_append (t : Nat) (win : List Note) (k n : Note) :
    LatestCover t (win ++ [k]) n ↔ (n = k ∧ k.covers t ∧ ∀ m ∈ win, m.covers t → m.start ≤ k.start) ∨
      (LatestCover t win n ∧ (k.covers t → k.start < n.start)) := by
  constructor
  · rintro ⟨before, after, parts, covers, earlier, later⟩
    obtain rfl | ⟨after, last, rfl⟩ := after.eq_nil_or_concat'
    · obtain ⟨rfl, rfl⟩ := List.append_singleton_inj.mp parts
      exact .inl ⟨rfl, covers, earlier⟩
    · rw [← List.cons_append, ← List.append_assoc] at parts
      obtain ⟨rfl, rfl⟩ := List.append_singleton_inj.mp parts
      exact .inr ⟨⟨before, after, rfl, covers, earlier, fun m hm => later m (List.mem_append_left _ hm)⟩,
        later k (by simp)⟩
  · rintro (⟨rfl, covers, earlier⟩ | ⟨⟨before, after, rfl, covers, earlier, later⟩, behind⟩)
    · exact ⟨win, [], rfl, covers, earlier, by simp⟩
    · refine ⟨before, after ++ [k], by simp, covers, earlier, fun m hm => ?_⟩
      rcases List.mem_append.mp hm with hm | hm
      · exact later m hm
      · rw [List.mem_singleton.mp hm]
        exact behind

theorem LatestCover.latest {t : Nat} {win : List Note} {n : Note} (h : LatestCover t win n) :
    ∀ m ∈ win, m.covers t → m.start ≤ n.start := by
  obtain ⟨before, after, rfl, -, earlier, later⟩ := h
  intro m hm hc
  rcases List.mem_append.mp hm with hm | hm
  · exact earlier m hm hc
  · rcases List.mem_cons.mp hm with rfl | hm
    · exact le_rfl
    · exact (later m hm hc).le

theorem LatestCover.mem {t : Nat} {win : List Note} {n : Note} (h : LatestCover t win n) :
    n ∈ win ∧ n.covers t = true := by
  obtain ⟨before, after, rfl, covers, -, -⟩ := h
  exact ⟨by simp, covers⟩

theorem coveringNote_eq_some_iff (t : Nat) (win : List Note) :
    ∀ n, coveringNote t win = some n ↔ LatestCover t win n := by
  induction win using List.reverseRecOn with
  | nil => simp [coveringNote, LatestCover]
  | append_singleton win k ih =>
    intro n
    rw [coveringNote_append, latestCover_append, ← ih]
    split
    · next h =>
      obtain ⟨hk, found⟩ := h
      have latest : ∀ m ∈ win, m.covers t → m.start ≤ k.start := fun m hm hc => by
        cases hf : coveringNote t win with
        | none => exact absurd hc ((coveringNote_eq_none_iff t win).mp hf m hm)
        | some f => exact (((ih f).mp hf).latest m hm hc).trans (found f hf)
      constructor
      · rintro ⟨⟩
        exact .inl ⟨rfl, hk, latest⟩
      · rintro (⟨rfl, -⟩ | ⟨hn, behind⟩)
        · rfl
        · exact absurd (found n hn) (Nat.not_le.mpr (behind hk))
    · next h =>
      constructor
      · intro hn
        refine .inr ⟨hn, fun hk => Nat.not_le.mp fun later => h ⟨hk, fun m hm => ?_⟩⟩
        rw [hn] at hm
        exact Option.some.inj hm ▸ later
      · rintro (⟨rfl, hk, latest⟩ | ⟨hn, -⟩)
        · refine absurd ⟨hk, fun m hm => ?_⟩ h
          obtain ⟨mem, covers⟩ := ((ih m).mp hm).mem
          exact latest m mem covers
        · exact hn

/-- The notes fetched reach beyond the time, or the list is read to its end. -/
theorem Pje.notesReady_iff (t : Nat) (p : Pje) :
    p.notesReady t = true ↔ (∃ f, p.front = some f ∧ t < f) ∨ (p.cursor = p.noteCount ∧ p.held = none) := by
  unfold Pje.notesReady
  cases p.front <;> simp

section
variable {songMs t : Nat} {part : Option SingerPart} {p : Pje}

theorem Pje.lookup_stale (h : t + p.prm.latencyMs + 1000 < songMs) : p.lookup songMs t part = .late := if_pos h

theorem Pje.lookup_unready (h : ¬ t + p.prm.latencyMs + 1000 < songMs) (hr : ¬ p.notesReady t = true) :
    p.lookup songMs t part = if p.fetch.isSome then .wait else .late := by
  rw [Pje.lookup, if_neg h, if_neg hr]

/-- Ready notes: what the lookup finds is the covering note, or a rest. -/
theorem Pje.lookup_ready (h : ¬ t + p.prm.latencyMs + 1000 < songMs) (hr : p.notesReady t = true) :
    p.lookup songMs t part = (coveringNote t (p.window part)).elim .rest .note := by
  rw [Pje.lookup, if_neg h, if_pos hr]
  cases coveringNote t (p.window part) <;> rfl

end

/-- When the lookup answers each of its four answers. -/
theorem Pje.lookup_iff (p : Pje) (songMs t : Nat) (part : Option SingerPart) :
    let stale := t + p.prm.latencyMs + 1000 < songMs
    (p.lookup songMs t part = .late ↔ stale ∨ (¬ p.notesReady t = true ∧ p.fetch = none)) ∧
      (p.lookup songMs t part = .wait ↔ ¬ stale ∧ ¬ p.notesReady t = true ∧ p.fetch ≠ none) ∧
      (p.lookup songMs t part = .rest ↔ ¬ stale ∧ p.notesReady t = true ∧ ∀ n ∈ p.window part, ¬ n.covers t = true) ∧
      ∀ n, p.lookup songMs t part = .note n ↔ ¬ stale ∧ p.notesReady t = true ∧ LatestCover t (p.window part) n := by
  intro stale
  by_cases hs : stale
  · simp [Pje.lookup_stale hs, hs]
  · by_cases hr : p.notesReady t = true
    · rw [Pje.lookup_ready hs hr]
      simp only [hs, hr, not_true_eq_false, not_false_eq_true, true_and, false_and, false_or,
        ← coveringNote_eq_none_iff, ← coveringNote_eq_some_iff]
      cases coveringNote t (p.window part) <;> simp
    · rw [Pje.lookup_unready hs hr]
      cases hf : p.fetch <;> simp [hs, hr]

/-- Settles O45. An offer leaves the windows by the leaving bound and tries the held note; the lookup is read off the
window in the order of admission. -/
theorem offersAndLookupsFindTheNotes : Obligations.OffersAndLookupsFindTheNotes := by
  unfold Obligations.OffersAndLookupsFindTheNotes
  refine ⟨fun s => ?_, fun p songMs t part => ?_⟩
  · intro stays read
    obtain ⟨⟨subA, memA⟩, subB, memB⟩ := s.pje.leave_windows s.songMs
    have whole := State.tryNoteFetch_eq { s with pje := s.offeredNotes }
    have pje := s.notesOffered_pje
    have block : s.notesOffered.pje.block = s.pje.block := by rw [pje, State.offeredNotes_eq]
    refine ⟨s.notesOffered, (s.pje.leave s.songMs).winA, (s.pje.leave s.songMs).winB, s.offerPje_eq,
      fun h => State.retryJudgement_measuring (by rwa [block]),
      fun b period hb hp => State.retryJudgement_judging (block.trans hb) hp,
      subA, memA, subB, memB, ?_, ?_, fun h => ?_, fun n hn => ?_, ?_⟩
    · rw [pje]
      exact whole
    · rw [pje, State.offeredNotes_eq]
    · rw [pje, State.offeredNotes_unheld h]
      exact ⟨h, rfl, rfl⟩
    · obtain ⟨joins, holds⟩ := State.offeredNotes_held hn
      intro fits
      refine ⟨fun h => ?_, fun h => ?_⟩
      · rw [pje, joins h, Pje.addNote_eq]
        exact ⟨rfl, rfl, rfl⟩
      · rw [pje, holds h]
        exact ⟨hn, rfl, rfl⟩
    · exact s.notesOffered_fetch
  · have answers := p.lookup_iff songMs t part
    simp only [LatestCover, Pje.notesReady_iff, Note.covers_iff] at answers
    exact answers

end Sys2Proof.Machine
end

