-- ==== Sys2Proof/Proofs/FetchedNotes.lean ====
section
/-! The end of a note fetch in every STATE (R102 to R104, R106 to R108): the note admitted, held or passed over, and the
next fetch. -/

namespace Sys2Proof.Machine

/-! ## A decoded note taken (R103, R106) -/

/-- The engine whose windows a fetched note meets: in the rebuild the leaving bound has been applied to them. -/
def Pje.bounded (songMs : Nat) (p : Pje) : Pje :=
  { p with
    winA := if p.rebuild then (p.leave songMs).winA else p.winA
    winB := if p.rebuild then (p.leave songMs).winB else p.winB }

/-- A fetched note is not passed over: outside the rebuild, or above the leaving bound. -/
def Pje.receives (songMs : Nat) (p : Pje) (n : Note) : Prop := p.rebuild = false ∨ p.keeps songMs n

theorem Pje.bounded_eq (songMs : Nat) (p : Pje) :
    p.bounded songMs = if p.rebuild then p.leave songMs else p := by
  unfold Pje.bounded
  split <;> rfl

theorem Pje.bounded_windows (songMs : Nat) (p : Pje) :
    let q := p.bounded songMs
    (q.winA.Sublist p.winA ∧ ∀ m, m ∈ q.winA ↔ m ∈ p.winA ∧ p.receives songMs m) ∧
      (q.winB.Sublist p.winB ∧ ∀ m, m ∈ q.winB ↔ m ∈ p.winB ∧ p.receives songMs m) := by
  dsimp only
  rw [Pje.bounded_eq]
  cases hr : p.rebuild with
  | true => simpa [Pje.receives, hr] using p.leave_windows songMs
  | false => simp [Pje.receives, hr]

/-- A decoded note at or below the bound only moves the front on; any other is taken. -/
theorem State.takeFetchedNote_iff (n : Note) (s : State) :
    let p : Pje := { s.pje.bounded s.songMs with front := some n.start }
    (¬ s.pje.receives s.songMs n → s.takeFetchedNote n = { s with pje := p }) ∧
      (s.pje.receives s.songMs n →
        s.takeFetchedNote n = { s with pje := p.takeNote (s.songMs + s.prm.lookaheadMs) n }) := by
  intro p
  have cond : (s.pje.rebuild && noteLeft s.songMs s.pje.prm.latencyMs n) = true ↔ ¬ s.pje.receives s.songMs n := by
    rw [Pje.receives, ← Pje.noteLeft_false_iff]
    cases s.pje.rebuild <;> simp
  have taken : s.takeFetchedNote n =
      if s.pje.rebuild && noteLeft s.songMs s.pje.prm.latencyMs n then { s with pje := p }
      else { s with pje := p.takeNote (s.songMs + s.prm.lookaheadMs) n } :=
    congrArg (fun q : Pje => if q.rebuild && noteLeft s.songMs q.prm.latencyMs n then ({ s with pje := q } : State)
      else { s with pje := q.takeNote (s.songMs + s.prm.lookaheadMs) n })
      (Pje.bounded_eq s.songMs { s.pje with front := some n.start }).symm
  rw [taken]
  exact ⟨fun h => if_pos (cond.mpr h), fun h => if_neg fun c => cond.mp c h⟩

/-! ## The end of the fetch (R103, R106 to R108) -/

/-- The cursor moved on past the note whose fetch has ended. -/
def State.notePassed (o : ClientOp) (s : State) : State :=
  { s with ptu := s.ptu.dropEnded o.id, pje := { s.pje with cursor := s.pje.cursor + 1, fetch := none } }

/-- The note decoded from the fetched beats (R102). -/
def State.noteRead (bs : List Beat) (s : State) : Note := readNote bs ((s.pje.noteBase + 8 * s.pje.cursor) % 16)

/-- The state in which the fetched note has been passed over, held or admitted, before the next fetch. -/
def State.noteTaken (o : ClientOp) (s : State) : State :=
  match o.data with
  | none => s.notePassed o
  | some bs => (s.notePassed o).takeFetchedNote (s.noteRead bs)

/-- The state in which the next fetch has been issued, before a judgement that waits is tried again. -/
def State.noteEnded (o : ClientOp) (s : State) : State := (s.noteTaken o).tryNoteFetch

theorem exec_noteFetchComplete {s : State} {o : ClientOp} (ho : s.ptu.firstEnded (fun k => k == .note) = some o)
    (hl : s.ptu.lineFull = false) :
    exec .noteFetchComplete s = .next ((s.noteEnded o).retryJudgement.rebuildEnds).flush := by
  show Host.Outcome.next (s.whenRoom State.noteFetchComplete).flush = _
  rw [State.whenRoom_room _ hl, State.noteFetchComplete, ho]
  rfl

section
variable {s : State} {o : ClientOp}

theorem State.noteTaken_failed (h : o.data = none) : s.noteTaken o = s.notePassed o := by
  rw [State.noteTaken, h]

/-- The engine that the fetched note `n` meets, its front moved on. -/
def State.noteMet (o : ClientOp) (n : Note) (s : State) : Pje :=
  { (s.notePassed o).pje.bounded s.songMs with front := some n.start }

/-- The three ways of a note that was read. -/
theorem State.noteTaken_read {bs : List Beat} (h : o.data = some bs) :
    let n := s.noteRead bs
    let p := s.noteMet o n
    let fits := p.admits (s.songMs + s.prm.lookaheadMs) n
    (¬ s.pje.receives s.songMs n → (s.noteTaken o).pje = p) ∧
      (s.pje.receives s.songMs n → fits → (s.noteTaken o).pje = p.addNote n) ∧
      (s.pje.receives s.songMs n → ¬ fits → (s.noteTaken o).pje = { p with held := some n }) := by
  intro n p fits
  have taken : s.noteTaken o = (s.notePassed o).takeFetchedNote n := by rw [State.noteTaken, h]
  obtain ⟨passed, received⟩ := State.takeFetchedNote_iff n (s.notePassed o)
  obtain ⟨joins, holds⟩ := Pje.takeNote_iff (s.songMs + s.prm.lookaheadMs) n p
  rw [taken]
  exact ⟨fun h => congrArg State.pje (passed h),
    fun h fit => (congrArg State.pje (received h)).trans (joins fit),
    fun h fit => (congrArg State.pje (received h)).trans (holds fit)⟩

/-- In each of them only the windows and the held note differ from the engine that the note meets. -/
theorem State.noteTaken_met {bs : List Beat} (h : o.data = some bs) :
    (s.noteTaken o).pje = { s.noteMet o (s.noteRead bs) with
      winA := (s.noteTaken o).pje.winA, winB := (s.noteTaken o).pje.winB, held := (s.noteTaken o).pje.held } := by
  obtain ⟨passed, joins, holds⟩ := State.noteTaken_read (s := s) h
  by_cases received : s.pje.receives s.songMs (s.noteRead bs)
  · by_cases fits : (s.noteMet o (s.noteRead bs)).admits (s.songMs + s.prm.lookaheadMs) (s.noteRead bs)
    · rw [joins received fits, Pje.addNote_eq]
    · rw [holds received fits]
  · rw [passed received]

end

theorem State.noteTaken_frame (o : ClientOp) (s : State) :
    (s.noteTaken o).pending = s.pending ∧ (s.noteTaken o).scu = s.scu ∧ (s.noteTaken o).lsq = s.lsq ∧
      (s.noteTaken o).ovc = s.ovc ∧ (s.noteTaken o).gxt = s.gxt ∧ (s.noteTaken o).vin = s.vin ∧
      (s.noteTaken o).scr = s.scr ∧ (s.noteTaken o).rqu = s.rqu ∧ (s.noteTaken o).ctl = s.ctl ∧
      (s.noteTaken o).ptu.links = s.ptu.links := by
  unfold State.noteTaken
  split <;> simp [State.notePassed]

/-- A note taken touches the windows, the held note and the front of the notes fetched. -/
theorem State.noteTaken_pje (o : ClientOp) (s : State) :
    (s.noteTaken o).pje = { s.pje with
      cursor := s.pje.cursor + 1, fetch := none, winA := (s.noteTaken o).pje.winA, winB := (s.noteTaken o).pje.winB
      held := (s.noteTaken o).pje.held, front := (s.noteTaken o).pje.front } := by
  cases hd : o.data with
  | none =>
    rw [State.noteTaken_failed hd]
    rfl
  | some bs =>
    rw [State.noteTaken_met hd]
    rfl

theorem State.noteEnded_frame (o : ClientOp) (s : State) :
    (s.noteEnded o).scu = s.scu ∧ (s.noteEnded o).lsq = s.lsq ∧ (s.noteEnded o).ovc = s.ovc ∧
      (s.noteEnded o).gxt = s.gxt ∧ (s.noteEnded o).vin = s.vin ∧ (s.noteEnded o).scr = s.scr ∧
      (s.noteEnded o).rqu = s.rqu ∧ (s.noteEnded o).ctl = s.ctl ∧ (s.noteEnded o).pending = s.pending ∧
      (s.noteEnded o).ptu.links = s.ptu.links := by
  have := s.noteTaken_frame o
  simp [State.noteEnded, this]

/-- What the note itself says stands as it was taken. -/
theorem State.noteEnded_pje (o : ClientOp) (s : State) :
    (s.noteEnded o).pje = { (s.noteTaken o).pje with fetch := (s.noteEnded o).pje.fetch } :=
  congrArg State.pje (State.tryNoteFetch_eq _)

/-- The next fetch is in flight exactly when its conditions hold. -/
theorem State.noteEnded_fetches (o : ClientOp) (s : State) :
    (s.noteEnded o).pje.fetch.isSome = true ↔ (s.noteEnded o).pje.cursor < (s.noteEnded o).pje.noteCount ∧
      (s.noteEnded o).pje.held = none ∧ s.readsNotes := by
  obtain ⟨-, scu, -⟩ := s.noteTaken_frame o
  have none : (s.noteTaken o).pje.fetch = none := by rw [State.noteTaken_pje]
  have issued : (s.noteEnded o).pje.fetch.isSome = true ↔ (s.noteTaken o).issuesNoteFetch :=
    State.tryNoteFetch_isSome none
  have reads : (s.noteTaken o).readsNotes ↔ s.readsNotes := by
    rw [State.readsNotes, State.readsNotes, scu, State.noteTaken_pje]
  rw [issued, State.issuesNoteFetch, reads, State.noteEnded_pje]
  simp only [none]
  tauto

/-- A note that was read, in the windows it meets: what the ended fetch leaves of the windows, the held note and the
front. -/
theorem State.noteEnded_read {s : State} {o : ClientOp} {bs : List Beat} (h : o.data = some bs) :
    let u := s.noteEnded o
    let n := s.noteRead bs
    let winA := (s.pje.bounded s.songMs).winA
    let winB := (s.pje.bounded s.songMs).winB
    let roomA := n.part = .b ∨ winA.length < 4
    let roomB := n.part = .a ∨ winB.length < 4
    u.pje.front = some n.start ∧
      (¬ s.pje.receives s.songMs n → u.pje.held = s.pje.held ∧ u.pje.winA = winA ∧ u.pje.winB = winB) ∧
      (s.pje.receives s.songMs n → n.start ≤ s.songMs + s.prm.lookaheadMs → roomA → roomB →
        u.pje.held = s.pje.held ∧ u.pje.winA = (if n.part = .b then winA else winA ++ [n]) ∧
          u.pje.winB = (if n.part = .a then winB else winB ++ [n])) ∧
      (s.pje.receives s.songMs n → s.songMs + s.prm.lookaheadMs < n.start ∨ ¬ roomA ∨ ¬ roomB →
        u.pje.held = some n ∧ u.pje.winA = winA ∧ u.pje.winB = winB) := by
  intro u n winA winB roomA roomB
  obtain ⟨passed, joins, holds⟩ := State.noteTaken_read (s := s) h
  have pje : u.pje = { (s.noteTaken o).pje with fetch := u.pje.fetch } := s.noteEnded_pje o
  have unfit : s.songMs + s.prm.lookaheadMs < n.start ∨ ¬ roomA ∨ ¬ roomB →
      ¬ (s.noteMet o n).admits (s.songMs + s.prm.lookaheadMs) n := by
    rintro (far | noA | noB) ⟨near, roomA, roomB⟩
    · omega
    · exact noA roomA
    · exact noB roomB
  rw [pje]
  refine ⟨?_, fun out => ?_, fun received near a b => ?_, fun received no => ?_⟩
  · rw [State.noteTaken_met h]
    rfl
  · rw [passed out]
    exact ⟨rfl, rfl, rfl⟩
  · rw [joins received ⟨near, a, b⟩, Pje.addNote_eq]
    exact ⟨rfl, rfl, rfl⟩
  · rw [holds received (unfit no)]
    exact ⟨rfl, rfl, rfl⟩

/-- Settles O42. The note fetched is passed over, admitted or held; the rest of the engine stands but for the cursor and
the next fetch. -/
theorem fetchedNotesEnterTheWindows : Obligations.FetchedNotesEnterTheWindows := by
  unfold Obligations.FetchedNotesEnterTheWindows
  intro s o ho hl off stays read
  obtain ⟨fs, fl, fo, fg, fv, fr, fq, fc, fp, fk⟩ := s.noteEnded_frame o
  have pje : (s.noteEnded o).pje = _ := (s.noteEnded_pje o).trans (by rw [s.noteTaken_pje o])
  have block : (s.noteEnded o).pje.block = s.pje.block := by rw [pje]
  obtain ⟨⟨subA, memA⟩, subB, memB⟩ := s.pje.bounded_windows s.songMs
  refine ⟨s.noteEnded o, exec_noteFetchComplete ho hl, fun h => State.retryJudgement_measuring (by rwa [block]),
    fun b period hb hp => State.retryJudgement_judging (block.trans hb) hp, fun v => State.rebuildEnds_none, ?_,
    fs, fl, fo, fg, fv, fr, fq, fc, fp, fk, block, ?_, ?_, ?_, ?_, ?_, s.noteEnded_fetches o, fun hd => ?_,
    fun bs hd => ⟨_, _, subA, memA, subB, memB, fun hr => ?_, State.noteEnded_read hd⟩⟩
  iterate 6 · rw [pje]
  · rw [s.noteEnded_pje, State.noteTaken_failed hd]
    exact ⟨rfl, rfl, rfl, rfl⟩
  · rw [Pje.bounded_eq, hr]
    exact ⟨rfl, rfl⟩

end Sys2Proof.Machine
end

