-- ==== Sys2Proof/Proofs/ScoreLaw.lean ====
section
/-! The law of the scores (R114, R118): a judgement earns at most what it makes possible, and is applied only where
POSSIBLE stays within its bound. Nothing else raises either accumulator, so every step keeps the law. -/

namespace Sys2Proof.Machine

/-! ## One singer's accumulators -/

theorem Totals.law_cleared : ({} : Totals).law := by simp [Totals.law]

theorem bandPoints_le (b : Band) (w : Nat) : bandPoints b w ≤ 4 * w := by
  cases b <;> simp only [bandPoints] <;> omega

/-- A judgement's points lie within the points its note makes possible (R110). -/
theorem judgeOver_points (b : BlockInHand) (period : Option Nat) (n : Note) :
    (judgeOver b period n).points ≤ (judgeOver b period n).possible := by
  cases period with
  | none => exact Nat.zero_le _
  | some lm => exact bandPoints_le _ _

/-- A judgement that earns at most what it makes possible, and does not pass the bound of POSSIBLE, keeps the law. -/
theorem Totals.law.apply {t : Totals} {j : Judgement} (h : t.law) (points : j.points ≤ j.possible)
    (within : t.possible + j.possible ≤ accMax) : (t.apply j).law := by
  obtain ⟨earned, -⟩ := h
  have bumped : bump j.points t.earned ≤ t.earned + j.points := Nat.min_le_right _ _
  refine ⟨?_, within⟩
  show bump j.points t.earned ≤ t.possible + j.possible
  omega

/-! ## The singers of the Score Unit -/

/-- The law reads the singers alone. -/
theorem Scr.scoreLaw.of_singers {c d : Scr} (h : c.scoreLaw) (e : d.singers = c.singers := by simp) : d.scoreLaw := by
  intro i
  rw [e]
  exact h i

/-- One singer replaced by another whose accumulators meet the law. -/
theorem Scr.scoreLaw.of_vset {c d : Scr} {i : Fin 4} {g : Singer} (h : c.scoreLaw) (hg : g.totals.law)
    (e : d.singers = vset c.singers i g) : d.scoreLaw := by
  intro j
  rw [e, vset_get]
  split
  · exact hg
  · exact h j

theorem Scr.setTotals_scoreLaw {c : Scr} {i : Fin 4} {t : Totals} (h : c.scoreLaw) (ht : t.law) :
    (c.setTotals i t).scoreLaw :=
  h.of_vset (g := { c.singers.get i with totals := t }) ht rfl

theorem Scr.countDrop_scoreLaw {c : Scr} (ch : Fin 4) (h : c.scoreLaw) : (c.countDrop ch).scoreLaw := by
  unfold Scr.countDrop
  split
  · exact h
  · next i _ => exact Scr.setTotals_scoreLaw h (h i)

/-- START clears the accumulators of the ACTIVE singers and leaves those of the others (R121). -/
theorem Scr.startSong_scoreLaw {c : Scr} (n : Nat) (h : c.scoreLaw) : (c.startSong n).scoreLaw := by
  intro i
  simp only [Scr.startSong, map_get]
  split
  · exact Totals.law_cleared
  · exact h i

theorem Scr.unlink_scoreLaw {c : Scr} (h : c.scoreLaw) : c.unlink.scoreLaw := by
  intro i
  simp only [Scr.unlink, map_get]
  exact h i

theorem Scr.clear_scoreLaw (c : Scr) : c.clear.scoreLaw := by
  intro i
  simp only [Scr.clear, replicate_get]
  exact Totals.law_cleared

/-- An assignment keeps the accumulators of a singer that was ACTIVE and clears those of one that was OFF (R116). -/
theorem Singer.assign_totals (g : Singer) (mic : Nat) (p : AssignPart) (link : Option Nat) :
    (g.assign mic p link).1.totals = g.totals ∨ (g.assign mic p link).1.totals = {} := by
  unfold Singer.assign
  split <;> split
  · exact .inl rfl
  · exact .inl rfl
  · exact .inl rfl
  · exact .inr rfl

/-! ## Judgements and the voices' work -/

section
variable {s : State}

theorem State.tick_scoreLaw (h : s.scr.scoreLaw) : s.tick.scr.scoreLaw := by
  unfold State.tick
  split <;> exact h

theorem State.applyJudgement_scoreLaw {j : Judgement} (points : j.points ≤ j.possible) (h : s.scr.scoreLaw) :
    (s.applyJudgement j).scr.scoreLaw := by
  unfold State.applyJudgement
  split
  · split
    · exact h
    · next i _ =>
      dsimp only
      split
      · exact h
      · next within => exact State.tick_scoreLaw (Scr.setTotals_scoreLaw h ((h i).apply points (Nat.not_lt.mp within)))
  · exact h

theorem State.drainCheck_scoreLaw (h : s.scr.scoreLaw) : s.drainCheck.scr.scoreLaw := by
  unfold State.drainCheck
  split
  · exact h.of_singers
  · exact h

theorem State.vinDrain_scoreLaw (h : s.scr.scoreLaw) : s.vinDrain.scr.scoreLaw := by
  unfold State.vinDrain
  split
  · exact State.drainCheck_scoreLaw h
  · exact h

theorem State.pjeDrain_scoreLaw (h : s.scr.scoreLaw) : s.pjeDrain.scr.scoreLaw := by
  unfold State.pjeDrain
  split
  · exact State.drainCheck_scoreLaw h
  · exact h

theorem State.takeBlock_scoreLaw (h : s.scr.scoreLaw) : s.takeBlock.scr.scoreLaw := by
  unfold State.takeBlock
  split
  · exact State.vinDrain_scoreLaw h
  · exact h

theorem State.endAnalysis_scoreLaw (e : BlockEntry) (h : s.scr.scoreLaw) : (s.endAnalysis e).scr.scoreLaw :=
  State.takeBlock_scoreLaw (State.pjeDrain_scoreLaw h)

theorem State.judge_scoreLaw (b : BlockInHand) (period : Option Nat) (h : s.scr.scoreLaw) :
    (s.judge b period).scr.scoreLaw := by
  have ends : ∀ t : State, t.scr.scoreLaw → (t.endAnalysis b.entry).scr.scoreLaw := fun _ =>
    State.endAnalysis_scoreLaw b.entry
  unfold State.judge
  split
  · exact ends s h
  · split
    · exact ends s h
    · dsimp only
      split
      · exact ends s h
      · split
        · exact ends s h
        · split
          · exact ends s.countNoteLate h
          · exact h
          · exact ends s h
          · exact ends _ (State.applyJudgement_scoreLaw (judgeOver_points ..) h)

theorem State.retryJudgement_scoreLaw (h : s.scr.scoreLaw) : s.retryJudgement.scr.scoreLaw := by
  unfold State.retryJudgement
  split
  · split
    · exact State.judge_scoreLaw _ _ h
    · exact h
  · exact h

theorem State.offerPje_scoreLaw (h : s.scr.scoreLaw) : s.offerPje.scr.scoreLaw :=
  State.retryJudgement_scoreLaw h.of_singers

/-! ## Entering and leaving a song's states -/

theorem State.enterFinishing_scoreLaw (n : Nat) (h : s.scr.scoreLaw) : (s.enterFinishing n).scr.scoreLaw :=
  State.retryJudgement_scoreLaw (State.pjeDrain_scoreLaw (State.vinDrain_scoreLaw h.of_singers))

theorem State.whenRoom_scoreLaw {work : State → State} (h : s.scr.scoreLaw) (hw : (work s).scr.scoreLaw) :
    (s.whenRoom work).scr.scoreLaw := by
  rcases State.whenRoom_cases work s with e | ⟨e, -⟩ <;> rw [e]
  · exact hw
  · exact h

theorem State.leaveSong_scoreLaw (h : s.scr.scoreLaw) : s.leaveSong.scr.scoreLaw := Scr.unlink_scoreLaw h

theorem State.bannerLatch_scoreLaw (h : s.scr.scoreLaw) : s.bannerLatch.scr.scoreLaw := by
  unfold State.bannerLatch
  split
  · split
    · have left := State.leaveSong_scoreLaw h
      exact State.whenRoom_scoreLaw left left.of_singers
    · exact h
  · exact h

theorem State.resumeStaging_scoreLaw (h : s.scr.scoreLaw) : s.resumeStaging.scr.scoreLaw := by
  unfold State.resumeStaging
  split
  · exact State.whenRoom_scoreLaw h h.of_singers
  · exact h

theorem State.loadBanner_scoreLaw (n : Nat) (h : s.scr.scoreLaw) : (s.loadBanner n).scr.scoreLaw := by
  unfold State.loadBanner
  split
  · exact (State.leaveSong_scoreLaw h).of_singers (by simp [State.returnToIdle])
  · exact h

theorem State.endWriteOut_scoreLaw (h : s.scr.scoreLaw) : s.endWriteOut.scr.scoreLaw :=
  State.loadBanner_scoreLaw _ h.of_singers

theorem State.writeOutEnd_scoreLaw (h : s.scr.scoreLaw) : s.writeOutEnd.scr.scoreLaw := by
  unfold State.writeOutEnd
  split
  · exact h
  · split
    · exact State.endWriteOut_scoreLaw h
    · exact h

/-! ## Cues and offers -/

theorem State.takeSongEnd_scoreLaw (n : Nat) (h : s.scr.scoreLaw) : (s.takeSongEnd n).scr.scoreLaw := by
  unfold State.takeSongEnd
  dsimp only
  split
  · exact State.enterFinishing_scoreLaw n h
  · exact h

theorem State.takeCue_scoreLaw (c : QueuedCue) (n : Nat) (h : s.scr.scoreLaw) : (s.takeCue c n).scr.scoreLaw := by
  unfold State.takeCue
  split
  · exact h.of_singers
  · exact h
  · exact h.of_singers
  · exact h.of_singers
  · exact State.takeSongEnd_scoreLaw n h

theorem State.takeDue_scoreLaw (fuel n : Nat) : ∀ {s : State}, s.scr.scoreLaw → (s.takeDue fuel n).scr.scoreLaw := by
  induction fuel with
  | zero => exact fun h => h
  | succ fuel ih =>
    intro s h
    unfold State.takeDue
    split
    · exact h
    · split
      · next c rest _ _ =>
        have taken := State.takeCue_scoreLaw (s := { s with lsq := { s.lsq with queue := rest } }) c n h
        exact ih taken.of_singers
      · exact h

theorem State.takeCues_scoreLaw (h : s.scr.scoreLaw) : s.takeCues.scr.scoreLaw := State.takeDue_scoreLaw _ _ h

theorem State.offerLsq_scoreLaw (h : s.scr.scoreLaw) : s.offerLsq.scr.scoreLaw := by
  have taken : s.retryHeldCue.takeCues.scr.scoreLaw := State.takeCues_scoreLaw h.of_singers
  exact taken.of_singers (by simp [State.offerLsq])

theorem State.offer_scoreLaw (h : s.scr.scoreLaw) : s.offer.scr.scoreLaw := by
  unfold State.offer
  split
  · exact h.of_singers
  · exact (State.offerPje_scoreLaw (State.offerLsq_scoreLaw h)).of_singers

theorem State.playbackTap_scoreLaw (h : s.scr.scoreLaw) : s.playbackTap.scr.scoreLaw := by
  unfold State.playbackTap
  split
  · dsimp only
    split
    · split
      · exact State.enterFinishing_scoreLaw _ h
      · exact h
    · split
      · exact h
      · exact State.offer_scoreLaw h
  · exact h

/-! ## SEEKING -/

theorem State.leaveSeeking_scoreLaw (h : s.scr.scoreLaw) : s.leaveSeeking.scr.scoreLaw := by
  have ended : (s.finishCommand .ok).scr.scoreLaw := h.of_singers
  unfold State.leaveSeeking
  split
  · dsimp only
    split
    · exact State.offerPje_scoreLaw (State.enterFinishing_scoreLaw _ ended)
    · have played : ({ s.finishCommand .ok with scu := { (s.finishCommand .ok).scu with state := .playing } } :
          State).scr.scoreLaw := ended
      exact (State.offerPje_scoreLaw (State.offerLsq_scoreLaw played)).of_singers
  · exact h

theorem State.rebuildEnds_scoreLaw (h : s.scr.scoreLaw) : s.rebuildEnds.scr.scoreLaw :=
  State.leaveSeeking_scoreLaw (s := s.lsqRebuildEnd.pjeRebuildEnd) h.of_singers

theorem State.beginSeek_scoreLaw (tag : BitVec 16) (n : Nat) (h : s.scr.scoreLaw) :
    (s.beginSeek tag n).scr.scoreLaw :=
  State.rebuildEnds_scoreLaw h.of_singers

theorem State.endCueFetch_scoreLaw (d : Option (List Beat)) (h : s.scr.scoreLaw) :
    (s.endCueFetch d).scr.scoreLaw := by
  refine State.rebuildEnds_scoreLaw (h.of_singers ?_)
  dsimp only
  split <;> (try split) <;> simp

theorem State.endLineLoad_scoreLaw (op : Nat) (d : Option (List Beat)) (h : s.scr.scoreLaw) :
    (s.endLineLoad op d).scr.scoreLaw := by
  unfold State.endLineLoad
  split
  · exact h
  · refine State.rebuildEnds_scoreLaw (h.of_singers ?_)
    split <;> simp

theorem State.endNoteFetch_scoreLaw (d : Option (List Beat)) (h : s.scr.scoreLaw) :
    (s.endNoteFetch d).scr.scoreLaw := by
  refine State.rebuildEnds_scoreLaw (State.retryJudgement_scoreLaw (h.of_singers ?_))
  dsimp only
  split <;> simp

/-! ## A frame latch and the display -/

theorem State.latchClaims_scoreLaw (h : s.scr.scoreLaw) : s.latchClaims.scr.scoreLaw := by
  refine State.whenRoom_scoreLaw h ?_
  dsimp only
  split
  · exact State.rebuildEnds_scoreLaw h.of_singers
  · split
    · exact (State.takeCues_scoreLaw (s := s.bindFree) h.of_singers).of_singers
    · exact h.of_singers

theorem State.resumeLatch_scoreLaw (h : s.scr.scoreLaw) : s.resumeLatch.scr.scoreLaw := by
  unfold State.resumeLatch
  refine State.resumeStaging_scoreLaw ?_
  split
  · exact (State.latchClaims_scoreLaw h).of_singers
  · exact h

theorem State.frameLatch_scoreLaw (h : s.scr.scoreLaw) : s.frameLatch.scr.scoreLaw := by
  have latched : (State.latchClaims { s.latchLsq with
      ovc := { s.latchLsq.ovc with latch := some s.latchLsq.buildLatch } }).scr.scoreLaw :=
    State.latchClaims_scoreLaw h.of_singers
  exact latched.of_singers (by simp [State.frameLatch])

theorem State.afterLatch_scoreLaw (h : s.scr.scoreLaw) : s.afterLatch.scr.scoreLaw := State.bannerLatch_scoreLaw h

theorem State.layerBeat_scoreLaw (l : LatchRecord) (y x : Nat) (b : ReadBeat) (h : s.scr.scoreLaw) :
    (s.layerBeat l y x b).1.scr.scoreLaw := h.of_singers

theorem State.displayAt_scoreLaw (a : Nat) (b : ReadBeat) (h : s.scr.scoreLaw) :
    (s.displayAt a b).1.scr.scoreLaw := by
  unfold State.displayAt
  dsimp only
  split
  · exact h
  · generalize hoff : (((a : Int) - _) % _).toNat = off
    have latched : (if off = 0 then s.frameLatch else s).scr.scoreLaw := by
      split
      · exact State.frameLatch_scoreLaw h
      · exact h
    generalize (if off = 0 then s.frameLatch else s) = u at latched ⊢
    have composed : ∀ (P : Prop) [Decidable P] (y : Nat), (if P then u.compose y else u).scr.scoreLaw := by
      intro P _ y
      split
      · exact latched.of_singers
      · exact latched
    have closed : ∀ r : State × ReadBeat, r.1.scr.scoreLaw →
        (if off = 0 then (r.1.afterLatch, r.2) else r).1.scr.scoreLaw := by
      intro r g
      split
      · exact State.afterLatch_scoreLaw g
      · exact g
    refine closed _ ?_
    split
    · exact composed _ _
    · split
      · exact State.layerBeat_scoreLaw _ _ _ _ (composed _ _)
      · exact composed _ _

/-! ## START -/

theorem State.beginStart_scoreLaw (tag : BitVec 16) (n : Nat) (b : Fin 2) (h : s.scr.scoreLaw) :
    (s.beginStart tag n b).scr.scoreLaw := by
  have left : (if s.scu.state = .finishing then s.leaveSong else s).scr.scoreLaw := by
    split
    · exact State.leaveSong_scoreLaw h
    · exact h
  exact left.of_singers (by simp [State.beginStart])

theorem State.failStart_scoreLaw (rc : ResultCode) (h : s.scr.scoreLaw) : (s.failStart rc).scr.scoreLaw :=
  h.of_singers (by simp [State.failStart])

theorem State.completeStart_scoreLaw (t : Ticket) (b : Fin 2) (base : Nat) (hd : Header) (h : s.scr.scoreLaw) :
    (s.completeStart t b base hd).scr.scoreLaw := by
  have departed : ((State.depart t false { s with scu := { s.scu with current := some t } }).pushHistory
      t).scr.scoreLaw := h.of_singers
  have primed : (((State.depart t false { s with scu := { s.scu with current := some t } }).pushHistory t).primeSong t b
      base hd).scr.scoreLaw := Scr.startSong_scoreLaw t.number departed
  exact (State.offer_scoreLaw primed).of_singers (by simp [State.completeStart])

theorem State.headerEnded_scoreLaw (d : Option (List Beat)) (h : s.scr.scoreLaw) :
    (s.headerEnded d).scr.scoreLaw := by
  unfold State.headerEnded
  split
  · split
    · exact State.failStart_scoreLaw _ h
    · split
      · split
        · exact State.failStart_scoreLaw _ h
        · dsimp only
          split
          · exact State.completeStart_scoreLaw _ _ _ _ h
          · exact State.failStart_scoreLaw _ h
      · exact State.failStart_scoreLaw _ h
  · exact h

/-! ## Completions of own reads -/

theorem State.headerReadComplete_scoreLaw (h : s.scr.scoreLaw) : s.headerReadComplete.scr.scoreLaw := by
  unfold State.headerReadComplete
  split
  · exact h
  · exact State.headerEnded_scoreLaw _ h

theorem State.cueFetchComplete_scoreLaw (h : s.scr.scoreLaw) : s.cueFetchComplete.scr.scoreLaw := by
  unfold State.cueFetchComplete
  split
  · exact h
  · exact State.endCueFetch_scoreLaw _ h

theorem State.lineLoadComplete_scoreLaw (h : s.scr.scoreLaw) : s.lineLoadComplete.scr.scoreLaw := by
  unfold State.lineLoadComplete
  split
  · exact h
  · exact State.endLineLoad_scoreLaw _ _ h

theorem State.noteFetchComplete_scoreLaw (h : s.scr.scoreLaw) : s.noteFetchComplete.scr.scoreLaw := by
  unfold State.noteFetchComplete
  split
  · exact h
  · exact State.endNoteFetch_scoreLaw _ h

theorem State.measurementEnd_scoreLaw (h : s.scr.scoreLaw) : s.measurementEnd.scr.scoreLaw := by
  unfold State.measurementEnd
  split
  · exact h
  · split
    · exact State.judge_scoreLaw _ _ h
    · exact h

theorem State.replyPlacementEnd_scoreLaw (h : s.scr.scoreLaw) : s.replyPlacementEnd.scr.scoreLaw := by
  unfold State.replyPlacementEnd
  split
  · exact h
  · dsimp only
    split <;> exact h

/-! ## Captured samples -/

theorem State.completeBlock_scoreLaw (ch : Fin 4) (k : Fin 2) (h : s.scr.scoreLaw) :
    (s.completeBlock ch k).scr.scoreLaw := by
  have taken : ∀ (t : State) (v : Vin), t.scr.scoreLaw → (State.takeBlock { t with vin := v }).scr.scoreLaw :=
    fun _ _ g => State.takeBlock_scoreLaw g
  unfold State.completeBlock
  dsimp only
  split
  · split
    · exact taken s _ h
    · exact taken (s.dropBlock ch (otherHalf k)) _ (Scr.countDrop_scoreLaw ch h)
    · exact taken s _ h
    · exact taken s _ h
  · exact h

theorem State.storeSample_scoreLaw (ch : Fin 4) (y : Int) (h : s.scr.scoreLaw) :
    (s.storeSample ch y).scr.scoreLaw := by
  unfold State.storeSample
  dsimp only
  split
  · exact h
  · split
    · exact State.completeBlock_scoreLaw _ _ h
    · exact h

theorem State.takeSample_scoreLaw (x : Int) (h : s.scr.scoreLaw) : (s.takeSample x).scr.scoreLaw := by
  unfold State.takeSample
  dsimp only
  split
  · split
    · split
      · exact h
      · exact State.storeSample_scoreLaw _ _ h
    · exact h
  · exact h

theorem State.captureWrite_scoreLaw (h : s.scr.scoreLaw) : s.captureWrite.scr.scoreLaw := by
  have samples : ∀ (l : List WriteBeat) (t : State), t.scr.scoreLaw →
      (l.foldl (fun s b => (beatSamples b.data).foldl State.takeSample s) t).scr.scoreLaw := by
    refine foldl_keeps (P := fun t : State => t.scr.scoreLaw) fun t b => ?_
    exact foldl_keeps (P := fun u : State => u.scr.scoreLaw) (fun _ x => State.takeSample_scoreLaw x) _ t
  unfold State.captureWrite State.takeCapture
  split
  · exact h
  · split
    · exact h
    · next w _ =>
      dsimp only
      split
      · exact samples _ { s.dropTap with vin := s.dropTap.vin.seat s.dropTap.prm.channels w _ } h
      · exact h

/-! ## Host commands -/

theorem State.submit_scoreLaw (code tag : BitVec 16) {f : State → CommandEnd} (h : s.scr.scoreLaw)
    (hf : (f s).state.scr.scoreLaw) : (s.submit code tag (some f)).scr.scoreLaw := by
  unfold State.submit
  split
  · exact h
  · dsimp only
    split
    · exact h
    · split
      · exact h
      · cases e : f s with
        | answered a =>
          rw [e] at hf
          exact hf
        | later t =>
          rw [e] at hf
          exact hf

theorem State.takeSetup_scoreLaw (sec commit : Byte) (words : List Word) (h : s.scr.scoreLaw) :
    (s.takeSetup sec commit words).state.scr.scoreLaw := by
  unfold State.takeSetup State.refuse
  dsimp only
  split
  · exact h
  · split
    · exact h
    · split
      · exact h.of_singers (by simp [CommandEnd.state, State.applySetup])
      · exact h

theorem State.takeScoring_scoreLaw (g c l : Nat) (fold : Bool) (pm gm fm cad : Nat) (h : s.scr.scoreLaw) :
    (s.takeScoring g c l fold pm gm fm cad).state.scr.scoreLaw := by
  unfold State.takeScoring State.refuse
  split <;> exact h

theorem State.takeAssign_scoreLaw (singer mic part : Nat) (h : s.scr.scoreLaw) :
    (s.takeAssign singer mic part).state.scr.scoreLaw := by
  have taken : ∀ (i : Fin 4) (p : AssignPart) (link : Option Nat) (v : Vin), ({ s with
      scr := { s.scr with singers := vset s.scr.singers i ((s.scr.singers.get i).assign mic p link).1 }
      vin := v } : State).scr.scoreLaw := by
    intro i p link v
    refine h.of_vset ?_ rfl
    rcases Singer.assign_totals (s.scr.singers.get i) mic p link with e | e <;> rw [e]
    · exact h i
    · exact Totals.law_cleared
  unfold State.takeAssign State.refuse
  split
  · dsimp only
    split
    · exact h
    · split
      · exact h
      · exact taken _ .off _ _
      · next q _ =>
        split
        · exact h
        · split
          · exact h
          · exact taken _ (.part q) _ _
  · exact h

theorem State.takeClearRoom_scoreLaw (s : State) : s.takeClearRoom.state.scr.scoreLaw :=
  (Scr.clear_scoreLaw s.scr).of_singers (by simp [State.takeClearRoom, CommandEnd.state])

theorem State.takeStart_scoreLaw (tag : BitVec 16) (n b : Nat) (h : s.scr.scoreLaw) :
    (s.takeStart tag n b).state.scr.scoreLaw := by
  unfold State.takeStart State.refuse
  split
  · exact h
  · split
    · split
      · exact State.beginStart_scoreLaw _ _ _ h
      · exact h
    · exact h

theorem State.takeStop_scoreLaw (h : s.scr.scoreLaw) : s.takeStop.state.scr.scoreLaw := by
  unfold State.takeStop State.refuse
  split
  · exact State.enterFinishing_scoreLaw _ h
  · exact h

theorem State.takeSeek_scoreLaw (tag : BitVec 16) (ms : Nat) (h : s.scr.scoreLaw) :
    (s.takeSeek tag ms).state.scr.scoreLaw := by
  unfold State.takeSeek State.refuse
  split
  · exact State.beginSeek_scoreLaw _ _ h
  · exact h

/-- A command that the Request Queue Unit answers leaves the scores. -/
theorem State.submit_answering_scoreLaw (code tag : BitVec 16) {f : State → Answer} (h : s.scr.scoreLaw)
    (e : (f s).state.scr = s.scr := by simp) : (s.submit code tag (answering f)).scr.scoreLaw :=
  State.submit_scoreLaw code tag h (h.of_singers (congrArg Scr.singers e))

theorem State.submitInstr_scoreLaw (c : Instr) (h : s.scr.scoreLaw) : (s.submitInstr c).scr.scoreLaw := by
  unfold State.submitInstr
  split
  · exact State.submit_scoreLaw _ _ h (State.takeSetup_scoreLaw _ _ _ h)
  · exact State.submit_scoreLaw _ _ h (State.takeScoring_scoreLaw _ _ _ _ _ _ _ _ h)
  · exact State.submit_scoreLaw _ _ h h
  · exact State.submit_scoreLaw _ _ h h
  · exact State.submit_scoreLaw _ _ h (State.takeStart_scoreLaw _ _ _ h)
  · exact State.submit_scoreLaw _ _ h (State.takeStop_scoreLaw h)
  · exact State.submit_scoreLaw _ _ h (State.takeSeek_scoreLaw _ _ h)
  · exact State.submit_scoreLaw _ _ h h
  · exact State.submit_scoreLaw _ _ h h
  · exact State.submit_scoreLaw _ _ h (State.takeAssign_scoreLaw _ _ _ h)
  · exact State.submit_answering_scoreLaw _ _ h
  · exact State.submit_answering_scoreLaw _ _ h
  · exact State.submit_answering_scoreLaw _ _ h
  · exact State.submit_answering_scoreLaw _ _ h
  · exact State.submit_answering_scoreLaw _ _ h
  · exact State.submit_scoreLaw _ _ h (State.takeClearRoom_scoreLaw s)
  · exact State.submit_scoreLaw _ _ h h
  all_goals exact h

/-- A record submitted through the command slot is the command it spells, or is refused (R178, R179). -/
theorem State.submitRecord_scoreLaw (r : CommandRecord) (h : s.scr.scoreLaw) : (s.submitRecord r).scr.scoreLaw := by
  rcases State.submitRecord_cases r s with ⟨c, e⟩ | ⟨code, rc, e⟩ <;> rw [e]
  · exact State.submitInstr_scoreLaw c h
  · exact h

theorem State.commandSlotWrite_scoreLaw (h : s.scr.scoreLaw) : s.commandSlotWrite.scr.scoreLaw := by
  unfold State.commandSlotWrite
  split
  · exact h
  · dsimp only
    split
    · exact State.submitRecord_scoreLaw (s := { s.dropTap with ctl := _ }) _ h
    · exact h

/-! ## The links -/

theorem State.playTaps_scoreLaw (h : s.scr.scoreLaw) : s.playTaps.scr.scoreLaw :=
  State.takePlaybacks_keeps (P := fun t : State => t.scr.scoreLaw)
    (fun _ g => (State.playbackTap_scoreLaw g).of_singers) (fun _ _ g => g) _ s h

theorem State.arbiterDecision_scoreLaw (h : s.scr.scoreLaw) : s.arbiterDecision.scr.scoreLaw :=
  State.arbiterDecision_keeps (P := fun t : State => t.scr.scoreLaw) (fun _ g => g.of_singers)
    (fun _ g => State.resumeLatch_scoreLaw g) (fun _ g => g.of_singers) (fun _ g => g.of_singers) s h

theorem State.resumeWork_scoreLaw (h : s.scr.scoreLaw) : s.resumeWork.scr.scoreLaw :=
  State.resumeWork_keeps (P := fun t : State => t.scr.scoreLaw)
    (fun _ c g => (State.submitInstr_scoreLaw c g).of_singers) (fun _ _ g => g) s h

theorem State.playbackBeat_scoreLaw (b : ReadBeat) (h : s.scr.scoreLaw) : (s.playbackBeat b).scr.scoreLaw := by
  unfold State.playbackBeat
  split
  · split
    · exact State.playTaps_scoreLaw h
    · exact h
  · exact h

theorem State.displayBeat_scoreLaw (b : ReadBeat) (h : s.scr.scoreLaw) : (s.displayBeat b).scr.scoreLaw := by
  unfold State.displayBeat
  split
  · dsimp only
    split
    · exact State.displayAt_scoreLaw _ b h
    · exact h
  · exact h

end

/-! ## Every command -/

theorem exec_scoreLaw {i : Instr} {s t : State} (h : s.scr.scoreLaw) (e : exec i s = .next t) : t.scr.scoreLaw := by
  have closed : ∀ u : State, u.scr.scoreLaw → u.flush.scr.scoreLaw := fun _ g => g.of_singers
  have host : ∀ c : Instr, (s.hostWork c fun s => s.submitInstr c).flush.scr.scoreLaw := fun c => by
    refine closed _ ?_
    unfold State.hostWork
    split
    · exact h
    · exact State.submitInstr_scoreLaw c h
  have ended : ∀ work : State → State, (work s).scr.scoreLaw → (s.whenRoom work).flush.scr.scoreLaw := fun _ g =>
    closed _ (State.whenRoom_scoreLaw h g)
  have tap : ∀ work : State → State, (work s).scr.scoreLaw → (s.whenRoom work).flush.playTaps.scr.scoreLaw :=
    fun work g => State.playTaps_scoreLaw (ended work g)
  unfold exec at e
  split at e
  case h_2 =>
    unfold execSystemRequest at e
    split at e
    · cases e
      exact h.of_singers
    · cases e
  all_goals cases e
  · obtain ⟨-, reset, -⟩ := resetMeetsTheLaws
    exact closed _ reset
  · exact State.playTaps_scoreLaw (State.resumeWork_scoreLaw (State.arbiterDecision_scoreLaw h))
  · exact closed _ (State.playbackBeat_scoreLaw _ h)
  · exact closed _ (State.displayBeat_scoreLaw _ h)
  iterate 4 exact closed _ h.of_singers
  · exact ended _ (State.headerReadComplete_scoreLaw h)
  · exact ended _ (State.cueFetchComplete_scoreLaw h)
  · exact ended _ (State.lineLoadComplete_scoreLaw h)
  · exact ended _ (State.noteFetchComplete_scoreLaw h)
  iterate 2 exact ended _ h.of_singers
  · exact tap _ (State.commandSlotWrite_scoreLaw h)
  iterate 17 exact host _
  · exact tap _ (State.captureWrite_scoreLaw h)
  · exact ended _ (State.measurementEnd_scoreLaw h)
  · exact ended _ (State.writeOutEnd_scoreLaw h)
  iterate 8 exact tap _ h.of_singers
  iterate 3 exact ended _ h.of_singers
  · exact ended _ (State.replyPlacementEnd_scoreLaw h)

/-- Settles O51. A judgement is what raises EARNED and POSSIBLE, and it keeps the law; START, ASSIGN and CLEAR_ROOM
clear both; every other operation leaves them. -/
theorem scoreLawIsKept : Obligations.ScoreLawIsKept := by
  intro s t h e
  unfold step at e
  split at e
  · cases e
    exact h
  · next c rest _ => exact exec_scoreLaw (s := { s with pending := rest }) h e

end Sys2Proof.Machine
end

