-- ==== Sys2Proof/Proofs/RewriteBodies.lean ====
section
/-! The bodies of the queue image and the status block (R155, R186, R189): each is laid out as parts of fixed widths, so
that a field is read from the part it lies in. -/

namespace Sys2Proof.Machine

/-! ## Fields of a list of bytes -/

/-- A field reads the bytes it covers and no others. -/
theorem bytesAt_slice {bs cs : List Byte} {off a m : Nat} (h : (bs.drop off).take m = (cs.drop a).take m) :
    bytesAt bs off m = bytesAt cs a m := by
  induction m generalizing off a with
  | zero => rfl
  | succ m ih =>
    have first : ∀ (xs : List Byte) (i : Nat), ((xs.drop i).take (m + 1)).getD 0 0 = xs.getD i 0 := by
      simp [List.getD_eq_getElem?_getD]
    have rest : ∀ (xs : List Byte) (i : Nat), ((xs.drop i).take (m + 1)).drop 1 = (xs.drop (i + 1)).take m := by
      simp [List.drop_take]
    rw [bytesAt, bytesAt, ← first bs, ← first cs, h, ih (by rw [← rest, ← rest, h])]

theorem bytesAt_append_left {bs : List Byte} {off m : Nat} (h : off + m ≤ bs.length) (cs : List Byte) :
    bytesAt (bs ++ cs) off m = bytesAt bs off m := by
  refine bytesAt_slice ?_
  rw [List.drop_append_of_le_length (by omega), List.take_append_of_le_length (by rw [List.length_drop]; omega)]

theorem bytesAt_append_right (bs cs : List Byte) (off m : Nat) :
    bytesAt (bs ++ cs) (bs.length + off) m = bytesAt cs off m :=
  bytesAt_slice (by rw [List.drop_length_add_append])

/-- Behind the bytes that are padded every field is 0 (R189). -/
theorem bytesAt_padTo_behind {n off : Nat} {bs : List Byte} (h : bs.length ≤ off) (m : Nat) :
    bytesAt (padTo n bs) off m = 0 := by
  induction m generalizing off with
  | zero => rfl
  | succ m ih =>
    have first : ((padTo n bs).getD off 0).toNat = 0 := by simpa [bytesAt] using bytesAt_padTo_rest (n := n) h
    rw [bytesAt, first, ih (by omega)]

/-- A word written in enough bytes stands whole. -/
theorem toNat_bytes {w k : Nat} (x : BitVec w) (h : w ≤ 8 * k) : x.toNat % 256 ^ k = x.toNat := by
  refine Nat.mod_eq_of_lt (x.isLt.trans_le ?_)
  rw [show 256 ^ k = 2 ^ (8 * k) by rw [Nat.pow_mul]]
  exact Nat.pow_le_pow_right (by decide) h

/-! ## Bytes laid out as parts of fixed widths -/

/-- The bytes are the parts one behind the other, and the parts have these widths. -/
def LaidOut (bs : List Byte) (parts : List (List Byte)) (widths : List Nat) : Prop :=
  bs = parts.flatten ∧ parts.map List.length = widths

section
variable {bs : List Byte} {parts : List (List Byte)} {widths : List Nat} {i off : Nat} {p : List Byte}

theorem LaidOut.length (h : LaidOut bs parts widths) : bs.length = widths.sum := by
  obtain ⟨rfl, rfl⟩ := h
  exact List.length_flatten

/-- A part stands behind the widths of the parts before it. -/
theorem bytesAt_flatten {a m : Nat} (hp : parts[i]? = some p) (ha : a + m ≤ p.length) :
    bytesAt parts.flatten (((parts.map List.length).take i).sum + a) m = bytesAt p a m := by
  induction parts generalizing i with
  | nil => cases hp
  | cons q rest ih =>
    cases i with
    | zero =>
      obtain rfl : q = p := by simpa using hp
      rw [List.take_zero, List.sum_nil, Nat.zero_add, List.flatten_cons, bytesAt_append_left ha]
    | succ i =>
      rw [List.map_cons, List.take_succ_cons, List.sum_cons, Nat.add_assoc, List.flatten_cons, bytesAt_append_right]
      exact ih (by simpa using hp)

/-- A field of the `i`-th part. -/
theorem LaidOut.field {start a m : Nat} (h : LaidOut bs parts widths) (hp : parts[i]? = some p)
    (hs : (widths.take i).sum = start) (ho : off = start + a) (ha : a + m ≤ p.length) :
    bytesAt bs off m = bytesAt p a m := by
  obtain ⟨rfl, rfl⟩ := h
  rw [ho, ← hs, bytesAt_flatten hp ha]

/-- A part that is one number reads back, up to its width. -/
theorem LaidOut.number {k n : Nat} (h : LaidOut bs parts widths) (hp : parts[i]? = some (leBytes k n))
    (hs : (widths.take i).sum = off) : bytesAt bs off k = n % 256 ^ k := by
  rw [h.field (a := 0) hp hs (Nat.add_zero off).symm (by simp)]
  exact bytesAt_leBytes (List.take_of_length_le (by simp))

end

/-! ## Bytes of flags -/

/-- The number whose bits are the flags, the first in bit 0. -/
def flagsValue (l : List Bool) : Nat := l.foldr (fun b v => bit01 b + 2 * v) 0

theorem flagsValue_testBit (l : List Bool) (i : Nat) : (flagsValue l).testBit i = l.getD i false := by
  induction l generalizing i with
  | nil => simp [flagsValue]
  | cons b rest ih =>
    have value : flagsValue (b :: rest) = bit01 b + 2 * flagsValue rest := rfl
    have low : bit01 b < 2 := by cases b <;> decide
    cases i with
    | zero =>
      rw [value, Nat.testBit_zero, Nat.add_mul_mod_self_left, Nat.mod_eq_of_lt low]
      cases b <;> rfl
    | succ i =>
      rw [value, Nat.testBit_succ, Nat.add_mul_div_left _ _ (by decide), Nat.div_eq_of_lt low, Nat.zero_add, ih]
      rfl

theorem testBit_bytes {i m : Nat} (n : Nat) (h : i < 8 * m) : (n % 256 ^ m).testBit i = n.testBit i := by
  rw [show 256 ^ m = 2 ^ (8 * m) by rw [Nat.pow_mul], Nat.testBit_mod_two_pow]
  simp [h]

/-- Flags summed with the weights of their places, from place `k` on. -/
theorem foldl_bit01 {n : Nat} (p : Fin n → Bool) (acc k : Nat) :
    (List.finRange n).foldl (fun acc h => acc + bit01 (p h) * 2 ^ (h.val + k)) acc =
      acc + 2 ^ k * flagsValue ((List.finRange n).map p) := by
  induction n generalizing acc k with
  | zero => simp [flagsValue]
  | succ n ih =>
    have rest := ih (fun h => p h.succ) (acc + bit01 (p 0) * 2 ^ k) (k + 1)
    have value : flagsValue ((List.finRange (n + 1)).map p) =
        bit01 (p 0) + 2 * flagsValue ((List.finRange n).map fun h => p h.succ) := by
      simp [List.finRange_succ, flagsValue, Function.comp_def]
    simp only [← Nat.add_assoc, Nat.add_right_comm _ k 1] at rest
    rw [value, List.finRange_succ, List.foldl_cons, List.foldl_map]
    simp only [Fin.val_succ, Fin.val_zero, Nat.zero_add, rest]
    ring

theorem Rqu.pendingFlags_eq (r : Rqu) :
    r.pendingFlags = flagsValue ((List.finRange 16).map fun h => (r.handsets.get h).slot.isSome) :=
  (foldl_bit01 (fun h => (r.handsets.get h).slot.isSome) 0 0).trans (by omega)

theorem State.presence_eq (s : State) : s.presence = flagsValue [s.scu.current.isSome, s.ctl.staged.isSome,
    s.ptu.memError.isSome, s.ptu.lastGuard.isSome, s.ctl.lastMark.isSome, s.ctl.setup.isSome] := by
  simp only [State.presence, flagsValue, List.foldr_cons, List.foldr_nil]
  omega

/-- The flags as the status block shows them, bit by bit (R184). -/
theorem State.shownFlags_bit (s : State) (i : Nat) : s.shownFlags.getLsbD i =
    if i = 6 ∧ s.ctl.enables.getLsbD 6 = false then decide (28 ≤ s.rqu.queue.length) else s.ctl.flags.getLsbD i := by
  have masked : ∀ i, (Event.queueHigh.mask).getLsbD i = decide (i = 6) := by
    intro i
    by_cases short : i < 14
    · exact Event.mask_bit .queueHigh i short
    · rw [BitVec.getLsbD_of_ge _ _ (by omega), decide_eq_false (by omega)]
  have live : (if s.rqu.high then Event.queueHigh.mask else 0).getLsbD i = (s.rqu.high && decide (i = 6)) := by
    split
    · next high => rw [masked, high, Bool.true_and]
    · next low => rw [Bool.eq_false_iff.mpr low, Bool.false_and]; exact BitVec.getLsbD_zero
  have latched : (s.ctl.flags.getLsbD i && decide (i < 14)) = s.ctl.flags.getLsbD i := by
    by_cases short : i < 14
    · rw [decide_eq_true short, Bool.and_true]
    · rw [BitVec.getLsbD_of_ge _ _ (Nat.not_lt.mp short), Bool.false_and]
  unfold State.shownFlags
  by_cases enabled : s.ctl.enables.getLsbD 6 = false
  · rw [if_pos ((Event.and_mask .queueHigh _).mpr enabled), BitVec.getLsbD_or, BitVec.getLsbD_and, BitVec.getLsbD_not,
      masked, live, ← Bool.and_assoc, latched]
    by_cases six : i = 6
    · rw [if_pos ⟨six, enabled⟩, decide_eq_true six, Bool.not_true, Bool.and_false, Bool.false_or, Bool.and_true]
      rfl
    · rw [if_neg fun h => six h.1, decide_eq_false six, Bool.not_false, Bool.and_true, Bool.and_false, Bool.or_false]
  · rw [if_neg (mt (Event.and_mask .queueHigh _).mp enabled), if_neg fun h => enabled h.2]

/-! ## The queue image (Table 12-8) -/

theorem Source.code_mod (x : Source) : x.code % 256 ^ 1 = x.code := by
  cases x with
  | handset h => exact Nat.mod_eq_of_lt (h.isLt.trans (by decide))
  | staff => rfl

theorem Client.code_mod (c : Client) : c.code % 256 ^ 1 = c.code := by cases c <;> rfl

theorem bit01_mod (b : Bool) : bit01 b % 256 ^ 1 = bit01 b := by cases b <;> rfl

/-- The parts of the image's body. -/
def Rqu.imageParts (r : Rqu) : List (List Byte) :=
  [leBytes 1 r.queue.length, leBytes 1 r.history.length, leBytes 1 (bit01 r.closed), leBytes 1 0,
    leBytes 2 r.pendingFlags, leBytes 6 0, padTo 384 (r.queue.map Ticket.imageBytes).flatten,
    padTo 64 (r.history.map HistoryEntry.imageBytes).flatten]

theorem Rqu.imageBody_laidOut (r : Rqu) : LaidOut r.imageBody r.imageParts [1, 1, 1, 1, 2, 6, 384, 64] := by
  refine ⟨?_, by simp [Rqu.imageParts]⟩
  have zeros : padTo 6 [] = leBytes 6 0 := rfl
  simp [Rqu.imageBody, Rqu.imageParts, zeros, leBytes]

/-- A field of the `j`-th of the entries of one length that an image lists. -/
theorem bytesAt_entry {α : Type} {f : α → List Byte} {k n j a m : Nat} {l : List α} {x : α} (hf : ∀ x, (f x).length = k)
    (hj : l[j]? = some x) (hn : k * j + k ≤ n) (ha : a + m ≤ k) :
    bytesAt (padTo n (l.map f).flatten) (k * j + a) m = bytesAt (f x) a m := by
  have widths : ∀ p ∈ l.map f, p.length = k := fun p hp => by
    obtain ⟨y, -, rfl⟩ := List.mem_map.mp hp
    exact hf y
  refine bytesAt_slice ?_
  simpa using padTo_entry (head := []) widths (by rw [List.getElem?_map, hj]; rfl) (by simpa using hn) ha

/-- Behind the last entry that an image lists every field is 0 (R189). -/
theorem bytesAt_noEntry {α : Type} {f : α → List Byte} {k n j : Nat} {l : List α} (hf : ∀ x, (f x).length = k)
    (hj : l.length ≤ j) (m : Nat) : bytesAt (padTo n (l.map f).flatten) (k * j) m = 0 := by
  refine bytesAt_padTo_behind ?_ m
  have total : (l.map f).flatten.length = k * l.length := by
    simp [List.length_flatten, List.map_map, Function.comp_def, hf, Nat.mul_comm]
  rw [total]
  exact Nat.mul_le_mul_left k hj

theorem Ticket.imageBytes_length (t : Ticket) : t.imageBytes.length = 12 := rfl

theorem HistoryEntry.imageBytes_length (e : HistoryEntry) : e.imageBytes.length = 8 := rfl

/-- The fields of one queue entry of the image. -/
theorem Ticket.imageBytes_fields (t : Ticket) :
    bytesAt t.imageBytes 0 2 = t.number % 65536 ∧ bytesAt t.imageBytes 2 1 = t.source.code ∧
      bytesAt t.imageBytes 3 1 = t.cls.code ∧ bytesAt t.imageBytes 4 4 = t.song % 2 ^ 32 ∧
      bytesAt t.imageBytes 8 1 = (BitVec.ofInt 8 t.key).toNat ∧ bytesAt t.imageBytes 9 1 = t.singers % 256 ∧
      bytesAt t.imageBytes 10 1 = t.round % 256 ∧ bytesAt t.imageBytes 11 1 = 0 :=
  ⟨bytesAt_leBytes rfl, (bytesAt_leBytes rfl).trans t.source.code_mod,
    (bytesAt_leBytes rfl).trans (by cases t.cls <;> rfl), bytesAt_leBytes rfl, rfl, bytesAt_leBytes rfl,
    bytesAt_leBytes rfl, rfl⟩

/-- The fields of one history entry of the image. -/
theorem HistoryEntry.imageBytes_fields (e : HistoryEntry) :
    bytesAt e.imageBytes 0 4 = e.song % 2 ^ 32 ∧ bytesAt e.imageBytes 4 2 = e.number % 65536 ∧
      bytesAt e.imageBytes 6 1 = e.source.code ∧ bytesAt e.imageBytes 7 1 = 0 :=
  ⟨bytesAt_leBytes rfl, bytesAt_leBytes rfl, (bytesAt_leBytes rfl).trans e.source.code_mod, rfl⟩

theorem Rqu.imageBody_pending (r : Rqu) (h : Fin 16) :
    (bytesAt r.imageBody 4 2).testBit h.val = (r.handsets.get h).slot.isSome := by
  rw [r.imageBody_laidOut.number (i := 4) (off := 4) rfl rfl, testBit_bytes _ h.isLt, r.pendingFlags_eq,
    flagsValue_testBit]
  simp

/-- A field of the `i`-th queue entry, at 010h + 12 i. -/
theorem Rqu.imageBody_ticket {r : Rqu} {i : Nat} {t : Ticket} (hi : i < 32) (ht : r.queue[i]? = some t)
    {off a m v : Nat} (hv : bytesAt t.imageBytes a m = v) (ho : off = 12 + (12 * i + a) := by omega)
    (ha : a + m ≤ 12 := by omega) : bytesAt r.imageBody off m = v := by
  rw [← hv, r.imageBody_laidOut.field (i := 6) rfl rfl ho (by rw [padTo_length]; omega)]
  exact bytesAt_entry Ticket.imageBytes_length ht (by omega) ha

/-- A field of the `j`-th history entry, at 190h + 8 j. -/
theorem Rqu.imageBody_history {r : Rqu} {j : Nat} {e : HistoryEntry} (hj : j < 8) (he : r.history[j]? = some e)
    {off a m v : Nat} (hv : bytesAt e.imageBytes a m = v) (ho : off = 396 + (8 * j + a) := by omega)
    (ha : a + m ≤ 8 := by omega) : bytesAt r.imageBody off m = v := by
  rw [← hv, r.imageBody_laidOut.field (i := 7) rfl rfl ho (by rw [padTo_length]; omega)]
  exact bytesAt_entry HistoryEntry.imageBytes_length he (by omega) ha

theorem Rqu.imageBody_noTicket {r : Rqu} {i off : Nat} (hi : i < 32) (h : r.queue.length ≤ i) (ho : off = 12 + 12 * i) :
    bytesAt r.imageBody off 12 = 0 := by
  rw [r.imageBody_laidOut.field (i := 6) rfl rfl ho (by rw [padTo_length]; omega)]
  exact bytesAt_noEntry Ticket.imageBytes_length h 12

theorem Rqu.imageBody_noHistory {r : Rqu} {j off : Nat} (hj : j < 8) (h : r.history.length ≤ j)
    (ho : off = 396 + 8 * j) : bytesAt r.imageBody off 8 = 0 := by
  rw [r.imageBody_laidOut.field (i := 7) rfl rfl ho (by rw [padTo_length]; omega)]
  exact bytesAt_noEntry HistoryEntry.imageBytes_length h 8

/-! ## The status block (Table 12-4) -/

/-- The current ticket's bytes at 090h. -/
def State.currentBytes (s : State) : List Byte :=
  match s.scu.current with
  | none => leBytes 3 0
  | some t => leBytes 2 t.number ++ leBytes 1 t.source.code

/-- The current song's bytes at 094h. -/
def State.currentSong (s : State) : Nat := (s.scu.current.map Ticket.song).getD 0

/-- The staged copy's bytes at 098h. -/
def State.stagedBytes (s : State) : List Byte :=
  match s.ctl.staged with
  | none => leBytes 10 0
  | some c => leBytes 2 c.number ++ leBytes 1 c.source.code ++ signedBytes c.key ++ leBytes 4 c.song ++
      leBytes 1 c.singers ++ leBytes 1 c.hint.val

/-- The parts of the status body. -/
def State.statusParts (s : State) : List (List Byte) :=
  [leBytes 1 s.scu.state.code, leBytes 1 (phaseCode s.scu.phase), signedBytes s.scu.key, leBytes 1 s.presence,
    leBytes 4 s.songMs, leBytes 4 s.scu.tempo, s.currentBytes, leBytes 1 (bit01 s.rqu.closed), leBytes 4 s.currentSong,
    s.stagedBytes, leBytes 1 s.rqu.queue.length, leBytes 1 0, leBytes 4 s.ctl.enables.toNat,
    leBytes 4 s.shownFlags.toNat] ++
  (List.finRange 4).map (fun i => (s.scr.singers.get i).statusBytes) ++
  s.counters.map (fun c => leBytes 4 c.toNat) ++
  [leBytes 4 ((s.ptu.memError.map MemoryError.addr).getD 0), leBytes 4 s.ptu.memErrorCount.toNat,
    leBytes 1 ((s.ptu.memError.map (fun e => e.client.code)).getD 0),
    leBytes 1 ((s.ptu.lastGuard.map (fun g => g.tag.toNat)).getD 0), leBytes 2 (s.ctl.lastMark.getD 0),
    leBytes 4 ((s.ptu.lastGuard.map (fun g => g.addr.toNat)).getD 0)]

/-- The widths of those parts. -/
def statusWidths : List Nat :=
  [1, 1, 1, 1, 4, 4, 3, 1, 4, 10, 1, 1, 4, 4, 8, 8, 8, 8, 4, 4, 4, 4, 4, 4, 4, 4, 4, 4, 4, 4, 4, 1, 1, 2, 4]

theorem Singer.statusBytes_length (g : Singer) : g.statusBytes.length = 8 := by
  unfold Singer.statusBytes
  split <;> rfl

theorem State.currentBytes_length (s : State) : s.currentBytes.length = 3 := by
  unfold State.currentBytes
  split <;> rfl

theorem State.stagedBytes_length (s : State) : s.stagedBytes.length = 10 := by
  unfold State.stagedBytes
  split <;> rfl

theorem State.statusBody_laidOut (s : State) : LaidOut s.statusBody s.statusParts statusWidths := by
  refine ⟨?_, ?_⟩
  · have three : List.replicate 3 (0 : Byte) = leBytes 3 0 := rfl
    have four : List.replicate 4 (0 : Byte) = leBytes 4 0 := rfl
    have ten : List.replicate 10 (0 : Byte) = leBytes 10 0 := rfl
    have one : [(0 : Byte)] = leBytes 1 0 := rfl
    unfold State.statusBody State.statusParts State.currentBytes State.currentSong State.stagedBytes
    rw [one, three, four, ten]
    cases s.scu.current <;> cases s.ctl.staged <;> simp only [List.flatten_append, List.flatten_cons, List.flatten_nil,
      List.append_nil, List.append_assoc, Option.map_none, Option.map_some, Option.getD_none, Option.getD_some]
  · simp [State.statusParts, State.counters, statusWidths, Singer.statusBytes_length, State.currentBytes_length,
      State.stagedBytes_length, signedBytes, List.finRange_succ]

section
variable {s : State}

theorem State.currentBytes_none (h : s.scu.current = none) : s.currentBytes = leBytes 3 0 ∧ s.currentSong = 0 := by
  simp [State.currentBytes, State.currentSong, h]

theorem State.currentBytes_some {t : Ticket} (h : s.scu.current = some t) :
    s.currentBytes = leBytes 2 t.number ++ leBytes 1 t.source.code ∧ s.currentSong = t.song := by
  simp [State.currentBytes, State.currentSong, h]

theorem State.statusBody_noCurrent (h : s.scu.current = none) :
    bytesAt s.statusBody 12 3 = 0 ∧ bytesAt s.statusBody 16 4 = 0 := by
  obtain ⟨head, song⟩ := State.currentBytes_none h
  rw [s.statusBody_laidOut.field (i := 6) (off := 12) (a := 0) rfl rfl rfl (by rw [s.currentBytes_length]), head,
    s.statusBody_laidOut.number (i := 8) (off := 16) (n := s.currentSong) rfl rfl, song]
  exact ⟨rfl, rfl⟩

theorem State.statusBody_current {t : Ticket} (h : s.scu.current = some t) :
    bytesAt s.statusBody 12 2 = t.number % 65536 ∧ bytesAt s.statusBody 14 1 = t.source.code ∧
      bytesAt s.statusBody 16 4 = t.song % 2 ^ 32 := by
  obtain ⟨head, song⟩ := State.currentBytes_some h
  have field : ∀ {off a m : Nat}, off = 12 + a → a + m ≤ 3 →
      bytesAt s.statusBody off m = bytesAt (leBytes 2 t.number ++ leBytes 1 t.source.code) a m := fun ho ha => by
    rw [s.statusBody_laidOut.field (i := 6) rfl rfl ho (by rw [s.currentBytes_length]; exact ha), head]
  refine ⟨?_, ?_, ?_⟩
  · exact (field (a := 0) rfl (by omega)).trans (bytesAt_leBytes rfl)
  · exact ((field (a := 2) rfl (by omega)).trans (bytesAt_leBytes rfl)).trans t.source.code_mod
  · rw [s.statusBody_laidOut.number (i := 8) (off := 16) (n := s.currentSong) rfl rfl, song]
    rfl

/-- A field of the staged copy, at 098h. -/
theorem State.statusBody_staged (s : State) {off a m v : Nat} (hv : bytesAt s.stagedBytes a m = v)
    (ho : off = 20 + a := by omega) (ha : a + m ≤ 10 := by omega) : bytesAt s.statusBody off m = v := by
  rw [← hv]
  exact s.statusBody_laidOut.field (i := 9) rfl rfl ho (by rw [s.stagedBytes_length]; exact ha)

theorem State.statusBody_noStaged (h : s.ctl.staged = none) : bytesAt s.statusBody 20 10 = 0 := by
  refine s.statusBody_staged (a := 0) ?_
  rw [State.stagedBytes, h]
  rfl

/-- The fields of the staged copy. -/
theorem State.stagedBytes_fields {c : StagedCopy} (h : s.ctl.staged = some c) :
    bytesAt s.stagedBytes 0 2 = c.number % 65536 ∧ bytesAt s.stagedBytes 2 1 = c.source.code ∧
      bytesAt s.stagedBytes 3 1 = (BitVec.ofInt 8 c.key).toNat ∧ bytesAt s.stagedBytes 4 4 = c.song % 2 ^ 32 ∧
      bytesAt s.stagedBytes 8 1 = c.singers % 256 ∧ bytesAt s.stagedBytes 9 1 = c.hint.val := by
  have hint : c.hint.val % 256 ^ 1 = c.hint.val := Nat.mod_eq_of_lt (c.hint.isLt.trans (by decide))
  rw [State.stagedBytes, h]
  exact ⟨bytesAt_leBytes rfl, (bytesAt_leBytes rfl).trans c.source.code_mod, rfl, bytesAt_leBytes rfl,
    bytesAt_leBytes rfl, (bytesAt_leBytes rfl).trans hint⟩

/-- A field of singer `i`, at 0ACh + 8 i. -/
theorem State.statusBody_singer (s : State) (i : Fin 4) {off a m v : Nat}
    (hv : bytesAt (s.scr.singers.get i).statusBytes a m = v) (ho : off = 40 + 8 * i.val + a := by omega)
    (ha : a + m ≤ 8 := by omega) : bytesAt s.statusBody off m = v := by
  have part : s.statusParts[14 + i.val]? = some (s.scr.singers.get i).statusBytes := by fin_cases i <;> rfl
  have place : (statusWidths.take (14 + i.val)).sum = 40 + 8 * i.val := by fin_cases i <;> rfl
  rw [← hv]
  exact s.statusBody_laidOut.field part place ho (by rw [Singer.statusBytes_length]; exact ha)

/-- An OFF singer's bytes are 0 (R116, log 24). -/
theorem Singer.statusBytes_off {g : Singer} (h : g.active = false) : bytesAt g.statusBytes 0 8 = 0 := by
  rw [Singer.statusBytes, if_neg (by simp [h])]
  rfl

theorem Singer.statusBytes_active {g : Singer} (h : g.active = true) :
    bytesAt g.statusBytes 0 1 = 1 ∧ bytesAt g.statusBytes 1 1 = bandCode g.totals.lastBand ∧
      bytesAt g.statusBytes 2 2 = g.totals.score % 65536 ∧ bytesAt g.statusBytes 4 4 = g.totals.possible % 2 ^ 32 := by
  have band : ∀ b, bandCode b % 256 ^ 1 = bandCode b := by rintro (_ | _ | _ | _ | _) <;> rfl
  rw [Singer.statusBytes, if_pos h]
  exact ⟨rfl, (bytesAt_leBytes rfl).trans (band _), bytesAt_leBytes rfl, bytesAt_leBytes rfl⟩

theorem State.statusBody_counter (s : State) {k off : Nat} (hk : k < 11) (ho : off = 72 + 4 * k) :
    bytesAt s.statusBody off 4 = (s.counters.getD k 0).toNat := by
  have part : s.statusParts[18 + k]? = some (leBytes 4 (s.counters.getD k 0).toNat) := by interval_cases k <;> rfl
  have place : (statusWidths.take (18 + k)).sum = off := by
    rw [ho]
    interval_cases k <;> rfl
  rw [s.statusBody_laidOut.number part place]
  exact Nat.mod_eq_of_lt (s.counters.getD k 0).isLt

/-- The presence bits at 087h. -/
theorem State.statusBody_presence (s : State) {i : Nat} (hi : i < 8) : (bytesAt s.statusBody 3 1).testBit i =
    [s.scu.current.isSome, s.ctl.staged.isSome, s.ptu.memError.isSome, s.ptu.lastGuard.isSome,
      s.ctl.lastMark.isSome, s.ctl.setup.isSome].getD i false := by
  rw [s.statusBody_laidOut.number (i := 3) (off := 3) rfl rfl, testBit_bytes _ hi, s.presence_eq, flagsValue_testBit]

/-- The shown flags at 0A8h (R184). -/
theorem State.statusBody_flags (s : State) {i : Nat} (hi : i < 32) : (bytesAt s.statusBody 36 4).testBit i =
    if i = 6 ∧ s.ctl.enables.getLsbD 6 = false then decide (28 ≤ s.rqu.queue.length) else s.ctl.flags.getLsbD i := by
  rw [s.statusBody_laidOut.number (i := 13) (off := 36) rfl rfl, testBit_bytes _ hi, BitVec.testBit_toNat,
    s.shownFlags_bit]

/-- The memory error record's fields, at 0F8h and 100h. -/
theorem State.statusBody_memError (s : State) :
    bytesAt s.statusBody 116 4 = (s.ptu.memError.map MemoryError.addr).getD 0 % 2 ^ 32 ∧
      bytesAt s.statusBody 124 1 = (s.ptu.memError.map fun e => e.client.code).getD 0 % 256 :=
  ⟨s.statusBody_laidOut.number (i := 29) rfl rfl, s.statusBody_laidOut.number (i := 31) rfl rfl⟩

theorem State.statusBody_noError (h : s.ptu.memError = none) :
    bytesAt s.statusBody 116 4 = 0 ∧ bytesAt s.statusBody 124 1 = 0 := by
  obtain ⟨addr, client⟩ := s.statusBody_memError
  rw [addr, client, h]
  exact ⟨rfl, rfl⟩

theorem State.statusBody_error {e : MemoryError} (h : s.ptu.memError = some e) :
    bytesAt s.statusBody 116 4 = e.addr % 2 ^ 32 ∧ bytesAt s.statusBody 124 1 = e.client.code := by
  obtain ⟨addr, client⟩ := s.statusBody_memError
  rw [addr, client, h]
  exact ⟨rfl, e.client.code_mod⟩

/-- The guard record's fields, at 101h and 104h. -/
theorem State.statusBody_lastGuard (s : State) :
    bytesAt s.statusBody 125 1 = (s.ptu.lastGuard.map fun g => g.tag.toNat).getD 0 % 256 ^ 1 ∧
      bytesAt s.statusBody 128 4 = (s.ptu.lastGuard.map fun g => g.addr.toNat).getD 0 % 256 ^ 4 :=
  ⟨s.statusBody_laidOut.number (i := 32) rfl rfl, s.statusBody_laidOut.number (i := 34) rfl rfl⟩

theorem State.statusBody_noGuard (h : s.ptu.lastGuard = none) :
    bytesAt s.statusBody 125 1 = 0 ∧ bytesAt s.statusBody 128 4 = 0 := by
  obtain ⟨tag, addr⟩ := s.statusBody_lastGuard
  rw [tag, addr, h]
  exact ⟨rfl, rfl⟩

theorem State.statusBody_guard {g : GuardRecord} (h : s.ptu.lastGuard = some g) :
    bytesAt s.statusBody 125 1 = g.tag.toNat ∧ bytesAt s.statusBody 128 4 = g.addr.toNat := by
  obtain ⟨tag, addr⟩ := s.statusBody_lastGuard
  rw [tag, addr, h]
  exact ⟨toNat_bytes g.tag (by decide), toNat_bytes g.addr (by decide)⟩

end

/-- Settles O6. Each field is read from the part of its body that it lies in. -/
theorem rewriteBodiesMeetTheirTables : Obligations.RewriteBodiesMeetTheirTables := by
  refine ⟨fun r => ?_, fun s => ?_⟩
  · have lay := r.imageBody_laidOut
    refine ⟨lay.length, lay.number (i := 0) rfl rfl, lay.number (i := 1) rfl rfl,
      (lay.number (i := 2) rfl rfl).trans (bit01_mod _), lay.number (i := 3) (n := 0) rfl rfl,
      lay.number (i := 5) (n := 0) rfl rfl, r.imageBody_pending, fun i hi => ⟨fun t ht => ?_, fun h => ?_⟩,
      fun j hj => ⟨fun e he => ?_, fun h => ?_⟩⟩
    · obtain ⟨number, source, cls, song, key, singers, round, last⟩ := t.imageBytes_fields
      exact ⟨Rqu.imageBody_ticket hi ht number, Rqu.imageBody_ticket hi ht source, Rqu.imageBody_ticket hi ht cls,
        Rqu.imageBody_ticket hi ht song, Rqu.imageBody_ticket hi ht key, Rqu.imageBody_ticket hi ht singers,
        Rqu.imageBody_ticket hi ht round, Rqu.imageBody_ticket hi ht last⟩
    · exact Rqu.imageBody_noTicket hi h (by omega)
    · obtain ⟨song, number, source, last⟩ := e.imageBytes_fields
      exact ⟨Rqu.imageBody_history hj he song, Rqu.imageBody_history hj he number, Rqu.imageBody_history hj he source,
        Rqu.imageBody_history hj he last⟩
    · exact Rqu.imageBody_noHistory hj h (by omega)
  · have lay := s.statusBody_laidOut
    refine ⟨lay.length, ?_, ?_, lay.field (i := 2) (a := 0) rfl rfl rfl (by rfl), fun i hi => s.statusBody_presence hi,
      lay.number (i := 4) rfl rfl, lay.number (i := 5) rfl rfl, State.statusBody_noCurrent,
      fun t ht => State.statusBody_current ht, (lay.number (i := 7) rfl rfl).trans (bit01_mod _),
      State.statusBody_noStaged, fun c hc => ?_, lay.number (i := 10) rfl rfl, lay.number (i := 11) (n := 0) rfl rfl,
      (lay.number (i := 12) rfl rfl).trans (toNat_bytes _ (by decide)), fun i hi => s.statusBody_flags hi,
      fun i => ⟨fun off => ?_, fun active => ?_⟩, fun k hk => s.statusBody_counter hk (by omega),
      (lay.number (i := 30) rfl rfl).trans (toNat_bytes _ (by decide)), State.statusBody_noError,
      fun e he => State.statusBody_error he, lay.number (i := 33) rfl rfl, State.statusBody_noGuard,
      fun g hg => State.statusBody_guard hg⟩
    · refine (lay.number (i := 0) rfl rfl).trans ?_
      cases s.scu.state <;> rfl
    · refine (lay.number (i := 1) rfl rfl).trans ?_
      rcases s.scu.phase with _ | _ | _ | _ <;> rfl
    · obtain ⟨number, source, key, song, singers, hint⟩ := State.stagedBytes_fields hc
      exact ⟨s.statusBody_staged number, s.statusBody_staged source, s.statusBody_staged key,
        s.statusBody_staged song, s.statusBody_staged singers, s.statusBody_staged hint⟩
    · exact s.statusBody_singer i (Singer.statusBytes_off off)
    · obtain ⟨on, band, score, possible⟩ := Singer.statusBytes_active active
      exact ⟨s.statusBody_singer i on, s.statusBody_singer i band, s.statusBody_singer i score,
        s.statusBody_singer i possible⟩

end Sys2Proof.Machine
end

