-- ==== Sys2Proof/Proofs/QueueOrder.lean ====
section
/-! Numbers, places and rounds in the queue (R131 to R133): which number a new ticket takes, where a ticket is put, and
what the rounds of a source are when one of its NORMAL tickets ceases to be NORMAL. -/

namespace Sys2Proof.Machine

/-! ## The number of a new ticket (R131) -/

/-- The number tried after `j` others from `n` on, counting 65,535 back to 1. -/
def probe (n j : Nat) : Nat := (n + j) % 65535 + 1

theorem probe_succ (n j : Nat) : probe (probe n 0) j = probe n (j + 1) := by
  unfold probe
  omega

theorem probe_range (n j : Nat) : 1 ≤ probe n j ∧ probe n j ≤ 65535 := by
  unfold probe
  omega

theorem probe_injective {n i j : Nat} (hi : i < 65535) (hj : j < 65535) (h : probe n i = probe n j) : i = j := by
  unfold probe at h
  omega

/-- A search from a number in range tries the numbers after it one by one. -/
theorem State.searchNumber_succ (s : State) (fuel : Nat) {n : Nat} (hn : n ≤ 65535) :
    s.searchNumber (fuel + 1) n =
      if s.numberHeld (probe n 0) then s.searchNumber fuel (probe n 0) else probe n 0 := by
  have next : (if n ≥ 65535 then 1 else n + 1) = probe n 0 := by
    unfold probe
    split <;> omega
  rw [State.searchNumber, next]

/-- A search ends at the first number tried that nobody holds, unless every number it may try is held. -/
theorem State.searchNumber_first (s : State) (fuel : Nat) : ∀ {n : Nat}, n ≤ 65535 →
    (∀ j < fuel, s.numberHeld (probe n j) = true) ∨
      ∃ k, s.searchNumber fuel n = probe n k ∧ s.numberHeld (probe n k) = false ∧
        ∀ j < k, s.numberHeld (probe n j) = true := by
  induction fuel with
  | zero => exact fun _ => .inl fun j hj => absurd hj (Nat.not_lt_zero j)
  | succ fuel ih =>
    intro n hn
    rw [State.searchNumber_succ s fuel hn]
    by_cases held : s.numberHeld (probe n 0) = true
    · rw [if_pos held]
      have shift : ∀ {k : Nat}, (∀ j < k, s.numberHeld (probe (probe n 0) j) = true) →
          ∀ j < k + 1, s.numberHeld (probe n j) = true := by
        intro k all j hj
        cases j with
        | zero => exact held
        | succ j => rw [← probe_succ]; exact all j (by omega)
      rcases ih (probe_range n 0).2 with all | ⟨k, found, free, all⟩
      · exact .inl (shift all)
      · rw [probe_succ] at found free
        exact .inr ⟨k + 1, found, free, shift all⟩
    · rw [if_neg held]
      exact .inr ⟨0, rfl, by simpa using held, fun j hj => absurd hj (Nat.not_lt_zero j)⟩

/-- The numbers held: those of the queued tickets, and the current ticket's. -/
def State.heldNumbers (s : State) : List Nat := s.rqu.queue.map Ticket.number ++ (s.scu.current.map Ticket.number).toList

theorem State.numberHeld_iff (s : State) (n : Nat) : s.numberHeld n = true ↔ n ∈ s.heldNumbers := by
  simp only [State.numberHeld, State.heldNumbers, Bool.or_eq_true, List.any_eq_true, beq_iff_eq, List.mem_append,
    List.mem_map, Option.mem_toList]

theorem State.numberHeld_false (s : State) (n : Nat) : s.numberHeld n = false ↔
    n ∉ s.rqu.queue.map Ticket.number ∧ s.scu.current.map Ticket.number ≠ some n := by
  rw [← Bool.not_eq_true, State.numberHeld_iff]
  simp [State.heldNumbers]

theorem State.heldNumbers_length (s : State) : s.heldNumbers.length ≤ s.rqu.queue.length + 1 := by
  rw [State.heldNumbers, List.length_append, List.length_map]
  cases s.scu.current <;> simp

/-- More numbers than are held cannot all be held. -/
theorem State.probe_free (s : State) (n : Nat) (hl : s.rqu.queue.length ≤ 32) :
    ¬ ∀ j < s.rqu.queue.length + 2, s.numberHeld (probe n j) = true := by
  intro all
  have distinct : ((List.range (s.rqu.queue.length + 2)).map (probe n)).Nodup := by
    refine List.nodup_range.map_on fun i hi j hj h => ?_
    rw [List.mem_range] at hi hj
    exact probe_injective (by omega) (by omega) h
  have within : (List.range (s.rqu.queue.length + 2)).map (probe n) ⊆ s.heldNumbers := by
    intro m hm
    obtain ⟨j, hj, rfl⟩ := List.mem_map.mp hm
    exact (s.numberHeld_iff _).mp (all j (List.mem_range.mp hj))
  have tooMany := (distinct.subperm within).length_le
  have few := s.heldNumbers_length
  simp only [List.length_map, List.length_range] at tooMany
  omega

/-- The number of a new ticket is the first free one after the last issued (R131). -/
theorem State.newNumber_first {s : State} (hl : s.rqu.queue.length ≤ 32) (hn : s.rqu.lastNumber ≤ 65535) :
    ∃ k, s.newNumber = probe s.rqu.lastNumber k ∧ s.numberHeld s.newNumber = false ∧
      ∀ j < k, s.numberHeld (probe s.rqu.lastNumber j) = true := by
  rcases s.searchNumber_first (s.rqu.queue.length + 2) hn with all | ⟨k, found, free, before⟩
  · exact absurd all (s.probe_free _ hl)
  · exact ⟨k, found, by rw [State.newNumber, found]; exact free, before⟩

/-- Past 65,535 a search begins as it does at 65,535. -/
theorem State.searchNumber_above (s : State) (fuel : Nat) {n : Nat} (hn : 65535 ≤ n) :
    s.searchNumber (fuel + 1) n = s.searchNumber (fuel + 1) 65535 := by
  have back : ∀ m, 65535 ≤ m →
      s.searchNumber (fuel + 1) m = if s.numberHeld 1 then s.searchNumber fuel 1 else 1 := by
    intro m hm
    rw [State.searchNumber, if_pos hm]
  exact (back n hn).trans (back 65535 (Nat.le_refl _)).symm

/-- Whatever number was issued last, a new ticket's is in range and free. -/
theorem State.newNumber_free {s : State} (hl : s.rqu.queue.length ≤ 32) :
    1 ≤ s.newNumber ∧ s.newNumber ≤ 65535 ∧ s.numberHeld s.newNumber = false := by
  have from_ : ∀ n ≤ 65535, s.newNumber = s.searchNumber (s.rqu.queue.length + 2) n →
      1 ≤ s.newNumber ∧ s.newNumber ≤ 65535 ∧ s.numberHeld s.newNumber = false := by
    intro n hn e
    rcases s.searchNumber_first (s.rqu.queue.length + 2) hn with all | ⟨k, found, free, -⟩
    · exact absurd all (s.probe_free _ hl)
    · rw [e, found]
      exact ⟨(probe_range n k).1, (probe_range n k).2, free⟩
  rcases Nat.le_total s.rqu.lastNumber 65535 with h | h
  · exact from_ _ h rfl
  · exact from_ 65535 (Nat.le_refl _) (s.searchNumber_above _ h)

/-! ## A ticket's place (R132) -/

/-- A ticket is put before the first one that it stands before. -/
theorem placeTicket_eq (t : Ticket) (q : List Ticket) : placeTicket t q =
    q.takeWhile (fun x => !t.before x) ++ t :: q.dropWhile (fun x => !t.before x) := by
  induction q with
  | nil => rfl
  | cons u rest ih =>
    rw [placeTicket]
    cases hb : t.before u
    · simp [hb, ih]
    · simp [hb]

/-- The position of the first ticket of its number. -/
theorem positionOf_append {n : Nat} {front back : List Ticket} {t : Ticket} (hn : t.number = n)
    (hf : ∀ x ∈ front, x.number ≠ n) : positionOf n (front ++ t :: back) = front.length + 1 := by
  induction front with
  | nil =>
    have own : (t.number == n) = true := by simpa using hn
    simp only [positionOf, List.nil_append, List.findIdx_cons, own, cond_true, List.length_nil]
  | cons u rest ih =>
    have other : (u.number == n) = false := by simpa using hf u List.mem_cons_self
    have rest' := ih fun x hx => hf x (List.mem_cons_of_mem u hx)
    simp only [positionOf, List.cons_append, List.findIdx_cons, other, cond_false, List.length_cons] at rest' ⊢
    omega

/-- A ticket put into a queue that does not hold its number stands behind those it does not stand before. -/
theorem positionOf_placeTicket {t : Ticket} {q : List Ticket} (hn : ∀ x ∈ q, x.number ≠ t.number) :
    positionOf t.number (placeTicket t q) = (q.takeWhile (fun x => !t.before x)).length + 1 := by
  rw [placeTicket_eq]
  exact positionOf_append rfl fun x hx => hn x ((List.takeWhile_prefix _).subset hx)

/-- A ticket put into an ordered list leaves an ordered list, in any transitive order in which `before` decides its
place. -/
theorem placeTicket_pairwise {R : Ticket → Ticket → Prop} (trans : ∀ a b c, R a b → R b c → R a c) {t : Ticket}
    {q : List Ticket} (hq : q.Pairwise R) (ht : ∀ u ∈ q, if t.before u then R t u else R u t) :
    (placeTicket t q).Pairwise R := by
  induction q with
  | nil => exact List.pairwise_singleton R t
  | cons u rest ih =>
    obtain ⟨first, others⟩ := List.pairwise_cons.mp hq
    have place := ht u List.mem_cons_self
    rw [placeTicket]
    by_cases hb : t.before u = true
    · rw [if_pos hb] at place ⊢
      refine List.pairwise_cons.mpr ⟨fun x hx => ?_, hq⟩
      rcases List.mem_cons.mp hx with rfl | hx
      · exact place
      · exact trans _ _ _ place (first x hx)
    · rw [if_neg hb] at place ⊢
      refine List.pairwise_cons.mpr ⟨fun x hx => ?_, ih others fun v hv => ht v (List.mem_cons_of_mem u hv)⟩
      rcases List.mem_cons.mp ((placeTicket_perm t rest).mem_iff.mp hx) with rfl | hx
      · exact place
      · exact first x hx

/-- A queue put back in order stands in any transitive order in which `before` decides. -/
theorem reorder_pairwise {R : Ticket → Ticket → Prop} (trans : ∀ a b c, R a b → R b c → R a c) {q : List Ticket}
    (hq : q.Pairwise fun u t => if t.before u then R t u else R u t) : (reorder q).Pairwise R := by
  have general : ∀ acc : List Ticket, acc.Pairwise R → (∀ u ∈ acc, ∀ t ∈ q, if t.before u then R t u else R u t) →
      (q.foldl (fun acc t => placeTicket t acc) acc).Pairwise R := by
    induction q with
    | nil => exact fun acc h _ => h
    | cons t rest ih =>
      intro acc ordered place
      obtain ⟨first, others⟩ := List.pairwise_cons.mp hq
      refine ih others _ (placeTicket_pairwise trans ordered fun u hu => place u hu t List.mem_cons_self) ?_
      intro u hu x hx
      rcases List.mem_cons.mp ((placeTicket_perm t acc).mem_iff.mp hu) with rfl | hu
      · exact first x hx
      · exact place u hu x (List.mem_cons_of_mem t hx)
  exact general [] List.Pairwise.nil fun u hu => absurd hu List.not_mem_nil

/-! ## The order of class and round (R132, R133) -/

theorem TicketClass.rank_inj {a b : TicketClass} (h : a.rank = b.rank) : a = b := by
  cases a <;> cases b <;> first | rfl | cases h

/-- `a` may stand before `b` by class and round. -/
def Ticket.noLater (a b : Ticket) : Prop := a.cls.rank ≤ b.cls.rank ∧ (a.cls = b.cls → a.round ≤ b.round)

theorem Ticket.noLater_trans (a b c : Ticket) (h : a.noLater b) (g : b.noLater c) : a.noLater c := by
  refine ⟨h.1.trans g.1, fun e => ?_⟩
  have same : a.cls = b.cls := TicketClass.rank_inj (Nat.le_antisymm h.1 (e ▸ g.1))
  exact (h.2 same).trans (g.2 (same ▸ e))

/-- `before` decides the order of class and round. -/
theorem Ticket.before_noLater (t u : Ticket) : if t.before u then t.noLater u else u.noLater t := by
  unfold Ticket.before Ticket.noLater
  by_cases hc : t.cls.rank = u.cls.rank
  · have same := TicketClass.rank_inj hc
    by_cases hr : t.round = u.round
    · simp [same, hr]
    · simp only [same, hr, ne_eq, not_true_eq_false, not_false_eq_true, if_false, if_true, le_refl, true_and,
        forall_const, decide_eq_true_eq]
      split <;> omega
  · simp only [hc, ne_eq, not_false_eq_true, if_true, decide_eq_true_eq]
    split
    · exact ⟨by omega, fun e => absurd (congrArg TicketClass.rank e) hc⟩
    · exact ⟨by omega, fun e => absurd (congrArg TicketClass.rank e.symm) hc⟩

theorem placeTicket_noLater {t : Ticket} {q : List Ticket} (hq : q.Pairwise Ticket.noLater) :
    (placeTicket t q).Pairwise Ticket.noLater :=
  placeTicket_pairwise Ticket.noLater_trans hq fun u _ => t.before_noLater u

theorem reorder_noLater (q : List Ticket) : (reorder q).Pairwise Ticket.noLater :=
  reorder_pairwise Ticket.noLater_trans (List.pairwise_of_forall fun u t => t.before_noLater u)

/-! ## Rounds (R133) -/

/-- The rounds of a source's NORMAL tickets, in queue order. -/
def roundsOf (src : Source) (q : List Ticket) : List Nat :=
  (q.filter fun u => decide (u.cls = .normal ∧ u.source = src)).map Ticket.round

theorem roundsOf_cons (src : Source) (t : Ticket) (q : List Ticket) : roundsOf src (t :: q) =
    if t.cls = .normal ∧ t.source = src then t.round :: roundsOf src q else roundsOf src q := by
  unfold roundsOf
  rw [List.filter_cons]
  split <;> simp_all

theorem roundsOf_perm {q r : List Ticket} (h : q.Perm r) (src : Source) : (roundsOf src q).Perm (roundsOf src r) :=
  (h.filter _).map _

theorem roundsOf_length (src : Source) (q : List Ticket) : (roundsOf src q).length = normalCount src q := by
  simp only [roundsOf, normalCount, List.length_map, beq_eq_decide, Bool.decide_and, Bool.and_comm]

theorem countP_normal (src : Source) (q : List Ticket) :
    q.countP (fun u => decide (u.cls = .normal ∧ u.source = src)) = (roundsOf src q).length := by
  rw [List.countP_eq_length_filter, roundsOf, List.length_map]

/-- Each NORMAL ticket's round is one more than the number of its source's NORMAL tickets before it exactly where each
source's rounds count up from 1. -/
theorem rounds_counted_iff (q : List Ticket) :
    (∀ p ∈ q.zipIdx, p.1.cls = .normal →
      p.1.round = (q.take p.2).countP (fun u => decide (u.cls = .normal ∧ u.source = p.1.source)) + 1) ↔
      ∀ src, roundsOf src q = List.range' 1 (roundsOf src q).length := by
  induction q using List.reverseRecOn with
  | nil => simp [roundsOf]
  | append_singleton q t ih =>
    have split : ∀ src, roundsOf src (q ++ [t]) =
        roundsOf src q ++ if t.cls = .normal ∧ t.source = src then [t.round] else [] := by
      intro src
      unfold roundsOf
      rw [List.filter_append, List.map_append]
      split <;> simp_all
    have counted : (∀ src, roundsOf src (q ++ [t]) = List.range' 1 (roundsOf src (q ++ [t])).length) ↔
        (∀ src, roundsOf src q = List.range' 1 (roundsOf src q).length) ∧
          (t.cls = .normal → t.round = (roundsOf t.source q).length + 1) := by
      constructor
      · intro h
        have last : ∀ src, t.cls = .normal ∧ t.source = src →
            roundsOf src q = List.range' 1 (roundsOf src q).length ∧ t.round = (roundsOf src q).length + 1 := by
          intro src hs
          have := h src
          rw [split, if_pos hs, List.length_append, List.length_singleton, List.range'_concat] at this
          obtain ⟨front, end_⟩ := List.append_inj this (by simp)
          exact ⟨front, by simpa [Nat.add_comm] using end_⟩
        refine ⟨fun src => ?_, fun hn => (last _ ⟨hn, rfl⟩).2⟩
        by_cases hs : t.cls = .normal ∧ t.source = src
        · exact (last src hs).1
        · simpa [split, hs] using h src
      · rintro ⟨front, last⟩ src
        rw [split]
        split
        · next hs =>
          rw [List.length_append, List.length_singleton, List.range'_concat, ← front src, last hs.1, hs.2]
          simp [Nat.add_comm]
        · simpa using front src
    rw [counted, ← ih]
    simp only [List.zipIdx_append, List.forall_mem_append, List.zipIdx_singleton, List.forall_mem_singleton,
      Nat.zero_add, List.take_left', countP_normal]
    refine and_congr_left fun _ => forall_congr' fun p => forall_congr' fun hp => ?_
    have inside : p.2 ≤ q.length := by
      obtain ⟨-, h, -⟩ := List.mem_zipIdx (x := p.1) (i := p.2) hp
      omega
    rw [List.take_append_of_le_length inside]

/-- Numbers 1 to `n` with `r` among them: without `r`, those after it lowered, they are 1 to `n - 1`. -/
theorem range'_lowered {n r : Nat} {l : List Nat} (h : (r :: l).Perm (List.range' 1 (n + 1))) :
    (l.map fun x => if r < x then x - 1 else x).Perm (List.range' 1 n) := by
  have hr : 1 ≤ r ∧ r ≤ n + 1 := by
    have := h.mem_iff.mp List.mem_cons_self
    rw [List.mem_range'_1] at this
    omega
  have parts : List.range' 1 (n + 1) = List.range' 1 (r - 1) ++ r :: List.range' (r + 1) (n + 1 - r) := by
    have cut := List.range'_append (s := 1) (m := r - 1) (n := n + 1 - r + 1) (step := 1)
    rw [show r - 1 + (n + 1 - r + 1) = n + 1 by omega, List.range'_succ] at cut
    rw [← cut, show 1 + 1 * (r - 1) = r by omega]
  have rest : l.Perm (List.range' 1 (r - 1) ++ List.range' (r + 1) (n + 1 - r)) := by
    rw [parts] at h
    exact (h.trans List.perm_middle).cons_inv
  refine (rest.map _).trans (.of_eq ?_)
  have low : (List.range' 1 (r - 1)).map (fun x => if r < x then x - 1 else x) = List.range' 1 (r - 1) := by
    refine (List.map_congr_left fun x hx => ?_).trans (List.map_id _)
    rw [List.mem_range'_1] at hx
    exact if_neg (by omega)
  have high : (List.range' (r + 1) (n + 1 - r)).map (fun x => if r < x then x - 1 else x) =
      List.range' r (n + 1 - r) := by
    rw [List.range'_succ_left, List.map_map]
    refine (List.map_congr_left fun x hx => ?_).trans (List.map_id _)
    rw [List.mem_range'_1] at hx
    simp only [Function.comp]
    rw [if_pos (by omega)]
    rfl
  rw [List.map_append, low, high]
  have joined := List.range'_append (s := 1) (m := r - 1) (n := n + 1 - r) (step := 1)
  rwa [show 1 + 1 * (r - 1) = r by omega, show r - 1 + (n + 1 - r) = n by omega] at joined

/-- A ticket as `lowerRounds` leaves it when `t` ceases to be NORMAL (R133). -/
def Ticket.lowered (t u : Ticket) : Ticket :=
  if t.cls = .normal ∧ u.cls = .normal ∧ u.source = t.source ∧ t.round < u.round then { u with round := u.round - 1 }
  else u

theorem lowerRounds_eq (t : Ticket) (q : List Ticket) : lowerRounds t q = q.map t.lowered := by
  unfold lowerRounds Ticket.lowered
  by_cases h : t.cls = .normal <;> simp [h]

/-- A round lowered leaves the rest of its ticket. -/
@[simp] theorem Ticket.lowered_fields (t u : Ticket) :
    (t.lowered u).number = u.number ∧ (t.lowered u).source = u.source ∧ (t.lowered u).song = u.song ∧
      (t.lowered u).key = u.key ∧ (t.lowered u).singers = u.singers ∧ (t.lowered u).cls = u.cls ∧
      (t.lowered u).arrival = u.arrival := by
  unfold Ticket.lowered
  split <;> simp

/-- A ticket that is not NORMAL keeps its round. -/
theorem Ticket.lowered_other {t u : Ticket} (h : u.cls ≠ .normal) : t.lowered u = u :=
  if_neg fun c => h c.2.1

/-- The rounds of the source of a NORMAL ticket that leaves fall to count up from 1 again; those of any other source
stand. -/
theorem roundsOf_lowerRounds {t : Ticket} {q : List Ticket}
    (h : ∀ src, (roundsOf src (t :: q)).Perm (List.range' 1 (roundsOf src (t :: q)).length)) (src : Source) :
    (roundsOf src (lowerRounds t q)).Perm (List.range' 1 (roundsOf src (lowerRounds t q)).length) := by
  have rounds : roundsOf src (lowerRounds t q) = ((q.filter fun u => decide (u.cls = .normal ∧ u.source = src)).map
      fun u => (t.lowered u).round) := by
    rw [lowerRounds_eq, roundsOf, List.filter_map, List.map_map]
    simp [Function.comp_def]
  by_cases own : t.cls = .normal ∧ t.source = src
  · have whole := h src
    rw [roundsOf_cons, if_pos own, List.length_cons] at whole
    have fallen : roundsOf src (lowerRounds t q) = (roundsOf src q).map fun x => if t.round < x then x - 1 else x := by
      rw [rounds, roundsOf, List.map_map]
      refine List.map_congr_left fun u hu => ?_
      obtain ⟨hc, hs⟩ : u.cls = .normal ∧ u.source = src := by simpa using (List.mem_filter.mp hu).2
      simp only [Function.comp, Ticket.lowered, hc, hs, own, true_and]
      split <;> rfl
    rw [fallen, List.length_map]
    exact range'_lowered whole
  · have kept : roundsOf src (lowerRounds t q) = roundsOf src q := by
      rw [rounds, roundsOf]
      refine List.map_congr_left fun u hu => ?_
      obtain ⟨hc, hs⟩ : u.cls = .normal ∧ u.source = src := by simpa using (List.mem_filter.mp hu).2
      exact congrArg Ticket.round (if_neg fun c => own ⟨c.1, c.2.2.1.symm.trans hs⟩)
    have whole := h src
    rw [roundsOf_cons, if_neg own] at whole
    rwa [kept]

end Sys2Proof.Machine
end

