-- ==== Sys2Proof/Proofs/QueueMoves.lean ====
section
/-! The moves of the queue (R131 to R149): everything that can happen to the queue of tickets in one stroke, and what a run
of such moves keeps, the law of the queue and, while no stamp is too old, its whole order. -/

namespace Sys2Proof.Machine

/-! ## Moves -/

/-- What the laws of the queue read: the queued tickets, the last stamp taken, and the current ticket's number. -/
structure Lineup where
  queue : List Ticket
  arrival : Word
  current : Option Nat

/-- The lineup of a state. -/
def State.lineup (s : State) : Lineup := ⟨s.rqu.queue, s.rqu.arrival, s.scu.current.map Ticket.number⟩

/-- The queue without the tickets of `t`'s number. -/
def withoutTicket (t : Ticket) (q : List Ticket) : List Ticket := q.filter fun u => u.number != t.number

/-- The queue that ticket `t` has left (R137). -/
def queueLeft (t : Ticket) (q : List Ticket) : List Ticket :=
  if t.cls = .normal then reorder (lowerRounds t (withoutTicket t q)) else withoutTicket t q

/-- One move of the lineup, and how many stamps it takes. -/
inductive Lineup.Move : Nat → Lineup → Lineup → Prop where
  /-- A new ticket joins a queue with space (R131, R132, R135, R141). -/
  | joins {q : List Ticket} {a : Word} {c : Option Nat} (t : Ticket) (space : q.length < 32) (cls : t.cls ≠ .staged)
      (number : 1 ≤ t.number ∧ t.number ≤ 65535 ∧ t.number ∉ q.map Ticket.number ∧ c ≠ some t.number)
      (round : t.round = if t.cls = .normal then normalCount t.source q + 1 else 0) (arrival : t.arrival = a + 1) :
      Lineup.Move 1 ⟨q, a, c⟩ ⟨placeTicket t q, a + 1, c⟩
  /-- The head of a queue with no STAGED ticket is staged (R149). -/
  | stages {t : Ticket} {rest : List Ticket} {a : Word} {c : Option Nat} (none : ∀ x ∈ t :: rest, x.cls ≠ .staged) :
      Lineup.Move 0 ⟨t :: rest, a, c⟩ ⟨{ t with cls := .staged, round := 0 } :: reorder (lowerRounds t rest), a, c⟩
  /-- A ticket leaves the queue, for good or to become the current ticket (R12, R137). -/
  | leaves {q : List Ticket} {a : Word} {c d : Option Nat} {t : Ticket} (queued : t ∈ q)
      (current : d = c ∨ d = some t.number) : Lineup.Move 0 ⟨q, a, c⟩ ⟨queueLeft t q, a, d⟩
  /-- A NORMAL ticket becomes a PRIORITY ticket under a new stamp (R143). -/
  | promotes {q : List Ticket} {a : Word} {c : Option Nat} {t : Ticket} (queued : t ∈ q) (cls : t.cls = .normal) :
      Lineup.Move 1 ⟨q, a, c⟩ ⟨placeTicket { t with cls := .priority, round := 0, arrival := a + 1 }
        (reorder (lowerRounds t (withoutTicket t q))), a + 1, c⟩
  /-- The queue is emptied (R127, R1). -/
  | clears {q : List Ticket} {a b : Word} {c : Option Nat} : Lineup.Move 0 ⟨q, a, c⟩ ⟨[], b, c⟩
  /-- The song ends (R20). -/
  | ends {q : List Ticket} {a : Word} {c : Option Nat} : Lineup.Move 0 ⟨q, a, c⟩ ⟨q, a, none⟩

/-- Moves one after the other that take at most `n` stamps together. -/
inductive Lineup.Runs : Nat → Lineup → Lineup → Prop where
  | still {n : Nat} {v : Lineup} : Lineup.Runs n v v
  | move {n k : Nat} {u v w : Lineup} : Lineup.Runs n u v → Lineup.Move k v w → Lineup.Runs (n + k) u w

theorem Lineup.Runs.mono {n m : Nat} {u v : Lineup} (h : Lineup.Runs n u v) (le : n ≤ m) : Lineup.Runs m u v := by
  induction h generalizing m with
  | still => exact .still
  | @move n k _ _ _ _ last ih =>
    obtain ⟨d, rfl⟩ := Nat.exists_eq_add_of_le le
    have := Lineup.Runs.move (ih (m := n + d) (by omega)) last
    rwa [show n + d + k = n + k + d by omega] at this

/-! ## The law of the queue -/

/-- The law of the queue apart from its order: it speaks of the tickets queued, in whatever order. -/
structure Lineup.Holds (q : List Ticket) (c : Option Nat) : Prop where
  numbers : (q.map Ticket.number).Nodup
  each : ∀ t ∈ q, 1 ≤ t.number ∧ t.number ≤ 65535 ∧ c ≠ some t.number
  staged : q.Pairwise fun a b => ¬ (a.cls = .staged ∧ b.cls = .staged)
  zero : ∀ t ∈ q, t.cls ≠ .normal → t.round = 0
  rounds : ∀ src, (roundsOf src q).Perm (List.range' 1 (roundsOf src q).length)

/-- The law of the queue of a lineup (R131 to R133). -/
structure Lineup.Lawful (v : Lineup) : Prop where
  count : v.queue.length ≤ 32
  ordered : v.queue.Pairwise Ticket.noLater
  holds : Lineup.Holds v.queue v.current

theorem Lineup.Holds.perm {q r : List Ticket} {c : Option Nat} (h : Lineup.Holds q c) (e : q.Perm r) :
    Lineup.Holds r c where
  numbers := (e.map _).nodup_iff.mp h.numbers
  each t ht := h.each t (e.mem_iff.mpr ht)
  staged := (e.pairwise_iff fun g c => g c.symm).mp h.staged
  zero t ht := h.zero t (e.mem_iff.mpr ht)
  rounds src := by
    have same := roundsOf_perm e src
    rw [← same.length_eq]
    exact same.symm.trans (h.rounds src)

/-- In the order of class, no ticket behind another is STAGED exactly where no two are. -/
theorem stagedOnce_iff {q : List Ticket} (ordered : q.Pairwise Ticket.noLater) :
    (q.Pairwise fun _ b => b.cls ≠ .staged) ↔ q.Pairwise fun a b => ¬ (a.cls = .staged ∧ b.cls = .staged) := by
  refine ⟨fun h => h.imp fun g c => g c.2, fun h => (h.and ordered).imp ?_⟩
  rintro a b ⟨once, rank, -⟩ hb
  have : a.cls = .staged := TicketClass.rank_inj (Nat.le_zero.mp (by simpa [hb, TicketClass.rank] using rank))
  exact once ⟨this, hb⟩

theorem State.queueLaw_iff (s : State) : s.queueLaw ↔ s.lineup.Lawful := by
  have rounds : (∀ p ∈ s.rqu.queue.zipIdx, p.1.cls = .normal → p.1.round = (s.rqu.queue.take p.2).countP
        (fun u => decide (u.cls = .normal ∧ u.source = p.1.source)) + 1) ↔
      ∀ src, roundsOf src s.rqu.queue = List.range' 1 (roundsOf src s.rqu.queue).length := rounds_counted_iff _
  unfold State.queueLaw
  rw [rounds]
  constructor
  · rintro ⟨count, numbers, each, order, zero, rounds⟩
    have ordered : s.rqu.queue.Pairwise Ticket.noLater := order.imp fun g => ⟨g.1, g.2.2⟩
    exact ⟨count, ordered, numbers, each, (stagedOnce_iff ordered).mp (order.imp fun g => g.2.1), zero,
      fun src => .of_eq (rounds src)⟩
  · rintro ⟨count, ordered, numbers, each, staged, zero, rounds⟩
    refine ⟨count, numbers, each, ?_, zero, fun src => ?_⟩
    · exact (ordered.and ((stagedOnce_iff ordered).mpr staged)).imp fun g => ⟨g.1.1, g.2, g.1.2⟩
    · refine List.Perm.eq_of_pairwise (le := (· ≤ ·)) (fun a b _ _ => Nat.le_antisymm) ?_ ?_ (rounds src)
      · rw [roundsOf, List.pairwise_map]
        refine List.Pairwise.imp_of_mem ?_ (ordered.filter _)
        intro a b ha hb g
        have normal : ∀ x, x ∈ s.rqu.queue.filter (fun u => decide (u.cls = .normal ∧ u.source = src)) →
            x.cls = .normal := fun x hx => (by simpa using (List.mem_filter.mp hx).2 : _ ∧ _).1
        exact g.2 ((normal a ha).trans (normal b hb).symm)
      · exact List.pairwise_le_range' ..

/-- What the queue without `t` holds once `t`'s source's later rounds have fallen (R133). -/
theorem Lineup.Holds.lowered {t : Ticket} {q : List Ticket} {c d : Option Nat} (h : Lineup.Holds (t :: q) c)
    (current : d = c ∨ d = some t.number) : Lineup.Holds (lowerRounds t q) d := by
  obtain ⟨numbers, each, staged, zero, rounds⟩ := h
  rw [List.map_cons, List.nodup_cons] at numbers
  have member : ∀ x ∈ lowerRounds t q, ∃ u ∈ q, x = t.lowered u := by
    intro x hx
    rw [lowerRounds_eq] at hx
    obtain ⟨u, hu, rfl⟩ := List.mem_map.mp hx
    exact ⟨u, hu, rfl⟩
  refine ⟨?_, fun x hx => ?_, ?_, fun x hx hc => ?_, roundsOf_lowerRounds rounds⟩
  · rw [lowerRounds_numbers]
    exact numbers.2
  · obtain ⟨u, hu, rfl⟩ := member x hx
    obtain ⟨low, high, other⟩ := each u (List.mem_cons_of_mem t hu)
    rw [(t.lowered_fields u).1]
    refine ⟨low, high, ?_⟩
    rcases current with rfl | rfl
    · exact other
    · exact fun e => numbers.1 (List.mem_map.mpr ⟨u, hu, (Option.some.inj e).symm⟩)
  · rw [lowerRounds_eq, List.pairwise_map]
    simpa using (List.pairwise_cons.mp staged).2
  · obtain ⟨u, hu, rfl⟩ := member x hx
    simp only [Ticket.lowered_fields] at hc
    rw [Ticket.lowered_other hc]
    exact zero u (List.mem_cons_of_mem t hu) hc

/-- A NORMAL ticket, or the head to be staged, becomes `x`: a ticket of its number at round 0. -/
theorem Lineup.Holds.replaced {t x : Ticket} {q : List Ticket} {c : Option Nat} (h : Lineup.Holds (t :: q) c)
    (number : x.number = t.number) (cls : x.cls ≠ .normal) (round : x.round = 0)
    (once : x.cls = .staged → ∀ u ∈ q, u.cls ≠ .staged) : Lineup.Holds (x :: lowerRounds t q) c := by
  obtain ⟨numbers, each, staged, zero, rounds⟩ := h.lowered (d := c) (.inl rfl)
  refine ⟨?_, fun u hu => ?_, ?_, fun u hu hc => ?_, fun src => ?_⟩
  · rw [List.map_cons, lowerRounds_numbers, number]
    exact h.numbers
  · rcases List.mem_cons.mp hu with rfl | hu
    · rw [number]
      exact h.each t List.mem_cons_self
    · exact each u hu
  · refine List.pairwise_cons.mpr ⟨fun u hu g => ?_, staged⟩
    rw [lowerRounds_eq] at hu
    obtain ⟨y, hy, rfl⟩ := List.mem_map.mp hu
    exact once g.1 y hy (by simpa using g.2)
  · rcases List.mem_cons.mp hu with rfl | hu
    · exact round
    · exact zero u hu hc
  · rw [roundsOf_cons, if_neg fun g => cls g.1]
    exact rounds src

/-- A queue that holds no number twice is a ticket and the queue without it. -/
theorem perm_withoutTicket {t : Ticket} {q : List Ticket} (numbers : (q.map Ticket.number).Nodup) (queued : t ∈ q) :
    q.Perm (t :: withoutTicket t q) := by
  obtain ⟨front, back, rfl⟩ := List.append_of_mem queued
  have apart : ∀ u ∈ front ++ back, u.number ≠ t.number := by
    have := (List.perm_middle.map Ticket.number).nodup_iff.mp numbers
    rw [List.map_cons, List.nodup_cons] at this
    exact fun u hu e => this.1 (List.mem_map.mpr ⟨u, hu, e⟩)
  have kept : withoutTicket t (front ++ t :: back) = front ++ back := by
    have all : ∀ l : List Ticket, (∀ u ∈ l, u.number ≠ t.number) → withoutTicket t l = l := fun l hl =>
      List.filter_eq_self.mpr fun u hu => by simpa using hl u hu
    rw [← all _ apart]
    simp [withoutTicket]
  rw [kept]
  exact List.perm_middle

theorem withoutTicket_sublist (t : Ticket) (q : List Ticket) : (withoutTicket t q).Sublist q := List.filter_sublist

theorem queueLeft_perm (t : Ticket) (q : List Ticket) : (queueLeft t q).Perm (lowerRounds t (withoutTicket t q)) := by
  unfold queueLeft
  split
  · exact reorder_perm _
  · next h => rw [lowerRounds, if_neg h]

theorem lowerRounds_length (t : Ticket) (q : List Ticket) : (lowerRounds t q).length = q.length := by
  rw [lowerRounds_eq, List.length_map]

/-- What stands in order stands in order without a ticket that leaves. -/
theorem queueLeft_noLater {t : Ticket} {q : List Ticket} (h : q.Pairwise Ticket.noLater) :
    (queueLeft t q).Pairwise Ticket.noLater := by
  unfold queueLeft
  split
  · exact reorder_noLater _
  · exact h.sublist (withoutTicket_sublist t q)

/-- Every move keeps the law of the queue. -/
theorem Lineup.Move.lawful {k : Nat} {u v : Lineup} (m : Lineup.Move k u v) (h : u.Lawful) : v.Lawful := by
  cases m with
  | @joins q a c t space cls number round arrival =>
    obtain ⟨-, ordered, numbers, each, staged, zero, rounds⟩ := h
    obtain ⟨low, high, new, other⟩ := number
    refine ⟨?_, placeTicket_noLater ordered, Lineup.Holds.perm (q := t :: q) ?_ (placeTicket_perm t q).symm⟩
    · have := (placeTicket_perm t q).length_eq
      simp only [List.length_cons] at this
      show (placeTicket t q).length ≤ 32
      omega
    refine ⟨List.nodup_cons.mpr ⟨new, numbers⟩, fun x hx => ?_, List.pairwise_cons.mpr ⟨fun _ _ g => cls g.1, staged⟩,
      fun x hx hc => ?_, fun src => ?_⟩
    · rcases List.mem_cons.mp hx with rfl | hx
      · exact ⟨low, high, other⟩
      · exact each x hx
    · rcases List.mem_cons.mp hx with rfl | hx
      · rw [round, if_neg hc]
      · exact zero x hx hc
    · rw [roundsOf_cons]
      split
      · next own =>
        rw [round, if_pos own.1, own.2, List.length_cons, List.range'_concat, ← roundsOf_length, Nat.one_mul,
          Nat.add_comm 1]
        exact ((rounds src).cons _).trans (List.perm_append_singleton _ _).symm
      · exact rounds src
  | @stages t rest a c none =>
    obtain ⟨count, ordered, holds⟩ := h
    have head := holds.replaced (x := { t with cls := .staged, round := 0 }) rfl (by simp) rfl
      fun _ u hu => none u (List.mem_cons_of_mem t hu)
    have same := (reorder_perm (lowerRounds t rest)).cons { t with cls := .staged, round := 0 }
    refine ⟨?_, List.pairwise_cons.mpr ⟨fun x hx => ⟨Nat.zero_le _, fun e => ?_⟩, reorder_noLater _⟩, head.perm same.symm⟩
    · have := same.length_eq
      simp only [List.length_cons, lowerRounds_length] at this count
      simpa using by omega
    · have hx := (reorder_perm _).mem_iff.mp hx
      rw [lowerRounds_eq] at hx
      obtain ⟨y, hy, rfl⟩ := List.mem_map.mp hx
      exact absurd (by simpa using e.symm) (none y (List.mem_cons_of_mem t hy))
  | @leaves q a c d t queued current =>
    obtain ⟨count, ordered, holds⟩ := h
    refine ⟨?_, queueLeft_noLater ordered, ?_⟩
    · have left := (queueLeft_perm t q).length_eq
      rw [lowerRounds_length] at left
      exact (left.trans_le (withoutTicket_sublist t q).length_le).trans count
    · exact ((holds.perm (perm_withoutTicket holds.numbers queued)).lowered current).perm (queueLeft_perm t q).symm
  | @promotes q a c t queued cls =>
    obtain ⟨count, ordered, holds⟩ := h
    have whole := holds.perm (perm_withoutTicket holds.numbers queued)
    have head := whole.replaced (x := { t with cls := .priority, round := 0, arrival := a + 1 }) rfl (by simp) rfl
      fun e => absurd e (by simp)
    have same := (placeTicket_perm { t with cls := .priority, round := 0, arrival := a + 1 }
      (reorder (lowerRounds t (withoutTicket t q)))).trans ((reorder_perm _).cons _)
    refine ⟨?_, placeTicket_noLater (reorder_noLater _), head.perm same.symm⟩
    have before := (perm_withoutTicket holds.numbers queued).length_eq
    have after := same.length_eq
    rw [List.length_cons, lowerRounds_length, ← List.length_cons (a := t), ← before] at after
    exact after.trans_le count
  | clears => exact ⟨by simp, .nil, by simp, by simp, .nil, by simp, by simp [roundsOf]⟩
  | ends =>
    obtain ⟨count, ordered, numbers, each, staged, zero, rounds⟩ := h
    exact ⟨count, ordered, numbers, fun t ht => ⟨(each t ht).1, (each t ht).2.1, by simp⟩, staged, zero, rounds⟩

theorem Lineup.Runs.lawful {n : Nat} {u v : Lineup} (r : Lineup.Runs n u v) (h : u.Lawful) : v.Lawful := by
  induction r with
  | still => exact h
  | move _ last ih => exact last.lawful (ih h)

/-! ## The whole order of the queue (R132) -/

/-- `a` stands before `b` by class, round and age, with `now` the last stamp taken. -/
def Ticket.standsBefore (now : Word) (a b : Ticket) : Prop :=
  a.cls.rank < b.cls.rank ∨ a.cls.rank = b.cls.rank ∧ (a.round < b.round ∨
    a.round = b.round ∧ (now - b.arrival).toNat < (now - a.arrival).toNat)

theorem Ticket.standsBefore_trans (now : Word) (a b c : Ticket) (h : a.standsBefore now b) (g : b.standsBefore now c) :
    a.standsBefore now c := by
  unfold Ticket.standsBefore at *
  omega

/-- The signed difference of two stamps less than 2^31 old is that of their ages. -/
theorem stamp_msb {now a b : Word} (ha : (now - a).toNat < 2 ^ 31) (hb : (now - b).toNat < 2 ^ 31) :
    (a - b).msb = decide ((now - b).toNat < (now - a).toNat) := by
  rw [BitVec.msb_eq_decide, decide_eq_decide]
  bv_omega

/-- While no stamp is too old, `before` is the order by class, round and age. -/
theorem Ticket.before_iff {now : Word} {a b : Ticket} (ha : (now - a.arrival).toNat < 2 ^ 31)
    (hb : (now - b.arrival).toNat < 2 ^ 31) : a.before b = true ↔ a.standsBefore now b := by
  unfold Ticket.before Ticket.standsBefore
  by_cases hc : a.cls.rank = b.cls.rank
  · by_cases hr : a.round = b.round
    · simp [hc, hr, stamp_msb ha hb]
    · simp [hc, hr]
  · simp [hc]

/-- Two tickets of different stamps, neither too old, stand one before the other. -/
theorem Ticket.before_decides {now : Word} {a b : Ticket} (ha : (now - a.arrival).toNat < 2 ^ 31)
    (hb : (now - b.arrival).toNat < 2 ^ 31) (ne : a.arrival ≠ b.arrival) :
    if a.before b then a.standsBefore now b else b.standsBefore now a := by
  have ages : (now - a.arrival).toNat ≠ (now - b.arrival).toNat := by
    intro e
    exact ne (by bv_omega)
  split
  · next h => exact (Ticket.before_iff ha hb).mp h
  · next h =>
    rw [Ticket.before_iff ha hb] at h
    unfold Ticket.standsBefore at *
    omega

/-- The whole order of a lineup's queue, with room for `n` more stamps. -/
structure Lineup.Stamped (n : Nat) (v : Lineup) : Prop where
  distinct : (v.queue.map Ticket.arrival).Nodup
  ordered : v.queue.Pairwise (Ticket.standsBefore v.arrival)
  young : ∀ t ∈ v.queue, (v.arrival - t.arrival).toNat + n < 2 ^ 31

/-- The law of the stamps, with the ages of its premise. -/
theorem State.stampLaw_iff {s : State} {n : Nat} (young : s.rqu.stampsWithin n) :
    s.stampLaw ↔ s.lineup.Stamped n := by
  have order : (s.rqu.queue.Pairwise fun a b => a.before b = true) ↔
      s.rqu.queue.Pairwise (Ticket.standsBefore s.rqu.arrival) := by
    have each : ∀ t ∈ s.rqu.queue, (s.rqu.arrival - t.arrival).toNat < 2 ^ 31 := fun t ht =>
      Nat.lt_of_le_of_lt (Nat.le_add_right _ n) (young t ht)
    exact ⟨List.Pairwise.imp_of_mem fun ha hb => (Ticket.before_iff (each _ ha) (each _ hb)).mp,
      List.Pairwise.imp_of_mem fun ha hb => (Ticket.before_iff (each _ ha) (each _ hb)).mpr⟩
  unfold State.stampLaw
  rw [order]
  exact ⟨fun ⟨distinct, ordered⟩ => ⟨distinct, ordered, young⟩, fun ⟨distinct, ordered, _⟩ => ⟨distinct, ordered⟩⟩

/-- Tickets of distinct stamps, none too old, stand in the whole order once put back in order. -/
theorem reorder_standsBefore {now : Word} {q : List Ticket} (distinct : (q.map Ticket.arrival).Nodup)
    (young : ∀ t ∈ q, (now - t.arrival).toNat < 2 ^ 31) : (reorder q).Pairwise (Ticket.standsBefore now) := by
  refine reorder_pairwise (Ticket.standsBefore_trans now) ?_
  refine List.Pairwise.imp_of_mem ?_ (List.pairwise_map.mp distinct)
  exact fun ha hb ne => Ticket.before_decides (young _ hb) (young _ ha) (Ne.symm ne)

theorem lowerRounds_arrivals (t : Ticket) (q : List Ticket) :
    (lowerRounds t q).map Ticket.arrival = q.map Ticket.arrival := by
  rw [lowerRounds_eq, List.map_map]
  exact List.map_congr_left fun u _ => (t.lowered_fields u).2.2.2.2.2.2

/-- A stamp taken makes every queued ticket one stamp older. -/
theorem stamp_taken {now a : Word} {n : Nat} (h : (now - a).toNat + (n + 1) < 2 ^ 31) :
    (now + 1 - a).toNat = (now - a).toNat + 1 := by
  bv_omega

theorem Ticket.standsBefore_taken {now : Word} {n : Nat} {a b : Ticket} (ha : (now - a.arrival).toNat + (n + 1) < 2 ^ 31)
    (hb : (now - b.arrival).toNat + (n + 1) < 2 ^ 31) (h : a.standsBefore now b) : a.standsBefore (now + 1) b := by
  unfold Ticket.standsBefore at *
  rw [stamp_taken ha, stamp_taken hb]
  omega

/-- A stamp taken makes the queue's stamps older and leaves their order. -/
theorem Lineup.Stamped.taken {n : Nat} {q : List Ticket} {a : Word} {c : Option Nat}
    (h : Lineup.Stamped (n + 1) ⟨q, a, c⟩) : Lineup.Stamped n ⟨q, a + 1, c⟩ := by
  obtain ⟨distinct, ordered, young⟩ := h
  refine ⟨distinct, ?_, fun t ht => ?_⟩
  · exact List.Pairwise.imp_of_mem (fun ha hb => Ticket.standsBefore_taken (young _ ha) (young _ hb)) ordered
  · have := young t ht
    have := stamp_taken this
    simp only at *
    omega

/-- A ticket of the newest stamp, put into a queue in order, leaves it in order. -/
theorem Lineup.Stamped.placed {n : Nat} {q : List Ticket} {now : Word} {c : Option Nat} {t : Ticket}
    (h : Lineup.Stamped n ⟨q, now, c⟩) (arrival : t.arrival = now) (older : ∀ u ∈ q, u.arrival ≠ now) (room : n < 2 ^ 31) :
    Lineup.Stamped n ⟨placeTicket t q, now, c⟩ := by
  obtain ⟨distinct, ordered, young⟩ := h
  have own : (now - t.arrival).toNat = 0 := by rw [arrival]; simp
  have same := placeTicket_perm t q
  refine ⟨?_, ?_, fun u hu => ?_⟩
  · refine ((same.map Ticket.arrival).nodup_iff).mpr (List.nodup_cons.mpr ⟨fun hm => ?_, distinct⟩)
    obtain ⟨u, hu, e⟩ := List.mem_map.mp hm
    exact older u hu (e.trans arrival)
  · refine placeTicket_pairwise (Ticket.standsBefore_trans now) ordered fun u hu => ?_
    have := young u hu
    exact Ticket.before_decides (by omega) (by simp only at this; omega) fun e => older u hu (e ▸ arrival)
  · rcases List.mem_cons.mp (same.mem_iff.mp hu) with rfl | hu
    · show (now - u.arrival).toNat + n < 2 ^ 31
      omega
    · exact young u hu

/-- Fewer tickets of the same stamps, put back in order, stand in the whole order. -/
theorem Lineup.Stamped.reordered {n : Nat} {q r : List Ticket} {now : Word} {c d : Option Nat} {t : Ticket}
    (h : Lineup.Stamped n ⟨q, now, c⟩) (sub : r.Sublist q) : Lineup.Stamped n ⟨reorder (lowerRounds t r), now, d⟩ := by
  obtain ⟨distinct, -, young⟩ := h
  have within : ∀ u ∈ lowerRounds t r, (now - u.arrival).toNat + n < 2 ^ 31 := by
    intro u hu
    rw [lowerRounds_eq] at hu
    obtain ⟨x, hx, rfl⟩ := List.mem_map.mp hu
    rw [(t.lowered_fields x).2.2.2.2.2.2]
    exact young x (sub.subset hx)
  have apart : ((lowerRounds t r).map Ticket.arrival).Nodup := by
    rw [lowerRounds_arrivals]
    exact distinct.sublist (sub.map _)
  refine ⟨((reorder_perm _).map _).nodup_iff.mpr apart, reorder_standsBefore apart fun u hu => ?_, fun u hu => ?_⟩
  · exact Nat.lt_of_le_of_lt (Nat.le_add_right _ n) (within u hu)
  · exact within u ((reorder_perm _).mem_iff.mp hu)

/-- A queue in order whose ticket `t` is queued has room for the stamps it is to take. -/
theorem Lineup.Stamped.older {n : Nat} {q : List Ticket} {now : Word} {c : Option Nat}
    (h : Lineup.Stamped (n + 1) ⟨q, now, c⟩) : ∀ u ∈ q, u.arrival ≠ now + 1 := by
  intro u hu e
  have := h.young u hu
  simp only at this
  bv_omega

/-- Every move keeps the whole order of the queue while there is room for the stamps it takes. -/
theorem Lineup.Move.stamped {k n : Nat} {u v : Lineup} (m : Lineup.Move k u v) (room : n < 2 ^ 31)
    (h : u.Stamped (n + k)) : v.Stamped n := by
  cases m with
  | joins t space cls number round arrival => exact h.taken.placed arrival h.older room
  | @stages t rest a c none =>
    have rest' : Lineup.Stamped n ⟨reorder (lowerRounds t rest), a, c⟩ := h.reordered (List.sublist_cons_self t rest)
    refine ⟨?_, List.pairwise_cons.mpr ⟨fun x hx => .inl ?_, rest'.ordered⟩, fun x hx => ?_⟩
    · have same := ((reorder_perm (lowerRounds t rest)).map Ticket.arrival).cons t.arrival
      rw [lowerRounds_arrivals] at same
      exact same.nodup_iff.mpr h.distinct
    · have hx := (reorder_perm _).mem_iff.mp hx
      rw [lowerRounds_eq] at hx
      obtain ⟨y, hy, rfl⟩ := List.mem_map.mp hx
      rw [(t.lowered_fields y).2.2.2.2.2.1]
      have := none y (List.mem_cons_of_mem t hy)
      revert this
      cases y.cls <;> simp [TicketClass.rank]
    · rcases List.mem_cons.mp hx with rfl | hx
      · exact h.young t List.mem_cons_self
      · exact rest'.young x hx
  | @leaves q a c d t queued current =>
    show Lineup.Stamped n ⟨queueLeft t q, a, d⟩
    unfold queueLeft
    split
    · exact h.reordered (withoutTicket_sublist t q)
    · have sub := withoutTicket_sublist t q
      exact ⟨h.distinct.sublist (sub.map _), h.ordered.sublist sub, fun x hx => h.young x (sub.subset hx)⟩
  | @promotes q a c t queued cls =>
    have sub := withoutTicket_sublist t q
    have rest : Lineup.Stamped (n + 1) ⟨reorder (lowerRounds t (withoutTicket t q)), a, c⟩ := h.reordered sub
    exact rest.taken.placed rfl rest.older room
  | clears => exact ⟨by simp, .nil, by simp⟩
  | ends => exact ⟨h.distinct, h.ordered, h.young⟩

theorem Lineup.Runs.stamped {n m : Nat} {u v : Lineup} (r : Lineup.Runs n u v) (room : m + n < 2 ^ 31)
    (h : u.Stamped (m + n)) : v.Stamped m := by
  induction r generalizing m with
  | still =>
    exact ⟨h.distinct, h.ordered, fun t ht => Nat.lt_of_le_of_lt (by omega) (h.young t ht)⟩
  | @move _ k _ _ _ _ last ih =>
    refine last.stamped (by omega) (ih (by omega) ?_)
    rwa [Nat.add_assoc, Nat.add_comm k]

end Sys2Proof.Machine
end

