-- ==== Sys2Proof/Proofs/QueueOperations.lean ====
section
/-! How each operation moves the queue (R131 to R149): the Request Queue Unit's own operations, the staff's commands and
the handsets' packets, with the stamps that each takes. -/

namespace Sys2Proof.Machine

/-! ## The relation -/

/-- From `r` to `s` the queue has moved, and at most `n` stamps were taken. -/
def State.QueueRuns (r : State) (n : Nat) (s : State) : Prop := Lineup.Runs n r.lineup s.lineup

section
variable {r s t : State} {n : Nat}

theorem State.QueueRuns.refl (s : State) (n : Nat) : s.QueueRuns n s := .still

theorem State.QueueRuns.mono {m : Nat} (h : r.QueueRuns n s) (le : n ≤ m) : r.QueueRuns m s := Lineup.Runs.mono h le

/-- What leaves the lineup moves nothing. -/
theorem State.QueueRuns.same (h : r.QueueRuns n s) (e : t.lineup = s.lineup := by simp) :
    r.QueueRuns n t := by
  unfold State.QueueRuns
  rw [e]
  exact h

theorem State.QueueRuns.moves {k : Nat} (h : r.QueueRuns n s) (m : Lineup.Move k s.lineup t.lineup) :
    r.QueueRuns (n + k) t := Lineup.Runs.move h m

/-- Whether its work has its effect or waits, the queue has moved as the work moves it. -/
theorem State.QueueRuns.whenRoom {work : State → State} (h : r.QueueRuns n s) (hw : r.QueueRuns n (work s)) :
    r.QueueRuns n (s.whenRoom work) := by
  rcases State.whenRoom_cases work s with e | ⟨e, -⟩ <;> rw [e]
  · exact hw
  · exact h

/-! ## What leaves the lineup -/

@[simp] theorem State.flush_lineup (s : State) : s.flush.lineup = s.lineup := by
  have image : s.beginImage.lineup = s.lineup := by
    unfold State.beginImage
    split <;> rfl
  simpa [State.flush, State.lineup] using image

@[simp] theorem State.queueChanged_lineup (old : Nat) (s : State) : (s.queueChanged old).lineup = s.lineup := by
  simp [State.lineup, State.queueChanged_rqu]

@[simp] theorem State.placeReply_lineup (x : Reply) (score : Bool) (s : State) :
    (s.placeReply x score).lineup = s.lineup := by
  simp [State.lineup]

@[simp] theorem State.issueReply_lineup (h : Fin 16) (b : ReplyBody) (score : Bool) (s : State) :
    (s.issueReply h b score).lineup = s.lineup := by
  simp [State.lineup]

@[simp] theorem State.replyToSource_lineup (src : Source) (b : ReplyBody) (s : State) :
    (s.replyToSource src b).lineup = s.lineup := by
  cases src <;> simp [State.replyToSource]

@[simp] theorem State.noteSequence_lineup (h : Fin 16) (q : Byte) (s : State) :
    (s.noteSequence h q).lineup = s.lineup := rfl

@[simp] theorem State.setSlot_lineup (h : Fin 16) (x : Option HeldRequest) (s : State) :
    (s.setSlot h x).lineup = s.lineup := rfl

@[simp] theorem State.result_lineup (code tag : BitVec 16) (rc : ResultCode) (vs : List Word) (s : State) :
    (s.result code tag rc vs).lineup = s.lineup := rfl

/-- The rewrites that close an arrival leave the queue. -/
theorem State.QueueRuns.flushed (h : r.QueueRuns n s) : r.QueueRuns n s.flush := h.same

/-! ## Staging and admission (R135, R141, R149) -/

theorem State.stageTest_queueRuns (h : r.QueueRuns n s) : r.QueueRuns n s.stageTest := by
  unfold State.stageTest
  split
  · exact h
  · next t rest hq =>
    split
    · next due =>
      have none : ∀ x ∈ t :: rest, x.cls ≠ .staged := by
        simp only [State.stagingHolds, Bool.and_eq_true, Rqu.stagedTicket, Option.isNone_iff_eq_none,
          List.find?_eq_none, hq] at due
        exact fun x hx => by simpa using due.1.1 x hx
      refine h.moves (k := 0) ?_
      have staged := Lineup.Move.stages (a := s.rqu.arrival) (c := s.scu.current.map Ticket.number) none
      rw [State.replyToSource_lineup]
      have same : s.lineup = ⟨t :: rest, s.rqu.arrival, s.scu.current.map Ticket.number⟩ := by rw [State.lineup, hq]
      rw [same]
      simpa [State.lineup, State.queueChanged_rqu] using staged
    · exact h

/-- A new ticket that joins a queue with space takes one stamp. -/
theorem State.joinQueue_queueRuns {src : Source} {song : Nat} {key : Int} {singers : Nat} {cls : TicketClass}
    (h : r.QueueRuns n s) (space : s.rqu.queue.length < 32) (hc : cls ≠ .staged) :
    r.QueueRuns (n + 1) (s.joinQueue (s.newTicket src song key singers cls)) := by
  obtain ⟨low, high, free⟩ := State.newNumber_free (s := s) (by omega)
  obtain ⟨new, other⟩ := (s.numberHeld_false _).mp free
  exact h.moves (.joins (s.newTicket src song key singers cls) space hc ⟨low, high, new, other⟩ rfl rfl)

theorem State.acceptRequest_queueRuns {k : Fin 16} {song : Nat} {key : Int} {singers : Nat} (h : r.QueueRuns n s)
    (space : s.rqu.queue.length < 32) : r.QueueRuns (n + 1) (s.acceptRequest k song key singers) := by
  have joined := State.joinQueue_queueRuns (src := .handset k) (song := song) (key := key) (singers := singers)
    (cls := .normal) h space (by decide)
  exact State.stageTest_queueRuns (joined.same (by simp))

/-- A request that Table 8-5 accepts finds space. -/
theorem State.checkRequest_space {k : Fin 16} {song : Nat} (h : s.checkRequest k song = .accept) :
    s.rqu.queue.length < 32 := by
  unfold State.checkRequest at h
  repeat' split at h
  all_goals first
    | omega
    | simp at h

theorem State.handleRequest_queueRuns {k : Fin 16} {req : HeldRequest} (h : r.QueueRuns n s) :
    r.QueueRuns (n + 1) (s.handleRequest k req) := by
  have stays := h.mono (Nat.le_add_right n 1)
  unfold State.handleRequest
  split
  · exact stays.same
  · split <;> exact stays.same
  · next accepted => exact State.acceptRequest_queueRuns h (State.checkRequest_space accepted)

/-! ## Departures (R137, R138) -/

theorem State.drainVisit_queueRuns (k : Fin 16) (h : r.QueueRuns n s) : r.QueueRuns (n + 1) (s.drainVisit k) := by
  have stays := h.mono (Nat.le_add_right n 1)
  unfold State.drainVisit
  split
  · exact stays
  · split
    · next req _ _ =>
      dsimp only
      split
      · exact stays.same (State.issueReply_lineup _ _ _ _)
      · exact stays
      · next accepted =>
        exact State.acceptRequest_queueRuns (s := { s.setSlot k none with rqu := { (s.setSlot k none).rqu with
          lastDrained := some k } }) h (State.checkRequest_space accepted)
    · exact stays

theorem State.drainSlots_queueRuns (h : r.QueueRuns n s) : r.QueueRuns (n + 16) s.drainSlots := by
  have visits : ∀ (l : List (Fin 16)) {m : Nat} {t : State}, r.QueueRuns m t →
      r.QueueRuns (m + l.length) (l.foldl State.drainVisit t) := by
    intro l
    induction l with
    | nil => exact fun g => g
    | cons k rest ih =>
      intro m t g
      rw [List.foldl_cons, List.length_cons, Nat.add_comm rest.length, ← Nat.add_assoc]
      exact ih (State.drainVisit_queueRuns k g)
  have all := visits (drainOrder s.rqu.lastDrained) h
  rwa [show (drainOrder s.rqu.lastDrained).length = 16 by simp [drainOrder]] at all

/-- A departure takes at most the stamps of the sixteen requests it may accept. -/
theorem State.depart_queueRuns {x : Ticket} {w : Bool}
    (left : r.QueueRuns n (s.departed x w)) : r.QueueRuns (n + 16) (s.depart x w) := by
  rw [State.depart_eq]
  refine State.stageTest_queueRuns ?_
  split
  · exact State.drainSlots_queueRuns left
  · exact left.mono (Nat.le_add_right n 16)

@[simp] theorem State.departed_scu (x : Ticket) (w : Bool) (s : State) : (s.departed x w).scu = s.scu := by
  unfold State.departed
  dsimp only
  split <;> (try split) <;> simp

theorem State.departed_lineup (x : Ticket) (w : Bool) (s : State) :
    (s.departed x w).lineup = ⟨queueLeft x s.rqu.queue, s.rqu.arrival, s.scu.current.map Ticket.number⟩ := by
  simp only [State.lineup, State.departed_rqu, State.departed_scu]
  rfl

/-- A queued ticket leaves for good (R137). -/
theorem State.departs_queueRuns {x : Ticket} {w : Bool} (h : r.QueueRuns n s) (queued : x ∈ s.rqu.queue) :
    r.QueueRuns (n + 16) (s.depart x w) := by
  refine State.depart_queueRuns (h.moves (k := 0) ?_)
  rw [State.departed_lineup]
  exact .leaves queued (.inl rfl)

/-- A queued ticket leaves to become the current ticket (R12). -/
theorem State.starts_queueRuns {x : Ticket} {w : Bool} (h : r.QueueRuns n s) (queued : x ∈ s.rqu.queue) :
    r.QueueRuns (n + 16) (State.depart x w { s with scu := { s.scu with current := some x } }) := by
  refine State.depart_queueRuns (h.moves (k := 0) ?_)
  rw [State.departed_lineup]
  exact .leaves queued (.inr rfl)

theorem Rqu.ticket_mem {q : Rqu} {m : Nat} {x : Ticket} (h : q.ticket m = some x) : x ∈ q.queue ∧ x.number = m :=
  ⟨List.mem_of_find?_eq_some h, by simpa using List.find?_some h⟩

theorem Rqu.stagedTicket_mem {q : Rqu} {x : Ticket} (h : q.stagedTicket = some x) : x ∈ q.queue ∧ x.cls = .staged :=
  ⟨List.mem_of_find?_eq_some h, by simpa using List.find?_some h⟩

theorem State.handleCancel_queueRuns {k : Fin 16} {m : Nat} (h : r.QueueRuns n s) :
    r.QueueRuns (n + 16) (s.handleCancel k m) := by
  have stays := h.mono (Nat.le_add_right n 16)
  have refused : ∀ b, r.QueueRuns (n + 16) (s.issueReply k b false) := fun b => stays.same
  unfold State.handleCancel
  split
  · split
    · exact refused _
    · exact stays.same
  · split
    · next x found =>
      split
      · exact State.departs_queueRuns (s := s.issueReply k _ false) h.same (by simpa using (Rqu.ticket_mem found).1)
      · exact refused _
    · split
      · split
        · split <;> exact refused _
        · exact refused _
      · exact refused _

/-! ## Staff commands (R141 to R144, R183) -/

theorem State.takeInsert_queueRuns {song : Nat} {key : Int} {singers : Nat} {priority : Bool} (h : r.QueueRuns n s) :
    r.QueueRuns (n + 1) (s.takeInsert song key singers priority).state := by
  have stays := h.mono (Nat.le_add_right n 1)
  unfold State.takeInsert
  split
  · exact stays
  · split
    · exact stays
    · next full =>
      have joined := State.joinQueue_queueRuns (src := .staff) (song := song) (key := key) (singers := singers)
        (cls := if priority then .priority else .normal) h (by omega) (by cases priority <;> decide)
      exact State.stageTest_queueRuns (joined.same (by simp))

theorem State.takeRemove_queueRuns {m : Nat} (h : r.QueueRuns n s) : r.QueueRuns (n + 16) (s.takeRemove m).state := by
  unfold State.takeRemove
  split
  · next x found =>
    exact State.departs_queueRuns (s := s.replyToSource x.source _) (h.same (State.replyToSource_lineup _ _ _))
      (by simpa [(State.replyToSource_keeps _ _ _).2] using (Rqu.ticket_mem found).1)
  · split <;> exact h.mono (Nat.le_add_right n 16)

theorem State.takePromote_queueRuns {m : Nat} (h : r.QueueRuns n s) : r.QueueRuns (n + 1) (s.takePromote m).state := by
  have stays := h.mono (Nat.le_add_right n 1)
  unfold State.takePromote
  split
  · next x found =>
    obtain ⟨queued, rfl⟩ := Rqu.ticket_mem found
    split
    · next normal =>
      refine State.stageTest_queueRuns (State.QueueRuns.same (h.moves (k := 1) (t := { s with rqu := { s.rqu with
        queue := _, arrival := s.rqu.arrival + 1 } }) ?_) (State.queueChanged_lineup _ _))
      exact .promotes queued normal
    · exact stays
  · split <;> exact stays

theorem State.takeClose_queueRuns (h : r.QueueRuns n s) : r.QueueRuns n s.takeClose.state := by
  have visit : ∀ t k, r.QueueRuns n t → r.QueueRuns n (State.closeVisit t k) := fun t k g => by
    unfold State.closeVisit
    split
    · exact g
    · exact g.same
  simp only [State.takeClose]
  exact foldl_keeps (P := r.QueueRuns n) visit _ s.doorShut h

theorem State.takeClearRoom_queueRuns (h : r.QueueRuns n s) : r.QueueRuns n s.takeClearRoom.state := by
  refine h.moves (k := 0) ?_
  have cleared : (State.clearQueue { s with scr := s.scr.clear }).lineup =
      ⟨[], 0, s.scu.current.map Ticket.number⟩ := by
    unfold State.clearQueue
    dsimp only
    split <;> rfl
  show Lineup.Move 0 s.lineup (State.clearQueue { s with scr := s.scr.clear }).lineup
  rw [cleared]
  exact .clears

/-! ## Handset packets (R128 to R140) -/

theorem State.withPacket_queueRuns {k : PacketKind} {f : Packet → State → State} {m : Nat}
    (hf : ∀ p t, r.QueueRuns n t → r.QueueRuns (n + m) (f p t)) (h : r.QueueRuns n s) :
    r.QueueRuns (n + m) (s.withPacket k f) := by
  have stays := h.mono (Nat.le_add_right n m)
  unfold State.withPacket
  split
  · exact stays
  · next b t e =>
    split
    · obtain ⟨-, scu, -, -, -, -, -, -, rqu, -⟩ := State.nextBeat_frame e
      exact hf _ _ (h.same (by rw [State.lineup, scu, rqu]; rfl))
    · exact stays

theorem State.handsetResend_queueRuns (h : r.QueueRuns n s) : r.QueueRuns n s.handsetResend := by
  refine State.withPacket_queueRuns (m := 0) (fun p t g => ?_) h
  split
  · exact g
  · exact g.same

theorem State.handsetRequest_queueRuns (h : r.QueueRuns n s) : r.QueueRuns (n + 1) s.handsetRequest :=
  State.withPacket_queueRuns (fun p t g =>
    State.handleRequest_queueRuns (s := t.noteSequence p.from p.seq) g) h

theorem State.handsetCancel_queueRuns (h : r.QueueRuns n s) : r.QueueRuns (n + 16) s.handsetCancel :=
  State.withPacket_queueRuns (fun p t g =>
    State.handleCancel_queueRuns (s := t.noteSequence p.from p.seq) g) h

theorem State.handsetStatus_queueRuns (h : r.QueueRuns n s) : r.QueueRuns n s.handsetStatus :=
  State.withPacket_queueRuns (m := 0) (fun _ _ g => g.same (State.issueReply_lineup _ _ _ _)) h

theorem State.badActionPacket_queueRuns (h : r.QueueRuns n s) : r.QueueRuns n s.badActionPacket :=
  State.withPacket_queueRuns (m := 0) (fun _ _ g => g.same (State.issueReply_lineup _ _ _ _)) h

theorem State.badPacket_queueRuns (h : r.QueueRuns n s) : r.QueueRuns n s.badPacket :=
  State.withPacket_queueRuns (m := 0) (fun _ _ g => g) h

end

end Sys2Proof.Machine
end

