-- ==== Sys2Proof/Proofs/QueueLaw.lean ====
section
/-! The law of the queue and its whole order (R131 to R133, R149): a song's operations stage tickets and take one of them
away, the commands move the queue as their owners do, and so every step is a run of moves that keeps both laws. -/

namespace Sys2Proof.Machine

section
variable {r s : State} {n : Nat}

/-! ## The voices' work and the write-out -/

theorem State.drainCheck_queueRuns (h : r.QueueRuns n s) : r.QueueRuns n s.drainCheck := by
  unfold State.drainCheck
  split
  · refine State.stageTest_queueRuns (h.same ?_)
    unfold State.beginWriteOut
    split
    · rfl
    · dsimp only
      split
      · rfl
      · simp [State.lineup]
  · exact h

theorem State.vinDrain_queueRuns (h : r.QueueRuns n s) : r.QueueRuns n s.vinDrain := by
  unfold State.vinDrain
  split
  · exact State.drainCheck_queueRuns h
  · exact h

theorem State.pjeDrain_queueRuns (h : r.QueueRuns n s) : r.QueueRuns n s.pjeDrain := by
  unfold State.pjeDrain
  split
  · exact State.drainCheck_queueRuns h
  · exact h

theorem State.takeBlock_queueRuns (h : r.QueueRuns n s) : r.QueueRuns n s.takeBlock := by
  unfold State.takeBlock
  split
  · exact State.vinDrain_queueRuns h
  · exact h

theorem State.endAnalysis_queueRuns (e : BlockEntry) (h : r.QueueRuns n s) : r.QueueRuns n (s.endAnalysis e) :=
  State.takeBlock_queueRuns (State.pjeDrain_queueRuns h)

theorem State.judge_queueRuns (b : BlockInHand) (period : Option Nat) (h : r.QueueRuns n s) :
    r.QueueRuns n (s.judge b period) := by
  have ends : ∀ t : State, r.QueueRuns n t → r.QueueRuns n (t.endAnalysis b.entry) := fun _ =>
    State.endAnalysis_queueRuns b.entry
  unfold State.judge
  split
  · exact ends s h
  · split
    · exact ends s h
    · dsimp only
      split
      · exact ends s h
      · split
        · exact ends s h
        · split
          · exact ends s.countNoteLate h
          · exact h
          · exact ends s h
          · exact ends _ (h.same (by simp [State.lineup]))

theorem State.retryJudgement_queueRuns (h : r.QueueRuns n s) : r.QueueRuns n s.retryJudgement := by
  unfold State.retryJudgement
  split
  · split
    · exact State.judge_queueRuns _ _ h
    · exact h
  · exact h

theorem State.offerPje_queueRuns (h : r.QueueRuns n s) : r.QueueRuns n s.offerPje :=
  State.retryJudgement_queueRuns (h.same (by simp [State.lineup]))

/-! ## Entering and leaving a song's states -/

theorem State.enterFinishing_queueRuns (m : Nat) (h : r.QueueRuns n s) : r.QueueRuns n (s.enterFinishing m) :=
  State.retryJudgement_queueRuns (State.pjeDrain_queueRuns (State.vinDrain_queueRuns (State.stageTest_queueRuns h)))

/-- A song left has no current ticket (R20). -/
theorem State.leaveSong_queueRuns (h : r.QueueRuns n s) : r.QueueRuns n s.leaveSong := h.moves (k := 0) .ends

theorem State.bannerLatch_queueRuns (h : r.QueueRuns n s) : r.QueueRuns n s.bannerLatch := by
  unfold State.bannerLatch
  split
  · split
    · have left := State.leaveSong_queueRuns h
      exact left.whenRoom (State.stageTest_queueRuns left)
    · exact h
  · exact h

theorem State.resumeStaging_queueRuns (h : r.QueueRuns n s) : r.QueueRuns n s.resumeStaging := by
  unfold State.resumeStaging
  split
  · exact h.whenRoom (State.stageTest_queueRuns h)
  · exact h

theorem State.loadBanner_queueRuns (m : Nat) (h : r.QueueRuns n s) : r.QueueRuns n (s.loadBanner m) := by
  unfold State.loadBanner
  split
  · exact State.stageTest_queueRuns (State.leaveSong_queueRuns h)
  · exact h

theorem State.endWriteOut_queueRuns (h : r.QueueRuns n s) : r.QueueRuns n s.endWriteOut :=
  State.loadBanner_queueRuns _ (State.stageTest_queueRuns h)

theorem State.writeOutEnd_queueRuns (h : r.QueueRuns n s) : r.QueueRuns n s.writeOutEnd := by
  unfold State.writeOutEnd
  split
  · exact h
  · split
    · exact State.endWriteOut_queueRuns h
    · exact h

/-! ## Cues and offers -/

theorem State.takeSongEnd_queueRuns (m : Nat) (h : r.QueueRuns n s) : r.QueueRuns n (s.takeSongEnd m) := by
  unfold State.takeSongEnd
  dsimp only
  split
  · exact State.enterFinishing_queueRuns m h
  · exact h

theorem State.takeCue_queueRuns (c : QueuedCue) (m : Nat) (h : r.QueueRuns n s) : r.QueueRuns n (s.takeCue c m) := by
  unfold State.takeCue
  split
  · exact h.same (by simp [State.lineup])
  · exact h
  · exact h.same (by simp [State.lineup])
  · exact h.same (by simp [State.lineup])
  · exact State.takeSongEnd_queueRuns m h

theorem State.takeDue_queueRuns (fuel m : Nat) : ∀ {s : State}, r.QueueRuns n s → r.QueueRuns n (s.takeDue fuel m) := by
  induction fuel with
  | zero => exact fun h => h
  | succ fuel ih =>
    intro s h
    unfold State.takeDue
    split
    · exact h
    · split
      · next c rest _ _ =>
        have taken := State.takeCue_queueRuns (s := { s with lsq := { s.lsq with queue := rest } }) c m h
        exact ih (taken.same (by simp [State.lineup]))
      · exact h

theorem State.takeCues_queueRuns (h : r.QueueRuns n s) : r.QueueRuns n s.takeCues := State.takeDue_queueRuns _ _ h

theorem State.offerLsq_queueRuns (h : r.QueueRuns n s) : r.QueueRuns n s.offerLsq := by
  have taken : r.QueueRuns n s.retryHeldCue.takeCues := State.takeCues_queueRuns (h.same (by simp [State.lineup]))
  exact taken.same (by simp [State.offerLsq, State.lineup])

theorem State.offer_queueRuns (h : r.QueueRuns n s) : r.QueueRuns n s.offer := by
  unfold State.offer
  split
  · exact State.stageTest_queueRuns h
  · exact State.stageTest_queueRuns (State.offerPje_queueRuns (State.offerLsq_queueRuns h))

theorem State.playbackTap_queueRuns (h : r.QueueRuns n s) : r.QueueRuns n s.playbackTap := by
  unfold State.playbackTap
  split
  · dsimp only
    split
    · split
      · exact State.enterFinishing_queueRuns _ h
      · exact h
    · split
      · exact h
      · exact State.offer_queueRuns h
  · exact h

/-! ## SEEKING -/

theorem State.finishCommand_queueRuns {rc : ResultCode} (h : r.QueueRuns n s) : r.QueueRuns n (s.finishCommand rc) :=
  h.same (by simp [State.lineup])

theorem State.leaveSeeking_queueRuns (h : r.QueueRuns n s) : r.QueueRuns n s.leaveSeeking := by
  have ended : r.QueueRuns n (s.finishCommand .ok) := State.finishCommand_queueRuns h
  unfold State.leaveSeeking
  split
  · dsimp only
    split
    · exact State.offerPje_queueRuns (State.enterFinishing_queueRuns _ ended)
    · have played : r.QueueRuns n { s.finishCommand .ok with
          scu := { (s.finishCommand .ok).scu with state := .playing } } := ended
      exact State.stageTest_queueRuns (State.offerPje_queueRuns (State.offerLsq_queueRuns played))
  · exact h

theorem State.rebuildEnds_queueRuns (h : r.QueueRuns n s) : r.QueueRuns n s.rebuildEnds :=
  State.leaveSeeking_queueRuns (s := s.lsqRebuildEnd.pjeRebuildEnd) (h.same (by simp [State.lineup]))

theorem State.beginSeek_queueRuns (tag : BitVec 16) (m : Nat) (h : r.QueueRuns n s) :
    r.QueueRuns n (s.beginSeek tag m) := by
  unfold State.beginSeek
  dsimp only
  generalize hu : ({ s with scu := _, vin := _, ctl := _ } : State) = u
  have seeking : r.QueueRuns n u := by
    rw [← hu]
    exact h
  have staged : r.QueueRuns n ((u.abortAnalysis.startRescan m).startNoteRebuild).stageTest :=
    State.stageTest_queueRuns (seeking.same (by simp [State.lineup]))
  exact State.rebuildEnds_queueRuns (staged.same (by simp [State.lineup]))

theorem State.endCueFetch_queueRuns (d : Option (List Beat)) (h : r.QueueRuns n s) :
    r.QueueRuns n (s.endCueFetch d) := by
  refine State.rebuildEnds_queueRuns (h.same ?_)
  dsimp only
  split <;> (try split) <;> simp [State.lineup]

theorem State.endLineLoad_queueRuns (op : Nat) (d : Option (List Beat)) (h : r.QueueRuns n s) :
    r.QueueRuns n (s.endLineLoad op d) := by
  unfold State.endLineLoad
  split
  · exact h
  · refine State.rebuildEnds_queueRuns (h.same ?_)
    split <;> simp [State.lineup]

theorem State.endNoteFetch_queueRuns (d : Option (List Beat)) (h : r.QueueRuns n s) :
    r.QueueRuns n (s.endNoteFetch d) := by
  refine State.rebuildEnds_queueRuns (State.retryJudgement_queueRuns (h.same ?_))
  dsimp only
  split <;> simp [State.lineup]

/-! ## A frame latch and the display -/

theorem State.latchClaims_queueRuns (h : r.QueueRuns n s) : r.QueueRuns n s.latchClaims := by
  refine h.whenRoom ?_
  have bound : r.QueueRuns n s.bindFree := h.same (by simp [State.lineup])
  dsimp only
  split
  · exact State.rebuildEnds_queueRuns (bound.same (by simp [State.lineup]))
  · split
    · exact (State.takeCues_queueRuns bound).same (by simp [State.lineup])
    · exact bound.same (by simp [State.lineup])

theorem State.resumeLatch_queueRuns (h : r.QueueRuns n s) : r.QueueRuns n s.resumeLatch := by
  unfold State.resumeLatch
  refine State.resumeStaging_queueRuns ?_
  split
  · exact (State.latchClaims_queueRuns h).flushed
  · exact h

theorem State.frameLatch_queueRuns (h : r.QueueRuns n s) : r.QueueRuns n s.frameLatch := by
  have latched : r.QueueRuns n (State.latchClaims { s.latchLsq with
      ovc := { s.latchLsq.ovc with latch := some s.latchLsq.buildLatch } }) :=
    State.latchClaims_queueRuns (h.same (by simp [State.lineup]))
  exact latched.same (by simp [State.frameLatch, State.lineup])

theorem State.afterLatch_queueRuns (h : r.QueueRuns n s) : r.QueueRuns n s.afterLatch := State.bannerLatch_queueRuns h

theorem State.displayAt_queueRuns (a : Nat) (b : ReadBeat) (h : r.QueueRuns n s) :
    r.QueueRuns n (s.displayAt a b).1 := by
  unfold State.displayAt
  dsimp only
  split
  · exact h
  · generalize hoff : (((a : Int) - _) % _).toNat = off
    have latched : r.QueueRuns n (if off = 0 then s.frameLatch else s) := by
      split
      · exact State.frameLatch_queueRuns h
      · exact h
    generalize (if off = 0 then s.frameLatch else s) = u at latched ⊢
    have composed : ∀ (P : Prop) [Decidable P] (y : Nat), r.QueueRuns n (if P then u.compose y else u) := by
      intro P _ y
      split
      · exact latched.same (by simp [State.lineup])
      · exact latched
    have layered : ∀ (t : State) (l : LatchRecord) (y x : Nat), r.QueueRuns n t →
        r.QueueRuns n (t.layerBeat l y x b).1 := fun _ _ _ _ g => g.same (by simp [State.lineup])
    have closed : ∀ p : State × ReadBeat, r.QueueRuns n p.1 →
        r.QueueRuns n (if off = 0 then (p.1.afterLatch, p.2) else p).1 := by
      intro p g
      split
      · exact State.afterLatch_queueRuns g
      · exact g
    refine closed _ ?_
    split
    · exact composed _ _
    · split
      · exact layered _ _ _ _ (composed _ _)
      · exact composed _ _

/-! ## START -/

theorem State.beginStart_queueRuns (tag : BitVec 16) (m : Nat) (b : Fin 2) (h : r.QueueRuns n s) :
    r.QueueRuns n (s.beginStart tag m b) := by
  have left : r.QueueRuns n (if s.scu.state = .finishing then s.leaveSong else s) := by
    split
    · exact State.leaveSong_queueRuns h
    · exact h
  exact State.stageTest_queueRuns left

theorem State.failStart_queueRuns (rc : ResultCode) (h : r.QueueRuns n s) : r.QueueRuns n (s.failStart rc) :=
  State.finishCommand_queueRuns (State.stageTest_queueRuns h)

/-- START's completion takes the STAGED ticket away (R12). -/
theorem State.completeStart_queueRuns {t : Ticket} (b : Fin 2) (base : Nat) (hd : Header) (h : r.QueueRuns n s)
    (queued : t ∈ s.rqu.queue) : r.QueueRuns (n + 16) (s.completeStart t b base hd) := by
  have departed : r.QueueRuns (n + 16) (State.depart t false { s with scu := { s.scu with current := some t } }) :=
    State.starts_queueRuns h queued
  generalize hu : State.depart t false { s with scu := { s.scu with current := some t } } = u at departed
  have primed : r.QueueRuns (n + 16) ((u.pushHistory t).primeSong t b base hd) := departed
  have done : s.completeStart t b base hd =
      (((u.pushHistory t).primeSong t b base hd).offer.stageTest).finishCommand .ok := by rw [← hu]; rfl
  rw [done]
  exact State.finishCommand_queueRuns (State.stageTest_queueRuns (State.offer_queueRuns primed))

theorem State.headerEnded_queueRuns (d : Option (List Beat)) (h : r.QueueRuns n s) :
    r.QueueRuns (n + 16) (s.headerEnded d) := by
  have fails : ∀ rc, r.QueueRuns (n + 16) (s.failStart rc) := fun rc =>
    (State.failStart_queueRuns rc h).mono (Nat.le_add_right n 16)
  unfold State.headerEnded
  split
  · split
    · exact fails _
    · next t staged =>
      split
      · split
        · exact fails _
        · dsimp only
          split
          · exact State.completeStart_queueRuns _ _ _ h (Rqu.stagedTicket_mem staged).1
          · exact fails _
      · exact fails _
  · exact h.mono (Nat.le_add_right n 16)

/-! ## Completions of own reads -/

theorem State.headerReadComplete_queueRuns (h : r.QueueRuns n s) : r.QueueRuns (n + 16) s.headerReadComplete := by
  unfold State.headerReadComplete
  split
  · exact h.mono (Nat.le_add_right n 16)
  · exact State.headerEnded_queueRuns _ h

theorem State.cueFetchComplete_queueRuns (h : r.QueueRuns n s) : r.QueueRuns n s.cueFetchComplete := by
  unfold State.cueFetchComplete
  split
  · exact h
  · exact State.endCueFetch_queueRuns _ h

theorem State.lineLoadComplete_queueRuns (h : r.QueueRuns n s) : r.QueueRuns n s.lineLoadComplete := by
  unfold State.lineLoadComplete
  split
  · exact h
  · exact State.endLineLoad_queueRuns _ _ h

theorem State.noteFetchComplete_queueRuns (h : r.QueueRuns n s) : r.QueueRuns n s.noteFetchComplete := by
  unfold State.noteFetchComplete
  split
  · exact h
  · exact State.endNoteFetch_queueRuns _ h

theorem State.measurementEnd_queueRuns (h : r.QueueRuns n s) : r.QueueRuns n s.measurementEnd := by
  unfold State.measurementEnd
  split
  · exact h
  · split
    · exact State.judge_queueRuns _ _ h
    · exact h

theorem State.imageRewriteEnd_queueRuns (h : r.QueueRuns n s) : r.QueueRuns n s.imageRewriteEnd := by
  unfold State.imageRewriteEnd
  split <;> exact h

theorem State.replyRead_queueRuns (h : r.QueueRuns n s) : r.QueueRuns n s.replyRead := by
  unfold State.replyRead
  split <;> exact h

/-! ## Captured samples -/

theorem State.completeBlock_queueRuns (ch : Fin 4) (k : Fin 2) (h : r.QueueRuns n s) :
    r.QueueRuns n (s.completeBlock ch k) := by
  have taken : ∀ (t : State) (v : Vin), r.QueueRuns n t → r.QueueRuns n (State.takeBlock { t with vin := v }) :=
    fun _ _ g => State.takeBlock_queueRuns g
  unfold State.completeBlock
  dsimp only
  split
  · split
    · exact taken s _ h
    · exact taken (s.dropBlock ch (otherHalf k)) _ (h.same (by simp [State.lineup]))
    · exact taken s _ h
    · exact taken s _ h
  · exact h

theorem State.storeSample_queueRuns (ch : Fin 4) (y : Int) (h : r.QueueRuns n s) :
    r.QueueRuns n (s.storeSample ch y) := by
  unfold State.storeSample
  dsimp only
  split
  · exact h
  · split
    · exact State.completeBlock_queueRuns _ _ h
    · exact h

theorem State.takeSample_queueRuns (x : Int) (h : r.QueueRuns n s) : r.QueueRuns n (s.takeSample x) := by
  unfold State.takeSample
  dsimp only
  split
  · split
    · split
      · exact h
      · exact State.storeSample_queueRuns _ _ h
    · exact h
  · exact h

theorem State.captureWrite_queueRuns (h : r.QueueRuns n s) : r.QueueRuns n s.captureWrite := by
  have samples : ∀ (l : List WriteBeat) (t : State), r.QueueRuns n t →
      r.QueueRuns n (l.foldl (fun s b => (beatSamples b.data).foldl State.takeSample s) t) := by
    refine foldl_keeps (P := r.QueueRuns n) fun t b => ?_
    exact foldl_keeps (P := r.QueueRuns n) (fun _ x => State.takeSample_queueRuns x) _ t
  unfold State.captureWrite State.takeCapture
  split
  · exact h
  · split
    · exact h
    · next w _ =>
      dsimp only
      split
      · exact samples _ { s.dropTap with vin := s.dropTap.vin.seat s.dropTap.prm.channels w _ } h
      · exact h

/-! ## Host commands (R179) -/

theorem State.submit_queueRuns (code tag : BitVec 16) {f : State → CommandEnd} (h : r.QueueRuns n s)
    (hf : r.QueueRuns n (f s).state) : r.QueueRuns n (s.submit code tag (some f)) := by
  unfold State.submit
  split
  · exact h
  · dsimp only
    split
    · exact h
    · split
      · exact h
      · cases e : f s with
        | answered a =>
          rw [e] at hf
          exact hf
        | later t =>
          rw [e] at hf
          exact hf

theorem State.takeSetup_queueRuns (sec commit : Byte) (words : List Word) (h : r.QueueRuns n s) :
    r.QueueRuns n (s.takeSetup sec commit words).state := by
  have applied : ∀ (t : State) (p : Setup), r.QueueRuns n t → r.QueueRuns n (t.applySetup p) := fun t p g =>
    g.same (by simp [State.applySetup, State.setupReplies, State.lineup])
  unfold State.takeSetup State.refuse
  dsimp only
  split
  · exact h
  · split
    · exact h
    · split
      · exact applied _ _ h
      · exact h

theorem State.takeScoring_queueRuns (g c l : Nat) (fold : Bool) (pm gm fm cad : Nat) (h : r.QueueRuns n s) :
    r.QueueRuns n (s.takeScoring g c l fold pm gm fm cad).state := by
  unfold State.takeScoring State.refuse
  split <;> exact h

theorem State.takeAssign_queueRuns (singer mic part : Nat) (h : r.QueueRuns n s) :
    r.QueueRuns n (s.takeAssign singer mic part).state := by
  unfold State.takeAssign State.refuse
  split
  · dsimp only
    split
    · exact h
    · split
      · exact h
      · exact h
      · split
        · exact h
        · split <;> exact h
  · exact h

theorem State.takeStart_queueRuns (tag : BitVec 16) (m b : Nat) (h : r.QueueRuns n s) :
    r.QueueRuns n (s.takeStart tag m b).state := by
  unfold State.takeStart State.refuse
  split
  · exact h
  · split
    · split
      · exact State.beginStart_queueRuns _ _ _ h
      · exact h
    · exact h

theorem State.takeStop_queueRuns (h : r.QueueRuns n s) : r.QueueRuns n s.takeStop.state := by
  unfold State.takeStop State.refuse
  split
  · exact State.enterFinishing_queueRuns _ h
  · exact h

theorem State.takeSeek_queueRuns (tag : BitVec 16) (ms : Nat) (h : r.QueueRuns n s) :
    r.QueueRuns n (s.takeSeek tag ms).state := by
  unfold State.takeSeek State.refuse
  split
  · exact State.beginSeek_queueRuns _ _ h
  · exact h

/-- A submitted command takes at most sixteen stamps. -/
theorem State.submitInstr_queueRuns (c : Instr) (h : r.QueueRuns n s) : r.QueueRuns (n + 16) (s.submitInstr c) := by
  have none := h.mono (Nat.le_add_right n 16)
  have one : ∀ {t : State}, r.QueueRuns (n + 1) t → r.QueueRuns (n + 16) t := fun g => g.mono (by omega)
  unfold State.submitInstr
  split
  · exact State.submit_queueRuns _ _ none (State.takeSetup_queueRuns _ _ _ none)
  · exact State.submit_queueRuns _ _ none (State.takeScoring_queueRuns _ _ _ _ _ _ _ _ none)
  · exact State.submit_queueRuns _ _ none none
  · exact State.submit_queueRuns _ _ none none
  · exact State.submit_queueRuns _ _ none (State.takeStart_queueRuns _ _ _ none)
  · exact State.submit_queueRuns _ _ none (State.takeStop_queueRuns none)
  · exact State.submit_queueRuns _ _ none (State.takeSeek_queueRuns _ _ none)
  · exact State.submit_queueRuns _ _ none none
  · exact State.submit_queueRuns _ _ none none
  · exact State.submit_queueRuns _ _ none (State.takeAssign_queueRuns _ _ _ none)
  · exact State.submit_queueRuns _ _ none (one (State.takeInsert_queueRuns h))
  · exact State.submit_queueRuns _ _ none (State.takeRemove_queueRuns h)
  · exact State.submit_queueRuns _ _ none (one (State.takePromote_queueRuns h))
  · exact State.submit_queueRuns _ _ none none
  · exact State.submit_queueRuns _ _ none (State.takeClose_queueRuns none)
  · exact State.submit_queueRuns _ _ none (State.takeClearRoom_queueRuns none)
  · exact State.submit_queueRuns _ _ none none
  all_goals exact none

theorem State.commandSlotWrite_queueRuns (h : r.QueueRuns n s) : r.QueueRuns (n + 16) s.commandSlotWrite := by
  have stays := h.mono (Nat.le_add_right n 16)
  unfold State.commandSlotWrite
  split
  · exact stays
  · dsimp only
    split
    · generalize hu : ({ s.dropTap with ctl := _ } : State) = u
      have captured : r.QueueRuns n u := by
        rw [← hu]
        exact h
      rcases State.submitRecord_cases (readCommand _) u with ⟨c, e⟩ | ⟨code, rc, e⟩ <;> rw [e]
      · exact State.submitInstr_queueRuns c captured
      · exact captured.mono (Nat.le_add_right n 16)
    · exact stays

/-- Waiting commands taken up take at most sixteen stamps each. -/
theorem State.resumeHost_queueRuns (l : List Instr) : ∀ {n : Nat} {s : State}, r.QueueRuns n s →
    r.QueueRuns (n + 16 * l.length) (State.resumeHost l s) := by
  induction l with
  | nil => exact fun h => h
  | cons c rest ih =>
    intro n s h
    unfold State.resumeHost
    split
    · exact h.mono (Nat.le_add_right n _)
    · rw [List.length_cons, Nat.mul_succ, Nat.add_comm (16 * rest.length), ← Nat.add_assoc]
      exact ih (State.submitInstr_queueRuns c h).flushed

theorem State.resumeWork_queueRuns (h : r.QueueRuns n s) :
    r.QueueRuns (n + 16 * s.ctl.waiting.length) s.resumeWork :=
  State.resumeHost_queueRuns _ h

/-! ## The links -/

theorem State.playTaps_queueRuns (h : r.QueueRuns n s) : r.QueueRuns n s.playTaps :=
  State.takePlaybacks_keeps (P := r.QueueRuns n) (fun _ g => (State.playbackTap_queueRuns g).flushed) (fun _ _ g => g) _ s h

theorem State.arrive_waiting (q : Request) (s : State) : (s.arrive q).ctl.waiting = s.ctl.waiting := by
  unfold State.arrive State.guardWrite
  dsimp only
  repeat' split
  all_goals simp

theorem State.resumeLatch_waiting (s : State) : s.resumeLatch.ctl.waiting = s.ctl.waiting := by
  have staged : ∀ t : State, t.resumeStaging.ctl.waiting = t.ctl.waiting := fun t => by
    unfold State.resumeStaging
    split
    · exact (State.whenRoom_handsOn (State.stageTest_handsOn (.refl t))).waiting
    · rfl
  unfold State.resumeLatch
  rw [staged]
  split
  · exact (State.flush_handsOn (State.latchClaims_handsOn (.refl s))).waiting
  · rfl

/-- A decision moves the queue by stagings alone, and leaves the host commands that wait. -/
theorem State.arbiterDecision_queueRuns (h : r.QueueRuns n s) :
    r.QueueRuns n s.arbiterDecision ∧ s.arbiterDecision.ctl.waiting = s.ctl.waiting := by
  have flushed : ∀ t : State, t.flush.ctl.waiting = t.ctl.waiting := fun t =>
    (State.flush_handsOn (.refl t)).waiting
  refine State.arbiterDecision_keeps (P := fun t => r.QueueRuns n t ∧ t.ctl.waiting = s.ctl.waiting) ?_ ?_ ?_ ?_ s ⟨h, rfl⟩
  · rintro t ⟨g, w⟩
    refine State.takeHeld_keeps (P := fun t => r.QueueRuns n t ∧ t.ctl.waiting = s.ctl.waiting) ?_ (fun _ _ g => g) _ _ ?_
    · rintro u q ⟨g, w⟩
      exact ⟨(g.same (t := u.arrive q) (by simp [State.lineup])).flushed,
        (flushed _).trans ((State.arrive_waiting q u).trans w)⟩
    · exact ⟨State.QueueRuns.flushed (s := { t with ptu := t.ptu.arbitrate }) g, (flushed _).trans w⟩
  · rintro t ⟨g, w⟩
    exact ⟨State.resumeLatch_queueRuns g, t.resumeLatch_waiting.trans w⟩
  · rintro t ⟨g, w⟩
    exact ⟨g.same (by simp [State.lineup]), (State.pump_handsOn (.refl t)).waiting.trans w⟩
  · rintro t ⟨g, w⟩
    exact ⟨g.flushed, (flushed t).trans w⟩

theorem State.playbackBeat_queueRuns (b : ReadBeat) (h : r.QueueRuns n s) : r.QueueRuns n (s.playbackBeat b) := by
  unfold State.playbackBeat
  split
  · split
    · exact State.playTaps_queueRuns h
    · exact h
  · exact h

theorem State.displayBeat_queueRuns (b : ReadBeat) (h : r.QueueRuns n s) : r.QueueRuns n (s.displayBeat b) := by
  unfold State.displayBeat
  split
  · dsimp only
    split
    · exact State.displayAt_queueRuns _ b h
    · exact h
  · exact h

end

/-! ## Every command -/

/-- A step moves the queue, and takes at most sixteen stamps for each host command it decides. -/
theorem exec_queueRuns {i : Instr} {s t : State} (e : exec i s = .next t) :
    s.QueueRuns (16 * (s.ctl.waiting.length + 1)) t := by
  have start : ∀ n, s.QueueRuns n s := State.QueueRuns.refl s
  have sixteen : ∀ u : State, s.QueueRuns (0 + 16) u → s.QueueRuns (16 * (s.ctl.waiting.length + 1)) u := fun _ g =>
    g.mono (by omega)
  have none : ∀ u : State, s.QueueRuns 0 u → s.QueueRuns (16 * (s.ctl.waiting.length + 1)) u := fun _ g =>
    g.mono (by omega)
  have host : ∀ c : Instr, s.QueueRuns (16 * (s.ctl.waiting.length + 1))
      (s.hostWork c fun s => s.submitInstr c).flush := fun c => by
    refine sixteen _ (State.QueueRuns.flushed ?_)
    unfold State.hostWork
    split
    · exact start _
    · exact State.submitInstr_queueRuns c (start 0)
  have ended : ∀ {n : Nat} (work : State → State), s.QueueRuns n (work s) → s.QueueRuns n (s.whenRoom work).flush :=
    fun _ g => ((start _).whenRoom g).flushed
  have tap : ∀ {n : Nat} (work : State → State), s.QueueRuns n (work s) →
      s.QueueRuns n (s.whenRoom work).flush.playTaps := fun work g => State.playTaps_queueRuns (ended work g)
  unfold exec at e
  split at e
  case h_2 =>
    unfold execSystemRequest at e
    split at e
    · cases e
      exact ((start _).same (by simp [State.lineup])).flushed
    · cases e
  all_goals cases e
  · refine none _ (State.QueueRuns.flushed ?_)
    have cleared : s.QueueRuns 0 { s with rqu := {} } := (start 0).moves (k := 0) .clears
    exact cleared.moves (k := 0) .ends
  · obtain ⟨decided, waiting⟩ := State.arbiterDecision_queueRuns (start 0)
    have resumed := State.resumeWork_queueRuns decided
    rw [waiting] at resumed
    exact (State.playTaps_queueRuns resumed).mono (by omega)
  · exact none _ (State.playbackBeat_queueRuns _ (start 0)).flushed
  · exact none _ (State.displayBeat_queueRuns _ (start 0)).flushed
  iterate 4 exact ((start _).same (by simp [State.lineup])).flushed
  · exact sixteen _ (ended _ (State.headerReadComplete_queueRuns (start 0)))
  · exact none _ (ended _ (State.cueFetchComplete_queueRuns (start 0)))
  · exact none _ (ended _ (State.lineLoadComplete_queueRuns (start 0)))
  · exact none _ (ended _ (State.noteFetchComplete_queueRuns (start 0)))
  iterate 2 exact ended _ ((start _).same (by simp [State.lineup]))
  · exact sixteen _ (tap _ (State.commandSlotWrite_queueRuns (start 0)))
  iterate 17 exact host _
  · exact none _ (tap _ (State.captureWrite_queueRuns (start 0)))
  · exact none _ (ended _ (State.measurementEnd_queueRuns (start 0)))
  · exact none _ (ended _ (State.writeOutEnd_queueRuns (start 0)))
  · exact tap _ ((start _).same (by simp [State.lineup]))
  · exact none _ (tap _ (State.replyRead_queueRuns (start 0)))
  · exact none _ (tap _ (State.badPacket_queueRuns (start 0)))
  · exact none _ (tap _ (State.handsetResend_queueRuns (start 0)))
  · exact (tap _ (State.handsetRequest_queueRuns (start 0))).mono (by omega)
  · exact sixteen _ (tap _ (State.handsetCancel_queueRuns (start 0)))
  · exact none _ (tap _ (State.handsetStatus_queueRuns (start 0)))
  · exact none _ (tap _ (State.badActionPacket_queueRuns (start 0)))
  iterate 2 exact ended _ ((start _).same (by simp [State.lineup]))
  · exact none _ (ended _ (State.imageRewriteEnd_queueRuns (start 0)))
  · exact ended _ ((start _).same (by simp [State.lineup]))

/-- Every step is a run of moves of the queue. -/
theorem step_queueRuns {s t : State} (e : step s = .next t) : s.QueueRuns (16 * (s.ctl.waiting.length + 1)) t := by
  unfold step at e
  split at e
  · cases e
    exact .refl s _
  · next c rest _ => exact exec_queueRuns (s := { s with pending := rest }) e

/-- Settles O55: every step is a run of moves, and every move keeps the law of the queue. -/
theorem queueLawIsKept : Obligations.QueueLawIsKept := by
  intro s t h e
  exact (State.queueLaw_iff t).mpr ((step_queueRuns e).lawful ((State.queueLaw_iff s).mp h))

/-- A step keeps the whole order of the queue while there is room for the stamps it can take: the premise on the ages of
the queued tickets says so unless the queue is empty, where it says nothing. -/
theorem step_stampLaw {s t : State} (room : 16 * (s.ctl.waiting.length + 1) < 2 ^ 31) (h : s.stampLaw)
    (young : s.rqu.stampsWithin (16 * (s.ctl.waiting.length + 1))) (e : step s = .next t) : t.stampLaw := by
  have stamped : s.lineup.Stamped (0 + 16 * (s.ctl.waiting.length + 1)) := by
    rw [Nat.zero_add]
    exact (State.stampLaw_iff young).mp h
  have kept := (step_queueRuns e).stamped (by omega) stamped
  exact (State.stampLaw_iff (n := 0) kept.young).mpr kept

end Sys2Proof.Machine
end

