-- ==== Sys2Proof/Proofs/StampsWrap.lean ====
section
/-! Why the order of the queue (R132) is not kept by every step as its statement has it. The premise on the ages of the queued
tickets says nothing of an empty queue, whatever number of host commands waits, and one arbiter decision takes up all that
wait while the intake line has room. Where a client already keeps a request, every later request is kept too and the line
never fills, so one decision can take 2^32 stamps: a ticket that waits meanwhile gets a companion of its own stamp. -/

namespace Sys2Proof.Machine

/-! ## A line that never fills (R169, log 14) -/

theorem Ptu.hand_keeps (r : OwnRequest) {p : Ptu} (h : p.kept ≠ []) :
    (p.hand r).kept ≠ [] ∧ (p.hand r).intake = p.intake := by
  simp [Ptu.hand, h]

theorem Ptu.handAll_keeps (c : Client) (op : Nat) (rs : List (Nat × Body)) : ∀ (k : Nat) {p : Ptu}, p.kept ≠ [] →
    (Ptu.handAll c op k rs p).kept ≠ [] ∧ (Ptu.handAll c op k rs p).intake = p.intake := by
  induction rs with
  | nil => exact fun k p h => ⟨h, rfl⟩
  | cons x rest ih =>
    intro k p h
    obtain ⟨kept, intake⟩ := Ptu.hand_keeps ⟨c, op, k, x.1, x.2⟩ h
    obtain ⟨kept', intake'⟩ := ih (k + 1) kept
    exact ⟨kept', intake'.trans intake⟩

/-- Where a client keeps a request, the requests of a new operation are kept too, and the line stays as it is. -/
theorem Ptu.startOp_keeps (kind : OpKind) (c : Client) (rs : List (Nat × Body)) {p : Ptu} (h : p.kept ≠ []) :
    (p.startOp kind c rs).kept ≠ [] ∧ (p.startOp kind c rs).intake = p.intake :=
  Ptu.handAll_keeps c p.nextOp rs 0 h

/-- A part set up, in STARTING and with no command in progress, that decides every host command at once: the line is empty,
and stays empty since a client keeps a request. -/
structure State.Unhindered (s : State) : Prop where
  setup : s.ctl.setup = some { catalogSize := 1 }
  free : s.ctl.inProgress = none
  waiting : s.ctl.waiting = []
  starting : s.scu.state = .starting
  kept : s.ptu.kept ≠ []
  intake : s.ptu.intake = []
  taps : s.ptu.taps = []

theorem State.Unhindered.ready {s : State} (h : s.Unhindered) : s.ready :=
  ⟨h.free, by rw [h.setup]; rfl, by simp [Ptu.lineFull, h.intake], h.waiting⟩

theorem State.Unhindered.of_core {s t : State} (h : s.Unhindered) (core : t.ctl.core = s.ctl.core)
    (scu : t.scu = s.scu) (kept : t.ptu.kept ≠ []) (intake : t.ptu.intake = s.ptu.intake)
    (taps : t.ptu.taps = s.ptu.taps) : t.Unhindered := by
  obtain ⟨setup, free, -, -, waiting⟩ := Ctl.core_fields core
  exact ⟨setup.trans h.setup, free.trans h.free, waiting.trans h.waiting, (congrArg Scu.state scu).trans h.starting, kept,
    intake.trans h.intake, taps.trans h.taps⟩

/-- A rewrite that begins hinders nothing. -/
theorem State.Unhindered.flush {s : State} (h : s.Unhindered) : s.flush.Unhindered := by
  have started : ∀ {t : State} (kind : OpKind) (c : Client) (rs : List (Nat × Body)) (u : State), t.Unhindered →
      u.ptu = t.ptu.startOp kind c rs → u.ctl.setup = t.ctl.setup → u.ctl.inProgress = t.ctl.inProgress →
      u.ctl.waiting = t.ctl.waiting → u.scu = t.scu → u.Unhindered := by
    intro t kind c rs u g ptu setup free waiting scu
    obtain ⟨kept, intake⟩ := Ptu.startOp_keeps kind c rs g.kept
    refine ⟨setup.trans g.setup, free.trans g.free, waiting.trans g.waiting, (congrArg Scu.state scu).trans g.starting,
      by rwa [ptu], by rw [ptu, intake, g.intake], by rw [ptu]; simpa using g.taps⟩
  have image : s.beginImage.Unhindered := by
    unfold State.beginImage
    split
    · exact started _ _ _ _ h rfl rfl rfl rfl rfl
    · exact h
  unfold State.flush State.beginStatus
  split
  · exact started _ _ _ _ image rfl rfl rfl rfl rfl
  · exact image

theorem State.Unhindered.result {s : State} {code tag : BitVec 16} {rc : ResultCode} {vs : List Word}
    (h : s.Unhindered) : (s.result code tag rc vs).Unhindered := by
  obtain ⟨kept, intake⟩ := Ptu.startOp_keeps (.result code) .statusResult (writesOver (s.ptu.controlBase + 0x40)
    (resultBytes code tag rc (s.ctl.resultCount + 1) vs)) h.kept
  exact ⟨h.setup, h.free, h.waiting, h.starting, kept, intake.trans h.intake, by simpa [State.result] using h.taps⟩

/-! ## One stamp after another -/

/-- INSERT of song 1 as a PRIORITY ticket. -/
def insertOne : Instr := .insert 0 1 0 1 1

/-- The ticket that this INSERT admits. -/
def State.ticketOne (s : State) : Ticket := s.newTicket .staff 1 0 1 .priority

/-- INSERT of a PRIORITY ticket, decided where nothing hinders it. -/
theorem State.Unhindered.inserts {s : State} (h : s.Unhindered) (space : s.rqu.queue.length < 32) :
    (s.submitInstr insertOne).flush.Unhindered ∧
      (s.submitInstr insertOne).flush.rqu.queue = placeTicket s.ticketOne s.rqu.queue ∧
      (s.submitInstr insertOne).flush.rqu.arrival = s.rqu.arrival + 1 := by
  have good : ¬ ((1 : Word).toNat = 0 ∨ s.prm.catalogSize < (1 : Word).toNat ∨ (0 : Word).toInt < -12 ∨
      12 < (0 : Word).toInt ∨ ((1 : Word).toNat ≠ 1 ∧ (1 : Word).toNat ≠ 2)) := by
    simp [State.prm, h.setup]
  generalize hu : (State.joinQueue s.ticketOne s).queueChanged s.rqu.queue.length = u
  have scu : u.scu = s.scu := by rw [← hu]; simp
  have taken : ∃ vs, s.takeInsert (1 : Word).toNat (0 : Word).toInt (1 : Word).toNat (wordOn 1) = ⟨u, .ok, vs⟩ := by
    unfold State.takeInsert
    rw [if_neg good, if_neg (by omega)]
    have still : u.stageTest = u := State.stageTest_starting (by rw [scu, h.starting])
    exact ⟨_, congrArg (fun v => Answer.mk v .ok _) ((congrArg State.stageTest hu).trans still)⟩
  obtain ⟨vs, taken⟩ := taken
  have decided : s.submitInstr insertOne = u.result 0x0B 0 .ok vs :=
    State.submit_answered (f := fun s => .answered (s.takeInsert _ _ _ _)) h.ready (by decide)
      (congrArg CommandEnd.answered taken)
  have unhindered : u.Unhindered := by
    refine h.of_core ?_ scu ?_ ?_ ?_ <;> rw [← hu]
    · rw [State.queueChanged_core]; rfl
    all_goals simp [h.kept]
  have lineup : (s.submitInstr insertOne).flush.lineup = u.lineup := by rw [State.flush_lineup, decided]; rfl
  have rqu : u.rqu = { (State.joinQueue s.ticketOne s).rqu with imageOwed := true } := by
    rw [← hu, State.queueChanged_rqu]
  refine ⟨by rw [decided]; exact unhindered.result.flush, ?_, ?_⟩
  · exact (congrArg Lineup.queue lineup).trans (congrArg Rqu.queue rqu)
  · exact (congrArg Lineup.arrival lineup).trans (congrArg Rqu.arrival rqu)

/-- REMOVE of the ticket that INSERT has put into a queue of one. -/
theorem State.Unhindered.removes {s : State} {p x : Ticket} (h : s.Unhindered) (hq : s.rqu.queue = placeTicket x [p])
    (source : x.source = .staff) (cls : x.cls = .priority) (new : x.number ≠ p.number) (small : x.number < 2 ^ 32) :
    (s.submitInstr (.remove 0 (BitVec.ofNat 32 x.number))).flush.Unhindered ∧
      (s.submitInstr (.remove 0 (BitVec.ofNat 32 x.number))).flush.rqu.queue = [p] ∧
      (s.submitInstr (.remove 0 (BitVec.ofNat 32 x.number))).flush.rqu.arrival = s.rqu.arrival := by
  have number : (BitVec.ofNat 32 x.number).toNat = x.number := by
    rw [BitVec.toNat_ofNat, Nat.mod_eq_of_lt small]
  have two : s.rqu.queue.length = 2 := by rw [hq, (placeTicket_perm x [p]).length_eq]; rfl
  have found : s.rqu.ticket x.number = some x := by
    unfold Rqu.ticket
    rw [hq]
    cases hb : x.before p <;> simp [placeTicket, hb, new.symm]
  have left : withoutTicket x s.rqu.queue = [p] := by
    rw [hq]
    cases hb : x.before p <;> simp [withoutTicket, placeTicket, hb, new.symm]
  generalize hu : s.departed x true = u
  have rqu : u.rqu = { s.rqu with queue := [p], imageOwed := true } := by
    rw [← hu, State.departed_rqu, if_neg (by simp [cls])]
    exact congrArg (fun q => { s.rqu with queue := q, imageOwed := true }) left
  have scu : u.scu = s.scu := by rw [← hu, State.departed_scu]
  have changed : u = State.queueChanged 2 { s with rqu := { s.rqu with queue := [p] } } := by
    rw [← hu, ← left, ← two]
    simp [State.departed, cls, withoutTicket]
  have unhindered : u.Unhindered := by
    refine h.of_core ?_ scu ?_ ?_ ?_ <;> rw [changed]
    · rw [State.queueChanged_core]
    all_goals simp [h.kept]
  have taken : s.takeRemove (BitVec.ofNat 32 x.number).toNat = ⟨u, .ok, []⟩ := by
    have still : u.stageTest = u := State.stageTest_starting (by rw [scu, h.starting])
    rw [number, State.takeRemove, found]
    simp only [source, State.replyToSource, State.depart_eq, two, hu]
    exact congrArg (fun v => Answer.mk v .ok []) still
  have decided : s.submitInstr (.remove 0 (BitVec.ofNat 32 x.number)) = u.result 0x0C 0 .ok [] :=
    State.submit_answered (f := fun s => .answered (s.takeRemove _)) h.ready (by decide)
      (congrArg CommandEnd.answered taken)
  have lineup : (s.submitInstr (.remove 0 (BitVec.ofNat 32 x.number))).flush.lineup = u.lineup := by
    rw [State.flush_lineup, decided]
    rfl
  refine ⟨by rw [decided]; exact unhindered.result.flush, ?_, ?_⟩
  · exact (congrArg Lineup.queue lineup).trans (congrArg Rqu.queue rqu)
  · exact (congrArg Lineup.arrival lineup).trans (show u.rqu.arrival = s.rqu.arrival by rw [rqu])

/-- REMOVE of the ticket that INSERT would bring. -/
def State.removeOne (s : State) : Instr := .remove 0 (BitVec.ofNat 32 s.ticketOne.number)

/-- The state after INSERT and REMOVE of one ticket. -/
def State.churned (s : State) : State := ((s.submitInstr insertOne).flush.submitInstr s.removeOne).flush

/-- INSERT and REMOVE of one ticket, `k` times over. -/
def churn : Nat → State → List Instr
  | 0, _ => []
  | k + 1, s => insertOne :: s.removeOne :: churn k s.churned

/-- Nothing hinders the first of the commands that wait. -/
theorem State.Unhindered.resumeHost_cons {s : State} (h : s.Unhindered) (c : Instr) (rest : List Instr) :
    State.resumeHost (c :: rest) s = State.resumeHost rest (s.submitInstr c).flush := by
  simp [State.resumeHost, Ptu.lineFull, h.intake]

/-- A queue of one ticket stands as it was after INSERT and REMOVE, one stamp later. -/
theorem State.Unhindered.churned {s : State} {p : Ticket} (h : s.Unhindered) (hq : s.rqu.queue = [p]) :
    s.churned.Unhindered ∧ s.churned.rqu.queue = [p] ∧ s.churned.rqu.arrival = s.rqu.arrival + 1 := by
  obtain ⟨inserted, queue, arrival⟩ := h.inserts (by simp [hq])
  obtain ⟨-, high, free⟩ := State.newNumber_free (s := s) (by simp [hq])
  have new : s.ticketOne.number ≠ p.number := by
    have unheld : s.ticketOne.number ∉ s.rqu.queue.map Ticket.number := ((s.numberHeld_false _).mp free).1
    simpa [hq] using unheld
  rw [hq] at queue
  obtain ⟨removed, queue', arrival'⟩ := inserted.removes queue rfl rfl new (Nat.lt_of_le_of_lt high (by decide))
  exact ⟨removed, queue', arrival'.trans arrival⟩

/-- INSERT and REMOVE over and over leave the queue as it was, as many stamps later. -/
theorem State.Unhindered.churn (k : Nat) : ∀ {s : State} {p : Ticket}, s.Unhindered → s.rqu.queue = [p] →
    ∃ u : State, u.Unhindered ∧ u.rqu.queue = [p] ∧ u.rqu.arrival = s.rqu.arrival + BitVec.ofNat 32 k ∧
      ∀ rest, State.resumeHost (Machine.churn k s ++ rest) s = State.resumeHost rest u := by
  induction k with
  | zero => exact fun {s p} h hq => ⟨s, h, hq, by simp, fun _ => rfl⟩
  | succ k ih =>
    intro s p h hq
    obtain ⟨inserted, -, -⟩ := h.inserts (by simp [hq])
    obtain ⟨churned, queue, arrival⟩ := h.churned hq
    obtain ⟨u, unhindered, queue', arrival', taken⟩ := ih churned queue
    refine ⟨u, unhindered, queue', ?_, fun rest => ?_⟩
    · rw [arrival', arrival, BitVec.ofNat_add]
      ac_rfl
    · rw [Machine.churn, List.cons_append, h.resumeHost_cons, List.cons_append, inserted.resumeHost_cons]
      exact taken rest

/-! ## The statement refuted -/

/-- A part in STARTING, set up, with an empty queue of tickets, whose Queue image client keeps a request. -/
def keptWaiting : State :=
  { scu := { state := .starting }
    ctl := { setup := some { catalogSize := 1 } }
    ptu := { kept := [⟨.queueImage, 0, 0, 0, .read 1⟩] } }

/-- The same with host commands waiting, at an arbiter decision. -/
def keptWaitingWith (l : List Instr) : State :=
  { keptWaiting with pending := [.arbiterDecision], ctl := { keptWaiting.ctl with waiting := l } }

theorem keptWaiting_unhindered : keptWaiting.Unhindered :=
  ⟨rfl, rfl, rfl, rfl, by simp [keptWaiting], rfl, rfl⟩

/-- The decision takes up every command that waits. -/
theorem step_keptWaiting (l : List Instr) :
    step (keptWaitingWith l) = .next (State.resumeHost l keptWaiting).playTaps := rfl

/-- INSERT, 2^32 - 1 times INSERT and REMOVE, and INSERT: the two tickets left share a stamp. -/
theorem churn_shares_stamp {k : Nat} (wraps : BitVec.ofNat 32 (k + 1) = 0) : ∃ l : List Instr, ∃ t : State,
    step (keptWaitingWith l) = .next t ∧ ¬ t.stampLaw := by
  obtain ⟨first, queue, arrival⟩ := keptWaiting_unhindered.inserts (by decide)
  generalize hs : (keptWaiting.submitInstr insertOne).flush = s at first queue arrival
  obtain ⟨u, unhindered, queue', arrival', taken⟩ := first.churn k (p := keptWaiting.ticketOne) queue
  obtain ⟨last, queue'', -⟩ := unhindered.inserts (by simp [queue'])
  have lane : (u.submitInstr insertOne).flush.playTaps = (u.submitInstr insertOne).flush :=
    State.playTaps_other fun t ht => by simp [last.taps] at ht
  refine ⟨insertOne :: (churn k s ++ [insertOne]), (u.submitInstr insertOne).flush, ?_, fun law => ?_⟩
  · rw [step_keptWaiting, keptWaiting_unhindered.resumeHost_cons, hs, taken, unhindered.resumeHost_cons]
    exact congrArg Host.Outcome.next lane
  · have apart : ((placeTicket u.ticketOne u.rqu.queue).map Ticket.arrival).Nodup := queue'' ▸ law.1
    rw [((placeTicket_perm _ _).map _).nodup_iff, queue'] at apart
    refine (List.nodup_cons.mp apart).1 (List.mem_singleton.mpr ?_)
    show u.rqu.arrival + 1 = keptWaiting.rqu.arrival + 1
    have back : BitVec.ofNat 32 k + 1 = 0 := (BitVec.ofNat_add k 1).symm.trans wraps
    rw [arrival', arrival, BitVec.add_assoc, back, add_zero]

/-- Refutes O56: with an empty queue the premise on the ages of the queued tickets is empty too, and one arbiter decision
takes 2^32 stamps. `step_stampLaw` is what holds: every step keeps the order while the stamps that it can take are fewer
than 2^31. -/
theorem not_queueOrderIsKept : ¬ Obligations.QueueOrderIsKept := by
  intro kept
  obtain ⟨l, t, e, broken⟩ := churn_shares_stamp (k := 4294967295) (by decide)
  refine broken (kept (keptWaitingWith l) t ?_ ?_ ?_ e)
  · simp [State.queueLaw, keptWaitingWith, keptWaiting]
  · simp [State.stampLaw, keptWaitingWith, keptWaiting]
  · simp [Rqu.stampsWithin, keptWaitingWith, keptWaiting]

end Sys2Proof.Machine
end

