-- ==== Sys2Proof/Proofs/StagingAndDepartures.lean ====
section
/-! Staging (R146, R148, R149), departures and the drain of the pending slots (R137, R138), and the checks of a REQUEST
(Table 8-5), each said in full. -/

namespace Sys2Proof.Machine

/-! ## A change of the queue reported (R146) -/

/-- The Control Unit apart from the event flags, NOTICE_N and the owed status rewrite. -/
def Ctl.quiet (c : Ctl) : Ctl := { c with flags := 0, noticeLow := false, statusOwed := false }

@[simp] theorem Ctl.raise_quiet (e : Event) (c : Ctl) : (c.raise e).quiet = c.quiet := by
  unfold Ctl.raise
  split
  · rfl
  · split <;> rfl

@[simp] theorem State.queueChanged_quiet (old : Nat) (s : State) : (s.queueChanged old).ctl.quiet = s.ctl.quiet := by
  unfold State.queueChanged
  dsimp only
  split <;> simp

/-- An event raised sets its flag where that is enabled (R184). -/
theorem Ctl.raise_flag_enabled (e : Event) (c : Ctl) {i : Nat} (hi : i < 14) :
    (c.raise e).flags.getLsbD i = (c.flags.getLsbD i || (c.enables.getLsbD i && i == e.bit)) := by
  rw [Ctl.raise_flag e c i hi]
  by_cases h : i = e.bit
  · rw [h, Bool.and_comm]
  · rw [beq_false_of_ne h, Bool.false_and, Bool.and_false]

/-- QUEUE_CHANGED is raised, and QUEUE_HIGH where the count has risen past 27. -/
theorem State.queueChanged_flags (old : Nat) (s : State) {i : Nat} (hi : i < 14) :
    (s.queueChanged old).ctl.flags.getLsbD i = (s.ctl.flags.getLsbD i || (s.ctl.enables.getLsbD i &&
      (i == 5 || (i == 6 && decide (old ≤ 27 ∧ 28 ≤ s.rqu.queue.length))))) := by
  have changed := Ctl.raise_flag_enabled .queueChanged s.ctl hi
  unfold State.queueChanged
  dsimp only
  split
  · next h =>
    have h : old ≤ 27 ∧ 28 ≤ s.rqu.queue.length := h
    have high := Ctl.raise_flag_enabled .queueHigh (s.ctl.raise .queueChanged) hi
    rw [changed, (Ctl.raise_fields .queueChanged s.ctl).1, Bool.or_assoc, ← Bool.and_or_distrib_left] at high
    simpa [h, Event.bit] using high
  · next h =>
    have h : ¬ (old ≤ 27 ∧ 28 ≤ s.rqu.queue.length) := h
    simpa [h, Event.bit] using changed

/-- A change reported touches the owed image and the event flags. -/
theorem State.queueChanged_eq (old : Nat) (s : State) : s.queueChanged old =
    { s with rqu := { s.rqu with imageOwed := true }, ctl := (s.queueChanged old).ctl } := by
  unfold State.queueChanged
  dsimp only
  split <;> rfl

/-! ## Replies (R151) -/

/-- A reply issued carries its handset's last sequence (R151). -/
theorem State.issueReply_lastReply (h : Fin 16) (b : ReplyBody) (s : State) :
    ((s.issueReply h b false).rqu.handsets.get h).lastReply =
      some ⟨h, (s.rqu.handsets.get h).lastSeq.getD Config.unheardSequence, b⟩ := by
  unfold State.issueReply State.placeReply
  dsimp only
  split <;> simp

/-! ## What the queue's operations keep of the room -/

/-- What staging, admission and departures keep: the room's state, the history, every handset's last sequence, the events
enabled, each flag set and an image owed. -/
structure State.KeepsRoom (s t : State) : Prop where
  closed : t.rqu.closed = s.rqu.closed
  history : t.rqu.history = s.rqu.history
  lastSeq : ∀ h, (t.rqu.handsets.get h).lastSeq = (s.rqu.handsets.get h).lastSeq
  enables : t.ctl.enables = s.ctl.enables
  flags : ∀ i < 14, s.ctl.flags.getLsbD i = true → t.ctl.flags.getLsbD i = true
  imageOwed : s.rqu.imageOwed = true → t.rqu.imageOwed = true

theorem State.KeepsRoom.refl (s : State) : s.KeepsRoom s := ⟨rfl, rfl, fun _ => rfl, rfl, fun _ _ => id, id⟩

theorem State.KeepsRoom.trans {s t u : State} (h : s.KeepsRoom t) (g : t.KeepsRoom u) : s.KeepsRoom u :=
  ⟨g.closed.trans h.closed, g.history.trans h.history, fun k => (g.lastSeq k).trans (h.lastSeq k),
    g.enables.trans h.enables, fun i hi f => g.flags i hi (h.flags i hi f), g.imageOwed ∘ h.imageOwed⟩

theorem State.queueChanged_keepsRoom (old : Nat) (s : State) : s.KeepsRoom (s.queueChanged old) := by
  have quiet := congrArg Ctl.enables (State.queueChanged_quiet old s)
  refine ⟨?_, ?_, fun k => ?_, quiet, fun i hi f => ?_, fun _ => ?_⟩
  · rw [State.queueChanged_rqu]
  · rw [State.queueChanged_rqu]
  · rw [State.queueChanged_rqu]
  · rw [State.queueChanged_flags old s hi, f, Bool.true_or]
  · rw [State.queueChanged_rqu]

theorem State.issueReply_keepsRoom (h : Fin 16) (b : ReplyBody) (s : State) : s.KeepsRoom (s.issueReply h b false) := by
  obtain ⟨others, -, lastSeq, -⟩ := State.issueReply_handsets h b s
  refine ⟨by simp, by simp, fun k => ?_, by simp, fun i _ f => by simpa using f, fun o => ?_⟩
  · by_cases e : h = k
    · rw [← e, lastSeq]
    · rw [others k e]
  · rw [State.issueReply_imageOwed, o]

theorem State.replyToSource_keepsRoom (src : Source) (b : ReplyBody) (s : State) :
    s.KeepsRoom (s.replyToSource src b) := by
  cases src with
  | handset h => exact State.issueReply_keepsRoom h b s
  | staff => exact .refl s

/-! ## Staging (R148, R149) -/

/-- The head of the queue staged, before its CALLED. -/
def State.headStaged (t : Ticket) (rest : List Ticket) (s : State) : State :=
  let q := { t with cls := .staged, round := 0 } :: reorder (lowerRounds t rest)
  let s := (State.queueChanged q.length { s with rqu := { s.rqu with queue := q } }).raise .ticketStaged
  { s with ctl := { s.ctl with staged := some (s.stagedCopyOf t) } }

theorem State.stageTest_staged {s : State} {t : Ticket} {rest : List Ticket} (hq : s.rqu.queue = t :: rest)
    (hs : s.stagingHolds = true) :
    s.stageTest = (s.headStaged t rest).replyToSource t.source (.called t.number t.song) := by
  simp only [State.stageTest, hq, hs, if_true, State.headStaged]

theorem State.headStaged_eq (t : Ticket) (rest : List Ticket) (s : State) : s.headStaged t rest = { s with
    rqu := { s.rqu with
      queue := { t with cls := .staged, round := 0 } :: reorder (lowerRounds t rest), imageOwed := true }
    ctl := (s.headStaged t rest).ctl } := by
  unfold State.headStaged
  dsimp only
  rw [State.queueChanged_eq]
  rfl

theorem State.headStaged_staged (t : Ticket) (rest : List Ticket) (s : State) :
    (s.headStaged t rest).ctl.staged = some (s.stagedCopyOf t) := by
  simp [State.headStaged, State.stagedCopyOf]

theorem State.headStaged_enables (t : Ticket) (rest : List Ticket) (s : State) :
    (s.headStaged t rest).ctl.enables = s.ctl.enables := by
  refine (Ctl.raise_fields .ticketStaged _).1.trans ?_
  exact (State.queueChanged_keepsRoom _ _).enables

/-- TICKET_STAGED and QUEUE_CHANGED are raised (R149). -/
theorem State.headStaged_flags (t : Ticket) (rest : List Ticket) (s : State) {i : Nat} (hi : i < 14) :
    (s.headStaged t rest).ctl.flags.getLsbD i =
      (s.ctl.flags.getLsbD i || (s.ctl.enables.getLsbD i && (i == 1 || i == 5))) := by
  generalize hq : { t with cls := .staged, round := 0 } :: reorder (lowerRounds t rest) = q
  generalize hv : State.queueChanged q.length { s with rqu := { s.rqu with queue := q } } = v
  have changed : v.ctl.flags.getLsbD i = (s.ctl.flags.getLsbD i || (s.ctl.enables.getLsbD i && i == 5)) := by
    have level : ¬ (q.length ≤ 27 ∧ 28 ≤ q.length) := by omega
    have flags := State.queueChanged_flags q.length { s with rqu := { s.rqu with queue := q } } hi
    rw [hv] at flags
    simpa only [level, decide_false, Bool.and_false, Bool.or_false] using flags
  have enables : v.ctl.enables = s.ctl.enables := by
    rw [← hv]
    exact (State.queueChanged_keepsRoom _ _).enables
  have head : (s.headStaged t rest).ctl.flags = (v.ctl.raise .ticketStaged).flags := by
    rw [← hv, ← hq]
    rfl
  rw [head, Ctl.raise_flag_enabled .ticketStaged v.ctl hi, changed, enables, Bool.or_assoc, ← Bool.and_or_distrib_left,
    Bool.or_comm (i == 1)]
  rfl

/-- The hint names the other bank (R149). -/
theorem otherBank_ne (b : Fin 2) : otherBank b ≠ b := by
  revert b
  decide

/-- When the head is to be staged (R148). -/
theorem State.stagingHolds_iff {s : State} (hq : s.rqu.queue ≠ []) : s.stagingHolds = true ↔
    (∀ x ∈ s.rqu.queue, x.cls ≠ .staged) ∧ (s.scu.state = .idle ∨ s.scu.state = .finishing ∨
      ((s.scu.state = .playing ∨ s.scu.state = .seeking) ∧ s.scu.length ≤ s.songMs + s.prm.stageLeadMs)) := by
  have none : s.rqu.stagedTicket.isNone = true ↔ ∀ x ∈ s.rqu.queue, x.cls ≠ .staged := by
    simp [Rqu.stagedTicket]
  have some_ : s.rqu.queue.isEmpty = false := by simpa using hq
  simp only [State.stagingHolds, Bool.and_eq_true, none, some_, Bool.not_false, and_true]
  refine and_congr_right fun _ => ?_
  cases s.scu.state <;> simp

theorem State.stageTest_keepsRoom (s : State) : s.KeepsRoom s.stageTest := by
  by_cases hs : s.stagingHolds = true
  · obtain ⟨t, rest, hq⟩ := State.stagingHolds_head hs
    rw [State.stageTest_staged hq hs]
    refine State.KeepsRoom.trans ⟨?_, ?_, fun k => ?_, ?_, fun i hi f => ?_, fun _ => ?_⟩
      (State.replyToSource_keepsRoom _ _ _)
    · rw [State.headStaged_eq]
    · rw [State.headStaged_eq]
    · rw [State.headStaged_eq]
    · exact State.headStaged_enables t rest s
    · rw [State.headStaged_flags t rest s hi, f, Bool.true_or]
    · rw [State.headStaged_eq]
  · rw [State.stageTest_unstaged (by simpa using hs)]
    exact .refl s

/-- The staging test leaves the number and the stamp last taken. -/
theorem State.stageTest_last (s : State) :
    (s.stageTest).rqu.lastNumber = s.rqu.lastNumber ∧ (s.stageTest).rqu.arrival = s.rqu.arrival := by
  refine ⟨s.stageTest_keeps.lastNumber, ?_⟩
  by_cases hs : s.stagingHolds = true
  · obtain ⟨t, rest, hq⟩ := State.stagingHolds_head hs
    rw [State.stageTest_staged hq hs]
    have lineup := State.replyToSource_lineup t.source (.called t.number t.song) (s.headStaged t rest)
    exact (congrArg Lineup.arrival lineup).trans (by rw [State.headStaged_eq]; rfl)
  · rw [State.stageTest_unstaged (by simpa using hs)]

/-- Settles O19. -/
theorem stagingTakesTheHead : Obligations.StagingTakesTheHead := by
  intro s u due
  refine ⟨fun hq => ?_, fun hd => ?_, fun t rest hq hd => ?_⟩
  · show s.stageTest = s
    simp only [State.stageTest, hq]
  · refine State.stageTest_unstaged ?_
    by_cases hq : s.rqu.queue = []
    · simp [State.stagingHolds, hq]
    · exact Bool.eq_false_iff.mpr fun hs => hd ((State.stagingHolds_iff hq).mp hs)
  · have hs := (State.stagingHolds_iff (by simp [hq])).mpr hd
    have staged : u = (s.headStaged t rest).replyToSource t.source (.called t.number t.song) :=
      State.stageTest_staged hq hs
    have keeps := State.stageTest_keepsRoom s
    have ctl : u.ctl = (s.headStaged t rest).ctl := by rw [staged]; simp
    obtain ⟨pending, scu, lsq, ovc, gxt, vin, pje, scr, links⟩ := State.stageTest_frame s
    obtain ⟨number, arrival⟩ := s.stageTest_last
    refine ⟨⟨_, (State.stageTest_stages hq hs).2, ?_⟩, ⟨otherBank s.scu.bank, otherBank_ne _, ?_⟩, fun i hi => ?_, ?_,
      fun hsrc => ?_, fun h hsrc => ⟨?_, fun j hj => ?_⟩, keeps.history, keeps.closed, number, arrival, scu, lsq, ovc, gxt,
      vin, pje, scr, pending, links⟩
    · exact (reorder_perm _).trans (.of_eq (lowerRounds_eq t rest))
    · rw [ctl, State.headStaged_staged]
      rfl
    · rw [ctl, State.headStaged_flags t rest s hi]
    · rw [staged]
      exact (State.replyToSource_keepsRoom _ _ _).imageOwed (by rw [State.headStaged_eq])
    · rw [staged, hsrc, State.headStaged_eq]
      exact ⟨rfl, rfl⟩
    · rw [staged, hsrc]
      exact (State.issueReply_handsets h _ _).2.2.2
    · rw [staged, hsrc]
      refine ((State.issueReply_handsets h _ _).1 j (Ne.symm hj)).trans ?_
      rw [State.headStaged_eq]

end Sys2Proof.Machine
end

