-- ==== Sys2Proof/Proofs/Admissions.lean ====
section
/-! The admission of a ticket (R131, R132, R146), which INSERT (R141), a REQUEST and a drained slot share: the new ticket,
the queue it joins, and what is answered. -/

namespace Sys2Proof.Machine

/-! ## The new ticket -/

/-- A source's NORMAL tickets counted (R133). -/
theorem normalCount_countP (src : Source) (q : List Ticket) :
    normalCount src q = q.countP (fun u => decide (u.source = src ∧ u.cls = .normal)) := by
  simp only [normalCount, List.countP_eq_length_filter, beq_eq_decide, Bool.decide_and]

/-- The fields of a new ticket. -/
theorem State.newTicket_eq (src : Source) (song : Nat) (key : Int) (singers : Nat) (cls : TicketClass) (s : State) :
    s.newTicket src song key singers cls =
      { number := s.newNumber, source := src, song := song, key := key, singers := singers, cls := cls
        round := if cls = .normal then
          1 + s.rqu.queue.countP (fun u => decide (u.source = src ∧ u.cls = .normal)) else 0
        arrival := s.rqu.arrival + 1 } := by
  rw [State.newTicket, normalCount_countP, Nat.add_comm]

/-- A new ticket's number is none that a queued ticket holds (R131). -/
theorem State.newNumber_unqueued {s : State} (hl : s.rqu.queue.length ≤ 32) :
    ∀ x ∈ s.rqu.queue, x.number ≠ s.newNumber := by
  intro x hx e
  obtain ⟨-, -, free⟩ := State.newNumber_free hl
  exact ((State.numberHeld_false s s.newNumber).mp free).1 (e ▸ List.mem_map_of_mem hx)

/-! ## The queue joined -/

theorem State.joinQueue_keepsRoom (t : Ticket) (s : State) : s.KeepsRoom (s.joinQueue t) :=
  ⟨rfl, rfl, fun _ => rfl, rfl, fun _ _ => id, id⟩

/-- A ticket put into a queue raises QUEUE_CHANGED, and QUEUE_HIGH where it is the 28th (R146). -/
theorem State.queueChanged_joined_flags {w : State} {old : Nat} (joined : w.rqu.queue.length = old + 1) {i : Nat}
    (hi : i < 14) : (w.queueChanged old).ctl.flags.getLsbD i =
      (w.ctl.flags.getLsbD i || (w.ctl.enables.getLsbD i && (i == 5 || (i == 6 && old == 27)))) := by
  have reached : decide (old ≤ 27 ∧ 28 ≤ w.rqu.queue.length) = (old == 27) := by
    rw [beq_eq_decide, decide_eq_decide]
    omega
  rw [State.queueChanged_flags old w hi, reached]

theorem placeTicket_length (t : Ticket) (q : List Ticket) : (placeTicket t q).length = q.length + 1 :=
  (placeTicket_perm t q).length_eq

/-- The admission of a ticket, before the staging test. -/
def State.admitted (t : Ticket) (s : State) : State := (s.joinQueue t).queueChanged s.rqu.queue.length

theorem State.admitted_eq (t : Ticket) (s : State) : s.admitted t = { s with
    rqu := { s.rqu with
      queue := placeTicket t s.rqu.queue, lastNumber := t.number, arrival := t.arrival, imageOwed := true }
    ctl := (s.admitted t).ctl } := by
  unfold State.admitted
  rw [State.queueChanged_eq]
  rfl

theorem State.admitted_keepsRoom (t : Ticket) (s : State) : s.KeepsRoom (s.admitted t) :=
  (State.joinQueue_keepsRoom t s).trans (State.queueChanged_keepsRoom _ _)

theorem State.admitted_flags (t : Ticket) (s : State) {i : Nat} (hi : i < 14) :
    (s.admitted t).ctl.flags.getLsbD i = (s.ctl.flags.getLsbD i ||
      (s.ctl.enables.getLsbD i && (i == 5 || (i == 6 && s.rqu.queue.length == 27)))) :=
  State.queueChanged_joined_flags (w := s.joinQueue t) (placeTicket_length t s.rqu.queue) hi

/-! ## The tickets after the staging test -/

/-- A ticket apart from its class and round, which staging changes. -/
def Ticket.body (t : Ticket) : Ticket := { t with cls := .normal, round := 0 }

theorem Ticket.lowered_body (t u : Ticket) : (t.lowered u).body = u.body := by
  unfold Ticket.lowered
  split <;> rfl

/-- The staging test changes the tickets in class and round only. -/
theorem State.stageTest_bodies (s : State) :
    ((s.stageTest).rqu.queue.map Ticket.body).Perm (s.rqu.queue.map Ticket.body) := by
  by_cases hs : s.stagingHolds = true
  · obtain ⟨t, rest, hq⟩ := State.stagingHolds_head hs
    have lowered : (rest.map t.lowered).map Ticket.body = rest.map Ticket.body := by
      rw [List.map_map]
      exact List.map_congr_left fun u _ => Ticket.lowered_body t u
    rw [(State.stageTest_stages hq hs).2, hq, List.map_cons, List.map_cons, ← lowered, ← lowerRounds_eq]
    exact .cons _ ((reorder_perm _).map _)
  · rw [State.stageTest_unstaged (by simpa using hs)]

/-- Each ticket of a queue tested for staging is one of the queue before, apart from class and round. -/
theorem State.stageTest_mem {s : State} {t : Ticket} (ht : t ∈ s.rqu.queue) :
    ∃ x ∈ (s.stageTest).rqu.queue, x.number = t.number ∧ x.source = t.source ∧ x.song = t.song ∧ x.key = t.key ∧
      x.singers = t.singers ∧ x.arrival = t.arrival := by
  have bodies := (State.stageTest_bodies s).mem_iff.mpr (List.mem_map_of_mem ht)
  obtain ⟨x, hx, e⟩ := List.mem_map.mp bodies
  simp only [Ticket.body, Ticket.mk.injEq, true_and] at e
  obtain ⟨number, source, song, key, singers, arrival⟩ := e
  exact ⟨x, hx, number, source, song, key, singers, arrival⟩

/-! ## INSERT (R141) -/

theorem State.takeInsert_admits {song : Nat} {key : Int} {singers : Nat} {priority : Bool} {s : State}
    (good : ¬ (song = 0 ∨ s.prm.catalogSize < song ∨ key < -12 ∨ 12 < key ∨ (singers ≠ 1 ∧ singers ≠ 2)))
    (room : s.rqu.queue.length < 32) {t : Ticket}
    (ht : s.newTicket .staff song key singers (if priority then .priority else .normal) = t) :
    s.takeInsert song key singers priority = ⟨(s.admitted t).stageTest, .ok,
      [BitVec.ofNat 32 t.number, BitVec.ofNat 32 ((s.rqu.queue.takeWhile (fun x => !t.before x)).length + 1)]⟩ := by
  have unqueued : ∀ x ∈ s.rqu.queue, x.number ≠ t.number := ht ▸ State.newNumber_unqueued (by omega)
  rw [← positionOf_placeTicket unqueued, State.takeInsert, if_neg good, if_neg (by omega), ht]
  rfl

/-- Settles O16. -/
theorem insertAdmitsAStaffTicket : Obligations.InsertAdmitsAStaffTicket := by
  refine ⟨fun s hl hn => ?_, fun tag song key singers prio s hs => ?_⟩
  · obtain ⟨k, found, free, before⟩ := State.newNumber_first hl hn
    obtain ⟨low, high⟩ := probe_range s.rqu.lastNumber k
    exact ⟨k, found, free, found ▸ low, found ▸ high, before⟩
  · intro bad t
    have decided : exec (.insert tag song key singers prio) s = _ :=
      exec_answered (f := fun s => .answered (s.takeInsert song.toNat key.toInt singers.toNat (wordOn prio))) hs rfl rfl rfl
    refine ⟨fun hb => ?_, fun hb full => ?_, fun hb room hn => ?_⟩
    · rw [State.takeInsert, if_pos hb] at decided
      exact decided
    · rw [State.takeInsert, if_neg hb, if_pos full] at decided
      exact decided
    · have cls : (if wordOn prio = true then TicketClass.priority else .normal) =
          if prio = 0 then .normal else .priority := by
        by_cases zero : prio = 0 <;> simp [zero, wordOn]
      have round : ((if prio = 0 then TicketClass.normal else .priority) = .normal) ↔ prio = 0 := by
        by_cases zero : prio = 0 <;> simp [zero]
      have new : s.newTicket .staff song.toNat key.toInt singers.toNat
          (if wordOn prio = true then .priority else .normal) = t := by
        rw [cls, State.newTicket_eq]
        simp only [round, t]
      rw [State.takeInsert_admits hb room new] at decided
      have admitted := State.admitted_eq t s
      have keeps := (State.admitted_keepsRoom t s).trans (State.stageTest_keepsRoom _)
      obtain ⟨number, arrival⟩ := (s.admitted t).stageTest_last
      have frame := State.takeInsert_frame song.toNat key.toInt singers.toNat (wordOn prio) s
      rw [State.takeInsert_admits hb room new] at frame
      obtain ⟨pending, scu, lsq, ovc, gxt, vin, pje, scr, links⟩ := frame
      have placed : (s.admitted t).rqu.queue = placeTicket t s.rqu.queue := by rw [admitted]
      have queued : t ∈ (s.admitted t).rqu.queue := placed ▸ (placeTicket_perm t _).mem_iff.mpr List.mem_cons_self
      refine ⟨(s.admitted t).stageTest, decided, (State.stageTest_numbers _).trans ?_, State.stageTest_mem queued,
        number.trans (by rw [admitted]), arrival.trans (by rw [admitted]),
        (State.stageTest_keepsRoom _).imageOwed (by rw [admitted]), keeps.history, keeps.closed,
        ⟨s.admitted t, rfl, by rw [admitted], by rw [admitted], State.stageTest_unstaged,
          State.queueChanged_quiet _ (s.joinQueue t), fun i hi => State.admitted_flags t s hi⟩,
        scu, lsq, ovc, gxt, vin, pje, scr, pending, links⟩
      rw [placed]
      exact (placeTicket_perm t _).map Ticket.number

end Sys2Proof.Machine
end

