-- ==== Sys2Proof/Proofs/Departures.lean ====
section
/-! A ticket's departure (R137, R138): the queue it leaves, the drain of the pending slots by the checks of Table 8-5, and
REMOVE (R142). -/

namespace Sys2Proof.Machine

/-! ## The queue a departure leaves -/

/-- A departure apart from the event that withdraws a staged copy. -/
def State.left (t : Ticket) (s : State) : State :=
  State.queueChanged s.rqu.queue.length { s with rqu := { s.rqu with queue := queueLeft t s.rqu.queue } }

theorem State.departed_eq (t : Ticket) (w : Bool) (s : State) : s.departed t w =
    if t.cls = .staged then
      if w then State.raise .stageWithdrawn { s.left t with ctl := { (s.left t).ctl with staged := none } }
      else { s.left t with ctl := { (s.left t).ctl with staged := none } }
    else s.left t := rfl

theorem queueLeft_length_le (t : Ticket) (q : List Ticket) : (queueLeft t q).length ≤ q.length := by
  rw [(queueLeft_perm t q).length_eq, lowerRounds_length]
  exact (withoutTicket_sublist t q).length_le

/-- A departure raises QUEUE_CHANGED and never QUEUE_HIGH: the count does not rise (R146). -/
theorem State.left_flags (t : Ticket) (s : State) {i : Nat} (hi : i < 14) :
    (s.left t).ctl.flags.getLsbD i = (s.ctl.flags.getLsbD i || (s.ctl.enables.getLsbD i && i == 5)) := by
  have shrunk := queueLeft_length_le t s.rqu.queue
  have level : decide (s.rqu.queue.length ≤ 27 ∧ 28 ≤ (queueLeft t s.rqu.queue).length) = false :=
    decide_eq_false (by omega)
  refine (State.queueChanged_flags _ _ hi).trans ?_
  simp only [level, Bool.and_false, Bool.or_false]

theorem State.left_keepsRoom (t : Ticket) (s : State) : s.KeepsRoom (s.left t) :=
  .trans (t := { s with rqu := { s.rqu with queue := queueLeft t s.rqu.queue } })
    ⟨rfl, rfl, fun _ => rfl, rfl, fun _ _ => id, id⟩ (State.queueChanged_keepsRoom _ _)

theorem State.left_eq (t : Ticket) (s : State) : s.left t = { s with
    rqu := { s.rqu with queue := queueLeft t s.rqu.queue, imageOwed := true }, ctl := (s.left t).ctl } := by
  unfold State.left
  rw [State.queueChanged_eq]

theorem State.left_staged (t : Ticket) (s : State) : (s.left t).ctl.staged = s.ctl.staged := by
  have quiet := congrArg Ctl.staged
    (State.queueChanged_quiet s.rqu.queue.length { s with rqu := { s.rqu with queue := queueLeft t s.rqu.queue } })
  exact quiet

/-- What a departure raises: QUEUE_CHANGED, and STAGE_WITHDRAWN where it withdraws a staged copy (R149). -/
theorem State.departed_flags (t : Ticket) (w : Bool) (s : State) {i : Nat} (hi : i < 14) :
    (s.departed t w).ctl.flags.getLsbD i = (s.ctl.flags.getLsbD i ||
      (s.ctl.enables.getLsbD i && (i == 5 || (i == 2 && t.cls == .staged && w)))) := by
  have left := State.left_flags t s hi
  have enables := (State.left_keepsRoom t s).enables
  rw [State.departed_eq]
  split
  · next staged =>
    cases w
    · simpa [staged] using left
    · refine (Ctl.raise_flag_enabled .stageWithdrawn _ hi).trans ?_
      simp only [left, enables, staged, Bool.or_assoc, ← Bool.and_or_distrib_left, Bool.and_true, beq_self_eq_true]
      rfl
  · next other =>
    have event : (t.cls == .staged) = false := beq_false_of_ne other
    simpa only [event, Bool.and_false, Bool.false_and, Bool.or_false] using left

theorem State.departed_staged (t : Ticket) (w : Bool) (s : State) :
    (s.departed t w).ctl.staged = if t.cls = .staged then none else s.ctl.staged := by
  rw [State.departed_eq]
  split
  · split
    · exact congrArg Ctl.staged (Ctl.raise_quiet .stageWithdrawn _)
    · rfl
  · exact State.left_staged t s

/-- A departure touches the queue, the owed image, the staged copy and the event flags. -/
theorem State.departed_same (t : Ticket) (w : Bool) (s : State) :
    s.departed t w = { s with rqu := (s.departed t w).rqu, ctl := (s.departed t w).ctl } := by
  rw [State.departed_eq, State.left_eq]
  split
  · split <;> rfl
  · rfl

theorem State.departed_keepsRoom (t : Ticket) (w : Bool) (s : State) : s.KeepsRoom (s.departed t w) := by
  have enables : (s.departed t w).ctl.enables = s.ctl.enables := by
    rw [State.departed_eq]
    split
    · split
      · exact (Ctl.raise_fields .stageWithdrawn _).1.trans (State.left_keepsRoom t s).enables
      · exact (State.left_keepsRoom t s).enables
    · exact (State.left_keepsRoom t s).enables
  refine ⟨?_, ?_, fun k => ?_, enables, fun i hi f => ?_, fun _ => ?_⟩
  · rw [State.departed_rqu]
  · rw [State.departed_rqu]
  · rw [State.departed_rqu]
  · rw [State.departed_flags t w s hi, f, Bool.true_or]
  · rw [State.departed_rqu]

/-- A departure takes the ticket's number out of the queue. -/
theorem State.departed_numbers (t : Ticket) (w : Bool) (s : State) :
    ((s.departed t w).rqu.queue.map Ticket.number).Perm
      ((s.rqu.queue.map Ticket.number).filter (fun m => m != t.number)) := by
  have left := (queueLeft_perm t s.rqu.queue).map Ticket.number
  rw [lowerRounds_numbers] at left
  rw [State.departed_rqu, List.filter_map]
  exact left

/-! ## The checks of a REQUEST (Table 8-5) -/

/-- Table 8-5 read down: the first row that applies. -/
theorem State.checkRequest_eq (h : Fin 16) (song : Nat) (s : State) : s.checkRequest h song =
    if s.rqu.closed = true then .refuse .closed
    else if song = 0 ∨ s.prm.catalogSize < song then .refuse .unknownSong
    else if s.prm.recentBlock = true ∧ ∃ e ∈ s.rqu.history, e.song = song then .refuse .recent
    else if s.prm.dupBlock = true ∧ ∃ t ∈ s.rqu.queue, t.song = song then .refuse .duplicate
    else if s.prm.limit ≤ s.rqu.queue.countP (fun t => decide (t.source = .handset h)) then .refuse .limit
    else if 32 ≤ s.rqu.queue.length then .full else .accept := by
  have waiting : waitingCount h s.rqu.queue = s.rqu.queue.countP (fun t => decide (t.source = .handset h)) := by
    simp only [waitingCount, List.countP_eq_length_filter, beq_eq_decide]
  simp only [State.checkRequest, waiting, Bool.and_eq_true, List.any_eq_true, beq_iff_eq]

/-- The checks read the room's state, the history, the queue and the parameters. -/
theorem State.checkRequest_congr {s t : State} (closed : t.rqu.closed = s.rqu.closed)
    (history : t.rqu.history = s.rqu.history) (queue : t.rqu.queue = s.rqu.queue) (ctl : t.ctl = s.ctl) (h : Fin 16)
    (song : Nat) : t.checkRequest h song = s.checkRequest h song := by
  have prm : t.prm = s.prm := by rw [State.prm, State.prm, ctl]
  rw [State.checkRequest, closed, history, queue, prm]
  rfl

/-- With room in the queue a REQUEST is not held. -/
theorem State.checkRequest_room {s : State} {h : Fin 16} {song : Nat} (room : s.rqu.queue.length < 32) :
    s.checkRequest h song ≠ .full := by
  rw [State.checkRequest_eq]
  repeat' split
  all_goals first
    | omega
    | simp

/-! ## An admitted REQUEST (R135) -/

/-- The ticket a REQUEST brings joined and answered, before its change is reported. -/
def State.answered (h : Fin 16) (t : Ticket) (s : State) : State :=
  (s.joinQueue t).issueReply h (.accepted t.number (positionOf t.number (placeTicket t s.rqu.queue))) false

theorem State.acceptRequest_eq {h : Fin 16} {song : Nat} {key : Int} {singers : Nat} {s : State} {t : Ticket}
    (ht : s.newTicket (.handset h) song key singers .normal = t) :
    s.acceptRequest h song key singers = ((s.answered h t).queueChanged s.rqu.queue.length).stageTest := by
  rw [← ht]
  rfl

theorem State.answered_keepsRoom (h : Fin 16) (t : Ticket) (s : State) : s.KeepsRoom (s.answered h t) :=
  (State.joinQueue_keepsRoom t s).trans (State.issueReply_keepsRoom h _ _)

theorem State.acceptRequest_keepsRoom (h : Fin 16) (song : Nat) (key : Int) (singers : Nat) (s : State) :
    s.KeepsRoom (s.acceptRequest h song key singers) := by
  rw [State.acceptRequest_eq rfl]
  exact (State.answered_keepsRoom h _ s).trans
    ((State.queueChanged_keepsRoom _ _).trans (State.stageTest_keepsRoom _))

/-- An admission leaves the pending slots. -/
theorem State.acceptRequest_slots (h : Fin 16) (song : Nat) (key : Int) (singers : Nat) (s : State) (k : Fin 16) :
    ((s.acceptRequest h song key singers).rqu.handsets.get k).slot = (s.rqu.handsets.get k).slot := by
  rw [State.acceptRequest_eq rfl, (State.stageTest_keeps _).slots, State.queueChanged_rqu]
  exact (State.replyToSource_keeps (.handset h) _ (s.joinQueue _)).1.slots k

/-! ## The drain (R138) -/

/-- The handsets visited stand in number order from the one after the last drained. -/
theorem drainOrder_get (last : Option (Fin 16)) {i : Nat} (hi : i < 16) : ((drainOrder last).getD i 0).val =
    match last with
    | none => i
    | some l => (l.val + 1 + i) % 16 := by
  cases last with
  | none => simp [drainOrder, hi]
  | some l => simp [drainOrder, hi, Fin.val_add]

/-- A pending slot taken out to be drained. -/
def State.slotTaken (h : Fin 16) (s : State) : State :=
  { s.setSlot h none with rqu := { (s.setSlot h none).rqu with lastDrained := some h } }

theorem State.drainVisit_taken {s : State} {h : Fin 16} {r : HeldRequest} (held : (s.rqu.handsets.get h).slot = some r)
    (room : s.rqu.queue.length < 32) : s.drainVisit h =
      match s.checkRequest h r.song with
      | .refuse why => (s.slotTaken h).issueReply h (.refused why) false
      | .full => s.slotTaken h
      | .accept => (s.slotTaken h).acceptRequest h r.song r.key r.singers := by
  simp only [State.drainVisit, held]
  rw [if_pos room]
  rfl

theorem State.drainVisit_still {s : State} {h : Fin 16}
    (still : (s.rqu.handsets.get h).slot = none ∨ 32 ≤ s.rqu.queue.length) : s.drainVisit h = s := by
  unfold State.drainVisit
  split
  · rfl
  · next r held => exact if_neg fun room => still.elim (fun none => by simp [none] at held) (by omega)

theorem State.slotTaken_keepsRoom (h : Fin 16) (s : State) : s.KeepsRoom (s.slotTaken h) := by
  refine ⟨rfl, rfl, fun k => ?_, rfl, fun _ _ => id, fun _ => rfl⟩
  show ((vset s.rqu.handsets h _).get k).lastSeq = _
  rw [vset_get]
  split
  · next e => rw [← e]
  · rfl

/-- A visit that drains a slot keeps the room and leaves the slot empty. -/
theorem State.drainVisit_drained {s : State} {h : Fin 16} {r : HeldRequest}
    (held : (s.rqu.handsets.get h).slot = some r) (room : s.rqu.queue.length < 32) :
    s.KeepsRoom (s.drainVisit h) ∧ ((s.drainVisit h).rqu.handsets.get h).slot = none := by
  have taken := State.slotTaken_keepsRoom h s
  have empty : ((s.slotTaken h).rqu.handsets.get h).slot = none := by simp [State.slotTaken, State.setSlot]
  rw [State.drainVisit_taken held room]
  split
  · next why _ =>
    exact ⟨taken.trans (State.issueReply_keepsRoom h _ _), (State.issueReply_handsets h _ _).2.1.trans empty⟩
  · exact ⟨taken, empty⟩
  · exact ⟨taken.trans (State.acceptRequest_keepsRoom h _ _ _ _), (State.acceptRequest_slots h _ _ _ _ h).trans empty⟩

theorem State.drainVisit_keepsRoom (h : Fin 16) (s : State) : s.KeepsRoom (s.drainVisit h) := by
  by_cases still : (s.rqu.handsets.get h).slot = none ∨ 32 ≤ s.rqu.queue.length
  · rw [State.drainVisit_still still]
    exact .refl s
  · rw [not_or] at still
    obtain ⟨r, held⟩ := Option.ne_none_iff_exists'.mp still.1
    exact (State.drainVisit_drained held (by omega)).1

theorem State.drainSlots_keepsRoom (s : State) : s.KeepsRoom s.drainSlots := by
  unfold State.drainSlots
  generalize drainOrder s.rqu.lastDrained = l
  induction l generalizing s with
  | nil => exact .refl s
  | cons h rest ih => exact (State.drainVisit_keepsRoom h s).trans (ih _)

/-- Settles O20. -/
theorem departuresDrainTheSlots : Obligations.DeparturesDrainTheSlots := by
  refine ⟨fun s t w _ => ?_, fun s => ?_, fun s h => ⟨State.drainVisit_still, fun r held room => ?_⟩,
    fun s h song => State.checkRequest_eq h song s⟩
  · have rqu := State.departed_rqu t w s
    have staged := State.departed_staged t w s
    exact ⟨s.departed t w, State.depart_eq t w s, State.departed_numbers t w s,
      fun other => by rw [rqu, if_neg other], by rw [rqu], by rw [rqu], fun own => by rw [staged, if_pos own],
      fun other => by rw [staged, if_neg other], fun i hi => State.departed_flags t w s hi, State.departed_same t w s⟩
  · exact ⟨drainOrder s.rqu.lastDrained, rfl, by simp [drainOrder], fun i hi => drainOrder_get s.rqu.lastDrained hi⟩
  · have visit := State.drainVisit_taken held room
    obtain ⟨keeps, empty⟩ := State.drainVisit_drained held room
    exact ⟨fun why refused => by rw [visit, refused]; rfl, fun accepted => by rw [visit, accepted]; rfl,
      State.checkRequest_room room, empty, keeps.lastSeq h⟩

/-! ## REMOVE (R142) -/

/-- With room in the queue a departure is the ticket's leaving and the staging test. -/
theorem State.depart_room {s : State} {t : Ticket} {w : Bool} (room : s.rqu.queue.length < 32) :
    s.depart t w = (s.departed t w).stageTest := by
  rw [State.depart_eq, if_neg (by omega)]

theorem State.depart_keepsRoom (t : Ticket) (w : Bool) (s : State) :
    (s.departed t w).KeepsRoom (s.depart t w) := by
  rw [State.depart_eq]
  refine .trans ?_ (State.stageTest_keepsRoom _)
  split
  · exact State.drainSlots_keepsRoom _
  · exact .refl _

/-- The withdrawal of a STAGED ticket is raised (R149). -/
theorem State.depart_withdrawn {s : State} {t : Ticket} (staged : t.cls = .staged)
    (enabled : s.ctl.enables.getLsbD 2 = true) : (s.depart t true).ctl.flags.getLsbD 2 = true := by
  refine (State.depart_keepsRoom t true s).flags 2 (by omega) ?_
  rw [State.departed_flags t true s (by omega), enabled, staged]
  simp

/-- Beside another STAGED ticket a departure stages none. -/
theorem State.depart_beside {s : State} {t : Ticket} {w : Bool} (room : s.rqu.queue.length < 32)
    (other : ∃ x ∈ s.rqu.queue, x.cls = .staged ∧ x.number ≠ t.number) : s.depart t w = s.departed t w := by
  obtain ⟨x, hx, staged, ne⟩ := other
  have stays : x ∈ withoutTicket t s.rqu.queue := List.mem_filter.mpr ⟨hx, bne_iff_ne.mpr ne⟩
  have kept : x ∈ (s.departed t w).rqu.queue := by
    rw [State.departed_rqu]
    refine (queueLeft_perm t s.rqu.queue).mem_iff.mpr ?_
    rw [lowerRounds_eq]
    exact List.mem_map.mpr ⟨x, stays, Ticket.lowered_other (by simp [staged])⟩
  rw [State.depart_room room]
  obtain ⟨y, hy⟩ := Option.isSome_iff_exists.mp
    (List.find?_isSome.mpr ⟨x, kept, by simp [staged]⟩ : (s.departed t w).rqu.stagedTicket.isSome)
  exact State.stageTest_stagedAlready hy

/-- A departure with room takes the ticket's number out and no other, number, stamp and drained slot taken. -/
theorem State.depart_takes {s : State} {t : Ticket} {w : Bool} (room : s.rqu.queue.length < 32) :
    ((s.depart t w).rqu.queue.map Ticket.number).Perm
        ((s.rqu.queue.map Ticket.number).filter (fun m => m != t.number)) ∧
      (s.depart t w).rqu.lastNumber = s.rqu.lastNumber ∧ (s.depart t w).rqu.arrival = s.rqu.arrival ∧
      (s.depart t w).rqu.lastDrained = s.rqu.lastDrained := by
  obtain ⟨number, arrival⟩ := (s.departed t w).stageTest_last
  have drained := (State.stageTest_keeps (s.departed t w)).lastDrained
  rw [State.depart_room room]
  refine ⟨(State.stageTest_numbers _).trans (State.departed_numbers t w s), number.trans ?_, arrival.trans ?_,
    drained.trans ?_⟩ <;> rw [State.departed_rqu]

/-- What a reply to a source leaves of the queue, the stamps and the rest of the room. -/
theorem State.replyToSource_leaves (src : Source) (b : ReplyBody) (s : State) :
    (s.replyToSource src b).rqu.queue = s.rqu.queue ∧ (s.replyToSource src b).rqu.lastNumber = s.rqu.lastNumber ∧
      (s.replyToSource src b).rqu.arrival = s.rqu.arrival ∧
      (s.replyToSource src b).rqu.lastDrained = s.rqu.lastDrained := by
  obtain ⟨keeps, queue⟩ := State.replyToSource_keeps src b s
  exact ⟨queue, keeps.lastNumber, congrArg Lineup.arrival (State.replyToSource_lineup src b s), keeps.lastDrained⟩

/-- A departure beside another STAGED ticket leaves the reply before it the handset's last. -/
theorem State.depart_beside_lastReply {s : State} {t : Ticket} {h : Fin 16} {b : ReplyBody}
    (room : s.rqu.queue.length < 32) (other : ∃ x ∈ s.rqu.queue, x.cls = .staged ∧ x.number ≠ t.number) :
    (((s.issueReply h b false).depart t true).rqu.handsets.get h).lastReply =
      some ⟨h, (s.rqu.handsets.get h).lastSeq.getD Config.unheardSequence, b⟩ := by
  have queue := (State.replyToSource_keeps (.handset h) b s).2
  rw [State.depart_beside (by rw [← queue] at room; exact room) (by rw [← queue] at other; exact other),
    State.departed_rqu]
  exact State.issueReply_lastReply h b s

theorem State.takeRemove_queued {n : Nat} {t : Ticket} {s : State} (found : s.rqu.ticket n = some t) :
    s.takeRemove n = ⟨(s.replyToSource t.source (.cancelled n)).depart t true, .ok, []⟩ := by
  rw [State.takeRemove, found]

/-- A number no queued ticket holds is the current ticket's, which is STATE, or nobody's. -/
theorem State.takeRemove_unqueued {n : Nat} {s : State} (none : s.rqu.ticket n = none) : s.takeRemove n =
    if s.scu.current.map Ticket.number = some n then ⟨s, .state, []⟩ else ⟨s, .badArg, []⟩ := by
  rw [State.takeRemove, none]

/-- Settles O17. -/
theorem removeTakesATicketAway : Obligations.RemoveTakesATicketAway := by
  intro tag n s hs
  have decided : exec (.remove tag n) s = _ :=
    exec_answered (f := fun s => .answered (s.takeRemove n.toNat)) hs rfl rfl rfl
  refine ⟨fun none current => ?_, fun none other => ?_, fun t found => ?_⟩
  · rw [State.takeRemove_unqueued none, if_pos current] at decided
    exact decided
  · rw [State.takeRemove_unqueued none, if_neg other] at decided
    exact decided
  · have frame := State.takeRemove_frame n.toNat s
    rw [State.takeRemove_queued found] at decided frame
    obtain ⟨-, number⟩ := Rqu.ticket_mem found
    obtain ⟨queue, last, arrival, drained⟩ := State.replyToSource_leaves t.source (.cancelled n.toNat) s
    have told := State.replyToSource_keepsRoom t.source (.cancelled n.toNat) s
    have left := State.departed_keepsRoom t true (s.replyToSource t.source (.cancelled n.toNat))
    have gone := State.depart_keepsRoom t true (s.replyToSource t.source (.cancelled n.toNat))
    have keeps := told.trans (left.trans gone)
    obtain ⟨pending, scu, lsq, ovc, gxt, vin, pje, scr, links⟩ := frame
    refine ⟨_, decided, fun staff => by rw [staff]; rfl, fun h own => by rw [own]; rfl, fun room => ?_,
      fun staged enabled => State.depart_withdrawn staged (told.enables ▸ enabled), fun room other h own => ?_,
      gone.imageOwed (by rw [State.departed_rqu]), keeps.history, keeps.closed, scu, lsq, ovc, gxt, vin, pje, scr, pending,
      links⟩
    · have takes := State.depart_takes (s := s.replyToSource t.source (.cancelled n.toNat)) (t := t) (w := true)
        (by rw [queue]; exact room)
      rw [queue, last, arrival, drained, number] at takes
      exact takes
    · rw [own]
      exact ⟨_, State.depart_beside_lastReply room (number ▸ other), rfl, rfl⟩

end Sys2Proof.Machine
end

