-- ==== Sys2Proof/Proofs/Promotions.lean ====
section
/-! PROMOTE (R132, R133, R143): a NORMAL ticket moved to the end of the PRIORITY group. -/

namespace Sys2Proof.Machine

/-! ## The promoted ticket's place -/

/-- A NORMAL ticket as PROMOTE leaves it. -/
def Ticket.promoted (stamp : Word) (t : Ticket) : Ticket := { t with cls := .priority, round := 0, arrival := stamp }

/-- A ticket stands before another by class, or within a class by round and stamp (R132). -/
theorem Ticket.before_eq_true {a b : Ticket} : a.before b = true ↔ a.cls.rank < b.cls.rank ∨
    a.cls.rank = b.cls.rank ∧ (a.round < b.round ∨ a.round = b.round ∧ (a.arrival - b.arrival).msb = true) := by
  unfold Ticket.before
  split
  · next hc => simp [hc]
  · next hc =>
    have hc : a.cls.rank = b.cls.rank := by simpa using hc
    split
    · next hr => simp [hc, hr]
    · next hr => simp [hc, not_not.mp hr]

/-- A ticket from the first that fails a test onwards follows that one in the list's order. -/
theorem mem_dropWhile_follows {R : Ticket → Ticket → Prop} {p : Ticket → Bool} {q : List Ticket}
    (ordered : q.Pairwise R) {x : Ticket} (hx : x ∈ q.dropWhile p) : ∃ y ∈ q, p y = false ∧ (x = y ∨ R y x) := by
  induction q with
  | nil => simp at hx
  | cons u rest ih =>
    obtain ⟨first, others⟩ := List.pairwise_cons.mp ordered
    by_cases hp : p u = true
    · rw [List.dropWhile_cons_of_pos hp] at hx
      obtain ⟨y, hy, place⟩ := ih others hx
      exact ⟨y, List.mem_cons_of_mem u hy, place⟩
    · rw [List.dropWhile_cons_of_neg hp] at hx
      exact ⟨u, List.mem_cons_self, by simpa using hp, (List.mem_cons.mp hx).imp_right (first x)⟩

/-- No NORMAL ticket stands before a promoted one. -/
theorem before_promoted {t x : Ticket} {stamp : Word} {q : List Ticket}
    (hx : x ∈ q.takeWhile (fun y => !(t.promoted stamp).before y)) : x.cls = .staged ∨ x.cls = .priority := by
  have stays : (t.promoted stamp).before x = false := by simpa using List.mem_takeWhile_imp hx
  cases hc : x.cls with
  | staged => exact .inl rfl
  | priority => exact .inr rfl
  | normal =>
    have after : (t.promoted stamp).before x = true := Ticket.before_eq_true.mpr 
      (.inl (by simp [hc, Ticket.promoted, TicketClass.rank]))
    exact absurd after (by simp [stays])

/-- Behind a promoted ticket every ticket is NORMAL, where the PRIORITY tickets stand at round 0 with older stamps. -/
theorem behind_promoted {t x : Ticket} {stamp : Word} {q : List Ticket} (ordered : q.Pairwise Ticket.noLater)
    (older : ∀ y ∈ q, y.cls = .priority → y.round = 0 ∧ (stamp - y.arrival).msb = false)
    (hx : x ∈ q.dropWhile (fun y => !(t.promoted stamp).before y)) : x.cls = .normal := by
  obtain ⟨y, hy, stops, follows⟩ := mem_dropWhile_follows ordered hx
  have before : (t.promoted stamp).before y = true := by simpa using stops
  have normal : y.cls = .normal := by
    cases hc : y.cls with
    | staged => simp [Ticket.before_eq_true, Ticket.promoted, TicketClass.rank, hc] at before
    | priority =>
      obtain ⟨round, old⟩ := older y hy hc
      simp [Ticket.before_eq_true, Ticket.promoted, TicketClass.rank, hc, round, old] at before
    | normal => rfl
  rcases follows with same | ⟨rank, -⟩
  · rw [same, normal]
  · rw [normal] at rank
    cases hc : x.cls <;> simp [hc, TicketClass.rank] at rank ⊢

/-! ## The tickets a departure leaves -/

theorem mem_queueLeft {t x : Ticket} {q : List Ticket} :
    x ∈ queueLeft t q ↔ ∃ y ∈ q, y.number ≠ t.number ∧ t.lowered y = x := by
  rw [(queueLeft_perm t q).mem_iff, lowerRounds_eq, List.mem_map]
  simp only [withoutTicket, List.mem_filter, bne_iff_ne, and_assoc]

theorem queueLeft_unnumbered {t x : Ticket} {q : List Ticket} (hx : x ∈ queueLeft t q) : x.number ≠ t.number := by
  obtain ⟨y, -, other, rfl⟩ := mem_queueLeft.mp hx
  simpa using other

/-- The order by class and round is that of the queue left, a NORMAL ticket's departure setting it anew. -/
theorem queueLeft_ordered {t : Ticket} (normal : t.cls = .normal) (q : List Ticket) :
    (queueLeft t q).Pairwise Ticket.noLater := by
  rw [queueLeft, if_pos normal]
  exact reorder_noLater _

/-- A ticket of the queue left that is not NORMAL was in the queue as it is. -/
theorem queueLeft_unlowered {t x : Ticket} {q : List Ticket} (hx : x ∈ queueLeft t q) (hc : x.cls ≠ .normal) :
    x ∈ q := by
  obtain ⟨y, hy, -, rfl⟩ := mem_queueLeft.mp hx
  rwa [Ticket.lowered_other (by simpa using hc)]

/-! ## PROMOTE (R143) -/

/-- A NORMAL ticket promoted, before the staging test. -/
def State.promotes (t : Ticket) (s : State) : State :=
  let q := placeTicket (t.promoted (s.rqu.arrival + 1)) (queueLeft t s.rqu.queue)
  State.queueChanged q.length { s with rqu := { s.rqu with queue := q, arrival := s.rqu.arrival + 1 } }

theorem State.promotes_eq (t : Ticket) (s : State) : s.promotes t = { s with
    rqu := { s.rqu with
      queue := placeTicket (t.promoted (s.rqu.arrival + 1)) (queueLeft t s.rqu.queue)
      arrival := s.rqu.arrival + 1, imageOwed := true }
    ctl := (s.promotes t).ctl } := by
  unfold State.promotes
  dsimp only
  rw [State.queueChanged_eq]

theorem State.promotes_quiet (t : Ticket) (s : State) : (s.promotes t).ctl.quiet = s.ctl.quiet := by
  unfold State.promotes
  dsimp only
  rw [State.queueChanged_quiet]

/-- The count does not change: QUEUE_CHANGED alone is raised (R146). -/
theorem State.promotes_flags (t : Ticket) (s : State) {i : Nat} (hi : i < 14) :
    (s.promotes t).ctl.flags.getLsbD i = (s.ctl.flags.getLsbD i || (s.ctl.enables.getLsbD i && i == 5)) := by
  have level (n : Nat) : decide (n ≤ 27 ∧ 28 ≤ n) = false := decide_eq_false (by omega)
  refine (State.queueChanged_flags _ _ hi).trans ?_
  simp only [level, Bool.and_false, Bool.or_false]

/-- No staging is due after a promotion beside another STAGED ticket, or before the staging lead of a song. -/
theorem State.promotes_unstaged {s : State} {t : Ticket}
    (undue : (∃ x ∈ s.rqu.queue, x.cls = .staged ∧ x.number ≠ t.number) ∨
      (s.scu.state = .playing ∧ s.songMs + s.prm.stageLeadMs < s.scu.length)) :
    (s.promotes t).stageTest = s.promotes t := by
  have queue : (s.promotes t).rqu.queue =
      placeTicket (t.promoted (s.rqu.arrival + 1)) (queueLeft t s.rqu.queue) := by rw [State.promotes_eq]
  refine State.stageTest_unstaged (Bool.eq_false_iff.mpr fun due => ?_)
  obtain ⟨head, rest, some_⟩ := State.stagingHolds_head due
  obtain ⟨unstaged, states⟩ := (State.stagingHolds_iff (by simp [some_])).mp due
  rcases undue with ⟨x, hx, staged, other⟩ | ⟨playing, early⟩
  · have stays : x ∈ queueLeft t s.rqu.queue :=
      mem_queueLeft.mpr ⟨x, hx, other, Ticket.lowered_other (by simp [staged])⟩
    exact unstaged x (queue ▸ (placeTicket_perm _ _).mem_iff.mpr (List.mem_cons_of_mem _ stays)) staged
  · have scu : (s.promotes t).scu = s.scu := by rw [State.promotes_eq]
    have prm : (s.promotes t).prm = s.prm := by
      have setup := congrArg Ctl.setup (State.promotes_quiet t s)
      exact congrArg (Option.getD · {}) setup
    rw [State.songMs, scu, prm, playing] at states
    have := early
    rw [State.songMs] at this
    simp only [reduceCtorEq, or_false, false_or, true_and] at states
    omega

theorem State.takePromote_queued {n : Nat} {t : Ticket} {s : State} (found : s.rqu.ticket n = some t)
    (normal : t.cls = .normal) : s.takePromote n = ⟨(s.promotes t).stageTest, .ok,
      [BitVec.ofNat 32 (((queueLeft t s.rqu.queue).takeWhile
        (fun x => !(t.promoted (s.rqu.arrival + 1)).before x)).length + 1)]⟩ := by
  obtain ⟨-, rfl⟩ := Rqu.ticket_mem found
  have place : positionOf t.number (placeTicket (t.promoted (s.rqu.arrival + 1)) (queueLeft t s.rqu.queue)) = _ :=
    positionOf_placeTicket (t := t.promoted (s.rqu.arrival + 1)) fun x hx => queueLeft_unnumbered (t := t) hx
  have left : queueLeft t s.rqu.queue = reorder (lowerRounds t (s.rqu.queue.filter (fun u => u.number != t.number))) :=
    if_pos normal
  rw [← place, State.takePromote, found]
  dsimp only
  rw [if_pos normal, ← left]
  rfl

/-- A number no queued ticket holds is the current ticket's, which is STATE, or nobody's. -/
theorem State.takePromote_unqueued {n : Nat} {s : State} (none : s.rqu.ticket n = none) : s.takePromote n =
    if s.scu.current.map Ticket.number = some n then ⟨s, .state, []⟩ else ⟨s, .badArg, []⟩ := by
  rw [State.takePromote, none]

theorem State.takePromote_other {n : Nat} {t : Ticket} {s : State} (found : s.rqu.ticket n = some t)
    (other : t.cls ≠ .normal) : s.takePromote n = ⟨s, .state, []⟩ := by
  rw [State.takePromote, found]
  exact if_neg other

/-- A NORMAL ticket's departure lowers the later rounds of its source (R133). -/
theorem Ticket.lowered_eq {t : Ticket} (normal : t.cls = .normal) (u : Ticket) : t.lowered u = { u with
    round := if u.cls = .normal ∧ u.source = t.source ∧ t.round < u.round then u.round - 1 else u.round } := by
  simp only [Ticket.lowered, normal, true_and]
  split <;> rfl

/-- Settles O18. -/
theorem promoteMovesANormalTicket : Obligations.PromoteMovesANormalTicket := by
  intro tag n s hs
  have decided : exec (.promote tag n) s = _ :=
    exec_answered (f := fun s => .answered (s.takePromote n.toNat)) hs rfl rfl rfl
  refine ⟨fun none current => ?_, fun none other => ?_, fun t found other => ?_, fun t found normal undue => ?_⟩
  · rw [State.takePromote_unqueued none, if_pos current] at decided
    exact decided
  · rw [State.takePromote_unqueued none, if_neg other] at decided
    exact decided
  · rw [State.takePromote_other found other] at decided
    exact decided
  · obtain ⟨queued, number⟩ := Rqu.ticket_mem found
    rw [State.takePromote_queued found normal, State.promotes_unstaged (number ▸ undue)] at decided
    have promotes := State.promotes_eq t s
    have placed : (s.promotes t).rqu.queue =
        placeTicket (t.promoted (s.rqu.arrival + 1)) (queueLeft t s.rqu.queue) := by rw [promotes]
    refine ⟨s.promotes t, _, _, decided, placed.trans (placeTicket_eq _ _), fun older => ⟨fun x => before_promoted, ?_⟩,
      fun distinct => ?_, fun x hx other => ?_, ?_⟩
    · exact fun x => behind_promoted (queueLeft_ordered normal _) fun y hy priority =>
        older y (queueLeft_unlowered hy (by simp [priority])) priority
    · have left := ((queueLeft_perm t s.rqu.queue).map Ticket.number).trans (.of_eq (lowerRounds_numbers t _))
      calc (s.promotes t).rqu.queue.map Ticket.number
        _ = (placeTicket (t.promoted (s.rqu.arrival + 1)) (queueLeft t s.rqu.queue)).map Ticket.number := by rw [placed]
        List.Perm _ (t.number :: (queueLeft t s.rqu.queue).map Ticket.number) := (placeTicket_perm _ _).map Ticket.number
        List.Perm _ (t.number :: (withoutTicket t s.rqu.queue).map Ticket.number) := left.cons _
        List.Perm _ (s.rqu.queue.map Ticket.number) := ((perm_withoutTicket distinct queued).map Ticket.number).symm
    · rw [placed] at hx
      have stays := (List.mem_cons.mp ((placeTicket_perm _ _).mem_iff.mp hx)).resolve_left
        fun same => other (by rw [same]; exact number)
      obtain ⟨y, hy, -, rfl⟩ := mem_queueLeft.mp stays
      exact ⟨y, hy, Ticket.lowered_eq normal y⟩
    · rw [promotes]
      exact ⟨rfl, rfl, rfl, rfl, rfl, rfl, rfl, rfl, rfl, rfl, rfl, rfl, rfl, rfl, rfl, s.promotes_quiet t,
        fun i hi => State.promotes_flags t s hi⟩

end Sys2Proof.Machine
end

