-- ==== Sys2Proof/Proofs/Packets.lean ====
section
/-! Handset packets (R128 to R130, R134 to R136, R139, R140): a beat taken from the lane, its kind, and the answer to each
action. -/

namespace Sys2Proof.Machine

/-! ## The lane (R128) -/

theorem State.nextBeat_taps {s t : State} {b : WriteBeat} (next : s.nextBeat = some (b, t)) :
    t = { s with ptu := { s.ptu with taps := t.ptu.taps } } := by
  unfold State.nextBeat at next
  repeat' split at next
  all_goals cases next
  all_goals rfl

/-- A beat of a handset tap at the head of the lane is taken, the tap with its last beat. -/
theorem State.nextBeat_head {s : State} {t : Tap} {rest : List Tap} {b : WriteBeat} {bs : List WriteBeat}
    (lane : s.ptu.taps = t :: rest) (handset : t.cls = .handset) (body : t.req.body = .write (b :: bs)) :
    s.nextBeat = some (b, { s with ptu := { s.ptu with
      taps := if bs = [] then rest else { t with req := { t.req with body := .write bs } } :: rest } }) := by
  unfold State.nextBeat
  rw [lane]
  dsimp only
  rw [if_pos handset, body]
  cases bs with
  | nil => simp [bodyBeats, State.dropTap, lane]
  | cons c cs => rfl

/-! ## The kind of a beat (R128 to R130) -/

theorem State.packetKind_bad {s : State} {b : WriteBeat} (bad : b.en ≠ BitVec.allOnes 16 ∨ 15 < byteAt [b.data] 0) :
    s.packetKind b = .bad := by
  unfold State.packetKind
  split
  · rfl
  · next whole => exact if_pos (bad.resolve_left whole)

theorem readPacket_from {b : Beat} {h : Fin 16} (named : byteAt [b] 0 = h.val) : (readPacket b).from = h := by
  have read : (readPacket b).handset = h.val := named
  rw [Packet.from, read]
  exact Fin.ext (Nat.mod_eq_of_lt h.isLt)

theorem State.packetKind_named {s : State} {b : WriteBeat} {h : Fin 16} (whole : b.en = BitVec.allOnes 16)
    (named : byteAt [b.data] 0 = h.val) : s.packetKind b =
      if (s.rqu.handsets.get h).lastSeq = some (BitVec.ofNat 8 (byteAt [b.data] 1)) then .resend
      else .fresh (readPacket b.data).action := by
  have inRange : ¬ 15 < (readPacket b.data).handset := by
    show ¬ 15 < byteAt [b.data] 0
    omega
  rw [State.packetKind, if_neg (not_not.mpr whole)]
  dsimp only
  rw [if_neg inRange, readPacket_from named]
  rfl

/-! ## A packet taken and noted (R130) -/

theorem State.withPacket_taken {s t : State} {b : WriteBeat} {k : PacketKind} (next : s.nextBeat = some (b, t))
    (kind : s.packetKind b = k) (f : Packet → State → State) : s.withPacket k f = f (readPacket b.data) t := by
  rw [State.withPacket, next]
  exact if_pos kind

/-- What a packet noted reads as: the state before it, the last sequence of its handset apart. -/
structure State.Noted (s : State) (h : Fin 16) (q : Byte) (t : State) : Prop where
  scu : t.scu = s.scu
  lsq : t.lsq = s.lsq
  ovc : t.ovc = s.ovc
  gxt : t.gxt = s.gxt
  vin : t.vin = s.vin
  pje : t.pje = s.pje
  scr : t.scr = s.scr
  pending : t.pending = s.pending
  ctl : t.ctl = s.ctl
  rqu : t.rqu = { s.rqu with handsets := vset s.rqu.handsets h { s.rqu.handsets.get h with lastSeq := some q } }

theorem State.nextBeat_noted {s t : State} {b : WriteBeat} (next : s.nextBeat = some (b, t)) (h : Fin 16) (q : Byte) :
    s.Noted h q (t.noteSequence h q) := by
  rw [State.nextBeat_taps next]
  exact ⟨rfl, rfl, rfl, rfl, rfl, rfl, rfl, rfl, rfl, rfl⟩

section
variable {s t : State} {h : Fin 16} {q : Byte}

theorem State.Noted.queue (n : s.Noted h q t) : t.rqu.queue = s.rqu.queue := by rw [n.rqu]

theorem State.Noted.slot (n : s.Noted h q t) : (t.rqu.handsets.get h).slot = (s.rqu.handsets.get h).slot := by
  simp [n.rqu]

theorem State.Noted.lastSeq (n : s.Noted h q t) : (t.rqu.handsets.get h).lastSeq = some q := by simp [n.rqu]

theorem State.Noted.checkRequest (n : s.Noted h q t) (k : Fin 16) (song : Nat) :
    t.checkRequest k song = s.checkRequest k song :=
  State.checkRequest_congr (by rw [n.rqu]) (by rw [n.rqu]) n.queue n.ctl k song

/-- A search for a free number reads the numbers held. -/
theorem State.searchNumber_congr (held : ∀ m, t.numberHeld m = s.numberHeld m) (fuel m : Nat) :
    t.searchNumber fuel m = s.searchNumber fuel m := by
  induction fuel generalizing m with
  | zero => rfl
  | succ fuel ih => simp only [State.searchNumber, held, ih]

theorem State.Noted.newNumber (n : s.Noted h q t) : t.newNumber = s.newNumber := by
  have held (m : Nat) : t.numberHeld m = s.numberHeld m := by
    rw [State.numberHeld, State.numberHeld, n.queue, n.scu]
  rw [State.newNumber, State.newNumber, State.searchNumber_congr held, n.rqu]

theorem State.Noted.positionsOf (n : s.Noted h q t) : t.positionsOf h = s.positionsOf h := by
  rw [State.positionsOf, State.positionsOf, n.queue, n.slot, n.scu]

end

/-! ## REQUEST (R134 to R136) -/

/-- A REQUEST taken while the line has room is checked and answered. -/
theorem exec_request {s t : State} {b : WriteBeat} (next : s.nextBeat = some (b, t))
    (kind : s.packetKind b = .fresh .request) (room : s.ptu.lineFull = false) :
    let p := readPacket b.data
    exec .handsetRequest s = .next
      ((t.noteSequence p.from p.seq).handleRequest p.from ⟨p.seq, p.song, p.key, p.singers⟩).flush.playTaps := by
  show Host.Outcome.next (s.whenRoom State.handsetRequest).flush.playTaps = _
  rw [State.whenRoom_room _ room, State.handsetRequest, State.withPacket_taken next kind]

theorem State.handleRequest_refused {s : State} {h : Fin 16} {req : HeldRequest} {why : RefuseReason}
    (verdict : s.checkRequest h req.song = .refuse why) :
    s.handleRequest h req = s.issueReply h (.refused why) false := by
  rw [State.handleRequest, verdict]

theorem State.handleRequest_accepted {s : State} {h : Fin 16} {req : HeldRequest}
    (verdict : s.checkRequest h req.song = .accept) :
    s.handleRequest h req = s.acceptRequest h req.song req.key req.singers := by
  rw [State.handleRequest, verdict]

theorem State.handleRequest_full {s : State} {h : Fin 16} {req : HeldRequest}
    (verdict : s.checkRequest h req.song = .full) : s.handleRequest h req =
      if (s.rqu.handsets.get h).slot = none then (s.setSlot h (some req)).issueReply h .held false
      else s.issueReply h (.refused .queueFull) false := by
  rw [State.handleRequest, verdict]

/-- The ticket an admitted REQUEST brings (R135). -/
theorem State.newTicket_normal (src : Source) (song : Nat) (key : Int) (singers : Nat) (s : State) :
    s.newTicket src song key singers .normal =
      { number := s.newNumber, source := src, song := song, key := key, singers := singers, cls := .normal
        round := 1 + s.rqu.queue.countP (fun u => decide (u.source = src ∧ u.cls = .normal))
        arrival := s.rqu.arrival + 1 } := by
  rw [State.newTicket_eq, if_pos rfl]

theorem State.answered_queue (h : Fin 16) (t : Ticket) (s : State) :
    (s.answered h t).rqu.queue = placeTicket t s.rqu.queue := by
  simp [State.answered, State.joinQueue]

/-- What an admitted REQUEST leaves: its ticket queued under the next free number and a new stamp, QUEUE_CHANGED raised and
an image owed. -/
theorem State.acceptRequest_joins (h : Fin 16) (song : Nat) (key : Int) (singers : Nat) (s : State) :
    let u := s.acceptRequest h song key singers
    (u.rqu.queue.map Ticket.number).Perm (s.newNumber :: s.rqu.queue.map Ticket.number) ∧
      (∃ x ∈ u.rqu.queue, x.number = s.newNumber ∧ x.source = .handset h ∧ x.song = song ∧ x.key = key ∧
        x.singers = singers ∧ x.arrival = s.rqu.arrival + 1) ∧
      u.rqu.lastNumber = s.newNumber ∧ u.rqu.arrival = s.rqu.arrival + 1 ∧ u.rqu.imageOwed = true ∧
      (s.ctl.enables.getLsbD 5 = true → u.ctl.flags.getLsbD 5 = true) := by
  intro u
  generalize ht : s.newTicket (.handset h) song key singers .normal = t
  have accepted : u = ((s.answered h t).queueChanged s.rqu.queue.length).stageTest := State.acceptRequest_eq ht
  have named : t.number = s.newNumber := ht ▸ rfl
  have stamped : t.arrival = s.rqu.arrival + 1 := ht ▸ rfl
  have placed := State.answered_queue h t s
  have length : (s.answered h t).rqu.queue.length = s.rqu.queue.length + 1 := by rw [placed, placeTicket_length]
  generalize hv : (s.answered h t).queueChanged s.rqu.queue.length = v at accepted
  have rqu : v.rqu = { (s.answered h t).rqu with imageOwed := true } := by rw [← hv, State.queueChanged_rqu]
  have queue : v.rqu.queue = placeTicket t s.rqu.queue := by rw [rqu, ← placed]
  have queued : t ∈ v.rqu.queue := queue ▸ (placeTicket_perm t _).mem_iff.mpr List.mem_cons_self
  have keeps := State.stageTest_keepsRoom v
  obtain ⟨number, arrival⟩ := v.stageTest_last
  obtain ⟨-, last, stamp, -⟩ := State.replyToSource_leaves (.handset h)
    (.accepted t.number (positionOf t.number (placeTicket t s.rqu.queue))) (s.joinQueue t)
  rw [accepted]
  refine ⟨(State.stageTest_numbers v).trans ?_, ?_, number.trans ?_, arrival.trans ?_, keeps.imageOwed (by rw [rqu]),
    fun enabled => keeps.flags 5 (by omega) ?_⟩
  · rw [queue, ← named]
    exact (placeTicket_perm t _).map Ticket.number
  · obtain ⟨x, hx, same⟩ := State.stageTest_mem queued
    rw [← ht] at same
    exact ⟨x, hx, same⟩
  · rw [rqu]
    exact last.trans named
  · rw [rqu]
    exact stamp.trans stamped
  · have enables := (State.answered_keepsRoom h t s).enables
    rw [← hv, State.queueChanged_joined_flags length (by omega), enables, enabled]
    simp

/-- Settles O22. -/
theorem requestPacketsAreChecked : Obligations.RequestPacketsAreChecked := by
  refine ⟨fun s s' b next kind room => ?_, fun s h song key singers space _ => ?_,
    fun s s' b next kind verdict _ room => ?_⟩
  · intro p h s1 refused waiting open1 open2 open3 open4 open5
    have noted : s.Noted h p.seq s1 := State.nextBeat_noted next h p.seq
    have taken := exec_request next kind room
    have table : s1.checkRequest h p.song = _ := (noted.checkRequest h p.song).trans (State.checkRequest_eq h p.song s)
    have refuses : ∀ {why}, s1.checkRequest h p.song = .refuse why → refused why := fun verdict =>
      taken.trans (by rw [State.handleRequest_refused verdict])
    have full : open5 → 32 ≤ s.rqu.queue.length → s1.checkRequest h p.song = .full := by
      rintro ⟨⟨⟨⟨opened, nonzero, known⟩, fresh⟩, single⟩, below⟩ held
      rw [table, if_neg (Bool.eq_false_iff.mp opened), if_neg (by omega), if_neg (by simpa [imp_iff_not_or] using fresh),
        if_neg (by simpa [imp_iff_not_or] using single), if_neg (by omega), if_pos held]
    refine ⟨fun closed => refuses ?_, fun opened unknown => refuses ?_, ?_, ?_, ?_, ?_, ?_⟩
    · rw [table, if_pos closed]
    · rw [table, if_neg (Bool.eq_false_iff.mp opened), if_pos unknown]
    · rintro ⟨opened, nonzero, known⟩ block recent
      exact refuses (by rw [table, if_neg (Bool.eq_false_iff.mp opened), if_neg (by omega), if_pos ⟨block, recent⟩])
    · rintro ⟨⟨opened, nonzero, known⟩, fresh⟩ block duplicate
      exact refuses (by rw [table, if_neg (Bool.eq_false_iff.mp opened), if_neg (by omega),
        if_neg (by simpa [imp_iff_not_or] using fresh), if_pos ⟨block, duplicate⟩])
    · rintro ⟨⟨⟨opened, nonzero, known⟩, fresh⟩, single⟩ limit
      exact refuses (by rw [table, if_neg (Bool.eq_false_iff.mp opened), if_neg (by omega),
        if_neg (by simpa [imp_iff_not_or] using fresh), if_neg (by simpa [imp_iff_not_or] using single), if_pos limit])
    · intro checked held occupied
      have slot : (s1.rqu.handsets.get h).slot ≠ none := by
        rw [noted.slot]
        exact Option.isSome_iff_ne_none.mp occupied
      exact taken.trans (by rw [State.handleRequest_full (full checked held), if_neg slot])
    · intro checked held empty
      exact taken.trans (by rw [State.handleRequest_full (full checked held), if_pos (noted.slot.trans empty)]; rfl)
  · intro t joined answered
    have new : s.newTicket (.handset h) song key singers .normal = t := State.newTicket_normal ..
    have place : positionOf t.number (placeTicket t s.rqu.queue) = _ :=
      positionOf_placeTicket (State.newNumber_unqueued (by omega))
    have same : s.answered h t = answered := by rw [State.answered, place]; rfl
    have ctl : answered.ctl = s.ctl := by simp [answered, joined]
    have length : answered.rqu.queue.length = s.rqu.queue.length + 1 := by
      rw [← same, State.answered_queue, placeTicket_length]
    refine ⟨answered.queueChanged s.rqu.queue.length, same ▸ State.acceptRequest_eq new, State.stageTest_unstaged,
      State.queueChanged_eq _ _, ?_, fun i hi => ?_⟩
    · rw [← ctl]
      exact State.queueChanged_quiet _ _
    · rw [State.queueChanged_joined_flags length hi, ctl]
  · intro p h u
    have noted : s.Noted h p.seq (s'.noteSequence h p.seq) := State.nextBeat_noted next h p.seq
    have taken := exec_request next kind room
    have accepted := State.handleRequest_accepted (req := ⟨p.seq, p.song, p.key, p.singers⟩)
      ((noted.checkRequest h p.song).trans verdict)
    obtain ⟨numbers, ticket, last, arrival, owed, raised⟩ :=
      State.acceptRequest_joins h p.song p.key p.singers (s'.noteSequence h p.seq)
    have keeps := State.acceptRequest_keepsRoom h p.song p.key p.singers (s'.noteSequence h p.seq)
    obtain ⟨pending, scu, lsq, ovc, gxt, vin, pje, scr, links⟩ :=
      State.acceptRequest_frame h p.song p.key p.singers (s'.noteSequence h p.seq)
    have stamp : (s'.noteSequence h p.seq).rqu.arrival = s.rqu.arrival := by rw [noted.rqu]
    rw [noted.newNumber, noted.queue] at numbers
    rw [noted.newNumber, stamp] at ticket
    rw [noted.newNumber] at last
    rw [stamp] at arrival
    rw [noted.ctl] at raised
    exact ⟨taken.trans (by rw [accepted]), numbers, ticket, last, arrival, (keeps.lastSeq h).trans noted.lastSeq, owed, raised,
      keeps.history.trans (by rw [noted.rqu]), keeps.closed.trans (by rw [noted.rqu]), scu.trans noted.scu,
      lsq.trans noted.lsq, ovc.trans noted.ovc, gxt.trans noted.gxt, vin.trans noted.vin, pje.trans noted.pje,
      scr.trans noted.scr, pending.trans noted.pending, links⟩

end Sys2Proof.Machine
end

