-- ==== Sys2Proof/Proofs/PacketAnswers.lean ====
section
/-! CANCEL (R139), and the answers to STATUS, to an unknown ACTION, to a bad packet and to a resend (R130, R140). -/

namespace Sys2Proof.Machine

/-! ## CANCEL (R139) -/

/-- A CANCEL taken while the line has room is answered. -/
theorem exec_cancel {s t : State} {b : WriteBeat} (next : s.nextBeat = some (b, t))
    (kind : s.packetKind b = .fresh .cancel) (room : s.ptu.lineFull = false) :
    let p := readPacket b.data
    exec .handsetCancel s =
      .next ((t.noteSequence p.from p.seq).handleCancel p.from p.ticket).flush.playTaps := by
  show Host.Outcome.next (s.whenRoom State.handsetCancel).flush.playTaps = _
  rw [State.whenRoom_room _ room, State.handsetCancel, State.withPacket_taken next kind]

section
variable {s : State} {h : Fin 16} {n : Nat}

/-- A CANCEL of ticket 0 is of the handset's held request. -/
theorem State.handleCancel_held (zero : n = 0) : s.handleCancel h n =
    if (s.rqu.handsets.get h).slot = none then s.issueReply h (.refused .unknownTicket) false
    else (s.setSlot h none).issueReply h (.cancelled 0) false := by
  rw [State.handleCancel, if_pos zero]

theorem State.handleCancel_queued {t : Ticket} (named : n ≠ 0) (found : s.rqu.ticket n = some t) :
    s.handleCancel h n =
      if t.source = .handset h then (s.issueReply h (.cancelled n) false).depart t true
      else s.issueReply h (.refused .notYours) false := by
  rw [State.handleCancel, if_neg named, found]

theorem State.handleCancel_current {c : Ticket} (named : n ≠ 0) (none : s.rqu.ticket n = none)
    (current : s.scu.current = some c) (number : c.number = n) : s.handleCancel h n =
      if c.source = .handset h then s.issueReply h (.refused .inUse) false
      else s.issueReply h (.refused .notYours) false := by
  rw [State.handleCancel, if_neg named, none, current]
  exact if_pos number

theorem State.handleCancel_unknown (named : n ≠ 0) (none : s.rqu.ticket n = none)
    (other : s.scu.current.map Ticket.number ≠ some n) :
    s.handleCancel h n = s.issueReply h (.refused .unknownTicket) false := by
  rw [State.handleCancel, if_neg named, none]
  cases hc : s.scu.current with
  | none => rfl
  | some c => exact if_neg fun same => other (by rw [hc, Option.map_some, same])

end

/-- What a cancelled ticket's departure leaves of the other blocks. -/
theorem State.cancelled_frame (h : Fin 16) (b : ReplyBody) (t : Ticket) (s : State) :
    let u := (s.issueReply h b false).depart t true
    u.pending = s.pending ∧ u.scu = s.scu ∧ u.lsq = s.lsq ∧ u.ovc = s.ovc ∧ u.gxt = s.gxt ∧ u.vin = s.vin ∧
      u.pje = s.pje ∧ u.scr = s.scr ∧ u.ptu.links = s.ptu.links := by
  simp

/-- Settles O23. -/
theorem cancelPacketAnswers : Obligations.CancelPacketAnswers := by
  intro s s' b next kind room p h s1 refused
  have noted : s.Noted h p.seq s1 := State.nextBeat_noted next h p.seq
  have taken : exec .handsetCancel s = .next (s1.handleCancel h p.ticket).flush.playTaps := exec_cancel next kind room
  have sameTicket : s1.rqu.ticket p.ticket = s.rqu.ticket p.ticket := by rw [Rqu.ticket, Rqu.ticket, noted.queue]
  refine ⟨fun zero empty => ?_, fun zero occupied => ?_, fun named none => ?_, fun t named found => ⟨fun foreign => ?_,
    fun own => ?_⟩⟩
  · exact taken.trans (by rw [State.handleCancel_held zero, if_pos (noted.slot.trans empty)])
  · have slot : (s1.rqu.handsets.get h).slot ≠ .none := noted.slot ▸ Option.isSome_iff_ne_none.mp occupied
    exact taken.trans (by rw [State.handleCancel_held zero, if_neg slot]; rfl)
  · have none := sameTicket.trans none
    refine ⟨fun other => ?_, fun c current number => ?_⟩
    · exact taken.trans (by rw [State.handleCancel_unknown named none (noted.scu ▸ other)])
    · have answer := State.handleCancel_current (h := h) named none (noted.scu ▸ current) number
      exact ⟨fun own => taken.trans (by rw [answer, if_pos own]),
        fun foreign => taken.trans (by rw [answer, if_neg foreign])⟩
  · exact taken.trans (by rw [State.handleCancel_queued named (sameTicket.trans found), if_neg foreign])
  · obtain ⟨-, number⟩ := Rqu.ticket_mem found
    obtain ⟨pending, scu, lsq, ovc, gxt, vin, pje, scr, links⟩ :=
      State.cancelled_frame h (.cancelled p.ticket) t s1
    obtain ⟨queue, -⟩ := State.replyToSource_leaves (.handset h) (.cancelled p.ticket) s1
    have queue : (s1.issueReply h (.cancelled p.ticket) false).rqu.queue = s.rqu.queue := queue.trans noted.queue
    have enables := (State.issueReply_keepsRoom h (.cancelled p.ticket) s1).enables
    rw [noted.ctl] at enables
    refine ⟨_, taken.trans (by rw [State.handleCancel_queued named (sameTicket.trans found), if_pos own]), rfl,
      fun space => ?_, fun space other => ?_, fun staged enabled => State.depart_withdrawn staged (enables ▸ enabled),
      scu.trans noted.scu, lsq.trans noted.lsq, ovc.trans noted.ovc, gxt.trans noted.gxt, vin.trans noted.vin,
      pje.trans noted.pje, scr.trans noted.scr, pending.trans noted.pending, links⟩
    · have takes := (State.depart_takes (s := s1.issueReply h (.cancelled p.ticket) false) (t := t) (w := true)
        (by rw [queue]; exact space)).1
      rwa [queue, number] at takes
    · refine ⟨_, State.depart_beside_lastReply (noted.queue ▸ space) (noted.queue ▸ number ▸ other), rfl, ?_, rfl⟩
      rw [noted.lastSeq]
      rfl

/-! ## The other answers (R130, R140) -/

/-- The tickets a STATUS lists, the current one apart (R140). -/
theorem State.positionsOf_eq (h : Fin 16) (s : State) : s.positionsOf h = .positions
    (((s.rqu.queue.filter (fun t => decide (t.source = .handset h))).map
      (fun t => ⟨t.number, positionOf t.number s.rqu.queue, t.cls⟩)).take 8)
    (s.rqu.handsets.get h).slot.isSome
    (match s.scu.current with
      | some c => if c.source = .handset h then some c.number else none
      | none => none) := by
  simp only [State.positionsOf, beq_eq_decide]
  cases s.scu.current with
  | none => rfl
  | some c => by_cases own : c.source = .handset h <;> simp [own]

theorem exec_status {s t : State} {b : WriteBeat} (next : s.nextBeat = some (b, t))
    (kind : s.packetKind b = .fresh .status) (room : s.ptu.lineFull = false) :
    let h := (readPacket b.data).from
    let s1 := t.noteSequence h (readPacket b.data).seq
    exec .handsetStatus s = .next (s1.issueReply h (s1.positionsOf h) false).flush.playTaps := by
  show Host.Outcome.next (s.whenRoom State.handsetStatus).flush.playTaps = _
  rw [State.whenRoom_room _ room, State.handsetStatus, State.withPacket_taken next kind]

/-- A bad packet is counted and kept off the line, so it does not wait for room there. -/
theorem exec_badPacket {s t : State} {b : WriteBeat} (next : s.nextBeat = some (b, t)) (kind : s.packetKind b = .bad) :
    exec .badPacket s =
      .next ({ t with rqu := { t.rqu with badPacket := t.rqu.badPacket + 1 } } : State).flush.playTaps := by
  have counted : s.badPacket = { t with rqu := { t.rqu with badPacket := t.rqu.badPacket + 1 } } :=
    State.withPacket_taken next kind _
  have kept : s.badPacket.ptu.kept = s.ptu.kept := by rw [counted, State.nextBeat_taps next]
  show Host.Outcome.next (s.whenRoom State.badPacket).flush.playTaps = _
  rw [State.whenRoom, kept, bne_self_eq_false, Bool.and_false, if_neg Bool.false_ne_true, counted]

/-- Settles O24. -/
theorem packetsAreTakenOneByOne : Obligations.PacketsAreTakenOneByOne := by
  refine ⟨fun s t rest b bs lane handset body => ⟨⟨_, State.nextBeat_head lane handset body, rfl, fun last => if_pos last,
    fun more => if_neg more⟩, State.packetKind_bad, fun whole h named => ?_⟩, fun s s' b next => ?_⟩
  · have kind := State.packetKind_named (s := s) whole named
    refine ⟨fun again => by rw [kind, if_pos again], fun new => ?_⟩
    rw [kind, if_neg new, readPacket_action]
    refine ⟨fun e => by rw [if_pos e], fun e => ?_, fun e => ?_, fun e => ?_⟩
    · rw [if_neg (by omega), if_pos e]
    · rw [if_neg (by omega), if_neg (by omega), if_pos e]
    · rw [if_neg (by omega), if_neg (by omega), if_neg (by omega)]
  · intro p h s1
    have noted : s.Noted h p.seq s1 := State.nextBeat_noted next h p.seq
    refine ⟨fun kind room => ?_, fun kind room => ?_, fun bad => exec_badPacket next (State.packetKind_bad bad),
      fun kind room r last => ⟨?_, ?_⟩⟩
    · have listed := noted.positionsOf.trans (State.positionsOf_eq h s)
      exact (exec_status next kind room).trans
        (congrArg (fun answer => Host.Outcome.next (s1.issueReply h answer false).flush.playTaps) listed)
    · show Host.Outcome.next (s.whenRoom State.badActionPacket).flush.playTaps = _
      rw [State.whenRoom_room _ room, State.badActionPacket, State.withPacket_taken next kind]
    · have last : (s'.rqu.handsets.get h).lastReply = some r := by rwa [State.nextBeat_taps next]
      show Host.Outcome.next (s.whenRoom State.handsetResend).flush.playTaps = _
      rw [State.whenRoom_room _ room, State.handsetResend, State.withPacket_taken next kind, last]
    · rw [State.placeReply_scr, State.nextBeat_taps next]

end Sys2Proof.Machine
end
